-- ==== Sys2Proof/Word.lean ====
section
/-! DEFINITION. The words of the machine: a byte (8-bit data bus), a 16-bit CPU address and a 13-bit memory-map address. -/

namespace Sys2Proof

/-- One byte: the data bus and every general register of the CPU are 8 bits wide (00_scope R7). -/
abbrev Byte := BitVec 8

/-- A 16-bit word: the program counter and every address the CPU forms (10_state R30, R35). -/
abbrev Word := BitVec 16

/-- The 13 address bits the memory map sees (20_memory R71). -/
abbrev Addr13 := BitVec 13

end Sys2Proof
end

