-- ==== Sys2Proof/Config.lean ====
section
/-! DEFINITION. What the spec leaves open: the named open parameters (92_eei_decisions, "Open parameters") as plain data that a
state carries unchanged, with the spec's defaults; and the free values, which have no body, so that no proof can see one. -/

namespace Sys2Proof

/-- The television standard (62_television R612). -/
inductive TvSpec where
  | ntsc
  | pal
deriving DecidableEq, Repr

/-- `spec.lines` (62_television R612). -/
def TvSpec.lines : TvSpec → Nat
  | .ntsc => 262
  | .pal => 312

/-- One colour on the screen. -/
structure Rgb where
  red : Byte
  green : Byte
  blue : Byte
deriving DecidableEq, Repr, Inhabited

/-- The levels the host drives: the pins of RIOT ports A and B, the fire buttons and the paddle inputs
(63_riot_console R658, R663; 61_tia R553, R554). Bits 2, 4 and 5 of port B have no switch and are never read from here. -/
structure Inputs where
  pinsA : Byte
  pinsB : Byte
  fireLeft : Bool
  fireRight : Bool
  paddle0 : Bool
  paddle1 : Bool
  paddle2 : Bool
  paddle3 : Bool
deriving DecidableEq, Repr

/-- What an RSYNC write does (61_tia R506, D51). -/
inductive RsyncModel where
  | restartLine
  | refuse
deriving DecidableEq, Repr

/-- Order of a RIOT timer write and its cycle's tick (63_riot_console R653, D28). -/
inductive RiotWritePhase where
  | decrementFirst
  | fullInterval
deriving DecidableEq, Repr

/-- At which register's write the ball's delayed copy is made: 61_tia R518 and R500 say GRP1, 70_reset_and_hazards R717 says GRP0,
and 90_conflicts has no entry. DESIGN CHOICE (log 37). -/
inductive BallCopy where
  | withGrp1
  | withGrp0
deriving DecidableEq, Repr

/-- The bank selected when the machine is reset: one index for the F-series and 3F, three slices for E0 (20_memory R114). -/
structure InitialBank where
  bank : Nat
  slice0 : Fin 8
  slice1 : Fin 8
  slice2 : Fin 8
deriving DecidableEq, Repr

/-- The open parameters of the step relation (92_eei_decisions, "Open parameters"). They are fixed for a run: no step changes
one. A statement about every state holds for every value of them. DESIGN CHOICE (log 8). `ballCopy` is no row of that table: it
leaves open what two rules say differently (log 37). -/
structure Params where
  hotspotOnWrite : Bool
  delayRes : Nat
  delayHmove : Nat
  delayPf : Nat
  delayGrp : Nat
  delayOther : Nat
  visOffPlayer : Fin 160
  visOffMissile : Fin 160
  visOffBall : Fin 160
  hbPosPlayer : Fin 160
  hbPosMissile : Fin 160
  hbPosBall : Fin 160
  hmoveFullLast : Nat
  hmoveBusy : Nat
  collisionsInVblank : Bool
  scoreWithPfp : Bool
  resmpOffset1 : Fin 160
  resmpOffset2 : Fin 160
  resmpOffset4 : Fin 160
  ballSuppress : Bool
  ballCopy : BallCopy
  audioPhase : Fin 114
  rsyncModel : RsyncModel
  riotWritePhase : RiotWritePhase
  vsyncClocks : Nat
  cburstOnLo : Int
  cburstOnHi : Int
  cburstOffLo : Int
  cburstOffHi : Int
  tvSpec : TvSpec
  initialInputs : Inputs
  initialBank : InitialBank
deriving DecidableEq, Repr

/-- `initial_inputs`' default: nothing pressed, colour, both difficulties B (63_riot_console R658, R663). The paddles' level is
DESIGN CHOICE (log 28). -/
def Inputs.default : Inputs :=
  { pinsA := 0xFF#8, pinsB := 0x0B#8, fireLeft := false, fireRight := false,
    paddle0 := false, paddle1 := false, paddle2 := false, paddle3 := false }

/-- The defaults of 92_eei_decisions' table; `initial_bank` has none there and is 0 here (log 6); `ballCopy`'s is 61_tia R518's GRP1
(log 37). -/
def Params.default : Params :=
  { hotspotOnWrite := true,
    delayRes := 0, delayHmove := 0, delayPf := 0, delayGrp := 0, delayOther := 0,
    visOffPlayer := 5, visOffMissile := 4, visOffBall := 4,
    hbPosPlayer := 3, hbPosMissile := 2, hbPosBall := 2,
    hmoveFullLast := 10, hmoveBusy := 72,
    collisionsInVblank := true, scoreWithPfp := true,
    resmpOffset1 := 3, resmpOffset2 := 6, resmpOffset4 := 10,
    ballSuppress := false, ballCopy := .withGrp1, audioPhase := 0,
    rsyncModel := .restartLine, riotWritePhase := .decrementFirst,
    vsyncClocks := 3,
    cburstOnLo := -36, cburstOnHi := -33, cburstOffLo := -20, cburstOffHi := -17,
    tvSpec := .ntsc, initialInputs := Inputs.default,
    initialBank := { bank := 0, slice0 := 0, slice1 := 0, slice2 := 0 } }

/-- A free byte: the undriven bits of a read and what a read of the superchip's write port leaves (92 D7, D45). Log 7. -/
opaque Config.freeByte : Nat → Byte

/-- A free object position, 0..159: late HMOVE and writes inside `hmove_busy` (92 D18, D53). Log 7. -/
opaque Config.freePos : Nat → Fin 160

/-- A free bit: `hmoveLine` after a late HMOVE (92 D18), and the ties of log 18. Log 7. -/
opaque Config.freeBool : Nat → Bool

/-- A free audio sample; its width is not given (61_tia R529, D40). Log 7. -/
opaque Config.freeSample : Nat → Nat

/-- `palette_ntsc` (62_television R613, D26). Log 9. -/
opaque Config.paletteNtsc : BitVec 7 → Rgb

/-- `palette_pal` (62_television R613, D26). Log 9. -/
opaque Config.palettePal : BitVec 7 → Rgb

/-- The palette's black, which video black is shown as (62_television R610). Log 9. -/
opaque Config.videoBlack : TvSpec → Rgb

end Sys2Proof
end

