-- ==== Sys2Proof/Machine/Bits.lean ====
section
/-! DEFINITION. Byte order, extension and bit helpers (00_scope R8). -/

namespace Sys2Proof.Machine

/-- `v[15:8]`. -/
def hiByte (w : Word) : Byte := w.extractLsb' 8 8

/-- `v[7:0]`. -/
def loByte (w : Word) : Byte := w.extractLsb' 0 8

/-- `hi:lo`, the 16-bit value with the given high and low bytes (00_scope R8, 20_memory R78). -/
def mkWord (hi lo : Byte) : Word := hi ++ lo

/-- `zext_16`: an address in page 0 (00_scope R8, 30_encoding R143). -/
def zpAddr (b : Byte) : Word := b.setWidth 16

/-- `sext_16`: a two's-complement branch offset (00_scope R8, 30_encoding R145). -/
def sext16 (b : Byte) : Word := b.signExtend 16

/-- The stack address 0x0100 + S (40_addressing_modes R196). -/
def stackAddr (sp : Byte) : Word := mkWord 0x01#8 sp

/-- The low 13 bits of a CPU address: all the memory map sees (20_memory R71). -/
def addr13 (a : Word) : Addr13 := a.setWidth 13

/-- A byte whose bits come from `chip` where `mask` is 1 and from `free` elsewhere (20_memory R70, R80). -/
def mergeBits (mask chip free : Byte) : Byte := (chip &&& mask) ||| (free &&& ~~~mask)

/-- A one-bit value as a Bool placed at bit `k` of a byte. -/
def bitAt (k : Nat) (b : Bool) : Byte := if b then BitVec.ofNat 8 (2 ^ k) else 0#8

end Sys2Proof.Machine
end

