-- ==== Sys2Proof/Machine/Memory.lean ====
section
/-! DEFINITION. Byte memory as a list of (address, byte) cells in one canonical form: addresses strictly rising, no entry equal to
what an unlisted address reads as. PIA RAM, the cartridge image and superchip RAM are each one such memory. -/

namespace Sys2Proof.Machine

/-- A memory: its listed cells. -/
structure Memory where
  cells : List Host.Cell
deriving DecidableEq, Repr

/-- The memory with nothing listed. -/
def Memory.empty : Memory := { cells := [] }

/-- What an address that is not listed reads as. DESIGN CHOICE (log 3): the spec gives RAM no power-on contents. -/
def unlistedByte : Byte := 0x00#8

/-- The byte at an address. -/
def readCells : List Host.Cell → Nat → Byte
  | [], _ => unlistedByte
  | (k, v) :: rest, a => if k = a then v else readCells rest a

/-- The byte at an address. -/
def Memory.read (m : Memory) (a : Nat) : Byte := readCells m.cells a

/-- One cell put in front, unless it holds what an unlisted address reads as. -/
def consCell (a : Nat) (v : Byte) (rest : List Host.Cell) : List Host.Cell :=
  if v = unlistedByte then rest else (a, v) :: rest

/-- Store `v` at `a`, keeping the canonical form. -/
def writeCells : List Host.Cell → Nat → Byte → List Host.Cell
  | [], a, v => consCell a v []
  | (k, w) :: rest, a, v =>
    if a < k then consCell a v ((k, w) :: rest)
    else if a = k then consCell a v rest
    else (k, w) :: writeCells rest a v

/-- Store a byte. -/
def Memory.write (m : Memory) (a : Nat) (v : Byte) : Memory := { cells := writeCells m.cells a v }

/-- The canonical form of the cells at or above an address `lo`, all below `size`. -/
def wfCells (size : Nat) : Nat → List Host.Cell → Bool
  | _, [] => true
  | lo, (k, v) :: rest => decide (lo ≤ k) && decide (k < size) && decide (v ≠ unlistedByte) && wfCells size (k + 1) rest

/-- A memory of `size` bytes is in canonical form: addresses strictly rising and below `size`, no entry equal to what an unlisted
address reads as. -/
def Memory.wf (size : Nat) (m : Memory) : Bool := wfCells size 0 m.cells

/-- The cells of consecutive bytes from address `a` on. -/
def cellsFrom : Nat → List Byte → List Host.Cell
  | _, [] => []
  | a, b :: rest => consCell a b (cellsFrom (a + 1) rest)

/-- The memory that holds the given bytes from address 0 on. -/
def Memory.ofBytes (bytes : List Byte) : Memory := { cells := cellsFrom 0 bytes }

end Sys2Proof.Machine
end

