-- ==== Sys2Proof/Machine/Cartridge.lean ====
section
/-! DEFINITION. The cartridge: image, mapper, bank selection and superchip RAM (20_memory section 5). Locals are 0x000..0xFFF. -/

namespace Sys2Proof.Machine

/-- The cartridge variants (20_memory R100, R118; 92 D58). -/
inductive Mapper where
  | m2k | m4k | f8 | f6 | f4 | f8sc | f6sc | f4sc | e0 | m3f
deriving DecidableEq, Repr

/-- A cartridge in the machine: `image` holds the launch's bytes (0..size-1), `bank` is the F-series or 3F bank, `slice0..2` the
E0 slices of segments 0 to 2, `scRam` the superchip's 128 bytes (20_memory R43, R103, R108 to R110). -/
structure Cart where
  mapper : Mapper
  size : Nat
  image : Memory
  bank : Nat
  slice0 : Fin 8
  slice1 : Fin 8
  slice2 : Fin 8
  scRam : Memory
deriving DecidableEq, Repr

/-- The mapper adds superchip RAM (20_memory R110). -/
def Mapper.hasSuperchip : Mapper → Bool
  | .f8sc | .f6sc | .f4sc => true
  | .m2k | .m4k | .f8 | .f6 | .f4 | .e0 | .m3f => false

/-- Number of 4K banks and first hotspot local of an F-series mapper (20_memory R103 to R106). -/
def Mapper.fSeries : Mapper → Option (Nat × Nat)
  | .f8 | .f8sc => some (2, 0xFF8)
  | .f6 | .f6sc => some (4, 0xFF6)
  | .f4 | .f4sc => some (8, 0xFF4)
  | .m2k | .m4k | .e0 | .m3f => none

/-- The image sizes a mapper accepts; a 12K image is refused under every mapper, 3F too (20_memory R101 to R109, R115; log 34). -/
def Mapper.sizeOk (m : Mapper) (size : Nat) : Bool :=
  match m with
  | .m2k => size == 2048
  | .m4k => size == 4096
  | .f8 | .f8sc | .e0 => size == 8192
  | .f6 | .f6sc => size == 16384
  | .f4 | .f4sc => size == 32768
  | .m3f => size % 2048 == 0 && decide (4 ≤ size / 2048) && size != 12288

/-- How many values the bank index can take: `n` of 20_memory R103 and R109, 1 where there is no bank index. -/
def Cart.banks (c : Cart) : Nat :=
  match c.mapper with
  | .m2k | .m4k | .e0 => 1
  | .f8 | .f8sc => 2
  | .f6 | .f6sc => 4
  | .f4 | .f4sc => 8
  | .m3f => c.size / 2048

/-- The bank index is in 0..n-1 (20_memory R103; 60_exceptions R467). -/
def Cart.bankOk (c : Cart) : Bool := decide (c.bank < c.banks)

/-- The cartridge is one a launch can build and a run can reach: an accepted size, memories in canonical form, a bank in range. -/
def Cart.wf (c : Cart) : Bool :=
  c.mapper.sizeOk c.size && c.bankOk && c.image.wf c.size && c.scRam.wf 128

/-- The bank selection after an access to a local: an F-series hotspot selects its bank (20_memory R103 to R106), an E0 hotspot
the slice of its segment (R108); any other local changes nothing. -/
def Cart.hotspot (c : Cart) (loc : Nat) : Cart :=
  match c.mapper.fSeries with
  | some (n, h0) => if h0 ≤ loc ∧ loc < h0 + n then { c with bank := loc - h0 } else c
  | none =>
    match c.mapper with
    | .e0 =>
      if 0xFE0 ≤ loc ∧ loc ≤ 0xFE7 then { c with slice0 := Fin.ofNat 8 loc }
      else if 0xFE8 ≤ loc ∧ loc ≤ 0xFEF then { c with slice1 := Fin.ofNat 8 loc }
      else if 0xFF0 ≤ loc ∧ loc ≤ 0xFF7 then { c with slice2 := Fin.ofNat 8 loc }
      else c
    | _ => c

/-- An access to this local can select a bank or a slice (20_memory R103 to R106, R108). -/
def Cart.isHotspot (c : Cart) (loc : Nat) : Bool :=
  match c.mapper.fSeries with
  | some (n, h0) => decide (h0 ≤ loc) && decide (loc < h0 + n)
  | none =>
    match c.mapper with
    | .e0 => decide (0xFE0 ≤ loc) && decide (loc ≤ 0xFF7)
    | _ => false

/-- The E0 slice that serves a segment; segment 3 is fixed to slice 7 (20_memory R108). -/
def Cart.slice (c : Cart) (segment : Nat) : Nat :=
  match segment with
  | 0 => c.slice0.val
  | 1 => c.slice1.val
  | 2 => c.slice2.val
  | _ => 7

/-- The image offset a local reads in the current bank (20_memory R101 to R103, R108, R109). -/
def Cart.offset (c : Cart) (loc : Nat) : Nat :=
  match c.mapper with
  | .m2k => loc % 2048
  | .m4k => loc
  | .f8 | .f8sc | .f6 | .f6sc | .f4 | .f4sc => c.bank * 4096 + loc
  | .e0 => c.slice (loc / 1024) * 1024 + loc % 1024
  | .m3f => if loc < 0x800 then c.bank * 2048 + loc else (c.banks - 1) * 2048 + (loc - 0x800)

/-- The local is in the superchip's write port, 0x000..0x07F (20_memory R110). -/
def Cart.inWritePort (c : Cart) (loc : Nat) : Bool := c.mapper.hasSuperchip && decide (loc < 0x080)

/-- The local is in the superchip's read port, 0x080..0x0FF (20_memory R110). -/
def Cart.inReadPort (c : Cart) (loc : Nat) : Bool :=
  c.mapper.hasSuperchip && decide (0x080 ≤ loc) && decide (loc < 0x100)

/-- The byte the mapper returns for a local in the current bank, with no side effect: what `read` returns for every local but
the superchip's write port, where it is the stored byte (20_memory R86, R101 to R110). -/
def Cart.byteAt (c : Cart) (loc : Nat) : Byte :=
  if c.inWritePort loc then c.scRam.read loc
  else if c.inReadPort loc then c.scRam.read (loc - 0x080)
  else c.image.read (c.offset loc)

/-- A read cycle at a local outside the superchip's write port: the hotspot switches first, so the byte is the new bank's
(20_memory R103). -/
def Cart.read (c : Cart) (loc : Nat) : Byte × Cart := ((c.hotspot loc).byteAt loc, c.hotspot loc)

/-- A write cycle at a local: superchip RAM stores, everywhere else only a hotspot acts, under `hotspot_on_write`
(20_memory R107, R108, R110, R111; log 23). -/
def Cart.write (onWrite : Bool) (c : Cart) (loc : Nat) (v : Byte) : Cart :=
  if c.inWritePort loc then { c with scRam := c.scRam.write loc v }
  else if onWrite then c.hotspot loc
  else c

/-- `listen`: a 3F cartridge takes its bank from a write to 0x0000..0x003F; no other variant acts (20_memory R109, R112). -/
def Cart.listen (c : Cart) (a : Addr13) (v : Byte) : Cart :=
  match c.mapper with
  | .m3f => if a.toNat < 0x40 then { c with bank := v.toNat % c.banks } else c
  | _ => c

/-- `getBank`: the bank, or for E0 the slice, that serves a local (20_memory R101, R102, R113). DESIGN CHOICE (log 45): the superchip
RAM's locals answer the bank of the ROM around them. -/
def Cart.getBank (c : Cart) (loc : Nat) : Nat :=
  match c.mapper with
  | .m2k | .m4k => 0
  | .f8 | .f8sc | .f6 | .f6sc | .f4 | .f4sc => c.bank
  | .e0 => c.slice (loc / 1024)
  | .m3f => if loc < 0x800 then c.bank else c.banks - 1

/-- A cartridge as it is inserted: an image under a mapper with the initial bank (20_memory R114); superchip RAM lists nothing
(log 3). -/
def Cart.insert (mapper : Mapper) (size : Nat) (image : Memory) (initial : InitialBank) : Cart :=
  { mapper := mapper, size := size, image := image, bank := initial.bank,
    slice0 := initial.slice0, slice1 := initial.slice1, slice2 := initial.slice2, scRam := Memory.empty }

end Sys2Proof.Machine
end

