-- ==== Sys2Proof/Syntax.lean ====
section
/-! DEFINITION. The instruction set as syntax: addressing modes, effect classes, the definition record of an opcode
(10_state R39), and `Instr`, one constructor per row of spec/opcode_table.json (30_encoding R155). -/

namespace Sys2Proof

/-- The 13 addressing modes (40_addressing_modes R180). -/
inductive Mode where
  | imp | acc | imm | zp | zpx | zpy | abs | absx | absy | ind | indx | indy | rel
deriving DecidableEq, Repr

/-- The source's effect class of an instruction (10_state R39). -/
inductive Effect where
  | read | write | rmw | flow | subroutine | interrupt | other
deriving DecidableEq, Repr

/-- The 56 mnemonics (00_scope R2). -/
inductive Mnemonic where
  | adc | and | asl | bcc | bcs | beq | bit | bmi | bne | bpl | brk | bvc | bvs | clc
  | cld | cli | clv | cmp | cpx | cpy | dec | dex | dey | eor | inc | inx | iny | jmp
  | jsr | lda | ldx | ldy | lsr | nop | ora | pha | php | pla | plp | rol | ror | rti
  | rts | sbc | sec | sed | sei | sta | stx | sty | tax | tay | tsx | txa | txs | tya
deriving DecidableEq, Repr

/-- An instruction's definition (10_state R39): the columns of one row of the opcode table (30_encoding R155). -/
structure InstrDef where
  mnemonic : Mnemonic
  mode : Mode
  bytes : Nat
  cycles : Nat
  pageSensitive : Bool
  branch : Bool
  effect : Effect
deriving DecidableEq, Repr

/-- The instructions: one constructor per opcode of 30_encoding R155, named by mnemonic and mode, with the operand its format
carries (R140): `v` an immediate byte (R142), `a` a zero-page address and `p` a zero-page pointer (R143), `w` a 16-bit address
(R144), `off` a branch offset (R145). -/
inductive Instr where
  | brk
  | oraIndx (p : Byte)
  | oraZp (a : Byte)
  | aslZp (a : Byte)
  | php
  | oraImm (v : Byte)
  | aslAcc
  | oraAbs (w : Word)
  | aslAbs (w : Word)
  | bpl (off : Byte)
  | oraIndy (p : Byte)
  | oraZpx (a : Byte)
  | aslZpx (a : Byte)
  | clc
  | oraAbsy (w : Word)
  | oraAbsx (w : Word)
  | aslAbsx (w : Word)
  | jsr (w : Word)
  | andIndx (p : Byte)
  | bitZp (a : Byte)
  | andZp (a : Byte)
  | rolZp (a : Byte)
  | plp
  | andImm (v : Byte)
  | rolAcc
  | bitAbs (w : Word)
  | andAbs (w : Word)
  | rolAbs (w : Word)
  | bmi (off : Byte)
  | andIndy (p : Byte)
  | andZpx (a : Byte)
  | rolZpx (a : Byte)
  | sec
  | andAbsy (w : Word)
  | andAbsx (w : Word)
  | rolAbsx (w : Word)
  | rti
  | eorIndx (p : Byte)
  | eorZp (a : Byte)
  | lsrZp (a : Byte)
  | pha
  | eorImm (v : Byte)
  | lsrAcc
  | jmpAbs (w : Word)
  | eorAbs (w : Word)
  | lsrAbs (w : Word)
  | bvc (off : Byte)
  | eorIndy (p : Byte)
  | eorZpx (a : Byte)
  | lsrZpx (a : Byte)
  | cli
  | eorAbsy (w : Word)
  | eorAbsx (w : Word)
  | lsrAbsx (w : Word)
  | rts
  | adcIndx (p : Byte)
  | adcZp (a : Byte)
  | rorZp (a : Byte)
  | pla
  | adcImm (v : Byte)
  | rorAcc
  | jmpInd (w : Word)
  | adcAbs (w : Word)
  | rorAbs (w : Word)
  | bvs (off : Byte)
  | adcIndy (p : Byte)
  | adcZpx (a : Byte)
  | rorZpx (a : Byte)
  | sei
  | adcAbsy (w : Word)
  | adcAbsx (w : Word)
  | rorAbsx (w : Word)
  | staIndx (p : Byte)
  | styZp (a : Byte)
  | staZp (a : Byte)
  | stxZp (a : Byte)
  | dey
  | txa
  | styAbs (w : Word)
  | staAbs (w : Word)
  | stxAbs (w : Word)
  | bcc (off : Byte)
  | staIndy (p : Byte)
  | styZpx (a : Byte)
  | staZpx (a : Byte)
  | stxZpy (a : Byte)
  | tya
  | staAbsy (w : Word)
  | txs
  | staAbsx (w : Word)
  | ldyImm (v : Byte)
  | ldaIndx (p : Byte)
  | ldxImm (v : Byte)
  | ldyZp (a : Byte)
  | ldaZp (a : Byte)
  | ldxZp (a : Byte)
  | tay
  | ldaImm (v : Byte)
  | tax
  | ldyAbs (w : Word)
  | ldaAbs (w : Word)
  | ldxAbs (w : Word)
  | bcs (off : Byte)
  | ldaIndy (p : Byte)
  | ldyZpx (a : Byte)
  | ldaZpx (a : Byte)
  | ldxZpy (a : Byte)
  | clv
  | ldaAbsy (w : Word)
  | tsx
  | ldyAbsx (w : Word)
  | ldaAbsx (w : Word)
  | ldxAbsy (w : Word)
  | cpyImm (v : Byte)
  | cmpIndx (p : Byte)
  | cpyZp (a : Byte)
  | cmpZp (a : Byte)
  | decZp (a : Byte)
  | iny
  | cmpImm (v : Byte)
  | dex
  | cpyAbs (w : Word)
  | cmpAbs (w : Word)
  | decAbs (w : Word)
  | bne (off : Byte)
  | cmpIndy (p : Byte)
  | cmpZpx (a : Byte)
  | decZpx (a : Byte)
  | cld
  | cmpAbsy (w : Word)
  | cmpAbsx (w : Word)
  | decAbsx (w : Word)
  | cpxImm (v : Byte)
  | sbcIndx (p : Byte)
  | cpxZp (a : Byte)
  | sbcZp (a : Byte)
  | incZp (a : Byte)
  | inx
  | sbcImm (v : Byte)
  | nop
  | cpxAbs (w : Word)
  | sbcAbs (w : Word)
  | incAbs (w : Word)
  | beq (off : Byte)
  | sbcIndy (p : Byte)
  | sbcZpx (a : Byte)
  | incZpx (a : Byte)
  | sed
  | sbcAbsy (w : Word)
  | sbcAbsx (w : Word)
  | incAbsx (w : Word)
deriving DecidableEq, Repr

end Sys2Proof
end

