-- ==== Sys2Proof/Machine/State.lean ====
section
/-! DEFINITION. The machine's state as plain data: everything the spec gives it (INVENTORY.md, State), the reasons it can stop,
and the state right after reset (10_state R44). -/

namespace Sys2Proof.Machine

/-! ### CPU -/

/-- The six stored flags of P (10_state R37). -/
structure Flags where
  n : Bool
  v : Bool
  d : Bool
  i : Bool
  z : Bool
  c : Bool
deriving DecidableEq, Repr

/-- The architectural registers (10_state R30); `sp` is the spec's S. -/
structure Cpu where
  a : Byte
  x : Byte
  y : Byte
  sp : Byte
  pc : Word
  p : Flags
deriving DecidableEq, Repr

/-- The documented CPU bugs the result record marks (10_state R39). -/
inductive CpuBug where
  | jmpIndirectWrap
  | rmwDoubleWrite
deriving DecidableEq, Repr

/-- The result record (10_state R39): `bytes` and `cycles` are the observed counts of 60_exceptions R465; stall cycles are not
counted (61_tia R560). -/
structure ResultRecord where
  opcode : Option Byte
  defn : Option InstrDef
  bytes : Nat
  cycles : Nat
  pageCrossed : Bool
  bug : Option CpuBug
  final : Bool
deriving DecidableEq, Repr

/-- One entry of the last-access trace (20_memory R85); `address` is the 16-bit address the CPU drove (log 22). -/
structure Access where
  address : Word
  value : Byte
  isWrite : Bool
deriving DecidableEq, Repr

/-! ### TIA -/

/-- The five movable objects (61_tia R502). -/
inductive Obj where
  | p0 | p1 | m0 | m1 | bl
deriving DecidableEq, Repr

/-- One value per movable object. -/
structure PerObj (α : Type) where
  p0 : α
  p1 : α
  m0 : α
  m1 : α
  bl : α
deriving DecidableEq, Repr

/-- NUSIZn: `copies` is bits 2..0, `width` bits 5..4 (61_tia R510). -/
structure Nusiz where
  copies : BitVec 3
  width : BitVec 2
deriving DecidableEq, Repr

/-- CTRLPF (61_tia R509). -/
structure Ctrlpf where
  ref : Bool
  score : Bool
  pfp : Bool
  ballWidth : BitVec 2
deriving DecidableEq, Repr

/-- The audio registers, stored and read by nothing (61_tia R507). -/
structure Audio where
  audc0 : BitVec 4
  audc1 : BitVec 4
  audf0 : BitVec 5
  audf1 : BitVec 5
  audv0 : BitVec 4
  audv1 : BitVec 4
deriving DecidableEq, Repr

/-- The 15 collision latches, one per unordered pair of the six sources (61_tia R550). -/
structure Collisions where
  p0p1 : Bool
  p0m0 : Bool
  p0m1 : Bool
  p0bl : Bool
  p0pf : Bool
  p1m0 : Bool
  p1m1 : Bool
  p1bl : Bool
  p1pf : Bool
  m0m1 : Bool
  m0bl : Bool
  m0pf : Bool
  m1bl : Bool
  m1pf : Bool
  blpf : Bool
deriving DecidableEq, Repr

/-- The latched TIA write registers (61_tia R500, kind L). -/
inductive TiaLatch where
  | vsync | vblank | nusiz0 | nusiz1 | colup0 | colup1 | colupf | colubk | ctrlpf | refp0 | refp1 | pf0 | pf1 | pf2
  | audc0 | audc1 | audf0 | audf1 | audv0 | audv1 | grp0 | grp1 | enam0 | enam1 | enabl
  | hmp0 | hmp1 | hmm0 | hmm1 | hmbl | vdelp0 | vdelp1 | vdelbl | resmp0 | resmp1
deriving DecidableEq, Repr

/-- The strobe TIA write registers (61_tia R500, kind S). -/
inductive TiaStrobe where
  | wsync | rsync | resp0 | resp1 | resm0 | resm1 | resbl | hmove | hmclr | cxclr
deriving DecidableEq, Repr

/-- What a future does when it fires (61_tia R503): a strobe's action, or the delayed store of a latched register. -/
inductive TiaAction where
  | resetPos (o : Obj)
  | hmove
  | hmclr
  | cxclr
  | rsync
  | store (r : TiaLatch) (v : Byte)
deriving DecidableEq, Repr

/-- A pending future: it fires at the tick that brings `remaining` to 0 (61_tia R503, R561). -/
structure Future where
  remaining : Nat
  action : TiaAction
deriving DecidableEq, Repr

/-- The TIA (61_tia R502). Each latched register is held as the fields its writes use (R500). -/
structure Tia where
  vsync : Bool
  vblank : Bool
  inptLatchEnable : Bool
  inptDump : Bool
  nusiz0 : Nusiz
  nusiz1 : Nusiz
  colup0 : BitVec 7
  colup1 : BitVec 7
  colupf : BitVec 7
  colubk : BitVec 7
  ctrlpf : Ctrlpf
  refp0 : Bool
  refp1 : Bool
  pf0 : BitVec 4
  pf1 : Byte
  pf2 : Byte
  audio : Audio
  grp0new : Byte
  grp0old : Byte
  grp1new : Byte
  grp1old : Byte
  blNew : Bool
  blOld : Bool
  enam0 : Bool
  enam1 : Bool
  hm : PerObj (BitVec 4)
  vdelp0 : Bool
  vdelp1 : Bool
  vdelbl : Bool
  resmp0 : Bool
  resmp1 : Bool
  /-- The horizontal counter, 0..227 (R511). -/
  hclock : Fin 228
  /-- The line's HBLANK is extended by the HMOVE comb (R513, R540). -/
  hmoveLine : Bool
  /-- Color clocks since the last full HMOVE action, while inside `hmove_busy` (R543, log 15). -/
  hmoveAge : Option Nat
  pos : PerObj (Fin 160)
  copy0Suppressed : PerObj Bool
  collisions : Collisions
  /-- INPT4 and INPT5 latches: set once the input has been low while VBLANK bit 6 is 1 (R554, log 19). -/
  inpt4Low : Bool
  inpt5Low : Bool
  wsync : Bool
  futures : List Future
deriving DecidableEq, Repr

/-! ### RIOT -/

/-- The programmed timer interval (63_riot_console R650). -/
inductive Interval where
  | i1 | i8 | i64 | i1024
deriving DecidableEq, Repr

/-- The interval in CPU cycles (63_riot_console R650). -/
def Interval.length : Interval → Nat
  | .i1 => 1
  | .i8 => 8
  | .i64 => 64
  | .i1024 => 1024

/-- The RIOT's I/O and timer (63_riot_console R650); its 128 bytes of RAM are `State.ram`, its input pins `State.inputs`. -/
structure Riot where
  timer : Byte
  interval : Interval
  prescale : Nat
  tf : Bool
  pf7 : Bool
  edgePos : Bool
  ora : Byte
  ddra : Byte
  orb : Byte
  ddrb : Byte
  prevPa7 : Bool
deriving DecidableEq, Repr

/-! ### Television -/

/-- The source that won the priority decision of a tick (61_tia R528). -/
inductive Source where
  | pf | bl | p0 | m0 | p1 | m1 | bk
deriving DecidableEq, Repr

/-- The attributes of one `Signal` (62_television R601). `pixel` is none for video black (61_tia R527), `alt` none in blank
(R528). -/
structure Attrs where
  vsync : Bool
  vblank : Bool
  frontporch : Bool
  hsync : Bool
  cburst : Bool
  pixel : Option (BitVec 7)
  alt : Option Source
deriving DecidableEq, Repr

/-- The television (62_television R600). -/
structure Tv where
  frame : Nat
  scanline : Nat
  horizontal : Int
  vsyncCount : Nat
  prev : Attrs
  visibleTop : Nat
  visibleBottom : Nat
  learnTop : Option Nat
  learnBottom : Option Nat
  spec : TvSpec
  outOfSpec : Bool
  endOfScreen : Bool
  lineSynced : Bool
deriving DecidableEq, Repr

/-- The television's timing checks, the "which check" of an OutOfSpec report (60_exceptions R441). -/
inductive TvCheck where
  /-- The line ran past position 159 without a FRONTPORCH (62_television R602). -/
  | horizontalWrap
  /-- An HSYNC edge outside its window (R604). -/
  | hsyncWindow
  /-- A CBURST edge outside its window (R605). -/
  | cburstWindow
  /-- More scanlines than the specification has (R606). -/
  | overlongFrame
deriving DecidableEq, Repr

/-- A call to the renderer sink (62_television R617) or an audio-sample event (61_tia R529). -/
inductive SinkEvent where
  | newFrame (frame : Nat)
  | newScanline (scanline : Nat)
  | setPixel (x : Int) (y : Nat) (colour : Rgb) (vblank : Bool)
  | setAltPixel (x : Int) (y : Nat) (alt : Option Source) (vblank : Bool)
  | audioSample (value : Nat)
deriving DecidableEq, Repr

/-! ### Reports, faults, refusals -/

/-- The non-fatal reports (60_exceptions R441, R462 to R464). -/
inductive Report where
  | unwritableAddress (addr : Addr13) (value : Byte)
  | unreadableAddress (addr : Addr13)
  | outOfSpec (check : TvCheck)
deriving DecidableEq, Repr

/-- A report as logged, with the id of the access it belongs to (60_exceptions R460, log 22). -/
structure LoggedReport where
  report : Report
  accessId : Nat
deriving DecidableEq, Repr

/-- The internal invariants whose breaking is a fault, with the value that breaks them (60_exceptions R441 "the invariant", R467). -/
inductive BrokenInvariant where
  /-- The cartridge's bank index is outside 0..n-1. -/
  | bankOutOfRange (bank : Nat)
  /-- A pending TIA future has no clock left. -/
  | futureWithoutClock
  /-- The RIOT's prescaler is outside its interval (63_riot_console R650). -/
  | prescalerOutOfInterval (prescale : Nat)
deriving DecidableEq, Repr

/-- The fatal faults (60_exceptions R441, R460). An instruction that raises one records it in `State.fault` at that cycle, and
from then on `step` answers it; the two broken-invariant faults `step` answers at once (log 10, log 31). -/
inductive Fault where
  /-- Raised by the opcode fetch of `fetchInstr` when the byte is one of the 105 undefined values (R461). Safe: the chip goes on
  or jams, the model stops. -/
  | undefinedOpcode (opcode : Byte) (address : Word)
  /-- Raised by `finishInstr` when the post-condition of R465 fails. Safe: the model stops. -/
  | invalidResult (opcode : Option Byte) (defn : Option InstrDef) (bytes cycles : Nat)
  /-- Raised by `step` when the cartridge's bank index is outside 0..n-1 (R467). Safe: the model stops. -/
  | memoryError (broken : BrokenInvariant)
  /-- Raised by `step` when a pending future has no clock left or the RIOT prescaler is outside its interval (R467). Safe: the
  model stops. -/
  | panicError (broken : BrokenInvariant)
deriving DecidableEq, Repr

/-- What the model gives no meaning (92_eei_decisions, Terms). -/
inductive Refusal where
  /-- Raised by an arm of `exec` whose instruction has no meaning yet. Safe: the model stops. -/
  | notModelled (mnemonic : String)
  /-- Raised by a write to RSYNC under `rsync_model = refuse` (61_tia R506, D51): the write marks the state, `step` then answers
  this. Safe: the model stops. -/
  | rsyncRefused
deriving DecidableEq, Repr

/-! ### The state -/

/-- The whole machine (10_state R43; INVENTORY.md, State). -/
structure State where
  cpu : Cpu
  result : ResultRecord
  ram : Memory
  cart : Cart
  lastAccess : Option Access
  lastAccessId : Nat
  tia : Tia
  riot : Riot
  inputs : Inputs
  tv : Tv
  /-- The calls made to the renderer and the audio-sample events so far, newest first (log 14). -/
  sink : List SinkEvent
  colorClock : Nat
  cpuCycles : Nat
  fault : Option Fault
  refusal : Option Refusal
  reports : List LoggedReport
  /-- The open parameters, the same in every state of a run (log 8). -/
  params : Params
  /-- How many free values have been taken: the index of the next one (log 7). -/
  draws : Nat
deriving DecidableEq, Repr

/-! ### Reset -/

/-- One value for every object. -/
def PerObj.all {α : Type} (v : α) : PerObj α := { p0 := v, p1 := v, m0 := v, m1 := v, bl := v }

/-- All 15 latches clear. -/
def Collisions.clear : Collisions :=
  { p0p1 := false, p0m0 := false, p0m1 := false, p0bl := false, p0pf := false,
    p1m0 := false, p1m1 := false, p1bl := false, p1pf := false, m0m1 := false,
    m0bl := false, m0pf := false, m1bl := false, m1pf := false, blpf := false }

/-- CPU registers at power-on but for PC: I = 1 (10_state R44); the rest DESIGN CHOICE (log 1, log 2). -/
def Cpu.powerOn (pc : Word) : Cpu :=
  { a := 0x00#8, x := 0x00#8, y := 0x00#8, sp := 0x00#8, pc := pc,
    p := { n := false, v := false, d := false, i := true, z := false, c := false } }

/-- No instruction recorded, Final = true (10_state R44). -/
def ResultRecord.powerOn : ResultRecord :=
  { opcode := none, defn := none, bytes := 0, cycles := 0, pageCrossed := false, bug := none, final := true }

/-- `wsync` clear and no futures (10_state R44); every other field DESIGN CHOICE (log 4). -/
def Tia.powerOn : Tia :=
  { vsync := false, vblank := false, inptLatchEnable := false, inptDump := false,
    nusiz0 := { copies := 0#3, width := 0#2 }, nusiz1 := { copies := 0#3, width := 0#2 },
    colup0 := 0#7, colup1 := 0#7, colupf := 0#7, colubk := 0#7,
    ctrlpf := { ref := false, score := false, pfp := false, ballWidth := 0#2 },
    refp0 := false, refp1 := false, pf0 := 0#4, pf1 := 0x00#8, pf2 := 0x00#8,
    audio := { audc0 := 0#4, audc1 := 0#4, audf0 := 0#5, audf1 := 0#5, audv0 := 0#4, audv1 := 0#4 },
    grp0new := 0x00#8, grp0old := 0x00#8, grp1new := 0x00#8, grp1old := 0x00#8, blNew := false, blOld := false,
    enam0 := false, enam1 := false, hm := PerObj.all 0#4,
    vdelp0 := false, vdelp1 := false, vdelbl := false, resmp0 := false, resmp1 := false,
    hclock := 0, hmoveLine := false, hmoveAge := none,
    pos := PerObj.all 0, copy0Suppressed := PerObj.all false, collisions := Collisions.clear,
    inpt4Low := false, inpt5Low := false, wsync := false, futures := [] }

/-- Every field DESIGN CHOICE (log 5). -/
def Riot.powerOn : Riot :=
  { timer := 0x00#8, interval := .i1, prescale := 0, tf := false, pf7 := false, edgePos := false,
    ora := 0x00#8, ddra := 0x00#8, orb := 0x00#8, ddrb := 0x00#8, prevPa7 := false }

/-- All signals off (62_television R600). -/
def Attrs.off : Attrs :=
  { vsync := false, vblank := false, frontporch := false, hsync := false, cburst := false, pixel := none, alt := none }

/-- The television's power-on state (62_television R600). -/
def Tv.powerOn (spec : TvSpec) : Tv :=
  { frame := 0, scanline := 0, horizontal := -68, vsyncCount := 0, prev := Attrs.off,
    visibleTop := 0, visibleBottom := spec.lines - 1, learnTop := none, learnBottom := none,
    spec := spec, outOfSpec := false, endOfScreen := false, lineSynced := false }

/-- The power-on state of a machine with a cartridge and its parameters (10_state R44, 70_reset_and_hazards R700): PC comes from
cartridge locals 0xFFC (low) and 0xFFD (high), read with no bus cycle. -/
def State.powerOn (cart : Cart) (params : Params) : State :=
  { cpu := Cpu.powerOn (mkWord (cart.byteAt 0xFFD) (cart.byteAt 0xFFC)),
    result := ResultRecord.powerOn,
    ram := Memory.empty, cart := cart, lastAccess := none, lastAccessId := 0,
    tia := Tia.powerOn, riot := Riot.powerOn, inputs := params.initialInputs, tv := Tv.powerOn params.tvSpec,
    sink := [], colorClock := 0, cpuCycles := 0, fault := none, refusal := none, reports := [],
    params := params, draws := 0 }

/-- A 4K cartridge whose image lists nothing. DESIGN CHOICE (log 6): the spec has no machine without a cartridge, and the host
chooses it. -/
def Cart.blank : Cart := Cart.insert .m4k 4096 Memory.empty Params.default.initialBank

/-- The machine right after reset: the blank cartridge and the spec's default parameters (log 6). -/
def State.reset : State := State.powerOn Cart.blank Params.default

end Sys2Proof.Machine
end

