-- ==== Sys2Proof/Machine/Television.lean ====
section
/-! DEFINITION. The television signal receiver (62_television): one `Signal` per TIA tick. -/

namespace Sys2Proof.Machine

/-- The television while it handles one `Signal`: its state, whether this `Signal` started a scanline (R603), the timing checks
that failed and the renderer calls made, both oldest first. -/
structure TvWork where
  tv : Tv
  newLine : Bool
  checks : List TvCheck
  events : List SinkEvent
deriving DecidableEq, Repr

/-- A failed check: `outOfSpec` is set, sticky, and the event is logged (62_television R611). -/
def TvWork.fail (w : TvWork) (c : TvCheck) : TvWork :=
  { w with tv := { w.tv with outOfSpec := true }, checks := w.checks ++ [c] }

/-- A renderer call (62_television R617). -/
def TvWork.emit (w : TvWork) (e : SinkEvent) : TvWork := { w with events := w.events ++ [e] }

/-- A renderer call that is not made while `endOfScreen` holds (62_television R606). -/
def TvWork.emitVisible (w : TvWork) (e : SinkEvent) : TvWork := if w.tv.endOfScreen then w else w.emit e

/-- FRONTPORCH: position, scanline, `NewScanline` (62_television R603). -/
def tvNewLine (w : TvWork) : TvWork :=
  let w1 := { w with
    tv := { w.tv with horizontal := -68, scanline := w.tv.scanline + 1, lineSynced := true }, newLine := true }
  w1.emitVisible (.newScanline w1.tv.scanline)

/-- Horizontal position (62_television R602). -/
def tvHorizontal (at_ : Attrs) (w : TvWork) : TvWork :=
  if at_.frontporch then tvNewLine w
  else if 159 ≤ w.tv.horizontal then tvNewLine (w.fail .horizontalWrap)
  else { w with tv := { w.tv with horizontal := w.tv.horizontal + 1 } }

/-- The edges of one signal are judged at the current position: on-edges in [onLo, onHi], off-edges in [offLo, offHi]; before the
first FRONTPORCH nothing is judged (62_television R604, R605; log 26). -/
def tvEdgeCheck (now before : Bool) (onLo onHi offLo offHi : Int) (c : TvCheck) (w : TvWork) : TvWork :=
  let h := w.tv.horizontal
  if w.tv.lineSynced && ((now && !before && !(decide (onLo ≤ h) && decide (h ≤ onHi))) ||
      (before && !now && !(decide (offLo ≤ h) && decide (h ≤ offHi)))) then w.fail c
  else w

/-- HSYNC: on at [-52, -49], off at [-36, -33] (62_television R604). -/
def tvHsync (at_ : Attrs) (w : TvWork) : TvWork :=
  tvEdgeCheck at_.hsync w.tv.prev.hsync (-52) (-49) (-36) (-33) .hsyncWindow w

/-- CBURST, in the windows of the parameters (62_television R605). -/
def tvCburst (p : Params) (at_ : Attrs) (w : TvWork) : TvWork :=
  tvEdgeCheck at_.cburst w.tv.prev.cburst p.cburstOnLo p.cburstOnHi p.cburstOffLo p.cburstOffHi .cburstWindow w

/-- The overlong-frame check, made when a scanline has started, in the specification in force (62_television R606; log 25). -/
def tvOverlong (w : TvWork) : TvWork :=
  if w.newLine && decide (w.tv.spec.lines < w.tv.scanline) then
    let w1 := w.fail .overlongFrame
    { w1 with tv := { w1.tv with endOfScreen := true } }
  else w

/-- The commit of a valid VSYNC (62_television R607). -/
def tvCommit (w : TvWork) : TvWork :=
  let tv := w.tv
  let w1 := { w with tv := { tv with
    visibleTop := tv.learnTop.getD tv.visibleTop,
    visibleBottom := tv.learnBottom.getD tv.visibleBottom,
    learnTop := none, learnBottom := none,
    frame := tv.frame + 1, scanline := 0, endOfScreen := false } }
  w1.emit (.newFrame w1.tv.frame)

/-- VSYNC: counted while it holds; at its falling edge a count of at least `vsync_clocks` commits the frame
(62_television R607, R612). -/
def tvVsync (p : Params) (at_ : Attrs) (w : TvWork) : TvWork :=
  if at_.vsync then { w with tv := { w.tv with vsyncCount := w.tv.vsyncCount + 1 } }
  else if w.tv.prev.vsync then
    let w1 := if p.vsyncClocks ≤ w.tv.vsyncCount then tvCommit w else w
    { w1 with tv := { w1.tv with vsyncCount := 0 } }
  else w

/-- Standard detection, made when a scanline has started: more than 276 scanlines under NTSC reclassify the television as PAL
(62_television R608; log 25). -/
def tvDetect (w : TvWork) : TvWork :=
  if w.newLine && decide (w.tv.spec = .ntsc) && decide (276 < w.tv.scanline) then
    { w with tv := { w.tv with spec := .pal } }
  else w

/-- The smaller of a learned bound, if there is one, and a scanline. -/
def learnMin (bound : Option Nat) (line : Nat) : Nat := (bound.map (fun b => min b line)).getD line

/-- The larger of a learned bound, if there is one, and a scanline. -/
def learnMax (bound : Option Nat) (line : Nat) : Nat := (bound.map (fun b => max b line)).getD line

/-- Visible-area learning (62_television R609). -/
def tvLearn (at_ : Attrs) (w : TvWork) : TvWork :=
  if decide (0 ≤ w.tv.horizontal) && !at_.vblank then
    { w with tv := { w.tv with
      learnTop := some (learnMin w.tv.learnTop w.tv.scanline),
      learnBottom := some (learnMax w.tv.learnBottom w.tv.scanline) } }
  else w

/-- The palette of a specification, video black included (62_television R610, R613). -/
def palette (spec : TvSpec) : Option (BitVec 7) → Rgb
  | none => Config.videoBlack spec
  | some c =>
    match spec with
    | .ntsc => Config.paletteNtsc c
    | .pal => Config.palettePal c

/-- Pixel emission (62_television R610). -/
def tvPixel (at_ : Attrs) (w : TvWork) : TvWork :=
  if 0 ≤ w.tv.horizontal then
    (w.emitVisible (.setPixel w.tv.horizontal w.tv.scanline (palette w.tv.spec at_.pixel) at_.vblank)).emitVisible
      (.setAltPixel w.tv.horizontal w.tv.scanline at_.alt at_.vblank)
  else w

/-- One `Signal` (62_television R601): R602 to R610 in order, then `prev` is the attributes just seen. -/
def tvSignal (p : Params) (at_ : Attrs) (tv : Tv) : TvWork :=
  let w := { tv := tv, newLine := false, checks := [], events := [] }
  let w := tvHorizontal at_ w
  let w := tvCburst p at_ (tvHsync at_ w)
  let w := tvVsync p at_ (tvOverlong w)
  let w := tvPixel at_ (tvLearn at_ (tvDetect w))
  { w with tv := { w.tv with prev := at_ } }

end Sys2Proof.Machine
end

