-- ==== Sys2Proof/Machine/Tia.lean ====
section
/-! DEFINITION. The TIA raster pipeline (61_tia): registers, objects, playfield, HMOVE, collisions, futures and the tick. -/

namespace Sys2Proof.Machine

/-! ### Objects and free values -/

/-- The value of one object. -/
def PerObj.get {α : Type} (f : PerObj α) : Obj → α
  | .p0 => f.p0
  | .p1 => f.p1
  | .m0 => f.m0
  | .m1 => f.m1
  | .bl => f.bl

/-- The values with one object's changed. -/
def PerObj.set {α : Type} (f : PerObj α) (o : Obj) (v : α) : PerObj α :=
  match o with
  | .p0 => { f with p0 := v }
  | .p1 => { f with p1 := v }
  | .m0 => { f with m0 := v }
  | .m1 => { f with m1 := v }
  | .bl => { f with bl := v }

/-- Take the next free byte (92_eei_decisions, Terms: draw; log 7). -/
def drawByte (s : State) : Byte × State := (Config.freeByte s.draws, { s with draws := s.draws + 1 })

/-- Take the next free bit. -/
def drawBool (s : State) : Bool × State := (Config.freeBool s.draws, { s with draws := s.draws + 1 })

/-- An object's position becomes the next free position (61_tia R541, R543). -/
def drawPos (o : Obj) (s : State) : State :=
  { s with tia := { s.tia with pos := s.tia.pos.set o (Config.freePos s.draws) }, draws := s.draws + 1 }

/-- Every object's position becomes a free position of its own. -/
def drawAllPos (s : State) : State :=
  drawPos .bl (drawPos .m1 (drawPos .m0 (drawPos .p1 (drawPos .p0 s))))

/-! ### Register maps -/

/-- A TIA write register (61_tia R500). -/
inductive TiaWriteReg where
  | latch (r : TiaLatch)
  | strobe (r : TiaStrobe)
deriving DecidableEq, Repr

/-- The TIA write register at a write local 0x00..0x3F; 0x2D..0x3F hold none (61_tia R500). -/
def tiaWriteReg (loc : Nat) : Option TiaWriteReg :=
  match loc with
  | 0x00 => some (.latch .vsync)
  | 0x01 => some (.latch .vblank)
  | 0x02 => some (.strobe .wsync)
  | 0x03 => some (.strobe .rsync)
  | 0x04 => some (.latch .nusiz0)
  | 0x05 => some (.latch .nusiz1)
  | 0x06 => some (.latch .colup0)
  | 0x07 => some (.latch .colup1)
  | 0x08 => some (.latch .colupf)
  | 0x09 => some (.latch .colubk)
  | 0x0A => some (.latch .ctrlpf)
  | 0x0B => some (.latch .refp0)
  | 0x0C => some (.latch .refp1)
  | 0x0D => some (.latch .pf0)
  | 0x0E => some (.latch .pf1)
  | 0x0F => some (.latch .pf2)
  | 0x10 => some (.strobe .resp0)
  | 0x11 => some (.strobe .resp1)
  | 0x12 => some (.strobe .resm0)
  | 0x13 => some (.strobe .resm1)
  | 0x14 => some (.strobe .resbl)
  | 0x15 => some (.latch .audc0)
  | 0x16 => some (.latch .audc1)
  | 0x17 => some (.latch .audf0)
  | 0x18 => some (.latch .audf1)
  | 0x19 => some (.latch .audv0)
  | 0x1A => some (.latch .audv1)
  | 0x1B => some (.latch .grp0)
  | 0x1C => some (.latch .grp1)
  | 0x1D => some (.latch .enam0)
  | 0x1E => some (.latch .enam1)
  | 0x1F => some (.latch .enabl)
  | 0x20 => some (.latch .hmp0)
  | 0x21 => some (.latch .hmp1)
  | 0x22 => some (.latch .hmm0)
  | 0x23 => some (.latch .hmm1)
  | 0x24 => some (.latch .hmbl)
  | 0x25 => some (.latch .vdelp0)
  | 0x26 => some (.latch .vdelp1)
  | 0x27 => some (.latch .vdelbl)
  | 0x28 => some (.latch .resmp0)
  | 0x29 => some (.latch .resmp1)
  | 0x2A => some (.strobe .hmove)
  | 0x2B => some (.strobe .hmclr)
  | 0x2C => some (.strobe .cxclr)
  | _ => none

/-- The bits a TIA read drives (20_memory R80, 61_tia R501): bits 7 and 6, only bit 7 at CXBLPF and INPT0..INPT5, none at
0xE and 0xF. -/
def tiaDriven (loc : Nat) : Byte :=
  if loc < 6 ∨ loc = 7 then 0xC0#8
  else if loc < 0xE then 0x80#8
  else 0x00#8

/-- The paddle level an input port shows, grounded while VBLANK bit 7 is 1 (61_tia R553). -/
def paddleBit (t : Tia) (level : Bool) : Bool := level && !t.inptDump

/-- Bit 7 of INPT4 or INPT5: 0 while pressed, and, while VBLANK bit 6 is 1, once it has been low (61_tia R554). -/
def buttonBit (t : Tia) (pressed low : Bool) : Bool := !(pressed || (t.inptLatchEnable && low))

/-- Bits 7 and 6 of a byte. -/
def topBits (b7 b6 : Bool) : Byte := bitAt 7 b7 ||| bitAt 6 b6

/-- What the TIA puts on the bits it drives at a read local 0x0..0xF (61_tia R501). -/
def tiaChip (t : Tia) (inp : Inputs) (loc : Nat) : Byte :=
  let c := t.collisions
  match loc with
  | 0x0 => topBits c.p1m0 c.p0m0
  | 0x1 => topBits c.p0m1 c.p1m1
  | 0x2 => topBits c.p0pf c.p0bl
  | 0x3 => topBits c.p1pf c.p1bl
  | 0x4 => topBits c.m0pf c.m0bl
  | 0x5 => topBits c.m1pf c.m1bl
  | 0x6 => topBits c.blpf false
  | 0x7 => topBits c.p0p1 c.m0m1
  | 0x8 => topBits (paddleBit t inp.paddle0) false
  | 0x9 => topBits (paddleBit t inp.paddle1) false
  | 0xA => topBits (paddleBit t inp.paddle2) false
  | 0xB => topBits (paddleBit t inp.paddle3) false
  | 0xC => topBits (buttonBit t inp.fireLeft t.inpt4Low) false
  | 0xD => topBits (buttonBit t inp.fireRight t.inpt5Low) false
  | _ => 0x00#8

/-! ### Stores -/

/-- The INPT4/INPT5 latches as VBLANK bit 6 and the buttons make them: while bit 6 is 1 a pressed button is latched low, bit 6 = 0
clears both (61_tia R554; log 19). -/
def sampleButtons (inp : Inputs) (t : Tia) : Tia :=
  { t with inpt4Low := t.inptLatchEnable && (t.inpt4Low || inp.fireLeft),
           inpt5Low := t.inptLatchEnable && (t.inpt5Low || inp.fireRight) }

/-- NUSIZn's fields of a byte (61_tia R510). -/
def nusizOf (v : Byte) : Nusiz := { copies := v.extractLsb' 0 3, width := v.extractLsb' 4 2 }

/-- CTRLPF's fields of a byte (61_tia R509). -/
def ctrlpfOf (v : Byte) : Ctrlpf :=
  { ref := v.getLsbD 0, score := v.getLsbD 1, pfp := v.getLsbD 2, ballWidth := v.extractLsb' 4 2 }

/-- A colour register's seven bits (61_tia R508). -/
def colourOf (v : Byte) : BitVec 7 := v.extractLsb' 1 7

/-- The value a store gives a latched register: the bits R500 lists, the others ignored. GRP0, GRP1 and ENABL follow the
vertical-delay latches (61_tia R500, R518, R522); the ball's delayed copy is `Tia.copyBall`. -/
def Tia.store (t : Tia) (r : TiaLatch) (v : Byte) : Tia :=
  match r with
  | .vsync => { t with vsync := v.getLsbD 1 }
  | .vblank => { t with vblank := v.getLsbD 1, inptLatchEnable := v.getLsbD 6, inptDump := v.getLsbD 7 }
  | .nusiz0 => { t with nusiz0 := nusizOf v }
  | .nusiz1 => { t with nusiz1 := nusizOf v }
  | .colup0 => { t with colup0 := colourOf v }
  | .colup1 => { t with colup1 := colourOf v }
  | .colupf => { t with colupf := colourOf v }
  | .colubk => { t with colubk := colourOf v }
  | .ctrlpf => { t with ctrlpf := ctrlpfOf v }
  | .refp0 => { t with refp0 := v.getLsbD 3 }
  | .refp1 => { t with refp1 := v.getLsbD 3 }
  | .pf0 => { t with pf0 := v.extractLsb' 4 4 }
  | .pf1 => { t with pf1 := v }
  | .pf2 => { t with pf2 := v }
  | .audc0 => { t with audio := { t.audio with audc0 := v.extractLsb' 0 4 } }
  | .audc1 => { t with audio := { t.audio with audc1 := v.extractLsb' 0 4 } }
  | .audf0 => { t with audio := { t.audio with audf0 := v.extractLsb' 0 5 } }
  | .audf1 => { t with audio := { t.audio with audf1 := v.extractLsb' 0 5 } }
  | .audv0 => { t with audio := { t.audio with audv0 := v.extractLsb' 0 4 } }
  | .audv1 => { t with audio := { t.audio with audv1 := v.extractLsb' 0 4 } }
  | .grp0 => { t with grp0new := v, grp1old := t.grp1new }
  | .grp1 => { t with grp1new := v, grp0old := t.grp0new }
  | .enam0 => { t with enam0 := v.getLsbD 1 }
  | .enam1 => { t with enam1 := v.getLsbD 1 }
  | .enabl => { t with blNew := v.getLsbD 1 }
  | .hmp0 => { t with hm := { t.hm with p0 := v.extractLsb' 4 4 } }
  | .hmp1 => { t with hm := { t.hm with p1 := v.extractLsb' 4 4 } }
  | .hmm0 => { t with hm := { t.hm with m0 := v.extractLsb' 4 4 } }
  | .hmm1 => { t with hm := { t.hm with m1 := v.extractLsb' 4 4 } }
  | .hmbl => { t with hm := { t.hm with bl := v.extractLsb' 4 4 } }
  | .vdelp0 => { t with vdelp0 := v.getLsbD 0 }
  | .vdelp1 => { t with vdelp1 := v.getLsbD 0 }
  | .vdelbl => { t with vdelbl := v.getLsbD 0 }
  | .resmp0 => { t with resmp0 := v.getLsbD 1 }
  | .resmp1 => { t with resmp1 := v.getLsbD 1 }

/-- Whether a latch's store makes the ball's delayed copy: GRP1's (61_tia R500, R518) or GRP0's (70_reset_and_hazards R717), as the
parameter says. DESIGN CHOICE (log 37). -/
def TiaLatch.copiesBall (r : TiaLatch) (c : BallCopy) : Bool :=
  match r with
  | .grp0 => c == .withGrp0
  | .grp1 => c == .withGrp1
  | _ => false

/-- The ball's delayed latch after the store of a latch (61_tia R518, R522). -/
def Tia.copyBall (c : BallCopy) (r : TiaLatch) (t : Tia) : Tia :=
  { t with blOld := if r.copiesBall c then t.blNew else t.blOld }

/-- The object whose motion register a latch is (61_tia R500). -/
def TiaLatch.motionOf : TiaLatch → Option Obj
  | .hmp0 => some .p0
  | .hmp1 => some .p1
  | .hmm0 => some .m0
  | .hmm1 => some .m1
  | .hmbl => some .bl
  | _ => none

/-- Inside the `hmove_busy` interval of a full HMOVE (61_tia R543; log 15). -/
def hmoveBusyNow (p : Params) (t : Tia) : Bool :=
  match t.hmoveAge with
  | some k => decide (k ≤ p.hmoveBusy)
  | none => false

/-- The effect of a latched register's store: the value, the ball's delayed copy when it is a player's graphics,
    the fire-button latches when it is VBLANK (61_tia R554), and a free
position when it is a motion register inside `hmove_busy` (R543). -/
def storeLatch (r : TiaLatch) (v : Byte) (s : State) : State :=
  let s1 := { s with tia := (s.tia.store r v).copyBall s.params.ballCopy r }
  match r with
  | .vblank => { s1 with tia := sampleButtons s1.inputs s1.tia }
  | r =>
    match r.motionOf with
    | some o => if hmoveBusyNow s.params s.tia then drawPos o s1 else s1
    | none => s1

/-! ### Strobes and futures -/

/-- Schedule an action with a delay: it fires at the (d + 1)-th tick from now (61_tia R503). A second strobe schedules a second
future (R561). -/
def schedule (d : Nat) (a : TiaAction) (s : State) : State :=
  { s with tia := { s.tia with futures := s.tia.futures ++ [{ remaining := d + 1, action := a }] } }

/-- The delay parameter of a latched register (61_tia R503). -/
def latchDelay (p : Params) : TiaLatch → Nat
  | .pf0 | .pf1 | .pf2 => p.delayPf
  | .grp0 | .grp1 | .enabl => p.delayGrp
  | _ => p.delayOther

/-- The pixel offset of a reset at a visible clock (61_tia R523). -/
def visOff (p : Params) : Obj → Fin 160
  | .p0 | .p1 => p.visOffPlayer
  | .m0 | .m1 => p.visOffMissile
  | .bl => p.visOffBall

/-- The position a reset during HBLANK gives (61_tia R523). -/
def hbPos (p : Params) : Obj → Fin 160
  | .p0 | .p1 => p.hbPosPlayer
  | .m0 | .m1 => p.hbPosMissile
  | .bl => p.hbPosBall

/-- Whether a reset of this object at a visible clock suppresses its main copy (61_tia R524). -/
def suppresses (p : Params) : Obj → Bool
  | .p0 | .p1 | .m0 | .m1 => true
  | .bl => p.ballSuppress

/-- A position reset firing at the current clock (61_tia R523, R524, R543; log 17). -/
def resetPosition (o : Obj) (s : State) : State :=
  let t := s.tia
  let h := t.hclock.val
  let s1 :=
    if h < 68 then { s with tia := { t with pos := t.pos.set o (hbPos s.params o) } }
    else { s with tia := { t with
      pos := t.pos.set o (Fin.ofNat 160 (h - 68 + (visOff s.params o).val)),
      copy0Suppressed := t.copy0Suppressed.set o (t.copy0Suppressed.get o || suppresses s.params o) } }
  if hmoveBusyNow s.params t then drawPos o s1 else s1

/-- The position after a full HMOVE with motion nibble `hm`: positive motion moves left (61_tia R540). -/
def movedPos (pos : Fin 160) (hm : BitVec 4) : Fin 160 := Fin.ofNat 160 (((pos.val : Int) - hm.toInt) % 160).toNat

/-- Every object moved by its motion register (61_tia R540). -/
def movedAll (t : Tia) : PerObj (Fin 160) :=
  { p0 := movedPos t.pos.p0 t.hm.p0, p1 := movedPos t.pos.p1 t.hm.p1,
    m0 := movedPos t.pos.m0 t.hm.m0, m1 := movedPos t.pos.m1 t.hm.m1, bl := movedPos t.pos.bl t.hm.bl }

/-- The HMOVE action: the full movement inside the window, else every position and `hmoveLine` are free
(61_tia R540, R541). -/
def hmoveAction (s : State) : State :=
  if s.tia.hclock.val ≤ s.params.hmoveFullLast then
    { s with tia := { s.tia with hmoveLine := true, pos := movedAll s.tia, hmoveAge := some 0 } }
  else
    let r := drawBool (drawAllPos s)
    { r.2 with tia := { r.2.tia with hmoveLine := r.1 } }

/-- HMCLR: all five motion registers are cleared; inside `hmove_busy` each position becomes free
(61_tia R542, R543; 70_reset_and_hazards R716; log 15). -/
def hmclrAction (s : State) : State :=
  let s1 := { s with tia := { s.tia with hm := PerObj.all 0#4 } }
  if hmoveBusyNow s.params s.tia then drawAllPos s1 else s1

/-- What a future does when it fires (61_tia R503, R506, R523, R540, R542, R552). -/
def fireAction (a : TiaAction) (s : State) : State :=
  match a with
  | .resetPos o => resetPosition o s
  | .hmove => hmoveAction s
  | .hmclr => hmclrAction s
  | .cxclr => { s with tia := { s.tia with collisions := Collisions.clear } }
  | .rsync => { s with tia := { s.tia with hclock := 227 } }
  | .store r v => storeLatch r v s

/-- Fire a list of futures in order. -/
def fireAll : List Future → State → State
  | [], s => s
  | f :: rest, s => fireAll rest (fireAction f.action s)

/-- The futures still pending after one tick, one clock closer (61_tia R561). -/
def stillPending (fs : List Future) : List Future :=
  (fs.filter (fun f => decide (1 < f.remaining))).map (fun f => { f with remaining := f.remaining - 1 })

/-- The futures due at this tick, in scheduling order (61_tia R561). -/
def dueNow (fs : List Future) : List Future := fs.filter (fun f => decide (f.remaining ≤ 1))

/-- Step 2 of the tick: due futures fire in scheduling order and are removed (61_tia R515, R561). -/
def runFutures (s : State) : State :=
  fireAll (dueNow s.tia.futures) { s with tia := { s.tia with futures := stillPending s.tia.futures } }

/-- A CPU write cycle to a TIA write local: a latched register stores at once or, under a delay, as a future; a strobe schedules
its action; WSYNC sets its latch itself; a local with no register changes nothing (61_tia R500, R503, R506, R560). -/
def tiaWrite (loc : Nat) (v : Byte) (s : State) : State :=
  match tiaWriteReg loc with
  | none => s
  | some (.latch r) =>
    match latchDelay s.params r with
    | 0 => storeLatch r v s
    | d + 1 => schedule (d + 1) (.store r v) s
  | some (.strobe .wsync) => { s with tia := { s.tia with wsync := true } }
  | some (.strobe .rsync) =>
    match s.params.rsyncModel with
    | .restartLine => schedule s.params.delayOther .rsync s
    | .refuse => { s with refusal := some .rsyncRefused }
  | some (.strobe .resp0) => schedule s.params.delayRes (.resetPos .p0) s
  | some (.strobe .resp1) => schedule s.params.delayRes (.resetPos .p1) s
  | some (.strobe .resm0) => schedule s.params.delayRes (.resetPos .m0) s
  | some (.strobe .resm1) => schedule s.params.delayRes (.resetPos .m1) s
  | some (.strobe .resbl) => schedule s.params.delayRes (.resetPos .bl) s
  | some (.strobe .hmove) => schedule s.params.delayHmove .hmove s
  | some (.strobe .hmclr) => schedule s.params.delayOther .hmclr s
  | some (.strobe .cxclr) => schedule s.params.delayOther .cxclr s

/-! ### The picture -/

/-- Whether the current clock is an HBLANK clock, the HMOVE comb included (61_tia R513). -/
def isHblank (t : Tia) : Bool := decide (t.hclock.val < 68) || (t.hmoveLine && decide (t.hclock.val < 76))

/-- The visible pixel index of the current clock, meaningful from clock 68 on (61_tia R511). -/
def visibleX (t : Tia) : Fin 160 := Fin.ofNat 160 (t.hclock.val - 68)

/-- The copy offsets NUSIZ selects (61_tia R510). -/
def copyOffsets (n : Nusiz) : List (Fin 160) :=
  match n.copies.toNat with
  | 1 => [0, 16]
  | 2 => [0, 32]
  | 3 => [0, 16, 32]
  | 4 => [0, 64]
  | 6 => [0, 32, 64]
  | _ => [0]

/-- The player scale NUSIZ selects (61_tia R510). -/
def playerScale (n : Nusiz) : Nat :=
  match n.copies.toNat with
  | 5 => 2
  | 7 => 4
  | _ => 1

/-- 1, 2, 4 or 8 pixels: a missile's or the ball's width (61_tia R509, R510). -/
def objWidth (w : BitVec 2) : Nat := 2 ^ w.toNat

/-- The graphics bit `k` pixels into a copy of scale `s`, leftmost bit 7 unless reflected (61_tia R519). -/
def playerGfxBit (gfx : Byte) (reflect : Bool) (s k : Nat) : Bool :=
  if k < 8 * s then (if reflect then gfx.getLsbD (k / s) else gfx.getLsbD (7 - k / s)) else false

/-- A player's pixel at x; a scaled player is drawn one pixel further right (61_tia R519, R523). -/
def playerBit (pos : Fin 160) (n : Nusiz) (gfx : Byte) (reflect suppressed : Bool) (x : Fin 160) : Bool :=
  let s := playerScale n
  let p := if 1 < s then pos + 1 else pos
  (copyOffsets n).any (fun c => !(c == 0 && suppressed) && playerGfxBit gfx reflect s (x - p - c).val)

/-- A missile's pixel at x (61_tia R520). -/
def missileBit (enabled locked : Bool) (pos : Fin 160) (n : Nusiz) (suppressed : Bool) (x : Fin 160) : Bool :=
  enabled && !locked &&
    (copyOffsets n).any (fun c => !(c == 0 && suppressed) && decide ((x - pos - c).val < objWidth n.width))

/-- The player graphics in force under vertical delay (61_tia R518). -/
def gfx0 (t : Tia) : Byte := if t.vdelp0 then t.grp0old else t.grp0new

/-- The player graphics in force under vertical delay (61_tia R518). -/
def gfx1 (t : Tia) : Byte := if t.vdelp1 then t.grp1old else t.grp1new

/-- The ball's pixel at x (61_tia R522). -/
def ballBit (t : Tia) (x : Fin 160) : Bool :=
  (if t.vdelbl then t.blOld else t.blNew) && decide ((x - t.pos.bl).val < objWidth t.ctrlpf.ballWidth) &&
    !t.copy0Suppressed.bl

/-- Playfield bit `i`, 0..19 (61_tia R516). -/
def playfieldAt (t : Tia) (i : Nat) : Bool :=
  if i < 4 then t.pf0.getLsbD i
  else if i < 12 then t.pf1.getLsbD (11 - i)
  else t.pf2.getLsbD (i - 12)

/-- The playfield's pixel at x: 4 pixels a bit, the right half reflected or repeated (61_tia R516). -/
def playfieldBit (t : Tia) (x : Nat) : Bool :=
  if x < 80 then playfieldAt t (x / 4)
  else if t.ctrlpf.ref then playfieldAt t (19 - (x - 80) / 4)
  else playfieldAt t ((x - 80) / 4)

/-- The six sources' bits at one pixel. -/
structure PixelBits where
  p0 : Bool
  p1 : Bool
  m0 : Bool
  m1 : Bool
  bl : Bool
  pf : Bool
deriving DecidableEq, Repr

/-- All six at x (61_tia R516, R519, R520, R522). -/
def pixelBits (t : Tia) (x : Fin 160) : PixelBits :=
  { p0 := playerBit t.pos.p0 t.nusiz0 (gfx0 t) t.refp0 t.copy0Suppressed.p0 x,
    p1 := playerBit t.pos.p1 t.nusiz1 (gfx1 t) t.refp1 t.copy0Suppressed.p1 x,
    m0 := missileBit t.enam0 t.resmp0 t.pos.m0 t.nusiz0 t.copy0Suppressed.m0 x,
    m1 := missileBit t.enam1 t.resmp1 t.pos.m1 t.nusiz1 t.copy0Suppressed.m1 x,
    bl := ballBit t x,
    pf := playfieldBit t x.val }

/-- Both sources of one priority group are on: which of the two won is not stated (log 18). -/
def PixelBits.tie (b : PixelBits) : Bool := (b.p0 && b.m0) || (b.p1 && b.m1) || (b.pf && b.bl)

/-- The winner of a priority group; `free` decides between two that are both on (61_tia R525, R528; log 18). -/
def pickSource (free b1 b2 : Bool) (s1 s2 : Source) : Source :=
  if b1 && b2 then (if free then s1 else s2) else if b1 then s1 else s2

/-- The source that wins the priority decision (61_tia R525, R528). -/
def winner (free : Bool) (t : Tia) (b : PixelBits) : Source :=
  let players : Option Source :=
    if b.p0 || b.m0 then some (pickSource free b.p0 b.m0 .p0 .m0)
    else if b.p1 || b.m1 then some (pickSource free b.p1 b.m1 .p1 .m1)
    else none
  let playfield : Option Source :=
    if b.pf || b.bl then some (pickSource free b.pf b.bl .pf .bl) else none
  if t.ctrlpf.pfp then (playfield.or players).getD .bk else (players.or playfield).getD .bk

/-- The playfield's colour at x: COLUPF, or the left and right player colours in score mode (61_tia R526). -/
def playfieldColour (p : Params) (t : Tia) (x : Nat) : BitVec 7 :=
  if t.ctrlpf.score && (!t.ctrlpf.pfp || p.scoreWithPfp) then (if x < 80 then t.colup0 else t.colup1) else t.colupf

/-- The colour a source shows at x (61_tia R525, R526). -/
def sourceColour (p : Params) (t : Tia) (x : Nat) : Source → BitVec 7
  | .p0 | .m0 => t.colup0
  | .p1 | .m1 => t.colup1
  | .pf => playfieldColour p t x
  | .bl => t.colupf
  | .bk => t.colubk

/-- The latches after a tick's bits: set for every pair of sources that are both on (61_tia R550, R551). -/
def latchCollisions (c : Collisions) (b : PixelBits) : Collisions :=
  { p0p1 := c.p0p1 || (b.p0 && b.p1), p0m0 := c.p0m0 || (b.p0 && b.m0), p0m1 := c.p0m1 || (b.p0 && b.m1),
    p0bl := c.p0bl || (b.p0 && b.bl), p0pf := c.p0pf || (b.p0 && b.pf),
    p1m0 := c.p1m0 || (b.p1 && b.m0), p1m1 := c.p1m1 || (b.p1 && b.m1),
    p1bl := c.p1bl || (b.p1 && b.bl), p1pf := c.p1pf || (b.p1 && b.pf),
    m0m1 := c.m0m1 || (b.m0 && b.m1), m0bl := c.m0bl || (b.m0 && b.bl), m0pf := c.m0pf || (b.m0 && b.pf),
    m1bl := c.m1bl || (b.m1 && b.bl), m1pf := c.m1pf || (b.m1 && b.pf), blpf := c.blpf || (b.bl && b.pf) }

/-! ### The tick -/

/-- `hmoveAge` one clock later: none once the `hmove_busy` interval is over (61_tia R543; log 15). -/
def olderHmove (p : Params) : Option Nat → Option Nat
  | some k => if k + 1 ≤ p.hmoveBusy then some (k + 1) else none
  | none => none

/-- Step 1 of the tick: the counter advances; a new line clears `wsync`, `hmoveLine` and the suppressions (61_tia R515). -/
def advanceClock (p : Params) (t : Tia) : Tia :=
  let t1 := { t with hclock := t.hclock + 1, hmoveAge := olderHmove p t.hmoveAge }
  if t1.hclock = 0 then
    { t1 with wsync := false, hmoveLine := false, copy0Suppressed := PerObj.all false }
  else t1

/-- The RESMP offset for a player scale (61_tia R521). -/
def resmpOffset (p : Params) (n : Nusiz) : Fin 160 :=
  match playerScale n with
  | 1 => p.resmpOffset1
  | 2 => p.resmpOffset2
  | _ => p.resmpOffset4

/-- The RESMP lock: a locked missile's position follows its player (61_tia R521). -/
def resmpLock (p : Params) (t : Tia) : Tia :=
  { t with pos := { t.pos with
    m0 := if t.resmp0 then t.pos.p0 + resmpOffset p t.nusiz0 else t.pos.m0,
    m1 := if t.resmp1 then t.pos.p1 + resmpOffset p t.nusiz1 else t.pos.m1 } }

/-- Steps 3 to 6 of the tick after the RESMP lock: the pixel, its source and the collisions (61_tia R515, R525 to R528, R551).
In HBLANK nothing is drawn and nothing collides; under VBLANK the output is black. -/
def drawPixel (s : State) : Option (BitVec 7) × Option Source × State :=
  let t := s.tia
  if isHblank t then (none, none, s)
  else
    let x := visibleX t
    let b := pixelBits t x
    let src := winner (Config.freeBool s.draws) t b
    let t1 := if t.vblank && !s.params.collisionsInVblank then t
      else { t with collisions := latchCollisions t.collisions b }
    let s1 := { s with tia := t1, draws := if b.tie then s.draws + 1 else s.draws }
    if t.vblank then (none, none, s1) else (some (sourceColour s.params t x.val src), some src, s1)

/-- The signals of the current clock (61_tia R514, R527, R528). -/
def signalOf (t : Tia) (pixel : Option (BitVec 7)) (alt : Option Source) : Attrs :=
  let h := t.hclock.val
  { vsync := t.vsync, vblank := t.vblank, frontporch := h == 0,
    hsync := decide (16 ≤ h) && decide (h < 32), cburst := decide (32 ≤ h) && decide (h < 48),
    pixel := pixel, alt := alt }

/-- Log a report with the id of the access it belongs to (60_exceptions R460; log 22). -/
def State.report (s : State) (r : Report) : State :=
  { s with reports := s.reports ++ [{ report := r, accessId := s.lastAccessId }] }

/-- Log several reports in order, each with the id of the same access. -/
def reportAll (rs : List Report) (s : State) : State :=
  { s with reports := s.reports ++ rs.map (fun r => { report := r, accessId := s.lastAccessId }) }

/-- Step 7 of the tick: `Signal` to the television, its failed checks logged and its renderer calls recorded (61_tia R515,
62_television R601, R611, R617). -/
def sendSignal (at_ : Attrs) (s : State) : State :=
  let w := tvSignal s.params at_ s.tv
  reportAll (w.checks.map Report.outOfSpec) { s with tv := w.tv, sink := w.events.reverse ++ s.sink }

/-- An audio-sample event at `hclock ∈ {audio_phase, audio_phase + 114}`, its value free (61_tia R529). -/
def audioEvent (s : State) : State :=
  let h := s.tia.hclock.val
  let ph := s.params.audioPhase.val
  if h = ph ∨ h = ph + 114 then
    { s with sink := .audioSample (Config.freeSample s.draws) :: s.sink, draws := s.draws + 1 }
  else s

/-- The fire-button latches follow the buttons once a tick (61_tia R554; log 19). -/
def latchButtons (s : State) : State := { s with tia := sampleButtons s.inputs s.tia }

/-- The seven steps of a TIA tick (61_tia R515). -/
def beamTick (s : State) : State :=
  let s1 := runFutures { s with tia := advanceClock s.params s.tia }
  let d := drawPixel { s1 with tia := resmpLock s1.params s1.tia }
  audioEvent (sendSignal (signalOf d.2.2.tia d.1 d.2.1) d.2.2)

/-- One TIA tick: the fire-button latches, then the steps of 61_tia R515. -/
def tiaTick (s : State) : State := beamTick (latchButtons s)

end Sys2Proof.Machine
end

