-- ==== Sys2Proof/Machine/Riot.lean ====
section
/-! DEFINITION. The RIOT's I/O ports and timer (63_riot_console section 1). -/

namespace Sys2Proof.Machine

/-- A RIOT register a read reaches (63_riot_console R651). -/
inductive RiotRead where
  | swcha | swacnt | swchb | swbcnt | intim | timint
deriving DecidableEq, Repr

/-- A RIOT register a write reaches (63_riot_console R651). -/
inductive RiotWrite where
  | ora | ddra | orb | ddrb
  | timer (i : Interval)
  | edge (positive : Bool)
deriving DecidableEq, Repr

/-- The register a read of RIOT local `r = a13[4:0]` reaches (63_riot_console R651). -/
def riotReadReg (r : Nat) : RiotRead :=
  if r.testBit 2 then (if r.testBit 0 then .timint else .intim)
  else
    match r % 4 with
    | 0 => .swcha
    | 1 => .swacnt
    | 2 => .swchb
    | _ => .swbcnt

/-- The interval of timer register k = r[1:0]: TIM1T, TIM8T, TIM64T, T1024T (63_riot_console R651, R653). -/
def intervalOf (k : Nat) : Interval :=
  match k with
  | 0 => .i1
  | 1 => .i8
  | 2 => .i64
  | _ => .i1024

/-- The register a write of RIOT local `r = a13[4:0]` reaches (63_riot_console R651). -/
def riotWriteReg (r : Nat) : RiotWrite :=
  if r.testBit 2 then (if r.testBit 4 then .timer (intervalOf (r % 4)) else .edge (r.testBit 0))
  else
    match r % 4 with
    | 0 => .ora
    | 1 => .ddra
    | 2 => .orb
    | _ => .ddrb

/-- A port read: output bits from the output register, input bits from the pins (63_riot_console R658). -/
def portRead (out ddr pins : Byte) : Byte := (out &&& ddr) ||| (pins &&& ~~~ddr)

/-- The bits of port B that have a switch; bits 2, 4 and 5 read as draws (63_riot_console R658; log 20). -/
def portBSwitches : Byte := 0xCB#8

/-- The PA7 pin level: port A bit 7 as a port read gives it (63_riot_console R657). -/
def pa7 (r : Riot) (inp : Inputs) : Bool := (portRead r.ora r.ddra inp.pinsA).getLsbD 7

/-- A timer write (63_riot_console R653). Under `full_interval` the first decrement comes after a whole interval (log 24). -/
def riotSetTimer (phase : RiotWritePhase) (i : Interval) (v : Byte) (r : Riot) : Riot :=
  { r with timer := v, interval := i, tf := false,
           prescale := match phase with | .decrementFirst => 0 | .fullInterval => 1 % i.length }

/-- A RIOT write (63_riot_console R652, R653, R657). -/
def riotWrite (phase : RiotWritePhase) (w : RiotWrite) (v : Byte) (r : Riot) : Riot :=
  match w with
  | .ora => { r with ora := v }
  | .ddra => { r with ddra := v }
  | .orb => { r with orb := v }
  | .ddrb => { r with ddrb := v }
  | .timer i => riotSetTimer phase i v r
  | .edge pos => { r with edgePos := pos }

/-- TIMINT: TF in bit 7, PF7 in bit 6 (63_riot_console R656). -/
def timintByte (r : Riot) : Byte := topBits r.tf r.pf7

/-- Reading INTIM clears TF, and restarts the prescaler if TF was set (63_riot_console R655). -/
def riotAfterIntim (r : Riot) : Riot :=
  { r with tf := false, prescale := if r.tf then 0 else r.prescale }

/-- Reading TIMINT clears PF7 (63_riot_console R656). -/
def riotAfterTimint (r : Riot) : Riot := { r with pf7 := false }

/-- What a register holds when port B shows `pinsB`, with no side effect (63_riot_console R651, R655, R656, R658). -/
def riotValue (q : RiotRead) (r : Riot) (inp : Inputs) (pinsB : Byte) : Byte :=
  match q with
  | .swcha => portRead r.ora r.ddra inp.pinsA
  | .swacnt => r.ddra
  | .swchb => portRead r.orb r.ddrb pinsB
  | .swbcnt => r.ddrb
  | .intim => r.timer
  | .timint => timintByte r

/-- A RIOT read cycle with its side effects; a read of port B takes a free byte for the bits that have no switch. -/
def riotRead (q : RiotRead) (s : State) : Byte × State :=
  match q with
  | .swchb =>
    let f := drawByte s
    (riotValue .swchb s.riot s.inputs (mergeBits portBSwitches s.inputs.pinsB f.1), f.2)
  | .intim => (s.riot.timer, { s with riot := riotAfterIntim s.riot })
  | .timint => (timintByte s.riot, { s with riot := riotAfterTimint s.riot })
  | .swcha => (riotValue .swcha s.riot s.inputs s.inputs.pinsB, s)
  | .swacnt => (s.riot.ddra, s)
  | .swbcnt => (s.riot.ddrb, s)

/-- The timer's part of a RIOT tick (63_riot_console R654). -/
def timerTick (r : Riot) : Riot :=
  if r.tf then { r with timer := r.timer - 1 }
  else
    let r1 :=
      if r.prescale = 0 then
        (if r.timer = 0x00#8 then { r with timer := 0xFF#8, tf := true } else { r with timer := r.timer - 1 })
      else r
    { r1 with prescale := (r.prescale + 1) % r.interval.length }

/-- The edge detector's part of a RIOT tick (63_riot_console R657). -/
def edgeTick (inp : Inputs) (r : Riot) : Riot :=
  let now := pa7 r inp
  let edge := (now && !r.prevPa7 && r.edgePos) || (!now && r.prevPa7 && !r.edgePos)
  { r with pf7 := r.pf7 || edge, prevPa7 := now }

/-- One RIOT tick: the timer, then the edge detector (63_riot_console R660 step 5). -/
def riotTick (s : State) : State := { s with riot := edgeTick s.inputs (timerTick s.riot) }

end Sys2Proof.Machine
end

