-- ==== Sys2Proof/Machine/Bus.lean ====
section
/-! DEFINITION. The memory map and one bus access: which chip answers, what it drives, what the access changes
(20_memory sections 1, 2, 4, 5). No clock ticks here. -/

namespace Sys2Proof.Machine

/-- The four areas of the memory map (20_memory R72). -/
inductive Area where
  | tia | ram | riot | cart
deriving DecidableEq, Repr

/-- The area a 13-bit address decodes to (20_memory R72). -/
def areaOf (a : Addr13) : Area :=
  if a.getLsbD 12 then .cart
  else if !a.getLsbD 7 then .tia
  else if !a.getLsbD 9 then .ram
  else .riot

/-- The local address on a read (20_memory R72). -/
def readLocal (a : Addr13) : Nat :=
  match areaOf a with
  | .cart => a.toNat % 4096
  | .tia => a.toNat % 16
  | .ram => a.toNat % 128
  | .riot => a.toNat % 32

/-- The local address on a write (20_memory R72). -/
def writeLocal (a : Addr13) : Nat :=
  match areaOf a with
  | .cart => a.toNat % 4096
  | .tia => a.toNat % 64
  | .ram => a.toNat % 128
  | .riot => a.toNat % 32

/-- `mapAddress` (20_memory R72). -/
def mapAddress (a : Addr13) (isRead : Bool) : Area × Nat :=
  (areaOf a, if isRead then readLocal a else writeLocal a)

/-- A TIA read cycle: the driven bits, the others free (20_memory R80, 61_tia R501). It changes no TIA state (R81). -/
def tiaRead (loc : Nat) (s : State) : Byte × State :=
  let f := drawByte s
  (mergeBits (tiaDriven loc) (tiaChip s.tia s.inputs loc) f.1, f.2)

/-- A cartridge read cycle: the superchip's write port returns a free byte and stores another, every other local reads through
the mapper (20_memory R100 to R110; log 21). -/
def cartRead (loc : Nat) (s : State) : Byte × State :=
  if s.cart.inWritePort loc then
    let f := drawByte s
    let g := drawByte f.2
    (f.1, { g.2 with cart := { g.2.cart with scRam := g.2.cart.scRam.write loc g.1 } })
  else
    let r := s.cart.read loc
    (r.1, { s with cart := r.2 })

/-- The chip's part of a read cycle, side effects included (20_memory R70, R81). -/
def areaRead (area : Area) (loc : Nat) (s : State) : Byte × State :=
  match area with
  | .ram => (s.ram.read loc, s)
  | .tia => tiaRead loc s
  | .riot => riotRead (riotReadReg loc) s
  | .cart => cartRead loc s

/-- A read that reaches no register: TIA locals 0xE and 0xF, the superchip's write port (20_memory R84, 60_exceptions R463). -/
def unreadable (area : Area) (loc : Nat) (c : Cart) : Bool :=
  match area with
  | .tia => decide (0xE ≤ loc)
  | .cart => c.inWritePort loc
  | .ram | .riot => false

/-- The trace entry of an access (20_memory R85). -/
def State.recordAccess (s : State) (addr : Word) (v : Byte) (isWrite : Bool) : State :=
  { s with lastAccess := some { address := addr, value := v, isWrite := isWrite }, lastAccessId := s.lastAccessId + 1 }

/-- One read access (20_memory R70): the byte and the state after it, trace and report included. -/
def busRead (addr : Word) (s : State) : Byte × State :=
  let a := addr13 addr
  let r := areaRead (areaOf a) (readLocal a) s
  let s1 := r.2.recordAccess addr r.1 false
  (r.1, if unreadable (areaOf a) (readLocal a) s.cart then s1.report (.unreadableAddress a) else s1)

/-- The chip's part of a write cycle (20_memory R82, R110, R111). -/
def areaWrite (area : Area) (loc : Nat) (v : Byte) (s : State) : State :=
  match area with
  | .ram => { s with ram := s.ram.write loc v }
  | .tia => tiaWrite loc v s
  | .riot => { s with riot := riotWrite s.params.riotWritePhase (riotWriteReg loc) v s.riot }
  | .cart => { s with cart := s.cart.write s.params.hotspotOnWrite loc v }

/-- A write to a cartridge address that is not cartridge RAM (20_memory R111, 60_exceptions R462). -/
def unwritable (area : Area) (loc : Nat) (c : Cart) : Bool :=
  match area with
  | .cart => !c.inWritePort loc
  | .tia | .ram | .riot => false

/-- One write access (20_memory R70): the chip, `listen`, the trace, and the report of an unwritable address. -/
def busWrite (addr : Word) (v : Byte) (s : State) : State :=
  let a := addr13 addr
  let s1 := areaWrite (areaOf a) (writeLocal a) v s
  let s2 := { s1 with cart := s1.cart.listen a v }
  let s3 := s2.recordAccess addr v true
  if unwritable (areaOf a) (writeLocal a) s.cart then s3.report (.unwritableAddress a v) else s3

/-- `Peek`: the byte at an address with no side effect and no open-bus masking (20_memory R86): RAM and cartridge bytes as stored,
a TIA or RIOT register as a read would find it, its undriven bits 0. -/
def peek (addr : Word) (s : State) : Byte :=
  let a := addr13 addr
  match areaOf a with
  | .ram => s.ram.read (readLocal a)
  | .cart => s.cart.byteAt (readLocal a)
  | .tia => tiaChip s.tia s.inputs (readLocal a)
  | .riot => riotValue (riotReadReg (readLocal a)) s.riot s.inputs s.inputs.pinsB

end Sys2Proof.Machine
end

