-- ==== Sys2Proof/Machine/Flags.lean ====
section
/-! DEFINITION. The status byte and every flag computation: N and Z, the binary adder, decimal mode, compare, shifts
(10_state section 3, 43_arithmetic, 44_logic_shift). -/

namespace Sys2Proof.Machine

/-- `Pbyte`, the byte every push of P writes: bits 5 and 4 are 1 (10_state R37, 42_transfer_stack R250). -/
def Flags.toByte (p : Flags) : Byte :=
  bitAt 7 p.n ||| bitAt 6 p.v ||| 0x30#8 ||| bitAt 3 p.d ||| bitAt 2 p.i ||| bitAt 1 p.z ||| bitAt 0 p.c

/-- The flags every pull of P loads; bits 5 and 4 are ignored (10_state R37, 42_transfer_stack R260). -/
def Flags.ofByte (v : Byte) : Flags :=
  { n := v.getLsbD 7, v := v.getLsbD 6, d := v.getLsbD 3, i := v.getLsbD 2, z := v.getLsbD 1, c := v.getLsbD 0 }

/-- `SetNZ` (00_scope R10). -/
def Flags.setNZ (p : Flags) (v : Byte) : Flags := { p with n := v.getLsbD 7, z := v == 0x00#8 }

/-- A carry as a number. -/
def carryNat (c : Bool) : Nat := if c then 1 else 0

/-- What the adder gives: the byte, the carry and the overflow (43_arithmetic R280). -/
structure AddResult where
  value : Byte
  carry : Bool
  overflow : Bool
deriving DecidableEq, Repr

/-- `AddCore` (43_arithmetic R280). -/
def addCore (a b : Byte) (c : Bool) : AddResult :=
  let sum := a.toNat + b.toNat + carryNat c
  let r : Byte := BitVec.ofNat 8 sum
  { value := r, carry := decide (0xFF < sum), overflow := ((~~~(a ^^^ b)) &&& (a ^^^ r)).getLsbD 7 }

/-- What an instruction of the adder leaves: the new A and P. -/
structure AluResult where
  a : Byte
  p : Flags
deriving DecidableEq, Repr

/-- The low digit of a decimal addition after its adjustment: `al` of 43_arithmetic R282. -/
def decimalLow (a m : Byte) (c : Bool) : Nat :=
  let al := a.toNat % 16 + m.toNat % 16 + carryNat c
  if 0x0A ≤ al then (al + 0x06) % 16 + 0x10 else al

/-- The high digit of a byte, as the unsigned value of its upper nibble in place. -/
def highDigit (b : Byte) : Byte := b &&& 0xF0#8

/-- `DecimalAdd` (43_arithmetic R282). -/
def decimalAdd (a m : Byte) (p : Flags) : AluResult :=
  let bin : Byte := BitVec.ofNat 8 (a.toNat + m.toNat + carryNat p.c)
  let al := decimalLow a m p.c
  let t := (highDigit a).toNat + (highDigit m).toNat + al
  let st : Int := (highDigit a).toInt + (highDigit m).toInt + al
  let t2 := if 0xA0 ≤ t then t + 0x60 else t
  { a := BitVec.ofNat 8 t2,
    p := { p with z := bin == 0x00#8, n := t.testBit 7, v := decide (st < -128) || decide (127 < st), c := decide (0x100 ≤ t2) } }

/-- ADC, binary or decimal by D (43_arithmetic R281, R282). -/
def adc (a m : Byte) (p : Flags) : AluResult :=
  if p.d then decimalAdd a m p
  else
    let r := addCore a m p.c
    { a := r.value, p := { p with c := r.carry, v := r.overflow }.setNZ r.value }

/-- The value `DecimalSub` gives A (43_arithmetic R284); `%` on Int is taken in two's complement as the rule's `&` is. -/
def decimalSub (a m : Byte) (c : Bool) : Byte :=
  let al0 : Int := (a.toNat % 16 : Nat) - (m.toNat % 16 : Nat) + carryNat c - 1
  let al : Int := if al0 < 0 then (al0 - 0x06) % 16 - 0x10 else al0
  let t0 : Int := (highDigit a).toNat - (highDigit m).toNat + al
  let t : Int := if t0 < 0 then t0 - 0x60 else t0
  BitVec.ofInt 8 t

/-- SBC: all four flags are the binary subtraction's; A is the decimal difference when D is set (43_arithmetic R283, R284). -/
def sbc (a m : Byte) (p : Flags) : AluResult :=
  let r := addCore a (m ^^^ 0xFF#8) p.c
  { a := if p.d then decimalSub a m p.c else r.value,
    p := { p with c := r.carry, v := r.overflow }.setNZ r.value }

/-- `Compare` (43_arithmetic R285). -/
def compareFlags (r m : Byte) (p : Flags) : Flags :=
  { p with c := decide (m.toNat ≤ r.toNat), z := r == m, n := (r - m).getLsbD 7 }

/-- BIT's flags: N and V from the byte, Z from the and (44_logic_shift R324). -/
def bitFlags (a m : Byte) (p : Flags) : Flags :=
  { p with z := (a &&& m) == 0x00#8, n := m.getLsbD 7, v := m.getLsbD 6 }

/-- What a read-modify-write function gives: the new byte and P. -/
structure ShiftResult where
  value : Byte
  p : Flags
deriving DecidableEq, Repr

/-- A shifted byte with its carry out, N and Z set from it (44_logic_shift R320). -/
def shifted (r : Byte) (carry : Bool) (p : Flags) : ShiftResult := { value := r, p := { p with c := carry }.setNZ r }

/-- ASL (44_logic_shift R325). -/
def asl (v : Byte) (p : Flags) : ShiftResult := shifted (v <<< 1) (v.getLsbD 7) p

/-- LSR (44_logic_shift R326). -/
def lsr (v : Byte) (p : Flags) : ShiftResult := shifted (v >>> 1) (v.getLsbD 0) p

/-- ROL, with the carry before the instruction (44_logic_shift R327). -/
def rol (v : Byte) (p : Flags) : ShiftResult := shifted ((v <<< 1) ||| bitAt 0 p.c) (v.getLsbD 7) p

/-- ROR, with the carry before the instruction (44_logic_shift R328). -/
def ror (v : Byte) (p : Flags) : ShiftResult := shifted ((v >>> 1) ||| bitAt 7 p.c) (v.getLsbD 0) p

/-- INC (43_arithmetic R289). -/
def inc (v : Byte) (p : Flags) : ShiftResult := { value := v + 1, p := p.setNZ (v + 1) }

/-- DEC (43_arithmetic R292). -/
def dec (v : Byte) (p : Flags) : ShiftResult := { value := v - 1, p := p.setNZ (v - 1) }

end Sys2Proof.Machine
end

