-- ==== Sys2Proof/Machine/Ops.lean ====
section
/-! DEFINITION. The named operations: register writes, the console's CPU cycle, memory cycles with the WSYNC stall, the stack,
taking the BRK trap and returning from it (00_scope R10, 61_tia R560, 63_riot_console R660, 40_addressing_modes R196,
60_exceptions R442, R443). -/

namespace Sys2Proof.Machine

/-! ### Registers -/

/-- `A <- v`. -/
def State.setA (s : State) (v : Byte) : State := { s with cpu := { s.cpu with a := v } }

/-- `X <- v`. -/
def State.setX (s : State) (v : Byte) : State := { s with cpu := { s.cpu with x := v } }

/-- `Y <- v`. -/
def State.setY (s : State) (v : Byte) : State := { s with cpu := { s.cpu with y := v } }

/-- `S <- v`. -/
def State.setS (s : State) (v : Byte) : State := { s with cpu := { s.cpu with sp := v } }

/-- `PC <- w`. -/
def State.setPC (s : State) (w : Word) : State := { s with cpu := { s.cpu with pc := w } }

/-- `P <- p`. -/
def State.setP (s : State) (p : Flags) : State := { s with cpu := { s.cpu with p := p } }

/-- `SetNZ(v)` (00_scope R10). -/
def State.setNZ (s : State) (v : Byte) : State := s.setP (s.cpu.p.setNZ v)

/-- The result record's page-fault penalty flag (40_addressing_modes R195). -/
def State.markCrossed (s : State) : State := { s with result := { s.result with pageCrossed := true } }

/-- The result record's CPU-bug mark (10_state R39). -/
def State.markBug (s : State) (b : CpuBug) : State := { s with result := { s.result with bug := some b } }

/-- One more byte of the instruction itself observed (60_exceptions R465). -/
def State.countByte (s : State) : State := { s with result := { s.result with bytes := s.result.bytes + 1 } }

/-- One more cycle of the instruction itself (10_state R39, 61_tia R560). -/
def State.countCycle (s : State) : State := { s with result := { s.result with cycles := s.result.cycles + 1 } }

/-! ### The console's cycle -/

/-- Steps 2 to 6 of a CPU cycle: three TIA ticks, one RIOT tick, the counters (63_riot_console R660). -/
def endCycle (s : State) : State :=
  let s1 := riotTick (tiaTick (tiaTick (tiaTick s)))
  { s1 with colorClock := s1.colorClock + 3, cpuCycles := s1.cpuCycles + 1 }

/-- At most `n` stall cycles while `wsync` is set: no bus access, the clocks run (61_tia R560). -/
def stallFor : Nat → State → State
  | 0, s => s
  | n + 1, s => if s.tia.wsync then stallFor n (endCycle s) else s

/-- The WSYNC hold before a read cycle. 76 cycles are 228 ticks, a whole scanline, so the hold has always ended by then
(61_tia R511, R560; 70_reset_and_hazards R712). -/
def stall (s : State) : State := stallFor 76 s

/-- `MemRead(addr, 1)`: one CPU read cycle, held while `wsync` is set (00_scope R10, 61_tia R560). -/
def memRead (addr : Word) (s : State) : Byte × State :=
  let r := busRead addr (stall s)
  (r.1, endCycle r.2.countCycle)

/-- `DummyRead(addr)`: a read cycle whose value is discarded (00_scope R10). -/
def dummyRead (addr : Word) (s : State) : State := (memRead addr s).2

/-- `MemWrite(addr, 1, v)`: one CPU write cycle, never held (00_scope R10, 61_tia R560). -/
def memWrite (addr : Word) (v : Byte) (s : State) : State := endCycle (busWrite addr v s).countCycle

/-- `DummyRead(PC)`, cycle 2 of the one-byte instructions (40_addressing_modes R183). -/
def dummyReadPC (s : State) : State := dummyRead s.cpu.pc s

/-- An operand byte of the instruction: `MemRead(PC, 1); PC <- PC + 1` (10_state R35). -/
def fetchByte (s : State) : Byte × State :=
  let r := memRead s.cpu.pc s
  (r.1, (r.2.setPC (s.cpu.pc + 1)).countByte)

/-! ### The stack -/

/-- `Push(v)` (40_addressing_modes R196). -/
def push (v : Byte) (s : State) : State := (memWrite (stackAddr s.cpu.sp) v s).setS (s.cpu.sp - 1)

/-- `Pull()` (40_addressing_modes R196). -/
def pull (s : State) : Byte × State := memRead (stackAddr (s.cpu.sp + 1)) (s.setS (s.cpu.sp + 1))

/-- `DummyRead(0x0100 + S)` (40_addressing_modes R196). -/
def dummyReadStack (s : State) : State := dummyRead (stackAddr s.cpu.sp) s

/-! ### The trap -/

/-- The BRK trap's entry: PC (the address to return to) high byte first, then Pbyte, are pushed, I is set, PC comes from 0xFFFE
and 0xFFFF (60_exceptions R442, 46_flags_system R389 cycles 3 to 7). -/
def takeTrap (s : State) : State :=
  let s1 := push (hiByte s.cpu.pc) s
  let s2 := push (loByte s.cpu.pc) s1
  let s3 := push s2.cpu.p.toByte s2
  let s4 := s3.setP { s3.cpu.p with i := true }
  let lo := memRead 0xFFFE#16 s4
  let hi := memRead 0xFFFF#16 lo.2
  hi.2.setPC (mkWord hi.1 lo.1)

/-- The return from the trap: P, then PC low and high byte, are pulled (60_exceptions R443, 46_flags_system R390 cycles 3 to 6). -/
def returnFromTrap (s : State) : State :=
  let v := pull (dummyReadStack s)
  let lo := pull (v.2.setP (Flags.ofByte v.1))
  let hi := pull lo.2
  hi.2.setPC (mkWord hi.1 lo.1)

/-! ### Faults -/

/-- `raise <Fault>(info)` (00_scope R10, 60_exceptions R460): recorded, never cleared. -/
def State.raise (s : State) (f : Fault) : State := { s with fault := some f }

end Sys2Proof.Machine
end

