-- ==== Sys2Proof/Machine/Operands.lean ====
section
/-! DEFINITION. The addressing modes' bus cycles after the instruction's own bytes are fetched (40_addressing_modes section 2):
the operand byte of a Read-class instruction, the effective address of a Write- or RMW-class one, and the RMW tail. -/

namespace Sys2Proof.Machine

/-- `crossed`: adding the index carries out of the low byte (40_addressing_modes R189, R195). -/
def crosses (base : Word) (index : Byte) : Bool := decide (0xFF < (loByte base).toNat + index.toNat)

/-- `EAu`: the indexed address before its high byte is fixed (40_addressing_modes R189). -/
def unfixed (base : Word) (index : Byte) : Word := mkWord (hiByte base) (loByte base + index)

/-- `EA = (base + index) mod 2^16` (40_addressing_modes R189). -/
def indexed (base : Word) (index : Byte) : Word := base + index.setWidth 16

/-! ### Effective addresses -/

/-- Zero page indexed: the dummy read of the base, then the sum within page 0 (40_addressing_modes R188). -/
def eaZpIndexed (a index : Byte) (s : State) : Word × State := (zpAddr (a + index), dummyRead (zpAddr a) s)

/-- A pointer in page 0, its second byte wrapping within the page (40_addressing_modes R190, R191). -/
def readPointer (p : Byte) (s : State) : Word × State :=
  let lo := memRead (zpAddr p) s
  let hi := memRead (zpAddr (p + 1)) lo.2
  (mkWord hi.1 lo.1, hi.2)

/-- `(zp,X)`: the dummy read of the pointer operand, then the pointer at its sum with X (40_addressing_modes R190). -/
def eaIndx (p : Byte) (s : State) : Word × State := readPointer (p + s.cpu.x) (dummyRead (zpAddr p) s)

/-- The address fix-up of Write and RMW class: `DummyRead(EAu)`, whether or not the page is crossed
(40_addressing_modes R189, R191, R197). -/
def eaFixed (base : Word) (index : Byte) (s : State) : Word × State :=
  (indexed base index, dummyRead (unfixed base index) s)

/-- `(zp),Y` of Write class (40_addressing_modes R191). -/
def eaIndy (p : Byte) (s : State) : Word × State :=
  let q := readPointer p s
  eaFixed q.1 s.cpu.y q.2

/-! ### Read class: the operand byte -/

/-- The operand at a known effective address. -/
def readAt (ea : Word × State) : Byte × State := memRead ea.1 ea.2

/-- Read class, absolute or pointer base plus index: one read at EAu, and a second at EA when the page is crossed
(40_addressing_modes R189, R191, R195). -/
def readIndexed (base : Word) (index : Byte) (s : State) : Byte × State :=
  let r := memRead (unfixed base index) s
  if crosses base index then memRead (indexed base index) r.2.markCrossed else r

/-- Zero page (40_addressing_modes R185). -/
def readZp (a : Byte) (s : State) : Byte × State := memRead (zpAddr a) s

/-- Zero page,X (40_addressing_modes R188). -/
def readZpx (a : Byte) (s : State) : Byte × State := readAt (eaZpIndexed a s.cpu.x s)

/-- Zero page,Y (40_addressing_modes R188). -/
def readZpy (a : Byte) (s : State) : Byte × State := readAt (eaZpIndexed a s.cpu.y s)

/-- Absolute (40_addressing_modes R186). -/
def readAbs (w : Word) (s : State) : Byte × State := memRead w s

/-- Absolute,X (40_addressing_modes R189). -/
def readAbsx (w : Word) (s : State) : Byte × State := readIndexed w s.cpu.x s

/-- Absolute,Y (40_addressing_modes R189). -/
def readAbsy (w : Word) (s : State) : Byte × State := readIndexed w s.cpu.y s

/-- (zp,X) (40_addressing_modes R190). -/
def readIndx (p : Byte) (s : State) : Byte × State := readAt (eaIndx p s)

/-- (zp),Y (40_addressing_modes R191). -/
def readIndy (p : Byte) (s : State) : Byte × State :=
  let q := readPointer p s
  readIndexed q.1 s.cpu.y q.2

/-! ### Write class: the effective address and the store -/

/-- Zero page (40_addressing_modes R185). -/
def eaZp (a : Byte) (s : State) : Word × State := (zpAddr a, s)

/-- Zero page,X (40_addressing_modes R188). -/
def eaZpx (a : Byte) (s : State) : Word × State := eaZpIndexed a s.cpu.x s

/-- Zero page,Y (40_addressing_modes R188). -/
def eaZpy (a : Byte) (s : State) : Word × State := eaZpIndexed a s.cpu.y s

/-- Absolute (40_addressing_modes R186). -/
def eaAbs (w : Word) (s : State) : Word × State := (w, s)

/-- Absolute,X of Write and RMW class (40_addressing_modes R189). -/
def eaAbsx (w : Word) (s : State) : Word × State := eaFixed w s.cpu.x s

/-- Absolute,Y of Write class (40_addressing_modes R189). -/
def eaAbsy (w : Word) (s : State) : Word × State := eaFixed w s.cpu.y s

/-- The store of a Write-class instruction (40_addressing_modes R181). -/
def storeAt (v : Byte) (ea : Word × State) : State := memWrite ea.1 v ea.2

/-! ### RMW class -/

/-- The RMW tail: read, write the unmodified value, write the modified one; the record marks the double write
(40_addressing_modes R187). The flags are computed from the value read. -/
def modifyAt (f : Byte → Flags → ShiftResult) (ea : Word × State) : State :=
  let r := memRead ea.1 ea.2
  let out := f r.1 r.2.cpu.p
  ((memWrite ea.1 out.value (memWrite ea.1 r.1 r.2)).setP out.p).markBug .rmwDoubleWrite

/-- The accumulator form of a shift: the dummy read of PC, then A and the flags (40_addressing_modes R183). -/
def modifyA (f : Byte → Flags → ShiftResult) (s : State) : State :=
  let s1 := dummyReadPC s
  let out := f s1.cpu.a s1.cpu.p
  (s1.setA out.value).setP out.p

end Sys2Proof.Machine
end

