-- ==== Sys2Proof/Machine/Arithmetic.lean ====
section
/-! DEFINITION. Addition, subtraction, compare, increment and decrement (43_arithmetic R280 to R295). -/

namespace Sys2Proof.Machine

/-- ADC of an operand (43_arithmetic R281, R282). -/
def addOperand (r : Byte × State) : State :=
  let out := adc r.2.cpu.a r.1 r.2.cpu.p
  (r.2.setA out.a).setP out.p

/-- SBC of an operand (43_arithmetic R283, R284). -/
def subOperand (r : Byte × State) : State :=
  let out := sbc r.2.cpu.a r.1 r.2.cpu.p
  (r.2.setA out.a).setP out.p

/-- `Compare(v, operand)` (43_arithmetic R285). -/
def compareOperand (v : Byte) (r : Byte × State) : State := r.2.setP (compareFlags v r.1 r.2.cpu.p)

/-- `X <- v; SetNZ(X)` after the dummy read of PC (43_arithmetic R290, R293). -/
def countX (v : Byte) (s : State) : State := ((dummyReadPC s).setX v).setNZ v

/-- `Y <- v; SetNZ(Y)` after the dummy read of PC (43_arithmetic R291, R294). -/
def countY (v : Byte) (s : State) : State := ((dummyReadPC s).setY v).setNZ v

/-- ADC (zp,X), 0x61 (43_arithmetic R281). -/
def execAdcIndx (p : Byte) (s : State) : Host.Outcome State Fault Refusal := .next (addOperand (readIndx p s))

/-- ADC zp, 0x65 (43_arithmetic R281). -/
def execAdcZp (a : Byte) (s : State) : Host.Outcome State Fault Refusal := .next (addOperand (readZp a s))

/-- ADC #v, 0x69 (43_arithmetic R281). -/
def execAdcImm (v : Byte) (s : State) : Host.Outcome State Fault Refusal := .next (addOperand (v, s))

/-- ADC abs, 0x6D (43_arithmetic R281). -/
def execAdcAbs (w : Word) (s : State) : Host.Outcome State Fault Refusal := .next (addOperand (readAbs w s))

/-- ADC (zp),Y, 0x71 (43_arithmetic R281). -/
def execAdcIndy (p : Byte) (s : State) : Host.Outcome State Fault Refusal := .next (addOperand (readIndy p s))

/-- ADC zp,X, 0x75 (43_arithmetic R281). -/
def execAdcZpx (a : Byte) (s : State) : Host.Outcome State Fault Refusal := .next (addOperand (readZpx a s))

/-- ADC abs,Y, 0x79 (43_arithmetic R281). -/
def execAdcAbsy (w : Word) (s : State) : Host.Outcome State Fault Refusal := .next (addOperand (readAbsy w s))

/-- ADC abs,X, 0x7D (43_arithmetic R281). -/
def execAdcAbsx (w : Word) (s : State) : Host.Outcome State Fault Refusal := .next (addOperand (readAbsx w s))

/-- SBC (zp,X), 0xE1 (43_arithmetic R283). -/
def execSbcIndx (p : Byte) (s : State) : Host.Outcome State Fault Refusal := .next (subOperand (readIndx p s))

/-- SBC zp, 0xE5 (43_arithmetic R283). -/
def execSbcZp (a : Byte) (s : State) : Host.Outcome State Fault Refusal := .next (subOperand (readZp a s))

/-- SBC #v, 0xE9 (43_arithmetic R283). -/
def execSbcImm (v : Byte) (s : State) : Host.Outcome State Fault Refusal := .next (subOperand (v, s))

/-- SBC abs, 0xED (43_arithmetic R283). -/
def execSbcAbs (w : Word) (s : State) : Host.Outcome State Fault Refusal := .next (subOperand (readAbs w s))

/-- SBC (zp),Y, 0xF1 (43_arithmetic R283). -/
def execSbcIndy (p : Byte) (s : State) : Host.Outcome State Fault Refusal := .next (subOperand (readIndy p s))

/-- SBC zp,X, 0xF5 (43_arithmetic R283). -/
def execSbcZpx (a : Byte) (s : State) : Host.Outcome State Fault Refusal := .next (subOperand (readZpx a s))

/-- SBC abs,Y, 0xF9 (43_arithmetic R283). -/
def execSbcAbsy (w : Word) (s : State) : Host.Outcome State Fault Refusal := .next (subOperand (readAbsy w s))

/-- SBC abs,X, 0xFD (43_arithmetic R283). -/
def execSbcAbsx (w : Word) (s : State) : Host.Outcome State Fault Refusal := .next (subOperand (readAbsx w s))

/-- CMP (zp,X), 0xC1 (43_arithmetic R286). -/
def execCmpIndx (p : Byte) (s : State) : Host.Outcome State Fault Refusal := .next (compareOperand s.cpu.a (readIndx p s))

/-- CMP zp, 0xC5 (43_arithmetic R286). -/
def execCmpZp (a : Byte) (s : State) : Host.Outcome State Fault Refusal := .next (compareOperand s.cpu.a (readZp a s))

/-- CMP #v, 0xC9 (43_arithmetic R286). -/
def execCmpImm (v : Byte) (s : State) : Host.Outcome State Fault Refusal := .next (compareOperand s.cpu.a (v, s))

/-- CMP abs, 0xCD (43_arithmetic R286). -/
def execCmpAbs (w : Word) (s : State) : Host.Outcome State Fault Refusal := .next (compareOperand s.cpu.a (readAbs w s))

/-- CMP (zp),Y, 0xD1 (43_arithmetic R286). -/
def execCmpIndy (p : Byte) (s : State) : Host.Outcome State Fault Refusal := .next (compareOperand s.cpu.a (readIndy p s))

/-- CMP zp,X, 0xD5 (43_arithmetic R286). -/
def execCmpZpx (a : Byte) (s : State) : Host.Outcome State Fault Refusal := .next (compareOperand s.cpu.a (readZpx a s))

/-- CMP abs,Y, 0xD9 (43_arithmetic R286). -/
def execCmpAbsy (w : Word) (s : State) : Host.Outcome State Fault Refusal := .next (compareOperand s.cpu.a (readAbsy w s))

/-- CMP abs,X, 0xDD (43_arithmetic R286). -/
def execCmpAbsx (w : Word) (s : State) : Host.Outcome State Fault Refusal := .next (compareOperand s.cpu.a (readAbsx w s))

/-- CPX #v, 0xE0 (43_arithmetic R287). -/
def execCpxImm (v : Byte) (s : State) : Host.Outcome State Fault Refusal := .next (compareOperand s.cpu.x (v, s))

/-- CPX zp, 0xE4 (43_arithmetic R287). -/
def execCpxZp (a : Byte) (s : State) : Host.Outcome State Fault Refusal := .next (compareOperand s.cpu.x (readZp a s))

/-- CPX abs, 0xEC (43_arithmetic R287). -/
def execCpxAbs (w : Word) (s : State) : Host.Outcome State Fault Refusal := .next (compareOperand s.cpu.x (readAbs w s))

/-- CPY #v, 0xC0 (43_arithmetic R288). -/
def execCpyImm (v : Byte) (s : State) : Host.Outcome State Fault Refusal := .next (compareOperand s.cpu.y (v, s))

/-- CPY zp, 0xC4 (43_arithmetic R288). -/
def execCpyZp (a : Byte) (s : State) : Host.Outcome State Fault Refusal := .next (compareOperand s.cpu.y (readZp a s))

/-- CPY abs, 0xCC (43_arithmetic R288). -/
def execCpyAbs (w : Word) (s : State) : Host.Outcome State Fault Refusal := .next (compareOperand s.cpu.y (readAbs w s))

/-- INC zp, 0xE6 (43_arithmetic R289). -/
def execIncZp (a : Byte) (s : State) : Host.Outcome State Fault Refusal := .next (modifyAt inc (eaZp a s))

/-- INC abs, 0xEE (43_arithmetic R289). -/
def execIncAbs (w : Word) (s : State) : Host.Outcome State Fault Refusal := .next (modifyAt inc (eaAbs w s))

/-- INC zp,X, 0xF6 (43_arithmetic R289). -/
def execIncZpx (a : Byte) (s : State) : Host.Outcome State Fault Refusal := .next (modifyAt inc (eaZpx a s))

/-- INC abs,X, 0xFE (43_arithmetic R289). -/
def execIncAbsx (w : Word) (s : State) : Host.Outcome State Fault Refusal := .next (modifyAt inc (eaAbsx w s))

/-- DEC zp, 0xC6 (43_arithmetic R292). -/
def execDecZp (a : Byte) (s : State) : Host.Outcome State Fault Refusal := .next (modifyAt dec (eaZp a s))

/-- DEC abs, 0xCE (43_arithmetic R292). -/
def execDecAbs (w : Word) (s : State) : Host.Outcome State Fault Refusal := .next (modifyAt dec (eaAbs w s))

/-- DEC zp,X, 0xD6 (43_arithmetic R292). -/
def execDecZpx (a : Byte) (s : State) : Host.Outcome State Fault Refusal := .next (modifyAt dec (eaZpx a s))

/-- DEC abs,X, 0xDE (43_arithmetic R292). -/
def execDecAbsx (w : Word) (s : State) : Host.Outcome State Fault Refusal := .next (modifyAt dec (eaAbsx w s))

/-- INX, 0xE8 (43_arithmetic R290). -/
def execInx (s : State) : Host.Outcome State Fault Refusal := .next (countX (s.cpu.x + 1) s)

/-- INY, 0xC8 (43_arithmetic R291). -/
def execIny (s : State) : Host.Outcome State Fault Refusal := .next (countY (s.cpu.y + 1) s)

/-- DEX, 0xCA (43_arithmetic R293). -/
def execDex (s : State) : Host.Outcome State Fault Refusal := .next (countX (s.cpu.x - 1) s)

/-- DEY, 0x88 (43_arithmetic R294). -/
def execDey (s : State) : Host.Outcome State Fault Refusal := .next (countY (s.cpu.y - 1) s)

end Sys2Proof.Machine
end

