-- ==== Sys2Proof/Machine/Control.lean ====
section
/-! DEFINITION. Jumps, subroutine calls and branches (45_control R350 to R362). -/

namespace Sys2Proof.Machine

/-- JMP (abs): the pointer's second byte comes from the pointer's own page; the record marks the wrap (45_control R351). -/
def jumpIndirect (ptr : Word) (s : State) : State :=
  let lo := memRead ptr s
  let hi := memRead (mkWord (hiByte ptr) (loByte ptr + 1)) lo.2
  let s1 := hi.2.setPC (mkWord hi.1 lo.1)
  if loByte ptr = 0xFF#8 then s1.markBug .jmpIndirectWrap else s1

/-- JSR, cycles 3 to 6, PC being the address of its last byte: the dummy stack read, PC pushed high byte first, and only then the
target's high byte fetched (45_control R352; log 12). -/
def callSubroutine (targetLow : Byte) (s : State) : State :=
  let s1 := dummyReadStack s
  let s2 := push (hiByte s1.cpu.pc) s1
  let s3 := push (loByte s2.cpu.pc) s2
  let hi := memRead s3.cpu.pc s3
  (hi.2.setPC (mkWord hi.1 targetLow)).countByte

/-- RTS: the pulled address plus one, which a dummy read sees first (45_control R353). -/
def returnSubroutine (s : State) : State :=
  let lo := pull (dummyReadStack (dummyReadPC s))
  let hi := pull lo.2
  let s1 := dummyRead (mkWord hi.1 lo.1) (hi.2.setPC (mkWord hi.1 lo.1))
  s1.setPC (mkWord hi.1 lo.1 + 1)

/-- A branch's target: the address after the branch plus the offset (45_control R354, 30_encoding R145). -/
def branchTarget (next : Word) (off : Byte) : Word := next + sext16 off

/-- The branch common rule, PC being the address after the branch (45_control R354). -/
def branchIf (cond : Bool) (off : Byte) (s : State) : State :=
  if cond then
    let next := s.cpu.pc
    let target := branchTarget next off
    let near := mkWord (hiByte next) (loByte target)
    let s1 := (dummyRead next s).setPC near
    if hiByte target = hiByte next then s1
    else ((dummyRead near s1).setPC target).markCrossed
  else s

/-- JMP abs, 0x4C (45_control R351). -/
def execJmpAbs (w : Word) (s : State) : Host.Outcome State Fault Refusal := .next (s.setPC w)

/-- JMP (abs), 0x6C (45_control R351). -/
def execJmpInd (w : Word) (s : State) : Host.Outcome State Fault Refusal := .next (jumpIndirect w s)

/-- JSR abs, 0x20 (45_control R352). -/
def execJsr (w : Word) (s : State) : Host.Outcome State Fault Refusal := .next (callSubroutine (loByte w) s)

/-- RTS, 0x60 (45_control R353). -/
def execRts (s : State) : Host.Outcome State Fault Refusal := .next (returnSubroutine s)

/-- BCC rel, 0x90 (45_control R355). -/
def execBcc (off : Byte) (s : State) : Host.Outcome State Fault Refusal := .next (branchIf (!s.cpu.p.c) off s)

/-- BCS rel, 0xB0 (45_control R356). -/
def execBcs (off : Byte) (s : State) : Host.Outcome State Fault Refusal := .next (branchIf s.cpu.p.c off s)

/-- BEQ rel, 0xF0 (45_control R357). -/
def execBeq (off : Byte) (s : State) : Host.Outcome State Fault Refusal := .next (branchIf s.cpu.p.z off s)

/-- BMI rel, 0x30 (45_control R358). -/
def execBmi (off : Byte) (s : State) : Host.Outcome State Fault Refusal := .next (branchIf s.cpu.p.n off s)

/-- BNE rel, 0xD0 (45_control R359). -/
def execBne (off : Byte) (s : State) : Host.Outcome State Fault Refusal := .next (branchIf (!s.cpu.p.z) off s)

/-- BPL rel, 0x10 (45_control R360). -/
def execBpl (off : Byte) (s : State) : Host.Outcome State Fault Refusal := .next (branchIf (!s.cpu.p.n) off s)

/-- BVC rel, 0x50 (45_control R361). -/
def execBvc (off : Byte) (s : State) : Host.Outcome State Fault Refusal := .next (branchIf (!s.cpu.p.v) off s)

/-- BVS rel, 0x70 (45_control R362). -/
def execBvs (off : Byte) (s : State) : Host.Outcome State Fault Refusal := .next (branchIf s.cpu.p.v off s)

end Sys2Proof.Machine
end

