-- ==== Sys2Proof/Machine/LoadStore.lean ====
section
/-! DEFINITION. Loads and stores (41_load_store R230 to R236). A meaning starts after the fetch of the instruction's own bytes. -/

namespace Sys2Proof.Machine

/-- `A <- operand; SetNZ(A)` (41_load_store R231). -/
def loadA (r : Byte × State) : State := (r.2.setA r.1).setNZ r.1

/-- `X <- operand; SetNZ(X)` (41_load_store R232). -/
def loadX (r : Byte × State) : State := (r.2.setX r.1).setNZ r.1

/-- `Y <- operand; SetNZ(Y)` (41_load_store R233). -/
def loadY (r : Byte × State) : State := (r.2.setY r.1).setNZ r.1

/-- LDA (zp,X), 0xA1 (41_load_store R231). -/
def execLdaIndx (p : Byte) (s : State) : Host.Outcome State Fault Refusal := .next (loadA (readIndx p s))

/-- LDA zp, 0xA5 (41_load_store R231). -/
def execLdaZp (a : Byte) (s : State) : Host.Outcome State Fault Refusal := .next (loadA (readZp a s))

/-- LDA #v, 0xA9 (41_load_store R231). -/
def execLdaImm (v : Byte) (s : State) : Host.Outcome State Fault Refusal := .next (loadA (v, s))

/-- LDA abs, 0xAD (41_load_store R231). -/
def execLdaAbs (w : Word) (s : State) : Host.Outcome State Fault Refusal := .next (loadA (readAbs w s))

/-- LDA (zp),Y, 0xB1 (41_load_store R231). -/
def execLdaIndy (p : Byte) (s : State) : Host.Outcome State Fault Refusal := .next (loadA (readIndy p s))

/-- LDA zp,X, 0xB5 (41_load_store R231). -/
def execLdaZpx (a : Byte) (s : State) : Host.Outcome State Fault Refusal := .next (loadA (readZpx a s))

/-- LDA abs,Y, 0xB9 (41_load_store R231). -/
def execLdaAbsy (w : Word) (s : State) : Host.Outcome State Fault Refusal := .next (loadA (readAbsy w s))

/-- LDA abs,X, 0xBD (41_load_store R231). -/
def execLdaAbsx (w : Word) (s : State) : Host.Outcome State Fault Refusal := .next (loadA (readAbsx w s))

/-- LDX #v, 0xA2 (41_load_store R232). -/
def execLdxImm (v : Byte) (s : State) : Host.Outcome State Fault Refusal := .next (loadX (v, s))

/-- LDX zp, 0xA6 (41_load_store R232). -/
def execLdxZp (a : Byte) (s : State) : Host.Outcome State Fault Refusal := .next (loadX (readZp a s))

/-- LDX abs, 0xAE (41_load_store R232). -/
def execLdxAbs (w : Word) (s : State) : Host.Outcome State Fault Refusal := .next (loadX (readAbs w s))

/-- LDX zp,Y, 0xB6 (41_load_store R232). -/
def execLdxZpy (a : Byte) (s : State) : Host.Outcome State Fault Refusal := .next (loadX (readZpy a s))

/-- LDX abs,Y, 0xBE (41_load_store R232). -/
def execLdxAbsy (w : Word) (s : State) : Host.Outcome State Fault Refusal := .next (loadX (readAbsy w s))

/-- LDY #v, 0xA0 (41_load_store R233). -/
def execLdyImm (v : Byte) (s : State) : Host.Outcome State Fault Refusal := .next (loadY (v, s))

/-- LDY zp, 0xA4 (41_load_store R233). -/
def execLdyZp (a : Byte) (s : State) : Host.Outcome State Fault Refusal := .next (loadY (readZp a s))

/-- LDY abs, 0xAC (41_load_store R233). -/
def execLdyAbs (w : Word) (s : State) : Host.Outcome State Fault Refusal := .next (loadY (readAbs w s))

/-- LDY zp,X, 0xB4 (41_load_store R233). -/
def execLdyZpx (a : Byte) (s : State) : Host.Outcome State Fault Refusal := .next (loadY (readZpx a s))

/-- LDY abs,X, 0xBC (41_load_store R233). -/
def execLdyAbsx (w : Word) (s : State) : Host.Outcome State Fault Refusal := .next (loadY (readAbsx w s))

/-- STA (zp,X), 0x81 (41_load_store R234). -/
def execStaIndx (p : Byte) (s : State) : Host.Outcome State Fault Refusal := .next (storeAt s.cpu.a (eaIndx p s))

/-- STA zp, 0x85 (41_load_store R234). -/
def execStaZp (a : Byte) (s : State) : Host.Outcome State Fault Refusal := .next (storeAt s.cpu.a (eaZp a s))

/-- STA abs, 0x8D (41_load_store R234). -/
def execStaAbs (w : Word) (s : State) : Host.Outcome State Fault Refusal := .next (storeAt s.cpu.a (eaAbs w s))

/-- STA (zp),Y, 0x91 (41_load_store R234). -/
def execStaIndy (p : Byte) (s : State) : Host.Outcome State Fault Refusal := .next (storeAt s.cpu.a (eaIndy p s))

/-- STA zp,X, 0x95 (41_load_store R234). -/
def execStaZpx (a : Byte) (s : State) : Host.Outcome State Fault Refusal := .next (storeAt s.cpu.a (eaZpx a s))

/-- STA abs,Y, 0x99 (41_load_store R234). -/
def execStaAbsy (w : Word) (s : State) : Host.Outcome State Fault Refusal := .next (storeAt s.cpu.a (eaAbsy w s))

/-- STA abs,X, 0x9D (41_load_store R234). -/
def execStaAbsx (w : Word) (s : State) : Host.Outcome State Fault Refusal := .next (storeAt s.cpu.a (eaAbsx w s))

/-- STX zp, 0x86 (41_load_store R235). -/
def execStxZp (a : Byte) (s : State) : Host.Outcome State Fault Refusal := .next (storeAt s.cpu.x (eaZp a s))

/-- STX abs, 0x8E (41_load_store R235). -/
def execStxAbs (w : Word) (s : State) : Host.Outcome State Fault Refusal := .next (storeAt s.cpu.x (eaAbs w s))

/-- STX zp,Y, 0x96 (41_load_store R235). -/
def execStxZpy (a : Byte) (s : State) : Host.Outcome State Fault Refusal := .next (storeAt s.cpu.x (eaZpy a s))

/-- STY zp, 0x84 (41_load_store R236). -/
def execStyZp (a : Byte) (s : State) : Host.Outcome State Fault Refusal := .next (storeAt s.cpu.y (eaZp a s))

/-- STY abs, 0x8C (41_load_store R236). -/
def execStyAbs (w : Word) (s : State) : Host.Outcome State Fault Refusal := .next (storeAt s.cpu.y (eaAbs w s))

/-- STY zp,X, 0x94 (41_load_store R236). -/
def execStyZpx (a : Byte) (s : State) : Host.Outcome State Fault Refusal := .next (storeAt s.cpu.y (eaZpx a s))

end Sys2Proof.Machine
end

