-- ==== Sys2Proof/Machine/Logic.lean ====
section
/-! DEFINITION. Logic, bit test, shifts and rotates (44_logic_shift R320 to R328). -/

namespace Sys2Proof.Machine

/-- `A <- v; SetNZ(A)` for a combination with the operand (44_logic_shift R320). -/
def combineA (f : Byte → Byte → Byte) (r : Byte × State) : State :=
  (r.2.setA (f r.2.cpu.a r.1)).setNZ (f r.2.cpu.a r.1)

/-- BIT of an operand (44_logic_shift R324). -/
def testOperand (r : Byte × State) : State := r.2.setP (bitFlags r.2.cpu.a r.1 r.2.cpu.p)

/-- AND (zp,X), 0x21 (44_logic_shift R321). -/
def execAndIndx (p : Byte) (s : State) : Host.Outcome State Fault Refusal := .next (combineA (· &&& ·) (readIndx p s))

/-- AND zp, 0x25 (44_logic_shift R321). -/
def execAndZp (a : Byte) (s : State) : Host.Outcome State Fault Refusal := .next (combineA (· &&& ·) (readZp a s))

/-- AND #v, 0x29 (44_logic_shift R321). -/
def execAndImm (v : Byte) (s : State) : Host.Outcome State Fault Refusal := .next (combineA (· &&& ·) (v, s))

/-- AND abs, 0x2D (44_logic_shift R321). -/
def execAndAbs (w : Word) (s : State) : Host.Outcome State Fault Refusal := .next (combineA (· &&& ·) (readAbs w s))

/-- AND (zp),Y, 0x31 (44_logic_shift R321). -/
def execAndIndy (p : Byte) (s : State) : Host.Outcome State Fault Refusal := .next (combineA (· &&& ·) (readIndy p s))

/-- AND zp,X, 0x35 (44_logic_shift R321). -/
def execAndZpx (a : Byte) (s : State) : Host.Outcome State Fault Refusal := .next (combineA (· &&& ·) (readZpx a s))

/-- AND abs,Y, 0x39 (44_logic_shift R321). -/
def execAndAbsy (w : Word) (s : State) : Host.Outcome State Fault Refusal := .next (combineA (· &&& ·) (readAbsy w s))

/-- AND abs,X, 0x3D (44_logic_shift R321). -/
def execAndAbsx (w : Word) (s : State) : Host.Outcome State Fault Refusal := .next (combineA (· &&& ·) (readAbsx w s))

/-- ORA (zp,X), 0x01 (44_logic_shift R322). -/
def execOraIndx (p : Byte) (s : State) : Host.Outcome State Fault Refusal := .next (combineA (· ||| ·) (readIndx p s))

/-- ORA zp, 0x05 (44_logic_shift R322). -/
def execOraZp (a : Byte) (s : State) : Host.Outcome State Fault Refusal := .next (combineA (· ||| ·) (readZp a s))

/-- ORA #v, 0x09 (44_logic_shift R322). -/
def execOraImm (v : Byte) (s : State) : Host.Outcome State Fault Refusal := .next (combineA (· ||| ·) (v, s))

/-- ORA abs, 0x0D (44_logic_shift R322). -/
def execOraAbs (w : Word) (s : State) : Host.Outcome State Fault Refusal := .next (combineA (· ||| ·) (readAbs w s))

/-- ORA (zp),Y, 0x11 (44_logic_shift R322). -/
def execOraIndy (p : Byte) (s : State) : Host.Outcome State Fault Refusal := .next (combineA (· ||| ·) (readIndy p s))

/-- ORA zp,X, 0x15 (44_logic_shift R322). -/
def execOraZpx (a : Byte) (s : State) : Host.Outcome State Fault Refusal := .next (combineA (· ||| ·) (readZpx a s))

/-- ORA abs,Y, 0x19 (44_logic_shift R322). -/
def execOraAbsy (w : Word) (s : State) : Host.Outcome State Fault Refusal := .next (combineA (· ||| ·) (readAbsy w s))

/-- ORA abs,X, 0x1D (44_logic_shift R322). -/
def execOraAbsx (w : Word) (s : State) : Host.Outcome State Fault Refusal := .next (combineA (· ||| ·) (readAbsx w s))

/-- EOR (zp,X), 0x41 (44_logic_shift R323). -/
def execEorIndx (p : Byte) (s : State) : Host.Outcome State Fault Refusal := .next (combineA (· ^^^ ·) (readIndx p s))

/-- EOR zp, 0x45 (44_logic_shift R323). -/
def execEorZp (a : Byte) (s : State) : Host.Outcome State Fault Refusal := .next (combineA (· ^^^ ·) (readZp a s))

/-- EOR #v, 0x49 (44_logic_shift R323). -/
def execEorImm (v : Byte) (s : State) : Host.Outcome State Fault Refusal := .next (combineA (· ^^^ ·) (v, s))

/-- EOR abs, 0x4D (44_logic_shift R323). -/
def execEorAbs (w : Word) (s : State) : Host.Outcome State Fault Refusal := .next (combineA (· ^^^ ·) (readAbs w s))

/-- EOR (zp),Y, 0x51 (44_logic_shift R323). -/
def execEorIndy (p : Byte) (s : State) : Host.Outcome State Fault Refusal := .next (combineA (· ^^^ ·) (readIndy p s))

/-- EOR zp,X, 0x55 (44_logic_shift R323). -/
def execEorZpx (a : Byte) (s : State) : Host.Outcome State Fault Refusal := .next (combineA (· ^^^ ·) (readZpx a s))

/-- EOR abs,Y, 0x59 (44_logic_shift R323). -/
def execEorAbsy (w : Word) (s : State) : Host.Outcome State Fault Refusal := .next (combineA (· ^^^ ·) (readAbsy w s))

/-- EOR abs,X, 0x5D (44_logic_shift R323). -/
def execEorAbsx (w : Word) (s : State) : Host.Outcome State Fault Refusal := .next (combineA (· ^^^ ·) (readAbsx w s))

/-- BIT zp, 0x24 (44_logic_shift R324). -/
def execBitZp (a : Byte) (s : State) : Host.Outcome State Fault Refusal := .next (testOperand (readZp a s))

/-- BIT abs, 0x2C (44_logic_shift R324). -/
def execBitAbs (w : Word) (s : State) : Host.Outcome State Fault Refusal := .next (testOperand (readAbs w s))

/-- ASL zp, 0x06 (44_logic_shift R325). -/
def execAslZp (a : Byte) (s : State) : Host.Outcome State Fault Refusal := .next (modifyAt asl (eaZp a s))

/-- ASL A, 0x0A (44_logic_shift R325). -/
def execAslAcc (s : State) : Host.Outcome State Fault Refusal := .next (modifyA asl s)

/-- ASL abs, 0x0E (44_logic_shift R325). -/
def execAslAbs (w : Word) (s : State) : Host.Outcome State Fault Refusal := .next (modifyAt asl (eaAbs w s))

/-- ASL zp,X, 0x16 (44_logic_shift R325). -/
def execAslZpx (a : Byte) (s : State) : Host.Outcome State Fault Refusal := .next (modifyAt asl (eaZpx a s))

/-- ASL abs,X, 0x1E (44_logic_shift R325). -/
def execAslAbsx (w : Word) (s : State) : Host.Outcome State Fault Refusal := .next (modifyAt asl (eaAbsx w s))

/-- LSR zp, 0x46 (44_logic_shift R326). -/
def execLsrZp (a : Byte) (s : State) : Host.Outcome State Fault Refusal := .next (modifyAt lsr (eaZp a s))

/-- LSR A, 0x4A (44_logic_shift R326). -/
def execLsrAcc (s : State) : Host.Outcome State Fault Refusal := .next (modifyA lsr s)

/-- LSR abs, 0x4E (44_logic_shift R326). -/
def execLsrAbs (w : Word) (s : State) : Host.Outcome State Fault Refusal := .next (modifyAt lsr (eaAbs w s))

/-- LSR zp,X, 0x56 (44_logic_shift R326). -/
def execLsrZpx (a : Byte) (s : State) : Host.Outcome State Fault Refusal := .next (modifyAt lsr (eaZpx a s))

/-- LSR abs,X, 0x5E (44_logic_shift R326). -/
def execLsrAbsx (w : Word) (s : State) : Host.Outcome State Fault Refusal := .next (modifyAt lsr (eaAbsx w s))

/-- ROL zp, 0x26 (44_logic_shift R327). -/
def execRolZp (a : Byte) (s : State) : Host.Outcome State Fault Refusal := .next (modifyAt rol (eaZp a s))

/-- ROL A, 0x2A (44_logic_shift R327). -/
def execRolAcc (s : State) : Host.Outcome State Fault Refusal := .next (modifyA rol s)

/-- ROL abs, 0x2E (44_logic_shift R327). -/
def execRolAbs (w : Word) (s : State) : Host.Outcome State Fault Refusal := .next (modifyAt rol (eaAbs w s))

/-- ROL zp,X, 0x36 (44_logic_shift R327). -/
def execRolZpx (a : Byte) (s : State) : Host.Outcome State Fault Refusal := .next (modifyAt rol (eaZpx a s))

/-- ROL abs,X, 0x3E (44_logic_shift R327). -/
def execRolAbsx (w : Word) (s : State) : Host.Outcome State Fault Refusal := .next (modifyAt rol (eaAbsx w s))

/-- ROR zp, 0x66 (44_logic_shift R328). -/
def execRorZp (a : Byte) (s : State) : Host.Outcome State Fault Refusal := .next (modifyAt ror (eaZp a s))

/-- ROR A, 0x6A (44_logic_shift R328). -/
def execRorAcc (s : State) : Host.Outcome State Fault Refusal := .next (modifyA ror s)

/-- ROR abs, 0x6E (44_logic_shift R328). -/
def execRorAbs (w : Word) (s : State) : Host.Outcome State Fault Refusal := .next (modifyAt ror (eaAbs w s))

/-- ROR zp,X, 0x76 (44_logic_shift R328). -/
def execRorZpx (a : Byte) (s : State) : Host.Outcome State Fault Refusal := .next (modifyAt ror (eaZpx a s))

/-- ROR abs,X, 0x7E (44_logic_shift R328). -/
def execRorAbsx (w : Word) (s : State) : Host.Outcome State Fault Refusal := .next (modifyAt ror (eaAbsx w s))

end Sys2Proof.Machine
end

