-- ==== Sys2Proof/Machine/System.lean ====
section
/-! DEFINITION. Flag instructions, NOP, BRK and RTI (46_flags_system R380 to R390). -/

namespace Sys2Proof.Machine

/-- One flag written after the dummy read of PC (46_flags_system R380). -/
def setFlag (f : Flags → Flags) (s : State) : State :=
  let s1 := dummyReadPC s
  s1.setP (f s1.cpu.p)

/-- BRK's cycle 2: the padding byte is read as a dummy and skipped (46_flags_system R389). -/
def skipPadding (s : State) : State := (dummyReadPC s).setPC (s.cpu.pc + 1)

/-- CLC, 0x18 (46_flags_system R381). -/
def execClc (s : State) : Host.Outcome State Fault Refusal := .next (setFlag (fun p => { p with c := false }) s)

/-- CLD, 0xD8 (46_flags_system R382). -/
def execCld (s : State) : Host.Outcome State Fault Refusal := .next (setFlag (fun p => { p with d := false }) s)

/-- CLI, 0x58 (46_flags_system R383). -/
def execCli (s : State) : Host.Outcome State Fault Refusal := .next (setFlag (fun p => { p with i := false }) s)

/-- CLV, 0xB8 (46_flags_system R384). -/
def execClv (s : State) : Host.Outcome State Fault Refusal := .next (setFlag (fun p => { p with v := false }) s)

/-- SEC, 0x38 (46_flags_system R385). -/
def execSec (s : State) : Host.Outcome State Fault Refusal := .next (setFlag (fun p => { p with c := true }) s)

/-- SED, 0xF8 (46_flags_system R386). -/
def execSed (s : State) : Host.Outcome State Fault Refusal := .next (setFlag (fun p => { p with d := true }) s)

/-- SEI, 0x78 (46_flags_system R387). -/
def execSei (s : State) : Host.Outcome State Fault Refusal := .next (setFlag (fun p => { p with i := true }) s)

/-- NOP, 0xEA (46_flags_system R388). -/
def execNop (s : State) : Host.Outcome State Fault Refusal := .next (dummyReadPC s)

/-- BRK, 0x00 (46_flags_system R389, 60_exceptions R442). -/
def execBrk (s : State) : Host.Outcome State Fault Refusal := .next (takeTrap (skipPadding s))

/-- RTI, 0x40 (46_flags_system R390, 60_exceptions R443). -/
def execRti (s : State) : Host.Outcome State Fault Refusal := .next (returnFromTrap (dummyReadPC s))

end Sys2Proof.Machine
end

