-- ==== Sys2Proof/Machine/Transfer.lean ====
section
/-! DEFINITION. Register transfers and stack instructions (42_transfer_stack R250 to R260). -/

namespace Sys2Proof.Machine

/-- A transfer to X with N and Z (42_transfer_stack R250). -/
def transferX (v : Byte) (s : State) : State := ((dummyReadPC s).setX v).setNZ v

/-- A transfer to Y with N and Z (42_transfer_stack R250). -/
def transferY (v : Byte) (s : State) : State := ((dummyReadPC s).setY v).setNZ v

/-- A transfer to A with N and Z (42_transfer_stack R250). -/
def transferA (v : Byte) (s : State) : State := ((dummyReadPC s).setA v).setNZ v

/-- `A <- Pull(); SetNZ(A)` after the two dummy cycles (42_transfer_stack R259). -/
def pullA (s : State) : State :=
  let r := pull (dummyReadStack (dummyReadPC s))
  (r.2.setA r.1).setNZ r.1

/-- P from `Pull()` after the two dummy cycles; bits 5 and 4 are ignored (42_transfer_stack R260). -/
def pullP (s : State) : State :=
  let r := pull (dummyReadStack (dummyReadPC s))
  r.2.setP (Flags.ofByte r.1)

/-- TAX, 0xAA (42_transfer_stack R251). -/
def execTax (s : State) : Host.Outcome State Fault Refusal := .next (transferX s.cpu.a s)

/-- TAY, 0xA8 (42_transfer_stack R252). -/
def execTay (s : State) : Host.Outcome State Fault Refusal := .next (transferY s.cpu.a s)

/-- TXA, 0x8A (42_transfer_stack R253). -/
def execTxa (s : State) : Host.Outcome State Fault Refusal := .next (transferA s.cpu.x s)

/-- TYA, 0x98 (42_transfer_stack R254). -/
def execTya (s : State) : Host.Outcome State Fault Refusal := .next (transferA s.cpu.y s)

/-- TSX, 0xBA (42_transfer_stack R255). -/
def execTsx (s : State) : Host.Outcome State Fault Refusal := .next (transferX s.cpu.sp s)

/-- TXS, 0x9A (42_transfer_stack R256). -/
def execTxs (s : State) : Host.Outcome State Fault Refusal := .next ((dummyReadPC s).setS s.cpu.x)

/-- PHA, 0x48 (42_transfer_stack R257). -/
def execPha (s : State) : Host.Outcome State Fault Refusal := .next (push s.cpu.a (dummyReadPC s))

/-- PHP, 0x08 (42_transfer_stack R258). -/
def execPhp (s : State) : Host.Outcome State Fault Refusal := .next (push s.cpu.p.toByte (dummyReadPC s))

/-- PLA, 0x68 (42_transfer_stack R259). -/
def execPla (s : State) : Host.Outcome State Fault Refusal := .next (pullA s)

/-- PLP, 0x28 (42_transfer_stack R260). -/
def execPlp (s : State) : Host.Outcome State Fault Refusal := .next (pullP s)

end Sys2Proof.Machine
end

