-- ==== Sys2Proof/Machine/Dispatch.lean ====
section
/-! DEFINITION. The meaning of an instruction once its own bytes have been fetched: one arm per constructor. -/

namespace Sys2Proof.Machine

def exec (i : Instr) (s : State) : Host.Outcome State Fault Refusal :=
  match i with
  | .brk => Sys2Proof.Machine.execBrk s
  | .oraIndx p => Sys2Proof.Machine.execOraIndx p s
  | .oraZp a => Sys2Proof.Machine.execOraZp a s
  | .aslZp a => Sys2Proof.Machine.execAslZp a s
  | .php => Sys2Proof.Machine.execPhp s
  | .oraImm v => Sys2Proof.Machine.execOraImm v s
  | .aslAcc => Sys2Proof.Machine.execAslAcc s
  | .oraAbs w => Sys2Proof.Machine.execOraAbs w s
  | .aslAbs w => Sys2Proof.Machine.execAslAbs w s
  | .bpl off => Sys2Proof.Machine.execBpl off s
  | .oraIndy p => Sys2Proof.Machine.execOraIndy p s
  | .oraZpx a => Sys2Proof.Machine.execOraZpx a s
  | .aslZpx a => Sys2Proof.Machine.execAslZpx a s
  | .clc => Sys2Proof.Machine.execClc s
  | .oraAbsy w => Sys2Proof.Machine.execOraAbsy w s
  | .oraAbsx w => Sys2Proof.Machine.execOraAbsx w s
  | .aslAbsx w => Sys2Proof.Machine.execAslAbsx w s
  | .jsr w => Sys2Proof.Machine.execJsr w s
  | .andIndx p => Sys2Proof.Machine.execAndIndx p s
  | .bitZp a => Sys2Proof.Machine.execBitZp a s
  | .andZp a => Sys2Proof.Machine.execAndZp a s
  | .rolZp a => Sys2Proof.Machine.execRolZp a s
  | .plp => Sys2Proof.Machine.execPlp s
  | .andImm v => Sys2Proof.Machine.execAndImm v s
  | .rolAcc => Sys2Proof.Machine.execRolAcc s
  | .bitAbs w => Sys2Proof.Machine.execBitAbs w s
  | .andAbs w => Sys2Proof.Machine.execAndAbs w s
  | .rolAbs w => Sys2Proof.Machine.execRolAbs w s
  | .bmi off => Sys2Proof.Machine.execBmi off s
  | .andIndy p => Sys2Proof.Machine.execAndIndy p s
  | .andZpx a => Sys2Proof.Machine.execAndZpx a s
  | .rolZpx a => Sys2Proof.Machine.execRolZpx a s
  | .sec => Sys2Proof.Machine.execSec s
  | .andAbsy w => Sys2Proof.Machine.execAndAbsy w s
  | .andAbsx w => Sys2Proof.Machine.execAndAbsx w s
  | .rolAbsx w => Sys2Proof.Machine.execRolAbsx w s
  | .rti => Sys2Proof.Machine.execRti s
  | .eorIndx p => Sys2Proof.Machine.execEorIndx p s
  | .eorZp a => Sys2Proof.Machine.execEorZp a s
  | .lsrZp a => Sys2Proof.Machine.execLsrZp a s
  | .pha => Sys2Proof.Machine.execPha s
  | .eorImm v => Sys2Proof.Machine.execEorImm v s
  | .lsrAcc => Sys2Proof.Machine.execLsrAcc s
  | .jmpAbs w => Sys2Proof.Machine.execJmpAbs w s
  | .eorAbs w => Sys2Proof.Machine.execEorAbs w s
  | .lsrAbs w => Sys2Proof.Machine.execLsrAbs w s
  | .bvc off => Sys2Proof.Machine.execBvc off s
  | .eorIndy p => Sys2Proof.Machine.execEorIndy p s
  | .eorZpx a => Sys2Proof.Machine.execEorZpx a s
  | .lsrZpx a => Sys2Proof.Machine.execLsrZpx a s
  | .cli => Sys2Proof.Machine.execCli s
  | .eorAbsy w => Sys2Proof.Machine.execEorAbsy w s
  | .eorAbsx w => Sys2Proof.Machine.execEorAbsx w s
  | .lsrAbsx w => Sys2Proof.Machine.execLsrAbsx w s
  | .rts => Sys2Proof.Machine.execRts s
  | .adcIndx p => Sys2Proof.Machine.execAdcIndx p s
  | .adcZp a => Sys2Proof.Machine.execAdcZp a s
  | .rorZp a => Sys2Proof.Machine.execRorZp a s
  | .pla => Sys2Proof.Machine.execPla s
  | .adcImm v => Sys2Proof.Machine.execAdcImm v s
  | .rorAcc => Sys2Proof.Machine.execRorAcc s
  | .jmpInd w => Sys2Proof.Machine.execJmpInd w s
  | .adcAbs w => Sys2Proof.Machine.execAdcAbs w s
  | .rorAbs w => Sys2Proof.Machine.execRorAbs w s
  | .bvs off => Sys2Proof.Machine.execBvs off s
  | .adcIndy p => Sys2Proof.Machine.execAdcIndy p s
  | .adcZpx a => Sys2Proof.Machine.execAdcZpx a s
  | .rorZpx a => Sys2Proof.Machine.execRorZpx a s
  | .sei => Sys2Proof.Machine.execSei s
  | .adcAbsy w => Sys2Proof.Machine.execAdcAbsy w s
  | .adcAbsx w => Sys2Proof.Machine.execAdcAbsx w s
  | .rorAbsx w => Sys2Proof.Machine.execRorAbsx w s
  | .staIndx p => Sys2Proof.Machine.execStaIndx p s
  | .styZp a => Sys2Proof.Machine.execStyZp a s
  | .staZp a => Sys2Proof.Machine.execStaZp a s
  | .stxZp a => Sys2Proof.Machine.execStxZp a s
  | .dey => Sys2Proof.Machine.execDey s
  | .txa => Sys2Proof.Machine.execTxa s
  | .styAbs w => Sys2Proof.Machine.execStyAbs w s
  | .staAbs w => Sys2Proof.Machine.execStaAbs w s
  | .stxAbs w => Sys2Proof.Machine.execStxAbs w s
  | .bcc off => Sys2Proof.Machine.execBcc off s
  | .staIndy p => Sys2Proof.Machine.execStaIndy p s
  | .styZpx a => Sys2Proof.Machine.execStyZpx a s
  | .staZpx a => Sys2Proof.Machine.execStaZpx a s
  | .stxZpy a => Sys2Proof.Machine.execStxZpy a s
  | .tya => Sys2Proof.Machine.execTya s
  | .staAbsy w => Sys2Proof.Machine.execStaAbsy w s
  | .txs => Sys2Proof.Machine.execTxs s
  | .staAbsx w => Sys2Proof.Machine.execStaAbsx w s
  | .ldyImm v => Sys2Proof.Machine.execLdyImm v s
  | .ldaIndx p => Sys2Proof.Machine.execLdaIndx p s
  | .ldxImm v => Sys2Proof.Machine.execLdxImm v s
  | .ldyZp a => Sys2Proof.Machine.execLdyZp a s
  | .ldaZp a => Sys2Proof.Machine.execLdaZp a s
  | .ldxZp a => Sys2Proof.Machine.execLdxZp a s
  | .tay => Sys2Proof.Machine.execTay s
  | .ldaImm v => Sys2Proof.Machine.execLdaImm v s
  | .tax => Sys2Proof.Machine.execTax s
  | .ldyAbs w => Sys2Proof.Machine.execLdyAbs w s
  | .ldaAbs w => Sys2Proof.Machine.execLdaAbs w s
  | .ldxAbs w => Sys2Proof.Machine.execLdxAbs w s
  | .bcs off => Sys2Proof.Machine.execBcs off s
  | .ldaIndy p => Sys2Proof.Machine.execLdaIndy p s
  | .ldyZpx a => Sys2Proof.Machine.execLdyZpx a s
  | .ldaZpx a => Sys2Proof.Machine.execLdaZpx a s
  | .ldxZpy a => Sys2Proof.Machine.execLdxZpy a s
  | .clv => Sys2Proof.Machine.execClv s
  | .ldaAbsy w => Sys2Proof.Machine.execLdaAbsy w s
  | .tsx => Sys2Proof.Machine.execTsx s
  | .ldyAbsx w => Sys2Proof.Machine.execLdyAbsx w s
  | .ldaAbsx w => Sys2Proof.Machine.execLdaAbsx w s
  | .ldxAbsy w => Sys2Proof.Machine.execLdxAbsy w s
  | .cpyImm v => Sys2Proof.Machine.execCpyImm v s
  | .cmpIndx p => Sys2Proof.Machine.execCmpIndx p s
  | .cpyZp a => Sys2Proof.Machine.execCpyZp a s
  | .cmpZp a => Sys2Proof.Machine.execCmpZp a s
  | .decZp a => Sys2Proof.Machine.execDecZp a s
  | .iny => Sys2Proof.Machine.execIny s
  | .cmpImm v => Sys2Proof.Machine.execCmpImm v s
  | .dex => Sys2Proof.Machine.execDex s
  | .cpyAbs w => Sys2Proof.Machine.execCpyAbs w s
  | .cmpAbs w => Sys2Proof.Machine.execCmpAbs w s
  | .decAbs w => Sys2Proof.Machine.execDecAbs w s
  | .bne off => Sys2Proof.Machine.execBne off s
  | .cmpIndy p => Sys2Proof.Machine.execCmpIndy p s
  | .cmpZpx a => Sys2Proof.Machine.execCmpZpx a s
  | .decZpx a => Sys2Proof.Machine.execDecZpx a s
  | .cld => Sys2Proof.Machine.execCld s
  | .cmpAbsy w => Sys2Proof.Machine.execCmpAbsy w s
  | .cmpAbsx w => Sys2Proof.Machine.execCmpAbsx w s
  | .decAbsx w => Sys2Proof.Machine.execDecAbsx w s
  | .cpxImm v => Sys2Proof.Machine.execCpxImm v s
  | .sbcIndx p => Sys2Proof.Machine.execSbcIndx p s
  | .cpxZp a => Sys2Proof.Machine.execCpxZp a s
  | .sbcZp a => Sys2Proof.Machine.execSbcZp a s
  | .incZp a => Sys2Proof.Machine.execIncZp a s
  | .inx => Sys2Proof.Machine.execInx s
  | .sbcImm v => Sys2Proof.Machine.execSbcImm v s
  | .nop => Sys2Proof.Machine.execNop s
  | .cpxAbs w => Sys2Proof.Machine.execCpxAbs w s
  | .sbcAbs w => Sys2Proof.Machine.execSbcAbs w s
  | .incAbs w => Sys2Proof.Machine.execIncAbs w s
  | .beq off => Sys2Proof.Machine.execBeq off s
  | .sbcIndy p => Sys2Proof.Machine.execSbcIndy p s
  | .sbcZpx a => Sys2Proof.Machine.execSbcZpx a s
  | .incZpx a => Sys2Proof.Machine.execIncZpx a s
  | .sed => Sys2Proof.Machine.execSed s
  | .sbcAbsy w => Sys2Proof.Machine.execSbcAbsy w s
  | .sbcAbsx w => Sys2Proof.Machine.execSbcAbsx w s
  | .incAbsx w => Sys2Proof.Machine.execIncAbsx w s

end Sys2Proof.Machine
end

