-- ==== Sys2Proof/Decode.lean ====
section
/-! DEFINITION. The decoder and, after it, the encoder: both written row by row from the opcode table (30_encoding R155).
Decoding is total on every list of bytes and rejects by name (R152, R153). -/

namespace Sys2Proof

open Sys2Proof.Machine (hiByte loByte mkWord)

/-- What an opcode selects (30_encoding R141): a 1-byte instruction, or one still waiting for its operand byte or address. -/
inductive OpForm where
  | done (i : Instr)
  | byte (f : Byte → Instr)
  | word (f : Word → Instr)

/-- The full 8-bit match of 30_encoding R141 and R155; the 105 other values select nothing (R152). -/
def opForm (op : Byte) : Option OpForm :=
  match op.toNat with
  | 0x00 => some (.done .brk)
  | 0x01 => some (.byte .oraIndx)
  | 0x05 => some (.byte .oraZp)
  | 0x06 => some (.byte .aslZp)
  | 0x08 => some (.done .php)
  | 0x09 => some (.byte .oraImm)
  | 0x0A => some (.done .aslAcc)
  | 0x0D => some (.word .oraAbs)
  | 0x0E => some (.word .aslAbs)
  | 0x10 => some (.byte .bpl)
  | 0x11 => some (.byte .oraIndy)
  | 0x15 => some (.byte .oraZpx)
  | 0x16 => some (.byte .aslZpx)
  | 0x18 => some (.done .clc)
  | 0x19 => some (.word .oraAbsy)
  | 0x1D => some (.word .oraAbsx)
  | 0x1E => some (.word .aslAbsx)
  | 0x20 => some (.word .jsr)
  | 0x21 => some (.byte .andIndx)
  | 0x24 => some (.byte .bitZp)
  | 0x25 => some (.byte .andZp)
  | 0x26 => some (.byte .rolZp)
  | 0x28 => some (.done .plp)
  | 0x29 => some (.byte .andImm)
  | 0x2A => some (.done .rolAcc)
  | 0x2C => some (.word .bitAbs)
  | 0x2D => some (.word .andAbs)
  | 0x2E => some (.word .rolAbs)
  | 0x30 => some (.byte .bmi)
  | 0x31 => some (.byte .andIndy)
  | 0x35 => some (.byte .andZpx)
  | 0x36 => some (.byte .rolZpx)
  | 0x38 => some (.done .sec)
  | 0x39 => some (.word .andAbsy)
  | 0x3D => some (.word .andAbsx)
  | 0x3E => some (.word .rolAbsx)
  | 0x40 => some (.done .rti)
  | 0x41 => some (.byte .eorIndx)
  | 0x45 => some (.byte .eorZp)
  | 0x46 => some (.byte .lsrZp)
  | 0x48 => some (.done .pha)
  | 0x49 => some (.byte .eorImm)
  | 0x4A => some (.done .lsrAcc)
  | 0x4C => some (.word .jmpAbs)
  | 0x4D => some (.word .eorAbs)
  | 0x4E => some (.word .lsrAbs)
  | 0x50 => some (.byte .bvc)
  | 0x51 => some (.byte .eorIndy)
  | 0x55 => some (.byte .eorZpx)
  | 0x56 => some (.byte .lsrZpx)
  | 0x58 => some (.done .cli)
  | 0x59 => some (.word .eorAbsy)
  | 0x5D => some (.word .eorAbsx)
  | 0x5E => some (.word .lsrAbsx)
  | 0x60 => some (.done .rts)
  | 0x61 => some (.byte .adcIndx)
  | 0x65 => some (.byte .adcZp)
  | 0x66 => some (.byte .rorZp)
  | 0x68 => some (.done .pla)
  | 0x69 => some (.byte .adcImm)
  | 0x6A => some (.done .rorAcc)
  | 0x6C => some (.word .jmpInd)
  | 0x6D => some (.word .adcAbs)
  | 0x6E => some (.word .rorAbs)
  | 0x70 => some (.byte .bvs)
  | 0x71 => some (.byte .adcIndy)
  | 0x75 => some (.byte .adcZpx)
  | 0x76 => some (.byte .rorZpx)
  | 0x78 => some (.done .sei)
  | 0x79 => some (.word .adcAbsy)
  | 0x7D => some (.word .adcAbsx)
  | 0x7E => some (.word .rorAbsx)
  | 0x81 => some (.byte .staIndx)
  | 0x84 => some (.byte .styZp)
  | 0x85 => some (.byte .staZp)
  | 0x86 => some (.byte .stxZp)
  | 0x88 => some (.done .dey)
  | 0x8A => some (.done .txa)
  | 0x8C => some (.word .styAbs)
  | 0x8D => some (.word .staAbs)
  | 0x8E => some (.word .stxAbs)
  | 0x90 => some (.byte .bcc)
  | 0x91 => some (.byte .staIndy)
  | 0x94 => some (.byte .styZpx)
  | 0x95 => some (.byte .staZpx)
  | 0x96 => some (.byte .stxZpy)
  | 0x98 => some (.done .tya)
  | 0x99 => some (.word .staAbsy)
  | 0x9A => some (.done .txs)
  | 0x9D => some (.word .staAbsx)
  | 0xA0 => some (.byte .ldyImm)
  | 0xA1 => some (.byte .ldaIndx)
  | 0xA2 => some (.byte .ldxImm)
  | 0xA4 => some (.byte .ldyZp)
  | 0xA5 => some (.byte .ldaZp)
  | 0xA6 => some (.byte .ldxZp)
  | 0xA8 => some (.done .tay)
  | 0xA9 => some (.byte .ldaImm)
  | 0xAA => some (.done .tax)
  | 0xAC => some (.word .ldyAbs)
  | 0xAD => some (.word .ldaAbs)
  | 0xAE => some (.word .ldxAbs)
  | 0xB0 => some (.byte .bcs)
  | 0xB1 => some (.byte .ldaIndy)
  | 0xB4 => some (.byte .ldyZpx)
  | 0xB5 => some (.byte .ldaZpx)
  | 0xB6 => some (.byte .ldxZpy)
  | 0xB8 => some (.done .clv)
  | 0xB9 => some (.word .ldaAbsy)
  | 0xBA => some (.done .tsx)
  | 0xBC => some (.word .ldyAbsx)
  | 0xBD => some (.word .ldaAbsx)
  | 0xBE => some (.word .ldxAbsy)
  | 0xC0 => some (.byte .cpyImm)
  | 0xC1 => some (.byte .cmpIndx)
  | 0xC4 => some (.byte .cpyZp)
  | 0xC5 => some (.byte .cmpZp)
  | 0xC6 => some (.byte .decZp)
  | 0xC8 => some (.done .iny)
  | 0xC9 => some (.byte .cmpImm)
  | 0xCA => some (.done .dex)
  | 0xCC => some (.word .cpyAbs)
  | 0xCD => some (.word .cmpAbs)
  | 0xCE => some (.word .decAbs)
  | 0xD0 => some (.byte .bne)
  | 0xD1 => some (.byte .cmpIndy)
  | 0xD5 => some (.byte .cmpZpx)
  | 0xD6 => some (.byte .decZpx)
  | 0xD8 => some (.done .cld)
  | 0xD9 => some (.word .cmpAbsy)
  | 0xDD => some (.word .cmpAbsx)
  | 0xDE => some (.word .decAbsx)
  | 0xE0 => some (.byte .cpxImm)
  | 0xE1 => some (.byte .sbcIndx)
  | 0xE4 => some (.byte .cpxZp)
  | 0xE5 => some (.byte .sbcZp)
  | 0xE6 => some (.byte .incZp)
  | 0xE8 => some (.done .inx)
  | 0xE9 => some (.byte .sbcImm)
  | 0xEA => some (.done .nop)
  | 0xEC => some (.word .cpxAbs)
  | 0xED => some (.word .sbcAbs)
  | 0xEE => some (.word .incAbs)
  | 0xF0 => some (.byte .beq)
  | 0xF1 => some (.byte .sbcIndy)
  | 0xF5 => some (.byte .sbcZpx)
  | 0xF6 => some (.byte .incZpx)
  | 0xF8 => some (.done .sed)
  | 0xF9 => some (.word .sbcAbsy)
  | 0xFD => some (.word .sbcAbsx)
  | 0xFE => some (.word .incAbsx)
  | _ => none

/-- Why a byte string is no instruction. -/
inductive DecodeError where
  /-- No byte at all. -/
  | empty
  /-- The opcode is one of the 105 undefined values (30_encoding R152). -/
  | undefinedOpcode (op : Byte)
  /-- Fewer operand bytes than the opcode's format has (30_encoding R140). -/
  | truncated (op : Byte)
deriving DecidableEq, Repr

/-- The instruction at the head of a byte string, and the bytes after it (30_encoding R140, R144, R153). -/
def decode : List Byte → Except DecodeError (Instr × List Byte)
  | [] => .error .empty
  | op :: rest =>
    match opForm op, rest with
    | none, _ => .error (.undefinedOpcode op)
    | some (.done i), rest => .ok (i, rest)
    | some (.byte f), b :: rest => .ok (f b, rest)
    | some (.word f), lo :: hi :: rest => .ok (f (mkWord hi lo), rest)
    | some _, _ => .error (.truncated op)

/-- The number of operand bytes after an opcode, if it is a documented one (30_encoding R140, R151). -/
def operandCount (op : Byte) : Option Nat :=
  match opForm op with
  | none => none
  | some (.done _) => some 0
  | some (.byte _) => some 1
  | some (.word _) => some 2

/-- The definition columns of the opcode table (30_encoding R155; 10_state R39). -/
def opcodeTable (op : Byte) : Option InstrDef :=
  match op.toNat with
  | 0x00 => some ⟨.brk, .imp, 1, 7, false, false, .interrupt⟩
  | 0x01 => some ⟨.ora, .indx, 2, 6, false, false, .read⟩
  | 0x05 => some ⟨.ora, .zp, 2, 3, false, false, .read⟩
  | 0x06 => some ⟨.asl, .zp, 2, 5, false, false, .rmw⟩
  | 0x08 => some ⟨.php, .imp, 1, 3, false, false, .other⟩
  | 0x09 => some ⟨.ora, .imm, 2, 2, false, false, .read⟩
  | 0x0A => some ⟨.asl, .acc, 1, 2, false, false, .other⟩
  | 0x0D => some ⟨.ora, .abs, 3, 4, false, false, .read⟩
  | 0x0E => some ⟨.asl, .abs, 3, 6, false, false, .rmw⟩
  | 0x10 => some ⟨.bpl, .rel, 2, 2, false, true, .flow⟩
  | 0x11 => some ⟨.ora, .indy, 2, 5, true, false, .read⟩
  | 0x15 => some ⟨.ora, .zpx, 2, 4, false, false, .read⟩
  | 0x16 => some ⟨.asl, .zpx, 2, 6, false, false, .rmw⟩
  | 0x18 => some ⟨.clc, .imp, 1, 2, false, false, .other⟩
  | 0x19 => some ⟨.ora, .absy, 3, 4, true, false, .read⟩
  | 0x1D => some ⟨.ora, .absx, 3, 4, true, false, .read⟩
  | 0x1E => some ⟨.asl, .absx, 3, 7, false, false, .rmw⟩
  | 0x20 => some ⟨.jsr, .abs, 3, 6, false, false, .subroutine⟩
  | 0x21 => some ⟨.and, .indx, 2, 6, false, false, .read⟩
  | 0x24 => some ⟨.bit, .zp, 2, 3, false, false, .read⟩
  | 0x25 => some ⟨.and, .zp, 2, 3, false, false, .read⟩
  | 0x26 => some ⟨.rol, .zp, 2, 5, false, false, .rmw⟩
  | 0x28 => some ⟨.plp, .imp, 1, 4, false, false, .other⟩
  | 0x29 => some ⟨.and, .imm, 2, 2, false, false, .read⟩
  | 0x2A => some ⟨.rol, .acc, 1, 2, false, false, .other⟩
  | 0x2C => some ⟨.bit, .abs, 3, 4, false, false, .read⟩
  | 0x2D => some ⟨.and, .abs, 3, 4, false, false, .read⟩
  | 0x2E => some ⟨.rol, .abs, 3, 6, false, false, .rmw⟩
  | 0x30 => some ⟨.bmi, .rel, 2, 2, false, true, .flow⟩
  | 0x31 => some ⟨.and, .indy, 2, 5, true, false, .read⟩
  | 0x35 => some ⟨.and, .zpx, 2, 4, false, false, .read⟩
  | 0x36 => some ⟨.rol, .zpx, 2, 6, false, false, .rmw⟩
  | 0x38 => some ⟨.sec, .imp, 1, 2, false, false, .other⟩
  | 0x39 => some ⟨.and, .absy, 3, 4, true, false, .read⟩
  | 0x3D => some ⟨.and, .absx, 3, 4, true, false, .read⟩
  | 0x3E => some ⟨.rol, .absx, 3, 7, false, false, .rmw⟩
  | 0x40 => some ⟨.rti, .imp, 1, 6, false, false, .interrupt⟩
  | 0x41 => some ⟨.eor, .indx, 2, 6, false, false, .read⟩
  | 0x45 => some ⟨.eor, .zp, 2, 3, false, false, .read⟩
  | 0x46 => some ⟨.lsr, .zp, 2, 5, false, false, .rmw⟩
  | 0x48 => some ⟨.pha, .imp, 1, 3, false, false, .other⟩
  | 0x49 => some ⟨.eor, .imm, 2, 2, false, false, .read⟩
  | 0x4A => some ⟨.lsr, .acc, 1, 2, false, false, .other⟩
  | 0x4C => some ⟨.jmp, .abs, 3, 3, false, false, .flow⟩
  | 0x4D => some ⟨.eor, .abs, 3, 4, false, false, .read⟩
  | 0x4E => some ⟨.lsr, .abs, 3, 6, false, false, .rmw⟩
  | 0x50 => some ⟨.bvc, .rel, 2, 2, false, true, .flow⟩
  | 0x51 => some ⟨.eor, .indy, 2, 5, true, false, .read⟩
  | 0x55 => some ⟨.eor, .zpx, 2, 4, false, false, .read⟩
  | 0x56 => some ⟨.lsr, .zpx, 2, 6, false, false, .rmw⟩
  | 0x58 => some ⟨.cli, .imp, 1, 2, false, false, .other⟩
  | 0x59 => some ⟨.eor, .absy, 3, 4, true, false, .read⟩
  | 0x5D => some ⟨.eor, .absx, 3, 4, true, false, .read⟩
  | 0x5E => some ⟨.lsr, .absx, 3, 7, false, false, .rmw⟩
  | 0x60 => some ⟨.rts, .imp, 1, 6, false, false, .subroutine⟩
  | 0x61 => some ⟨.adc, .indx, 2, 6, false, false, .read⟩
  | 0x65 => some ⟨.adc, .zp, 2, 3, false, false, .read⟩
  | 0x66 => some ⟨.ror, .zp, 2, 5, false, false, .rmw⟩
  | 0x68 => some ⟨.pla, .imp, 1, 4, false, false, .other⟩
  | 0x69 => some ⟨.adc, .imm, 2, 2, false, false, .read⟩
  | 0x6A => some ⟨.ror, .acc, 1, 2, false, false, .other⟩
  | 0x6C => some ⟨.jmp, .ind, 3, 5, false, false, .flow⟩
  | 0x6D => some ⟨.adc, .abs, 3, 4, false, false, .read⟩
  | 0x6E => some ⟨.ror, .abs, 3, 6, false, false, .rmw⟩
  | 0x70 => some ⟨.bvs, .rel, 2, 2, false, true, .flow⟩
  | 0x71 => some ⟨.adc, .indy, 2, 5, true, false, .read⟩
  | 0x75 => some ⟨.adc, .zpx, 2, 4, false, false, .read⟩
  | 0x76 => some ⟨.ror, .zpx, 2, 6, false, false, .rmw⟩
  | 0x78 => some ⟨.sei, .imp, 1, 2, false, false, .other⟩
  | 0x79 => some ⟨.adc, .absy, 3, 4, true, false, .read⟩
  | 0x7D => some ⟨.adc, .absx, 3, 4, true, false, .read⟩
  | 0x7E => some ⟨.ror, .absx, 3, 7, false, false, .rmw⟩
  | 0x81 => some ⟨.sta, .indx, 2, 6, false, false, .write⟩
  | 0x84 => some ⟨.sty, .zp, 2, 3, false, false, .write⟩
  | 0x85 => some ⟨.sta, .zp, 2, 3, false, false, .write⟩
  | 0x86 => some ⟨.stx, .zp, 2, 3, false, false, .write⟩
  | 0x88 => some ⟨.dey, .imp, 1, 2, false, false, .other⟩
  | 0x8A => some ⟨.txa, .imp, 1, 2, false, false, .other⟩
  | 0x8C => some ⟨.sty, .abs, 3, 4, false, false, .write⟩
  | 0x8D => some ⟨.sta, .abs, 3, 4, false, false, .write⟩
  | 0x8E => some ⟨.stx, .abs, 3, 4, false, false, .write⟩
  | 0x90 => some ⟨.bcc, .rel, 2, 2, false, true, .flow⟩
  | 0x91 => some ⟨.sta, .indy, 2, 6, false, false, .write⟩
  | 0x94 => some ⟨.sty, .zpx, 2, 4, false, false, .write⟩
  | 0x95 => some ⟨.sta, .zpx, 2, 4, false, false, .write⟩
  | 0x96 => some ⟨.stx, .zpy, 2, 4, false, false, .write⟩
  | 0x98 => some ⟨.tya, .imp, 1, 2, false, false, .other⟩
  | 0x99 => some ⟨.sta, .absy, 3, 5, false, false, .write⟩
  | 0x9A => some ⟨.txs, .imp, 1, 2, false, false, .other⟩
  | 0x9D => some ⟨.sta, .absx, 3, 5, false, false, .write⟩
  | 0xA0 => some ⟨.ldy, .imm, 2, 2, false, false, .read⟩
  | 0xA1 => some ⟨.lda, .indx, 2, 6, false, false, .read⟩
  | 0xA2 => some ⟨.ldx, .imm, 2, 2, false, false, .read⟩
  | 0xA4 => some ⟨.ldy, .zp, 2, 3, false, false, .read⟩
  | 0xA5 => some ⟨.lda, .zp, 2, 3, false, false, .read⟩
  | 0xA6 => some ⟨.ldx, .zp, 2, 3, false, false, .read⟩
  | 0xA8 => some ⟨.tay, .imp, 1, 2, false, false, .other⟩
  | 0xA9 => some ⟨.lda, .imm, 2, 2, false, false, .read⟩
  | 0xAA => some ⟨.tax, .imp, 1, 2, false, false, .other⟩
  | 0xAC => some ⟨.ldy, .abs, 3, 4, false, false, .read⟩
  | 0xAD => some ⟨.lda, .abs, 3, 4, false, false, .read⟩
  | 0xAE => some ⟨.ldx, .abs, 3, 4, false, false, .read⟩
  | 0xB0 => some ⟨.bcs, .rel, 2, 2, false, true, .flow⟩
  | 0xB1 => some ⟨.lda, .indy, 2, 5, true, false, .read⟩
  | 0xB4 => some ⟨.ldy, .zpx, 2, 4, false, false, .read⟩
  | 0xB5 => some ⟨.lda, .zpx, 2, 4, false, false, .read⟩
  | 0xB6 => some ⟨.ldx, .zpy, 2, 4, false, false, .read⟩
  | 0xB8 => some ⟨.clv, .imp, 1, 2, false, false, .other⟩
  | 0xB9 => some ⟨.lda, .absy, 3, 4, true, false, .read⟩
  | 0xBA => some ⟨.tsx, .imp, 1, 2, false, false, .other⟩
  | 0xBC => some ⟨.ldy, .absx, 3, 4, true, false, .read⟩
  | 0xBD => some ⟨.lda, .absx, 3, 4, true, false, .read⟩
  | 0xBE => some ⟨.ldx, .absy, 3, 4, true, false, .read⟩
  | 0xC0 => some ⟨.cpy, .imm, 2, 2, false, false, .read⟩
  | 0xC1 => some ⟨.cmp, .indx, 2, 6, false, false, .read⟩
  | 0xC4 => some ⟨.cpy, .zp, 2, 3, false, false, .read⟩
  | 0xC5 => some ⟨.cmp, .zp, 2, 3, false, false, .read⟩
  | 0xC6 => some ⟨.dec, .zp, 2, 5, false, false, .rmw⟩
  | 0xC8 => some ⟨.iny, .imp, 1, 2, false, false, .other⟩
  | 0xC9 => some ⟨.cmp, .imm, 2, 2, false, false, .read⟩
  | 0xCA => some ⟨.dex, .imp, 1, 2, false, false, .other⟩
  | 0xCC => some ⟨.cpy, .abs, 3, 4, false, false, .read⟩
  | 0xCD => some ⟨.cmp, .abs, 3, 4, false, false, .read⟩
  | 0xCE => some ⟨.dec, .abs, 3, 6, false, false, .rmw⟩
  | 0xD0 => some ⟨.bne, .rel, 2, 2, false, true, .flow⟩
  | 0xD1 => some ⟨.cmp, .indy, 2, 5, true, false, .read⟩
  | 0xD5 => some ⟨.cmp, .zpx, 2, 4, false, false, .read⟩
  | 0xD6 => some ⟨.dec, .zpx, 2, 6, false, false, .rmw⟩
  | 0xD8 => some ⟨.cld, .imp, 1, 2, false, false, .other⟩
  | 0xD9 => some ⟨.cmp, .absy, 3, 4, true, false, .read⟩
  | 0xDD => some ⟨.cmp, .absx, 3, 4, true, false, .read⟩
  | 0xDE => some ⟨.dec, .absx, 3, 7, false, false, .rmw⟩
  | 0xE0 => some ⟨.cpx, .imm, 2, 2, false, false, .read⟩
  | 0xE1 => some ⟨.sbc, .indx, 2, 6, false, false, .read⟩
  | 0xE4 => some ⟨.cpx, .zp, 2, 3, false, false, .read⟩
  | 0xE5 => some ⟨.sbc, .zp, 2, 3, false, false, .read⟩
  | 0xE6 => some ⟨.inc, .zp, 2, 5, false, false, .rmw⟩
  | 0xE8 => some ⟨.inx, .imp, 1, 2, false, false, .other⟩
  | 0xE9 => some ⟨.sbc, .imm, 2, 2, false, false, .read⟩
  | 0xEA => some ⟨.nop, .imp, 1, 2, false, false, .other⟩
  | 0xEC => some ⟨.cpx, .abs, 3, 4, false, false, .read⟩
  | 0xED => some ⟨.sbc, .abs, 3, 4, false, false, .read⟩
  | 0xEE => some ⟨.inc, .abs, 3, 6, false, false, .rmw⟩
  | 0xF0 => some ⟨.beq, .rel, 2, 2, false, true, .flow⟩
  | 0xF1 => some ⟨.sbc, .indy, 2, 5, true, false, .read⟩
  | 0xF5 => some ⟨.sbc, .zpx, 2, 4, false, false, .read⟩
  | 0xF6 => some ⟨.inc, .zpx, 2, 6, false, false, .rmw⟩
  | 0xF8 => some ⟨.sed, .imp, 1, 2, false, false, .other⟩
  | 0xF9 => some ⟨.sbc, .absy, 3, 4, true, false, .read⟩
  | 0xFD => some ⟨.sbc, .absx, 3, 4, true, false, .read⟩
  | 0xFE => some ⟨.inc, .absx, 3, 7, false, false, .rmw⟩
  | _ => none

/-- The bytes of an instruction, opcode first, an address with its low byte first (30_encoding R140, R144, R155). -/
def encode : Instr → List Byte
  | .brk => [0x00#8]
  | .oraIndx p => [0x01#8, p]
  | .oraZp a => [0x05#8, a]
  | .aslZp a => [0x06#8, a]
  | .php => [0x08#8]
  | .oraImm v => [0x09#8, v]
  | .aslAcc => [0x0A#8]
  | .oraAbs w => [0x0D#8, loByte w, hiByte w]
  | .aslAbs w => [0x0E#8, loByte w, hiByte w]
  | .bpl off => [0x10#8, off]
  | .oraIndy p => [0x11#8, p]
  | .oraZpx a => [0x15#8, a]
  | .aslZpx a => [0x16#8, a]
  | .clc => [0x18#8]
  | .oraAbsy w => [0x19#8, loByte w, hiByte w]
  | .oraAbsx w => [0x1D#8, loByte w, hiByte w]
  | .aslAbsx w => [0x1E#8, loByte w, hiByte w]
  | .jsr w => [0x20#8, loByte w, hiByte w]
  | .andIndx p => [0x21#8, p]
  | .bitZp a => [0x24#8, a]
  | .andZp a => [0x25#8, a]
  | .rolZp a => [0x26#8, a]
  | .plp => [0x28#8]
  | .andImm v => [0x29#8, v]
  | .rolAcc => [0x2A#8]
  | .bitAbs w => [0x2C#8, loByte w, hiByte w]
  | .andAbs w => [0x2D#8, loByte w, hiByte w]
  | .rolAbs w => [0x2E#8, loByte w, hiByte w]
  | .bmi off => [0x30#8, off]
  | .andIndy p => [0x31#8, p]
  | .andZpx a => [0x35#8, a]
  | .rolZpx a => [0x36#8, a]
  | .sec => [0x38#8]
  | .andAbsy w => [0x39#8, loByte w, hiByte w]
  | .andAbsx w => [0x3D#8, loByte w, hiByte w]
  | .rolAbsx w => [0x3E#8, loByte w, hiByte w]
  | .rti => [0x40#8]
  | .eorIndx p => [0x41#8, p]
  | .eorZp a => [0x45#8, a]
  | .lsrZp a => [0x46#8, a]
  | .pha => [0x48#8]
  | .eorImm v => [0x49#8, v]
  | .lsrAcc => [0x4A#8]
  | .jmpAbs w => [0x4C#8, loByte w, hiByte w]
  | .eorAbs w => [0x4D#8, loByte w, hiByte w]
  | .lsrAbs w => [0x4E#8, loByte w, hiByte w]
  | .bvc off => [0x50#8, off]
  | .eorIndy p => [0x51#8, p]
  | .eorZpx a => [0x55#8, a]
  | .lsrZpx a => [0x56#8, a]
  | .cli => [0x58#8]
  | .eorAbsy w => [0x59#8, loByte w, hiByte w]
  | .eorAbsx w => [0x5D#8, loByte w, hiByte w]
  | .lsrAbsx w => [0x5E#8, loByte w, hiByte w]
  | .rts => [0x60#8]
  | .adcIndx p => [0x61#8, p]
  | .adcZp a => [0x65#8, a]
  | .rorZp a => [0x66#8, a]
  | .pla => [0x68#8]
  | .adcImm v => [0x69#8, v]
  | .rorAcc => [0x6A#8]
  | .jmpInd w => [0x6C#8, loByte w, hiByte w]
  | .adcAbs w => [0x6D#8, loByte w, hiByte w]
  | .rorAbs w => [0x6E#8, loByte w, hiByte w]
  | .bvs off => [0x70#8, off]
  | .adcIndy p => [0x71#8, p]
  | .adcZpx a => [0x75#8, a]
  | .rorZpx a => [0x76#8, a]
  | .sei => [0x78#8]
  | .adcAbsy w => [0x79#8, loByte w, hiByte w]
  | .adcAbsx w => [0x7D#8, loByte w, hiByte w]
  | .rorAbsx w => [0x7E#8, loByte w, hiByte w]
  | .staIndx p => [0x81#8, p]
  | .styZp a => [0x84#8, a]
  | .staZp a => [0x85#8, a]
  | .stxZp a => [0x86#8, a]
  | .dey => [0x88#8]
  | .txa => [0x8A#8]
  | .styAbs w => [0x8C#8, loByte w, hiByte w]
  | .staAbs w => [0x8D#8, loByte w, hiByte w]
  | .stxAbs w => [0x8E#8, loByte w, hiByte w]
  | .bcc off => [0x90#8, off]
  | .staIndy p => [0x91#8, p]
  | .styZpx a => [0x94#8, a]
  | .staZpx a => [0x95#8, a]
  | .stxZpy a => [0x96#8, a]
  | .tya => [0x98#8]
  | .staAbsy w => [0x99#8, loByte w, hiByte w]
  | .txs => [0x9A#8]
  | .staAbsx w => [0x9D#8, loByte w, hiByte w]
  | .ldyImm v => [0xA0#8, v]
  | .ldaIndx p => [0xA1#8, p]
  | .ldxImm v => [0xA2#8, v]
  | .ldyZp a => [0xA4#8, a]
  | .ldaZp a => [0xA5#8, a]
  | .ldxZp a => [0xA6#8, a]
  | .tay => [0xA8#8]
  | .ldaImm v => [0xA9#8, v]
  | .tax => [0xAA#8]
  | .ldyAbs w => [0xAC#8, loByte w, hiByte w]
  | .ldaAbs w => [0xAD#8, loByte w, hiByte w]
  | .ldxAbs w => [0xAE#8, loByte w, hiByte w]
  | .bcs off => [0xB0#8, off]
  | .ldaIndy p => [0xB1#8, p]
  | .ldyZpx a => [0xB4#8, a]
  | .ldaZpx a => [0xB5#8, a]
  | .ldxZpy a => [0xB6#8, a]
  | .clv => [0xB8#8]
  | .ldaAbsy w => [0xB9#8, loByte w, hiByte w]
  | .tsx => [0xBA#8]
  | .ldyAbsx w => [0xBC#8, loByte w, hiByte w]
  | .ldaAbsx w => [0xBD#8, loByte w, hiByte w]
  | .ldxAbsy w => [0xBE#8, loByte w, hiByte w]
  | .cpyImm v => [0xC0#8, v]
  | .cmpIndx p => [0xC1#8, p]
  | .cpyZp a => [0xC4#8, a]
  | .cmpZp a => [0xC5#8, a]
  | .decZp a => [0xC6#8, a]
  | .iny => [0xC8#8]
  | .cmpImm v => [0xC9#8, v]
  | .dex => [0xCA#8]
  | .cpyAbs w => [0xCC#8, loByte w, hiByte w]
  | .cmpAbs w => [0xCD#8, loByte w, hiByte w]
  | .decAbs w => [0xCE#8, loByte w, hiByte w]
  | .bne off => [0xD0#8, off]
  | .cmpIndy p => [0xD1#8, p]
  | .cmpZpx a => [0xD5#8, a]
  | .decZpx a => [0xD6#8, a]
  | .cld => [0xD8#8]
  | .cmpAbsy w => [0xD9#8, loByte w, hiByte w]
  | .cmpAbsx w => [0xDD#8, loByte w, hiByte w]
  | .decAbsx w => [0xDE#8, loByte w, hiByte w]
  | .cpxImm v => [0xE0#8, v]
  | .sbcIndx p => [0xE1#8, p]
  | .cpxZp a => [0xE4#8, a]
  | .sbcZp a => [0xE5#8, a]
  | .incZp a => [0xE6#8, a]
  | .inx => [0xE8#8]
  | .sbcImm v => [0xE9#8, v]
  | .nop => [0xEA#8]
  | .cpxAbs w => [0xEC#8, loByte w, hiByte w]
  | .sbcAbs w => [0xED#8, loByte w, hiByte w]
  | .incAbs w => [0xEE#8, loByte w, hiByte w]
  | .beq off => [0xF0#8, off]
  | .sbcIndy p => [0xF1#8, p]
  | .sbcZpx a => [0xF5#8, a]
  | .incZpx a => [0xF6#8, a]
  | .sed => [0xF8#8]
  | .sbcAbsy w => [0xF9#8, loByte w, hiByte w]
  | .sbcAbsx w => [0xFD#8, loByte w, hiByte w]
  | .incAbsx w => [0xFE#8, loByte w, hiByte w]

/-- An instruction's opcode: the first byte of its encoding. -/
def opcodeOf (i : Instr) : Byte := (encode i).headD 0x00#8

/-- The bytes of a table word, the first in its low eight bits; every bit above `nbits` is 0. -/
def tableBytes (nbits w : Nat) : List Byte :=
  let v := w % 2 ^ nbits
  [BitVec.ofNat 8 v, BitVec.ofNat 8 (v / 256), BitVec.ofNat 8 (v / 65536)]

/-- The instruction the decoder reads from an opcode-table word. -/
def decodeTableWord (nbits w : Nat) : Option Instr :=
  match decode (tableBytes nbits w) with
  | .ok (i, _) => some i
  | .error _ => none

end Sys2Proof
end

