-- ==== Sys2Proof/Machine/Fetch.lean ====
section
/-! DEFINITION. Fetching an instruction's bytes over the bus, decoding them, and closing the result record
(40_addressing_modes R182, R198; 60_exceptions R461, R465). -/

namespace Sys2Proof.Machine

/-- The result record as an instruction starts: nothing observed, Final = false (10_state R39, 40_addressing_modes R182). DESIGN
CHOICE (log 46): the spec names no moment at which the record of the instruction before is cleared, and here it is the start of the
step, before the opcode fetch and the WSYNC stall cycles ahead of it. -/
def beginInstr (s : State) : State :=
  { s with result := { opcode := none, defn := none, bytes := 0, cycles := 0, pageCrossed := false, bug := none, final := false } }

/-- The opcode and its definition in the result record (10_state R39). -/
def recordOpcode (op : Byte) (s : State) : State :=
  { s with result := { s.result with opcode := some op, defn := opcodeTable op } }

/-- JSR reads its third byte only in its last cycle, after the pushes (45_control R352). -/
def readsHighLate (op : Byte) : Bool := op == 0x20#8

/-- The operand bytes after an opcode, fetched in order, one read cycle each (40_addressing_modes R184 to R191). JSR's third byte
is only peeked: its meaning reads it (log 12). An undefined opcode fetches nothing (30_encoding R152). -/
def fetchOperands (op : Byte) (s : State) : List Byte × State :=
  match operandCount op with
  | none | some 0 => ([], s)
  | some 1 =>
    let b := fetchByte s
    ([b.1], b.2)
  | some _ =>
    let lo := fetchByte s
    if readsHighLate op then ([lo.1, peek lo.2.cpu.pc lo.2], lo.2)
    else
      let hi := fetchByte lo.2
      ([lo.1, hi.1], hi.2)

/-- The opcode fetch cycle with the record started (40_addressing_modes R182). -/
def fetchOpcode (s : State) : Byte × State :=
  let op := fetchByte (beginInstr s)
  (op.1, recordOpcode op.1 op.2)

/-- Fetch and decode the instruction at PC. An undefined opcode raises `UndefinedOpcode` after its fetch cycle, and nothing else
happens (30_encoding R152, 60_exceptions R461). What the result record then holds the spec does not say: the model leaves it as the
fetch cycle made it, the opcode recorded, no definition, one byte, one cycle, Final false. DESIGN CHOICE (log 38). -/
def fetchInstr (s : State) : Option Instr × State :=
  let op := fetchOpcode s
  let r := fetchOperands op.1 op.2
  match decode (op.1 :: r.1) with
  | .ok (i, _) => (some i, r.2)
  | .error _ => (none, op.2.raise (.undefinedOpcode op.1 s.cpu.pc))

/-- `Result.IsValid()`: the observed byte and cycle counts are the definition's (60_exceptions R465). -/
def resultValid (r : ResultRecord) : Bool :=
  match r.defn with
  | none => false
  | some d =>
    r.bytes == d.bytes &&
      (r.bug.isSome ||
        (if d.branch then r.cycles == d.cycles || r.cycles == d.cycles + 1 || r.cycles == d.cycles + 2
         else r.cycles == d.cycles + (if r.pageCrossed && d.pageSensitive then 1 else 0)))

/-- The end of an instruction: Final is set, or `InvalidResult` is raised when the post-condition fails
(40_addressing_modes R198, 60_exceptions R465, R466). -/
def finishInstr (s : State) : State :=
  if resultValid s.result then { s with result := { s.result with final := true } }
  else s.raise (.invalidResult s.result.opcode s.result.defn s.result.bytes s.result.cycles)

/-- The invariants a step of the model checks before it runs (60_exceptions R467; log 31): the bank index in range, every pending
future with a clock left, the RIOT prescaler inside its interval. -/
def brokenInvariant (s : State) : Option Fault :=
  if !s.cart.bankOk then some (.memoryError (.bankOutOfRange s.cart.bank))
  else if s.tia.futures.any (fun f => decide (f.remaining = 0)) then some (.panicError .futureWithoutClock)
  else if !decide (s.riot.prescale < s.riot.interval.length) then some (.panicError (.prescalerOutOfInterval s.riot.prescale))
  else none

/-- Why a state has no step: a refusal mark, a recorded fault, or a broken invariant (60_exceptions R460, 92 Terms). -/
def stopReason (s : State) : Option (Fault ⊕ Refusal) :=
  match s.refusal, s.fault with
  | some r, _ => some (.inr r)
  | none, some f => some (.inl f)
  | none, none => (brokenInvariant s).map .inl

/-! ### Placing an instruction -/

/-- A byte stored at this address is what a fetch from it reads: PIA RAM, or a cartridge local that is neither a hotspot nor in the
superchip's write port (log 6). -/
def placeable (c : Cart) (addr : Word) : Bool :=
  let a := addr13 addr
  match areaOf a with
  | .ram => true
  | .cart => !c.inWritePort (readLocal a) && !c.isHotspot (readLocal a)
  | .tia | .riot => false

/-- Store a byte where a fetch from this address reads it. -/
def placeByte (addr : Word) (v : Byte) (s : State) : State :=
  let a := addr13 addr
  let loc := readLocal a
  match areaOf a with
  | .ram => { s with ram := s.ram.write loc v }
  | .cart =>
    if s.cart.inReadPort loc then { s with cart := { s.cart with scRam := s.cart.scRam.write (loc - 0x080) v } }
    else { s with cart := { s.cart with image := s.cart.image.write (s.cart.offset loc) v } }
  | .tia | .riot => s

/-- Store consecutive bytes from an address on. -/
def placeBytes : Word → List Byte → State → State
  | _, [], s => s
  | a, b :: rest, s => placeBytes (a + 1) rest (placeByte a b s)

/-- Where three instruction bytes can be placed for the next fetch: at PC if they can stand there, else at 0xF100, an ordinary
cartridge address under every mapper (log 6). -/
def placeAt (s : State) : Word :=
  let pc := s.cpu.pc
  if placeable s.cart pc && placeable s.cart (pc + 1) && placeable s.cart (pc + 2) then pc else 0xF100#16

/-- The state with instruction bytes where the next fetch reads them, able to run. -/
def placeInstr (bytes : List Byte) (s : State) : State :=
  let a := placeAt s
  placeBytes a bytes { s.setPC a with fault := none, refusal := none }

end Sys2Proof.Machine
end

