-- ==== Sys2Proof/Machine/Step.lean ====
section
/-! DEFINITION. One step: one whole CPU instruction (63_riot_console R661). -/

namespace Sys2Proof.Machine

/-- One `Step` (63_riot_console R661): a state that is stopped answers why; otherwise the instruction at PC is fetched and
decoded, its meaning runs, and the result record is closed. An undefined opcode leaves the fault state of 60_exceptions R461. -/
def step (s : State) : Host.Outcome State Fault Refusal :=
  match stopReason s with
  | some (.inl f) => .fault f
  | some (.inr r) => .refused r
  | none =>
    match fetchInstr s with
    | (none, s1) => .next s1
    | (some i, s1) =>
      match exec i s1 with
      | .next s2 => .next (finishInstr s2)
      | .fault f => .fault f
      | .refused r => .refused r

/-- The state with the instruction of an opcode-table word stored where the next step fetches it (log 6). -/
def State.withFetchWord (s : State) (nbits w : Nat) : State := placeInstr (tableBytes nbits w) s

end Sys2Proof.Machine
end

