-- ==== Sys2Proof/Machine/Console.lean ====
section
/-! DEFINITION. What the host can do to the machine between instructions (63_riot_console section 3): load, reset, input, Peek,
Poke, GetBank, CPUState, TVState. None of it is part of a step. -/

namespace Sys2Proof.Machine

/-! ### Load and reset -/

/-- A launch: the image, its mapper and the open parameters (63_riot_console R673, 20_memory R118). `maxSteps` is the number of steps
after which its run ends (R665, D32); no step reads it, so it stands here and not in `Params`. -/
structure Launch where
  image : List Byte
  mapper : Mapper
  params : Params
  maxSteps : Nat
deriving DecidableEq, Repr

/-- Why a launch has no initial state. -/
inductive LoadError where
  /-- `CartridgeError`: no layout of the mapper has this size (20_memory R115, R117). -/
  | cartridgeError (size : Nat)
  /-- The launch's initial bank is no bank of the cartridge (20_memory R114; log 33). -/
  | badInitialBank (bank : Nat)
deriving DecidableEq, Repr

/-- The launch's cartridge. -/
def Launch.cart (l : Launch) : Cart :=
  Cart.insert l.mapper l.image.length (Memory.ofBytes l.image) l.params.initialBank

/-- `load cartridge`: the power-on state, or a refusal (63_riot_console R664, 20_memory R117, 70_reset_and_hazards R700). -/
def load (l : Launch) : Except LoadError State :=
  if !l.mapper.sizeOk l.image.length then .error (.cartridgeError l.image.length)
  else if !l.cart.bankOk then .error (.badInitialBank l.params.initialBank.bank)
  else .ok (State.powerOn l.cart l.params)

/-- `reset`, at power-on or later: the power-on state of the same cartridge (70_reset_and_hazards R700, R701). The free values go
on where they were (log 7). A recorded fault is gone (60_exceptions R446, R460); the spec does not say whether a refusal mark is,
and the model clears it with the rest of the old state. DESIGN CHOICE (log 40). -/
def hostReset (s : State) : State :=
  { State.powerOn (Cart.insert s.cart.mapper s.cart.size s.cart.image s.params.initialBank) s.params with draws := s.draws }

/-! ### Peripheral input -/

/-- The controller an input event names (63_riot_console R663). -/
inductive Side where
  | left | right
deriving DecidableEq, Repr

/-- A joystick direction (63_riot_console R658). -/
inductive Direction where
  | up | down | left | right
deriving DecidableEq, Repr

/-- A panel switch (63_riot_console R658). -/
inductive PanelSwitch where
  | reset | select | colour | difficultyLeft | difficultyRight
deriving DecidableEq, Repr

/-- A peripheral input event (63_riot_console R663). A paddle's and a switch's value is the level of its pin. Which of the four
paddle inputs an event of device Left or Right drives the spec does not say: the model's event names the input, 0..3.
DESIGN CHOICE (log 39). -/
inductive InputEvent where
  | joystick (side : Side) (dir : Direction) (pressed : Bool)
  | fire (side : Side) (pressed : Bool)
  | paddle (number : Fin 4) (level : Bool)
  | panel (sw : PanelSwitch) (level : Bool)
deriving DecidableEq, Repr

/-- One bit of a byte set to a level. -/
def setBit (v : Byte) (k : Nat) (level : Bool) : Byte :=
  (v &&& ~~~(bitAt k true)) ||| bitAt k level

/-- The port A bit of a direction: bits 7..4 left, 3..0 right, each right, left, down, up (63_riot_console R658). -/
def joystickBit (side : Side) (dir : Direction) : Nat :=
  (match dir with | .up => 0 | .down => 1 | .left => 2 | .right => 3) + (match side with | .left => 4 | .right => 0)

/-- The port B bit of a switch (63_riot_console R658). -/
def panelBit : PanelSwitch → Nat
  | .reset => 0
  | .select => 1
  | .colour => 3
  | .difficultyLeft => 6
  | .difficultyRight => 7

/-- The pins after an event; a pressed direction pulls its pin low (63_riot_console R658, R663). -/
def inputPins (e : InputEvent) (i : Inputs) : Inputs :=
  match e with
  | .joystick side dir pressed => { i with pinsA := setBit i.pinsA (joystickBit side dir) (!pressed) }
  | .fire .left pressed => { i with fireLeft := pressed }
  | .fire .right pressed => { i with fireRight := pressed }
  | .paddle n level =>
    match n with
    | 0 => { i with paddle0 := level }
    | 1 => { i with paddle1 := level }
    | 2 => { i with paddle2 := level }
    | 3 => { i with paddle3 := level }
  | .panel sw level => { i with pinsB := setBit i.pinsB (panelBit sw) level }

/-- A peripheral input event changes the pins only (63_riot_console R663, R664); the fire-button latches see them at the next tick
(61_tia R554; log 19). -/
def applyInput (e : InputEvent) (s : State) : State := { s with inputs := inputPins e s.inputs }

/-! ### Peek, Poke and the other requests -/

/-- The register of its own that a Poke at a TIA latch stores: the vertical-delay copies of 61_tia R518, which a write cycle makes
beside it, are not made. DESIGN CHOICE (log 32). -/
def pokeLatch (t : Tia) (r : TiaLatch) (v : Byte) : Tia :=
  match r with
  | .grp0 => { t with grp0new := v }
  | .grp1 => { t with grp1new := v }
  | r => t.store r v

/-- `Poke`: store one byte without triggering a strobe (20_memory R86, 63_riot_console R664). At a TIA latch it stores that register
alone: no vertical-delay copy, no fire-button latch, no free position. DESIGN CHOICE (log 32). -/
def poke (addr : Word) (v : Byte) (s : State) : State :=
  let a := addr13 addr
  let loc := writeLocal a
  match areaOf a with
  | .ram => { s with ram := s.ram.write loc v }
  | .cart =>
    if s.cart.inWritePort loc then { s with cart := { s.cart with scRam := s.cart.scRam.write loc v } }
    else if s.cart.inReadPort loc then { s with cart := { s.cart with scRam := s.cart.scRam.write (loc - 0x080) v } }
    else { s with cart := { s.cart with image := s.cart.image.write (s.cart.offset loc) v } }
  | .tia =>
    match tiaWriteReg loc with
    | some (.latch r) => { s with tia := pokeLatch s.tia r v }
    | some (.strobe _) | none => s
  | .riot =>
    match riotWriteReg loc with
    | .ora => { s with riot := { s.riot with ora := v } }
    | .ddra => { s with riot := { s.riot with ddra := v } }
    | .orb => { s with riot := { s.riot with orb := v } }
    | .ddrb => { s with riot := { s.riot with ddrb := v } }
    | .timer _ => { s with riot := { s.riot with timer := v } }
    | .edge _ => s

/-- `GetBank(addr)`: the bank, or for E0 the slice, that serves a cartridge address (20_memory R113). DESIGN CHOICE (log 45): R113
speaks of cartridge addresses only, and for an address no bank serves, one outside the cartridge area or a superchip RAM port, the
answer is that of its low 12 bits as if a bank served it. No step reads it: safe. -/
def getBank (addr : Word) (s : State) : Nat := s.cart.getBank ((addr13 addr).toNat % 4096)

/-- `CPUState`: the registers and the result record (63_riot_console R672). -/
def cpuState (s : State) : Cpu × ResultRecord := (s.cpu, s.result)

/-- The request tags of `TVState` (62_television R618). -/
inductive TvRequest where
  | framenum | scanline | horizPos | visibleTop | visibleBottom
deriving DecidableEq, Repr

/-- `TVState(req)` (62_television R618). -/
def tvState (req : TvRequest) (s : State) : Int :=
  match req with
  | .framenum => s.tv.frame
  | .scanline => s.tv.scanline
  | .horizPos => s.tv.horizontal
  | .visibleTop => s.tv.visibleTop
  | .visibleBottom => s.tv.visibleBottom

/-- The host's moves that may change a running machine (63_riot_console R664). -/
inductive HostAction where
  | reset
  | input (e : InputEvent)
  | poke (addr : Word) (v : Byte)
  | setFeature (pause on : Bool)
  | cancel
deriving DecidableEq, Repr

/-- What a host move does, between two instructions (63_riot_console R664). -/
def applyHost (h : HostAction) (s : State) : State :=
  match h with
  | .reset => hostReset s
  | .input e => applyInput e s
  | .poke addr v => Sys2Proof.Machine.poke addr v s
  | .setFeature _ _ => s
  | .cancel => s

/-! ### Codes -/

/-- The fault codes (60_exceptions R441). -/
def faultCode : Fault → Nat
  | .undefinedOpcode _ _ => 0x01
  | .invalidResult _ _ _ _ => 0x02
  | .memoryError _ => 0x03
  | .panicError _ => 0x04

/-- The report codes (60_exceptions R441). -/
def reportCode : Report → Nat
  | .unwritableAddress _ _ => 0x10
  | .unreadableAddress _ => 0x11
  | .outOfSpec _ => 0x12

/-- The load refusal's code (60_exceptions R441); the model's own refusal of an initial bank has none (log 33). -/
def loadErrorCode : LoadError → Option Nat
  | .cartridgeError _ => some 0x20
  | .badInitialBank _ => none

end Sys2Proof.Machine
end

