-- ==== Sys2Proof/Machine/Cycle.lean ====
section
/-! DEFINITION. The same machine one color clock at a time: the CPU's state between two cycles of an instruction, what each cycle
of an instruction does, and the state at every color clock inside a step (10_state R40, 63_riot_console R660 to R662,
40_addressing_modes section 2). `step` runs all of an instruction's cycles at once; here they can be watched and cut short. -/

namespace Sys2Proof.Machine

/-! ### The CPU between two cycles -/

/-- What one cycle of an instruction is for (40_addressing_modes section 2, and the cycle tables of 42_transfer_stack to
46_flags_system). -/
inductive CycleKind where
  /-- The opcode fetch (40_addressing_modes R182). -/
  | opcode
  /-- An operand byte (R184 to R191). -/
  | operand
  /-- The operand byte of an immediate instruction, and its effect (R184). -/
  | immediate
  /-- The dummy read of PC of a one-byte instruction, and its effect (R183). -/
  | implied
  /-- `DummyRead(PC)`. -/
  | dummyPC
  /-- JSR's `DummyRead(0x0100 + S)` (45_control R352). -/
  | dummyStack
  /-- The first of a pull's two cycles: `DummyRead(0x0100 + S)`, and S is incremented in it (R196; log 43). -/
  | dummyPull
  /-- The dummy read of an unindexed page-0 address, which then gets its index (R188, R190). -/
  | addIndex
  /-- The low byte of a pointer in page 0 (R190, R191). -/
  | pointerLow
  /-- The high byte of a pointer in page 0 (R190, R191). -/
  | pointerHigh
  /-- The dummy read at EAu of the Write and RMW classes (R189, R191). -/
  | fixAddress
  /-- The read at EAu of the Read class: the operand, unless the page is crossed (R189, R191). -/
  | readUnfixed
  /-- The operand at the effective address, and the instruction's effect. -/
  | read
  /-- The store of the Write class. -/
  | store
  /-- The RMW tail's read (R187). -/
  | modifyRead
  /-- The RMW tail's write of the unmodified byte (R187). -/
  | modifyRewrite
  /-- The RMW tail's write of the result (R187), with which P changes (log 44). -/
  | modifyWrite
  /-- PHA and PHP: the push (42_transfer_stack R257, R258). -/
  | pushRegister
  /-- PLA and PLP: the read of the pull (42_transfer_stack R259, R260). -/
  | pullRegister
  /-- The push of PC's high byte (45_control R352, 46_flags_system R389). -/
  | pushHigh
  /-- The push of PC's low byte. -/
  | pushLow
  /-- BRK's push of P, which then has I set (46_flags_system R389). -/
  | pushStatus
  /-- The read of RTI's pull of P (46_flags_system R390). -/
  | pullStatus
  /-- The read of RTS's pull of PC's low byte (45_control R353). -/
  | pullReturn
  /-- RTI's pull of PC's low byte, in one cycle (46_flags_system R390). -/
  | pullLow
  /-- The pull of PC's high byte, in one cycle (45_control R353, 46_flags_system R390). -/
  | pullHigh
  /-- RTS's dummy read at the pulled address, which is then incremented (45_control R353). -/
  | returnPlusOne
  /-- BRK's read of its padding byte (46_flags_system R389). -/
  | padding
  /-- The vector's low byte at 0xFFFE (46_flags_system R389). -/
  | vectorLow
  /-- The vector's high byte at 0xFFFF. -/
  | vectorHigh
  /-- The high byte of JMP's target (45_control R351). -/
  | jumpTarget
  /-- The low byte at JMP's pointer (45_control R351). -/
  | jumpLow
  /-- The high byte at JMP's pointer, in the pointer's own page (45_control R351). -/
  | jumpHigh
  /-- The high byte of JSR's target, read last (45_control R352). -/
  | callTarget
  /-- A branch's offset, and its decision (45_control R354). -/
  | offset
  /-- A taken branch's dummy read at the next instruction (45_control R354). -/
  | branchTaken
  /-- A taken branch's dummy read in the page it leaves (45_control R354). -/
  | branchFix
deriving DecidableEq, Repr

/-- The CPU's internal cycle state (10_state R40): the opcode being executed, the operand bytes fetched so far, the
effective-address latch, the byte held for a later cycle (a low byte, or the ALU result pending write), the byte last read,
whether this cycle is a WSYNC stall (61_tia R560), and the cycles still to come, the present one first. The cycle index is the
result record's cycle count. Between two instructions nothing is to come. -/
structure CycleState where
  opcode : Option Byte
  operands : List Byte
  address : Word
  data : Byte
  bus : Byte
  held : Bool
  todo : List CycleKind
deriving DecidableEq, Repr

/-- Between two instructions (63_riot_console R662). -/
def CycleState.idle : CycleState :=
  { opcode := none, operands := [], address := 0#16, data := 0#8, bus := 0#8, held := false, todo := [] }

/-- The definition of the opcode being executed. -/
def CycleState.defn (c : CycleState) : Option InstrDef := c.opcode.bind opcodeTable

/-- Its mnemonic; NOP while there is none. -/
def CycleState.mnemonic (c : CycleState) : Mnemonic := ((c.defn).map InstrDef.mnemonic).getD .nop

/-- The operand bytes as an address or a page-0 address (30_encoding R143, R144). -/
def CycleState.word (c : CycleState) : Word := mkWord (c.operands.getD 1 0#8) (c.operands.getD 0 0#8)

/-- The index the addressing mode adds (40_addressing_modes R188 to R191). -/
def CycleState.index (c : CycleState) (r : Cpu) : Byte :=
  match (c.defn).map InstrDef.mode with
  | some .zpx | some .absx | some .indx => r.x
  | some .zpy | some .absy | some .indy => r.y
  | _ => 0#8

/-! ### What an instruction's mnemonic does with its operand -/

/-- The effect of a Read-class instruction on its operand (41_load_store R231 to R233, 43_arithmetic R281 to R288,
44_logic_shift R321 to R324). -/
def readEffect (m : Mnemonic) (v : Byte) (s : State) : State :=
  match m with
  | .lda => loadA (v, s)
  | .ldx => loadX (v, s)
  | .ldy => loadY (v, s)
  | .adc => addOperand (v, s)
  | .sbc => subOperand (v, s)
  | .and => combineA (· &&& ·) (v, s)
  | .ora => combineA (· ||| ·) (v, s)
  | .eor => combineA (· ^^^ ·) (v, s)
  | .bit => testOperand (v, s)
  | .cmp => compareOperand s.cpu.a (v, s)
  | .cpx => compareOperand s.cpu.x (v, s)
  | .cpy => compareOperand s.cpu.y (v, s)
  | _ => s

/-- The byte a Write-class instruction stores (41_load_store R234 to R236). -/
def storedByte (m : Mnemonic) (r : Cpu) : Byte :=
  match m with
  | .stx => r.x
  | .sty => r.y
  | _ => r.a

/-- The operation of an RMW instruction (43_arithmetic R289, R292, 44_logic_shift R325 to R328). -/
def modifyOp (m : Mnemonic) : Byte → Flags → ShiftResult :=
  match m with
  | .asl => asl
  | .lsr => lsr
  | .rol => rol
  | .ror => ror
  | .inc => inc
  | _ => dec

/-- The accumulator form of a shift (44_logic_shift R325 to R328). -/
def shiftA (f : Byte → Flags → ShiftResult) (s : State) : State :=
  let out := f s.cpu.a s.cpu.p
  (s.setA out.value).setP out.p

/-- The effect of a one-byte instruction that has no other cycle (42_transfer_stack R251 to R256, 43_arithmetic R290 to R294,
44_logic_shift R325 to R328, 46_flags_system R381 to R388). -/
def impliedEffect (m : Mnemonic) (s : State) : State :=
  match m with
  | .tax => (s.setX s.cpu.a).setNZ s.cpu.a
  | .tay => (s.setY s.cpu.a).setNZ s.cpu.a
  | .txa => (s.setA s.cpu.x).setNZ s.cpu.x
  | .tya => (s.setA s.cpu.y).setNZ s.cpu.y
  | .tsx => (s.setX s.cpu.sp).setNZ s.cpu.sp
  | .txs => s.setS s.cpu.x
  | .inx => (s.setX (s.cpu.x + 1)).setNZ (s.cpu.x + 1)
  | .iny => (s.setY (s.cpu.y + 1)).setNZ (s.cpu.y + 1)
  | .dex => (s.setX (s.cpu.x - 1)).setNZ (s.cpu.x - 1)
  | .dey => (s.setY (s.cpu.y - 1)).setNZ (s.cpu.y - 1)
  | .asl | .lsr | .rol | .ror => shiftA (modifyOp m) s
  | .clc => s.setP { s.cpu.p with c := false }
  | .cld => s.setP { s.cpu.p with d := false }
  | .cli => s.setP { s.cpu.p with i := false }
  | .clv => s.setP { s.cpu.p with v := false }
  | .sec => s.setP { s.cpu.p with c := true }
  | .sed => s.setP { s.cpu.p with d := true }
  | .sei => s.setP { s.cpu.p with i := true }
  | _ => s

/-- The condition of a branch (45_control R355 to R362). -/
def branchCondition (m : Mnemonic) (p : Flags) : Bool :=
  match m with
  | .bcc => !p.c
  | .bcs => p.c
  | .beq => p.z
  | .bne => !p.z
  | .bmi => p.n
  | .bpl => !p.n
  | .bvc => !p.v
  | .bvs => p.v
  | _ => false

/-! ### The cycles of an instruction -/

/-- The cycles that form the effective address, the operand bytes included (40_addressing_modes R185 to R191). -/
def addressCycles : Mode → List CycleKind
  | .zp => [.operand]
  | .zpx | .zpy => [.operand, .addIndex]
  | .abs | .absx | .absy | .ind => [.operand, .operand]
  | .indx => [.operand, .addIndex, .pointerLow, .pointerHigh]
  | .indy => [.operand, .pointerLow, .pointerHigh]
  | .imp | .acc | .imm | .rel => []

/-- The modes whose index can carry out of the low byte (40_addressing_modes R189, R191). -/
def carries : Mode → Bool
  | .absx | .absy | .indy => true
  | _ => false

/-- The cycles after the opcode fetch (40_addressing_modes section 2; 42_transfer_stack R257 to R260; 45_control R351 to R354;
46_flags_system R389, R390). A crossed page and a taken branch add cycles as they happen. -/
def cyclesOf (d : InstrDef) : List CycleKind :=
  match d.mnemonic with
  | .brk => [.padding, .pushHigh, .pushLow, .pushStatus, .vectorLow, .vectorHigh]
  | .rti => [.dummyPC, .dummyPull, .pullStatus, .pullLow, .pullHigh]
  | .rts => [.dummyPC, .dummyPull, .pullReturn, .pullHigh, .returnPlusOne]
  | .jsr => [.operand, .dummyStack, .pushHigh, .pushLow, .callTarget]
  | .jmp => if d.mode = .ind then [.operand, .operand, .jumpLow, .jumpHigh] else [.operand, .jumpTarget]
  | .pha | .php => [.dummyPC, .pushRegister]
  | .pla | .plp => [.dummyPC, .dummyPull, .pullRegister]
  | _ =>
    match d.mode with
    | .imp | .acc => [.implied]
    | .imm => [.immediate]
    | .rel => [.offset]
    | m =>
      match d.effect with
      | .write => addressCycles m ++ (if carries m then [.fixAddress] else []) ++ [.store]
      | .rmw =>
        addressCycles m ++ (if carries m then [.fixAddress] else []) ++ [.modifyRead, .modifyRewrite, .modifyWrite]
      | _ => addressCycles m ++ (if carries m then [.readUnfixed] else [.read])

/-- The bus access of a cycle: its address, and the byte written if it is a write. -/
def cycleAccess (k : CycleKind) (c : CycleState) (r : Cpu) : Word × Option Byte :=
  match k with
  | .opcode | .operand | .immediate | .implied | .dummyPC | .padding | .jumpTarget | .callTarget | .offset
  | .branchTaken | .branchFix | .returnPlusOne => (r.pc, none)
  | .dummyStack | .dummyPull | .pullRegister | .pullStatus | .pullReturn => (stackAddr r.sp, none)
  | .addIndex | .pointerLow | .read | .modifyRead | .jumpLow => (c.address, none)
  | .pointerHigh => (zpAddr (loByte c.address + 1), none)
  | .fixAddress | .readUnfixed => (unfixed c.address (c.index r), none)
  | .store => (c.address, some (storedByte c.mnemonic r))
  | .modifyRewrite | .modifyWrite => (c.address, some c.data)
  | .pushRegister => (stackAddr r.sp, some (if c.mnemonic = .php then r.p.toByte else r.a))
  | .pushHigh => (stackAddr r.sp, some (hiByte r.pc))
  | .pushLow => (stackAddr r.sp, some (loByte r.pc))
  | .pushStatus => (stackAddr r.sp, some r.p.toByte)
  | .pullLow | .pullHigh => (stackAddr (r.sp + 1), none)
  | .vectorLow => (0xFFFE#16, none)
  | .vectorHigh => (0xFFFF#16, none)
  | .jumpHigh => (mkWord (hiByte c.address) (loByte c.address + 1), none)

/-- PC after an instruction byte, and the byte counted (10_state R35, 60_exceptions R465). -/
def passByte (s : State) : State := (s.setPC (s.cpu.pc + 1)).countByte

/-- The latches after an operand byte: the operand so far, and the address it makes. -/
def CycleState.takeOperand (c : CycleState) : CycleState :=
  let c1 := { c with operands := c.operands ++ [c.bus] }
  { c1 with address := c1.word }

/-- What the CPU does with its latches and registers when a cycle is over (40_addressing_modes section 2; 42_transfer_stack R257 to
R260; 45_control R351 to R354; 46_flags_system R389, R390). `c.todo` are the cycles after this one. The S increment of a two-cycle
pull is the dummy-read cycle's, as 40_addressing_modes R196 says, where 42_transfer_stack R259 puts it in the next: DESIGN CHOICE
(log 43). The RMW tail changes P with its last write, where no rule gives the cycle: DESIGN CHOICE (log 44). -/
def cycleEffect (k : CycleKind) (c : CycleState) (s : State) : CycleState × State :=
  match k with
  | .opcode =>
    let s1 := recordOpcode c.bus (passByte s)
    match opcodeTable c.bus with
    | some d => ({ c with opcode := some c.bus, todo := cyclesOf d }, s1)
    | none => ({ c with opcode := some c.bus, todo := [] }, s1.raise (.undefinedOpcode c.bus s.cpu.pc))
  | .operand => (c.takeOperand, passByte s)
  | .immediate => (c.takeOperand, readEffect c.mnemonic c.bus (passByte s))
  | .implied => (c, impliedEffect c.mnemonic s)
  | .dummyPC | .dummyStack | .store => (c, s)
  | .padding => (c, s.setPC (s.cpu.pc + 1))
  | .addIndex => ({ c with address := zpAddr (loByte c.address + c.index s.cpu) }, s)
  | .pointerLow | .jumpLow | .vectorLow => ({ c with data := c.bus }, s)
  | .pointerHigh => ({ c with address := mkWord c.bus c.data }, s)
  | .fixAddress => ({ c with address := indexed c.address (c.index s.cpu) }, s)
  | .readUnfixed =>
    if crosses c.address (c.index s.cpu) then
      ({ c with address := indexed c.address (c.index s.cpu), todo := [.read] }, s.markCrossed)
    else (c, readEffect c.mnemonic c.bus s)
  | .read => (c, readEffect c.mnemonic c.bus s)
  | .modifyRead => ({ c with data := c.bus }, s)
  | .modifyRewrite => ({ c with data := (modifyOp c.mnemonic c.bus s.cpu.p).value }, s)
  | .modifyWrite => (c, (s.setP (modifyOp c.mnemonic c.bus s.cpu.p).p).markBug .rmwDoubleWrite)
  | .pushRegister | .pushHigh | .pushLow => (c, s.setS (s.cpu.sp - 1))
  | .pushStatus => (c, (s.setS (s.cpu.sp - 1)).setP { s.cpu.p with i := true })
  | .dummyPull => (c, s.setS (s.cpu.sp + 1))
  | .pullRegister => (c, if c.mnemonic = .plp then s.setP (Flags.ofByte c.bus) else (s.setA c.bus).setNZ c.bus)
  | .pullStatus => (c, s.setP (Flags.ofByte c.bus))
  | .pullReturn => ({ c with data := c.bus }, s)
  | .pullLow => ({ c with data := c.bus }, s.setS (s.cpu.sp + 1))
  | .pullHigh => (c, (s.setS (s.cpu.sp + 1)).setPC (mkWord c.bus c.data))
  | .returnPlusOne => (c, s.setPC (s.cpu.pc + 1))
  | .vectorHigh => (c, s.setPC (mkWord c.bus c.data))
  | .jumpTarget => (c.takeOperand, (s.setPC (mkWord c.bus (c.operands.getD 0 0#8))).countByte)
  | .jumpHigh =>
    let s1 := s.setPC (mkWord c.bus c.data)
    (c, if loByte c.address = 0xFF#8 then s1.markBug .jmpIndirectWrap else s1)
  | .callTarget => (c.takeOperand, (s.setPC (mkWord c.bus (c.operands.getD 0 0#8))).countByte)
  | .offset =>
    let c1 := c.takeOperand
    (if branchCondition c.mnemonic s.cpu.p then { c1 with todo := [.branchTaken] } else c1, passByte s)
  | .branchTaken =>
    let target := branchTarget s.cpu.pc (c.operands.getD 0 0#8)
    let near := mkWord (hiByte s.cpu.pc) (loByte target)
    (if hiByte target = hiByte s.cpu.pc then c else { c with address := target, todo := [.branchFix] }, s.setPC near)
  | .branchFix => (c, (s.setPC c.address).markCrossed)

/-! ### One color clock -/

/-- The machine at a suspension point: at an instruction boundary, or between two color clocks of an instruction, the CPU's cycle
state included (63_riot_console R662, 10_state R40). `ticks` counts the TIA ticks the present CPU cycle has had, 0..3. -/
structure Suspended where
  state : State
  cycle : CycleState
  ticks : Fin 4
deriving DecidableEq, Repr

/-- Between two instructions. -/
def Suspended.atBoundary (m : Suspended) : Bool := m.cycle.todo.isEmpty && m.ticks == 0

/-- A step begins at an instruction boundary, with the opcode fetch to come (63_riot_console R661). -/
def Suspended.start (s : State) : Suspended :=
  { state := beginInstr s, cycle := { CycleState.idle with todo := [.opcode] }, ticks := 0 }

/-- Step 1 of a CPU cycle: its bus access, or none in a WSYNC stall (63_riot_console R660, 61_tia R560). -/
def openCycle (m : Suspended) : Suspended :=
  match m.cycle.todo with
  | [] => m
  | k :: _ =>
    match cycleAccess k m.cycle m.state.cpu with
    | (a, none) =>
      if m.state.tia.wsync then { m with cycle := { m.cycle with held := true } }
      else
        let r := busRead a m.state
        { m with state := r.2.countCycle, cycle := { m.cycle with bus := r.1, held := false } }
    | (a, some v) => { m with state := (busWrite a v m.state).countCycle, cycle := { m.cycle with held := false } }

/-- The end of a CPU cycle: the RIOT tick and the counters, then, unless the cycle was a stall, the CPU's part; after the last
cycle the result record is closed (63_riot_console R660 steps 5 and 6, 40_addressing_modes R198; log 41). -/
def closeCycle (m : Suspended) : Suspended :=
  let s := riotTick m.state
  let s1 := { s with colorClock := s.colorClock + 3, cpuCycles := s.cpuCycles + 1 }
  if m.cycle.held then { m with state := s1, ticks := 0 }
  else
    match m.cycle.todo with
    | [] => { m with state := s1, ticks := 0 }
    | k :: rest =>
      let r := cycleEffect k { m.cycle with todo := rest } s1
      { state := if r.1.todo.isEmpty && r.2.fault.isNone then finishInstr r.2 else r.2, cycle := r.1, ticks := 0 }

/-- One part of a CPU cycle: a color clock (the cycle's bus access before the first), or the end of the cycle. -/
def Suspended.advance (m : Suspended) : Suspended :=
  if m.ticks = 3 then closeCycle m
  else
    let m1 := if m.ticks = 0 then openCycle m else m
    { m1 with state := tiaTick m1.state, ticks := m1.ticks + 1 }

/-! ### Step with a quantum and a renderer -/

/-- The quantum of `Step`: how often its callback is issued (63_riot_console R661, R672). -/
inductive Quantum where
  | instruction | cpuCycle | colorClock
deriving DecidableEq, Repr

/-- Whether the callback is issued at this point: after a color clock, after a CPU cycle, or at the end of the instruction. -/
def observes (q : Quantum) (m : Suspended) : Bool :=
  match q with
  | .instruction => m.atBoundary
  | .cpuCycle => m.ticks == 0
  | .colorClock => m.ticks != 0

/-- An error a renderer returns; what it says is the renderer's own (62_television R617). -/
structure RendererError where
  what : String
deriving DecidableEq, Repr

/-- A renderer, which is outside the model (62_television R617, D57): whether it answers a call with an error, given the calls
before it, newest first. -/
abbrev Renderer := List SinkEvent → SinkEvent → Option RendererError

/-- The first error a renderer returns to some calls, oldest first, after earlier ones; an audio sample is no call to it
(62_television R617, 61_tia R529). -/
def firstError (render : Renderer) : List SinkEvent → List SinkEvent → Option RendererError
  | _, [] => none
  | earlier, .audioSample v :: rest => firstError render (.audioSample v :: earlier) rest
  | earlier, e :: rest =>
    match render earlier e with
    | some err => some err
    | none => firstError render (e :: earlier) rest

/-- The error, if any, of the calls made between two points. -/
def errorBetween (render : Renderer) (before after : State) : Option RendererError :=
  firstError render before.sink (after.sink.take (after.sink.length - before.sink.length)).reverse

/-- What a `Step` gives its caller (63_riot_console R661, R664): the states its callbacks saw, oldest first, where it ended, and the
renderer error that ended it. -/
structure StepReport where
  callbacks : List Suspended
  last : Suspended
  error : Option RendererError
deriving DecidableEq, Repr

/-- From a point inside a step on, for at most so many parts of cycles: to the instruction boundary, or to the end of the tick whose
renderer call returned an error (63_riot_console R661, 62_television R617; log 41). -/
def runParts (q : Quantum) (render : Renderer) : Nat → Suspended → StepReport
  | 0, m => { callbacks := [], last := m, error := none }
  | n + 1, m =>
    if m.atBoundary then { callbacks := [], last := m, error := none }
    else
      let m1 := m.advance
      let seen := if observes q m1 then [m1] else []
      match errorBetween render m.state m1.state with
      | some e => { callbacks := seen, last := m1, error := some e }
      | none =>
        let r := runParts q render n m1
        { r with callbacks := seen ++ r.callbacks }

/-- Run on from a suspension point to the instruction's end (63_riot_console R661, R662). An instruction has at most seven cycles, and
each read at most 76 stall cycles before it (61_tia R560), of four parts each. -/
def resume (q : Quantum) (render : Renderer) (m : Suspended) : StepReport := runParts q render (4 * 77 * 7) m

/-- `Step(quantum)` with its callbacks and a renderer (63_riot_console R661, R672, 62_television R617). -/
def stepWith (q : Quantum) (render : Renderer) (s : State) : Host.Outcome StepReport Fault Refusal :=
  match stopReason s with
  | some (.inl f) => .fault f
  | some (.inr r) => .refused r
  | none => .next (resume q render (Suspended.start s))

end Sys2Proof.Machine
end

