-- ==== Sys2Proof/Machine/Run.lean ====
section
/-! DEFINITION. A run and its end (63_riot_console R665). -/

namespace Sys2Proof.Machine

/-- A step from `s` to `t` ends a run well: the instruction just completed is `JMP abs` to its own address
(63_riot_console R665). -/
def endsRun (s t : State) : Bool :=
  t.result.opcode == some 0x4C#8 && t.cpu.pc == s.cpu.pc && t.fault.isNone && t.refusal.isNone

/-- How a run ends, with its end state (63_riot_console R665; a refusal: 92_eei_decisions, Terms). -/
inductive RunEnd where
  /-- At the boundary after a `JMP *`. -/
  | jumpToSelf (last : State)
  /-- After the launch's number of steps. -/
  | maxSteps (last : State)
  /-- At a fatal fault, which is not a successful end. -/
  | fault (f : Fault) (last : State)
  /-- At a state the model gives no successor. -/
  | refused (r : Refusal) (last : State)
deriving DecidableEq, Repr

/-- A run of at most so many steps from a state (63_riot_console R665; which end it is when two could be named: log 42). -/
def run : Nat → State → RunEnd
  | 0, s =>
    match stopReason s with
    | some (.inl f) => .fault f s
    | some (.inr r) => .refused r s
    | none => .maxSteps s
  | k + 1, s =>
    match step s with
    | .next t => if endsRun s t then .jumpToSelf t else run k t
    | .fault f => .fault f s
    | .refused r => .refused r s

/-- The run of a launch (63_riot_console R665, R673). -/
def Launch.run (l : Launch) : Except LoadError RunEnd :=
  match load l with
  | .ok s => .ok (Sys2Proof.Machine.run l.maxSteps s)
  | .error e => .error e

/-- A run of at most so many steps ends successfully: at a `JMP *` (63_riot_console R665). -/
def runEnds (k : Nat) (s : State) : Bool :=
  match run k s with
  | .jumpToSelf _ => true
  | .maxSteps _ | .fault _ _ | .refused _ _ => false

end Sys2Proof.Machine
end

