-- ==== Sys2Proof/Safety.lean ====
section
/-! DEFINITION. The terms claims are stated in: a state that can run, the invariant every step keeps, what an instruction leaves
alone and the flags a mnemonic may write. -/

namespace Sys2Proof

open Sys2Proof.Machine

/-! ### Running states and the invariant -/

/-- A step from this state runs an instruction: no refusal mark, no fault, no broken invariant (60_exceptions R460, R467). -/
abbrev Running (s : State) : Prop := stopReason s = none

/-- `hmoveAge` counts only inside the `hmove_busy` interval (61_tia R543). -/
def hmoveAgeOk (s : State) : Bool :=
  match s.tia.hmoveAge with
  | some k => decide (k ≤ s.params.hmoveBusy)
  | none => true

/-- The invariant as a Bool: RAM and the cartridge in canonical form with the bank in range (20_memory R74, R103), the prescaler
inside its interval (63_riot_console R650), every pending future with a clock left (61_tia R561), the television's position in
its range (62_television R600), three color clocks per CPU cycle (63_riot_console R660, 70_reset_and_hazards R727), and no report
of an access that has not happened (60_exceptions R460). -/
def invariant (s : State) : Bool :=
  s.ram.wf 128 && s.cart.wf && decide (s.riot.prescale < s.riot.interval.length) &&
    s.tia.futures.all (fun f => decide (0 < f.remaining)) && hmoveAgeOk s &&
    decide (-68 ≤ s.tv.horizontal) && decide (s.tv.horizontal ≤ 159) &&
    decide (s.colorClock = 3 * s.cpuCycles) && s.reports.all (fun r => decide (r.accessId ≤ s.lastAccessId))

/-- The invariant every step keeps. -/
abbrev MachineInv (s : State) : Prop := invariant s = true

/-! ### What an instruction leaves alone -/

/-- The TIA's registers as a program writes them, the fire-button latches as a tick leaves them under these inputs: everything else a
tick may change by itself is blanked (61_tia R502, R515, R554). -/
def tiaRegisters (inp : Inputs) (t : Tia) : Tia :=
  { sampleButtons inp t with
    hclock := 0, hmoveLine := false, hmoveAge := none, pos := PerObj.all 0, copy0Suppressed := PerObj.all false,
    collisions := Collisions.clear, wsync := false, futures := [] }

/-- The RIOT's registers that only a write changes (63_riot_console R652, R653, R657). -/
def riotRegisters (r : Riot) : Byte × Byte × Byte × Byte × Interval × Bool :=
  (r.ora, r.ddra, r.orb, r.ddrb, r.interval, r.edgePos)

/-- The bank selection (20_memory R103, R108, R109). -/
def bankSelection (c : Cart) : Nat × Fin 8 × Fin 8 × Fin 8 := (c.bank, c.slice0, c.slice1, c.slice2)

/-- The mapper has hotspots that an access to the cartridge can hit (20_memory R103 to R108). -/
def switchesOnAccess (m : Mapper) : Bool := m.fSeries.isSome || m == .e0

/-- A store to this address reaches byte `k` of PIA RAM (20_memory R72). -/
def storesRam (addr : Word) (k : Nat) : Prop := areaOf (addr13 addr) = .ram ∧ writeLocal (addr13 addr) = k

/-- A store to this address reaches byte `k` of superchip RAM (20_memory R110). -/
def storesSuperchip (m : Mapper) (addr : Word) (k : Nat) : Prop :=
  m.hasSuperchip = true ∧ areaOf (addr13 addr) = .cart ∧ writeLocal (addr13 addr) = k ∧ k < 0x80

/-- The reports logged between two states. -/
def newReports (s t : State) : List LoggedReport := t.reports.drop s.reports.length

/-- Between two states the superchip's write port was read at byte `k`, which is reported and leaves a free byte
(20_memory R110, 60_exceptions R463). -/
def readWritePort (s t : State) (k : Nat) : Prop :=
  ∃ r ∈ newReports s t, ∃ a, r.report = .unreadableAddress a ∧ areaOf a = .cart ∧ readLocal a = k

/-- The frame of an instruction that stores exactly at the addresses `stores`, in order: all of memory, every register of every
chip and the host's side but for what those stores, the clocks and the spec's read side effects change. The CPU's registers and
the result record are not part of it. -/
structure Frame (stores : List Word) (s t : State) : Prop where
  inputs : t.inputs = s.inputs
  params : t.params = s.params
  fault : t.fault = s.fault
  mapper : t.cart.mapper = s.cart.mapper
  size : t.cart.size = s.cart.size
  /-- Cartridge ROM never changes (20_memory R116). -/
  image : ∀ k, t.cart.image.read k = s.cart.image.read k
  /-- The report log is never shortened (60_exceptions R460). -/
  reports : s.reports <+: t.reports
  /-- Three color clocks per CPU cycle (63_riot_console R660). -/
  clocks : t.colorClock + 3 * s.cpuCycles = s.colorClock + 3 * t.cpuCycles
  later : s.cpuCycles ≤ t.cpuCycles
  accesses : s.lastAccessId ≤ t.lastAccessId
  /-- Every byte of PIA RAM that no store reaches. -/
  ram : ∀ k, (∀ a ∈ stores, ¬ storesRam a k) → t.ram.read k = s.ram.read k
  /-- Every byte of superchip RAM that no store reaches and whose write port was not read. -/
  superchip : ∀ k, (∀ a ∈ stores, ¬ storesSuperchip s.cart.mapper a k) →
    t.cart.scRam.read k = s.cart.scRam.read k ∨ readWritePort s t k
  /-- The bank selection, where no access can switch it. -/
  bank : switchesOnAccess s.cart.mapper = false → (s.cart.mapper = .m3f → ∀ a ∈ stores, 0x40 ≤ (addr13 a).toNat) →
    bankSelection t.cart = bankSelection s.cart
  /-- The refusal mark, where no store reaches the TIA. -/
  refusal : (∀ a ∈ stores, areaOf (addr13 a) ≠ .tia) → t.refusal = s.refusal
  /-- The RIOT's registers, where no store reaches the RIOT. -/
  riot : (∀ a ∈ stores, areaOf (addr13 a) ≠ .riot) → riotRegisters t.riot = riotRegisters s.riot
  /-- The TIA's registers, where no store reaches the TIA and nothing is pending. -/
  tia : (∀ a ∈ stores, areaOf (addr13 a) ≠ .tia) → s.tia.futures = [] →
    t.tia.futures = [] ∧ tiaRegisters s.inputs t.tia = tiaRegisters s.inputs s.tia
  /-- The objects' positions in the same case; a locked missile follows its player (61_tia R521). -/
  positions : (∀ a ∈ stores, areaOf (addr13 a) ≠ .tia) → s.tia.futures = [] →
    t.tia.pos.p0 = s.tia.pos.p0 ∧ t.tia.pos.p1 = s.tia.pos.p1 ∧ t.tia.pos.bl = s.tia.pos.bl ∧
      (s.tia.resmp0 = false → t.tia.pos.m0 = s.tia.pos.m0) ∧ (s.tia.resmp1 = false → t.tia.pos.m1 = s.tia.pos.m1)

/-! ### The forms of an instruction -/

/-- A Read-class form: the instruction, how it reads its operand (40_addressing_modes section 2), how many cycles that takes
after the fetch of the instruction's own bytes without a page crossing, and when a page is crossed (R193, R195). -/
abbrev ReadForm := Instr × (State → Byte × State) × Nat × (State → Bool)

/-- The immediate form: the operand is the fetched byte itself (30_encoding R142). -/
def immForm (i : Byte → Instr) (b : Byte) : ReadForm := (i b, fun s => (b, s), 0, fun _ => false)

/-- The zero-page form (40_addressing_modes R185). -/
def zpForm (i : Byte → Instr) (b : Byte) : ReadForm := (i b, readZp b, 1, fun _ => false)

/-- The zero-page,X form (40_addressing_modes R188). -/
def zpxForm (i : Byte → Instr) (b : Byte) : ReadForm := (i b, readZpx b, 2, fun _ => false)

/-- The zero-page,Y form (40_addressing_modes R188). -/
def zpyForm (i : Byte → Instr) (b : Byte) : ReadForm := (i b, readZpy b, 2, fun _ => false)

/-- The absolute form (40_addressing_modes R186). -/
def absForm (i : Word → Instr) (w : Word) : ReadForm := (i w, readAbs w, 1, fun _ => false)

/-- The absolute,X form (40_addressing_modes R189). -/
def absxForm (i : Word → Instr) (w : Word) : ReadForm := (i w, readAbsx w, 1, fun s => crosses w s.cpu.x)

/-- The absolute,Y form (40_addressing_modes R189). -/
def absyForm (i : Word → Instr) (w : Word) : ReadForm := (i w, readAbsy w, 1, fun s => crosses w s.cpu.y)

/-- The (zp,X) form (40_addressing_modes R190). -/
def indxForm (i : Byte → Instr) (b : Byte) : ReadForm := (i b, readIndx b, 4, fun _ => false)

/-- The (zp),Y form (40_addressing_modes R191). -/
def indyForm (i : Byte → Instr) (b : Byte) : ReadForm :=
  (i b, readIndy b, 3, fun s => crosses (readPointer b s).1 s.cpu.y)

/-- The eight Read-class forms that ADC, AND, CMP, EOR, LDA, ORA and SBC have (30_encoding R146). -/
def eightForms (imm zp zpx : Byte → Instr) (abs absx absy : Word → Instr) (indx indy : Byte → Instr) (b : Byte) (w : Word) :
    List ReadForm :=
  [immForm imm b, zpForm zp b, zpxForm zpx b, absForm abs w, absxForm absx w, absyForm absy w, indxForm indx b, indyForm indy b]

/-- LDA's forms (41_load_store R231). -/
def ldaForms : Byte → Word → List ReadForm :=
  eightForms .ldaImm .ldaZp .ldaZpx .ldaAbs .ldaAbsx .ldaAbsy .ldaIndx .ldaIndy

/-- LDX's forms (41_load_store R232). -/
def ldxForms (b : Byte) (w : Word) : List ReadForm :=
  [immForm .ldxImm b, zpForm .ldxZp b, zpyForm .ldxZpy b, absForm .ldxAbs w, absyForm .ldxAbsy w]

/-- LDY's forms (41_load_store R233). -/
def ldyForms (b : Byte) (w : Word) : List ReadForm :=
  [immForm .ldyImm b, zpForm .ldyZp b, zpxForm .ldyZpx b, absForm .ldyAbs w, absxForm .ldyAbsx w]

/-- ADC's forms (43_arithmetic R281). -/
def adcForms : Byte → Word → List ReadForm :=
  eightForms .adcImm .adcZp .adcZpx .adcAbs .adcAbsx .adcAbsy .adcIndx .adcIndy

/-- SBC's forms (43_arithmetic R283). -/
def sbcForms : Byte → Word → List ReadForm :=
  eightForms .sbcImm .sbcZp .sbcZpx .sbcAbs .sbcAbsx .sbcAbsy .sbcIndx .sbcIndy

/-- CMP's forms (43_arithmetic R286). -/
def cmpForms : Byte → Word → List ReadForm :=
  eightForms .cmpImm .cmpZp .cmpZpx .cmpAbs .cmpAbsx .cmpAbsy .cmpIndx .cmpIndy

/-- CPX's forms (43_arithmetic R287). -/
def cpxForms (b : Byte) (w : Word) : List ReadForm := [immForm .cpxImm b, zpForm .cpxZp b, absForm .cpxAbs w]

/-- CPY's forms (43_arithmetic R288). -/
def cpyForms (b : Byte) (w : Word) : List ReadForm := [immForm .cpyImm b, zpForm .cpyZp b, absForm .cpyAbs w]

/-- AND's forms (44_logic_shift R321). -/
def andForms : Byte → Word → List ReadForm :=
  eightForms .andImm .andZp .andZpx .andAbs .andAbsx .andAbsy .andIndx .andIndy

/-- ORA's forms (44_logic_shift R322). -/
def oraForms : Byte → Word → List ReadForm :=
  eightForms .oraImm .oraZp .oraZpx .oraAbs .oraAbsx .oraAbsy .oraIndx .oraIndy

/-- EOR's forms (44_logic_shift R323). -/
def eorForms : Byte → Word → List ReadForm :=
  eightForms .eorImm .eorZp .eorZpx .eorAbs .eorAbsx .eorAbsy .eorIndx .eorIndy

/-- BIT's forms (44_logic_shift R324). -/
def bitForms (b : Byte) (w : Word) : List ReadForm := [zpForm .bitZp b, absForm .bitAbs w]

/-- The result record after `n` more cycles, and one more with the page-fault penalty if a page was crossed
(10_state R39, 40_addressing_modes R195). -/
def recordAfter (r : ResultRecord) (n : Nat) (crossed : Bool) : ResultRecord :=
  { r with cycles := r.cycles + n + (if crossed then 1 else 0), pageCrossed := r.pageCrossed || crossed }

/-- A Read-class form completes from a state: it answers the state its operand read leaves, with the CPU's registers as `regs`
makes them from the operand and the registers before; the cycles are the form's, and nothing is stored. -/
def ReadCompletes (f : ReadForm) (regs : Byte → Cpu → Cpu) (s : State) : Prop :=
  ∃ t, exec f.1 s = .next t ∧ t = { (f.2.1 s).2 with cpu := t.cpu } ∧ t.cpu = regs (f.2.1 s).1 s.cpu ∧
    t.result = recordAfter s.result f.2.2.1 (f.2.2.2 s) ∧ Frame [] s t

/-- A Write- or RMW-class form: the instruction, its effective address with the cycles that form it
(40_addressing_modes section 2), and how many cycles those are after the fetch of the instruction's own bytes. -/
abbrev EaForm := Instr × (State → Word × State) × Nat

/-- STA's forms (41_load_store R234). -/
def staForms (b : Byte) (w : Word) : List EaForm :=
  [(.staZp b, eaZp b, 0), (.staZpx b, eaZpx b, 1), (.staAbs w, eaAbs w, 0), (.staAbsx w, eaAbsx w, 1),
   (.staAbsy w, eaAbsy w, 1), (.staIndx b, eaIndx b, 3), (.staIndy b, eaIndy b, 3)]

/-- STX's forms (41_load_store R235). -/
def stxForms (b : Byte) (w : Word) : List EaForm :=
  [(.stxZp b, eaZp b, 0), (.stxZpy b, eaZpy b, 1), (.stxAbs w, eaAbs w, 0)]

/-- STY's forms (41_load_store R236). -/
def styForms (b : Byte) (w : Word) : List EaForm :=
  [(.styZp b, eaZp b, 0), (.styZpx b, eaZpx b, 1), (.styAbs w, eaAbs w, 0)]

/-- The four RMW forms of INC, DEC and the shifts (30_encoding R147). -/
def rmwForms (zp zpx : Byte → Instr) (abs absx : Word → Instr) (b : Byte) (w : Word) : List EaForm :=
  [(zp b, eaZp b, 0), (zpx b, eaZpx b, 1), (abs w, eaAbs w, 0), (absx w, eaAbsx w, 1)]

/-- A Write-class form completes from a state: it stores `v` at its effective address, the byte is there where the address is
PIA RAM's, the registers and the flags are kept, and nothing else is stored. -/
def StoreCompletes (f : EaForm) (v : Cpu → Byte) (s : State) : Prop :=
  let ea := (f.2.1 s).1
  ∃ t, exec f.1 s = .next t ∧ t = memWrite ea (v s.cpu) (f.2.1 s).2 ∧ t.cpu = s.cpu ∧
    t.result = recordAfter s.result (f.2.2 + 1) false ∧
    t.lastAccess = some { address := ea, value := v s.cpu, isWrite := true } ∧
    (s.ram.wf 128 = true → ∀ k, storesRam ea k → t.ram.read k = v s.cpu) ∧
    Frame [ea] s t

/-- An RMW form completes from a state: with `v` the byte read at its effective address, `v` and then `f v` are stored there in
two cycles, the flags are those `flags` gives for `v`, the record marks the double write, and nothing else is stored. -/
def ModifyCompletes (f : EaForm) (g : Byte → Flags → Byte) (flags : Byte → Flags → Flags) (s : State) : Prop :=
  let ea := (f.2.1 s).1
  let r := memRead ea (f.2.1 s).2
  let out := g r.1 s.cpu.p
  ∃ t, exec f.1 s = .next t ∧
    t = { memWrite ea out (memWrite ea r.1 r.2) with cpu := t.cpu, result := t.result } ∧
    t.cpu = { s.cpu with p := flags r.1 s.cpu.p } ∧
    t.result = { recordAfter s.result (f.2.2 + 3) false with bug := some .rmwDoubleWrite } ∧
    t.lastAccess = some { address := ea, value := out, isWrite := true } ∧
    (s.ram.wf 128 = true → ∀ k, storesRam ea k → t.ram.read k = out) ∧
    Frame [ea, ea] s t

/-- A one-byte instruction on registers completes in its second cycle, whose bus access is the dummy read of PC
(40_addressing_modes R183): the registers are as `regs` makes them and nothing is stored. -/
def ImpliedCompletes (i : Instr) (regs : Cpu → Cpu) (s : State) : Prop :=
  ∃ t, exec i s = .next t ∧ t = { dummyRead s.cpu.pc s with cpu := regs s.cpu } ∧
    t.result = recordAfter s.result 1 false ∧ Frame [] s t

/-- N and Z from a byte, the other flags kept (00_scope R10). -/
def nz (p : Flags) (v : Byte) : Flags := { p with n := v.getLsbD 7, z := v == 0x00#8 }

/-! ### Flags -/

/-- The flags a mnemonic writes, 1 = may be written (30_encoding R157). -/
def flagsWritten (m : Mnemonic) : Flags :=
  let no : Flags := { n := false, v := false, d := false, i := false, z := false, c := false }
  match m with
  | .lda | .ldx | .ldy | .tax | .tay | .txa | .tya | .tsx | .pla | .and | .ora | .eor
  | .inc | .inx | .iny | .dec | .dex | .dey => { no with n := true, z := true }
  | .cmp | .cpx | .cpy | .asl | .lsr | .rol | .ror => { no with n := true, z := true, c := true }
  | .adc | .sbc => { no with n := true, v := true, z := true, c := true }
  | .bit => { no with n := true, v := true, z := true }
  | .plp | .rti => { n := true, v := true, d := true, i := true, z := true, c := true }
  | .clc | .sec => { no with c := true }
  | .cld | .sed => { no with d := true }
  | .cli | .sei | .brk => { no with i := true }
  | .clv => { no with v := true }
  | .sta | .stx | .sty | .txs | .pha | .php | .jmp | .jsr | .rts | .nop
  | .bcc | .bcs | .beq | .bmi | .bne | .bpl | .bvc | .bvs => no

/-- Flags outside a mask are the same. -/
def SameFlagsOutside (mask p q : Flags) : Prop :=
  (mask.n = false → q.n = p.n) ∧ (mask.v = false → q.v = p.v) ∧ (mask.d = false → q.d = p.d) ∧
    (mask.i = false → q.i = p.i) ∧ (mask.z = false → q.z = p.z) ∧ (mask.c = false → q.c = p.c)

/-- The mnemonic of an instruction, from the opcode table (30_encoding R155). -/
def mnemonicOf (i : Instr) : Option Mnemonic := (opcodeTable (opcodeOf i)).map InstrDef.mnemonic

end Sys2Proof
end

