-- ==== Sys2Proof/Certificates/Slice0/Obligations.lean ====
section
/-! DEFINITION. The statements for the provers, written from the spec's numbered rules. -/

open Sys2Proof Sys2Proof.Machine

/-! ### Reset and load -/

/-- 10_state R44 and 70_reset_and_hazards R700, R701: what the spec itself gives the machine after power-on, and after a later reset,
which also puts the bank selection back to `initial_bank`. Of the rows that table makes draws this says nothing. That a later reset
returns the pins to `initial_inputs` and keeps the image is the model's choice (log 30), and so is that it clears the refusal mark
(log 40). -/
def Obligations.PowerOnState : Prop :=
  let facts := fun (s : State) (cart : Cart) (params : Params) =>
    s.cpu.pc = cart.byteAt 0xFFD ++ cart.byteAt 0xFFC ∧ s.cpu.p.i = true ∧
    s.result.final = true ∧ s.result.opcode = none ∧ s.result.defn = none ∧
    s.tia.wsync = false ∧ s.tia.futures = [] ∧ s.inputs = params.initialInputs ∧ s.cart = cart ∧ s.params = params ∧
    s.tv.frame = 0 ∧ s.tv.scanline = 0 ∧ s.tv.horizontal = -68 ∧ s.tv.vsyncCount = 0 ∧ s.tv.prev = Attrs.off ∧
    s.tv.visibleTop = 0 ∧ s.tv.visibleBottom = params.tvSpec.lines - 1 ∧ s.tv.learnTop = none ∧ s.tv.learnBottom = none ∧
    s.tv.spec = params.tvSpec ∧ s.tv.outOfSpec = false ∧ s.tv.endOfScreen = false ∧ s.tv.lineSynced = false ∧
    s.fault = none ∧ s.refusal = none ∧ s.reports = [] ∧ s.colorClock = 0 ∧ s.cpuCycles = 0 ∧
    s.lastAccess = none ∧ s.lastAccessId = 0
  (∀ (cart : Cart) (params : Params), facts (State.powerOn cart params) cart params) ∧
  ∀ s : State,
    let c := (hostReset s).cart
    let bank := s.params.initialBank
    facts (hostReset s) c s.params ∧ c.mapper = s.cart.mapper ∧ c.size = s.cart.size ∧ c.image = s.cart.image ∧
    c.bank = bank.bank ∧ c.slice0 = bank.slice0 ∧ c.slice1 = bank.slice1 ∧ c.slice2 = bank.slice2

/-- The state right after reset meets the invariant and can take a step. -/
def Obligations.ResetMeetsInvariant : Prop := MachineInv State.reset ∧ Running State.reset

/-- 63_riot_console R664, R673, 20_memory R101 to R109, R114, R115, R117 and 70_reset_and_hazards R700: a launch whose image size is not
one its mapper takes, and any 12K image (3F too: log 34), is refused with CartridgeError; an initial bank outside the cartridge's banks
is refused by the model's own choice (log 33); every other launch is loaded: the machine meets the invariant and can take a step, its
cartridge reads the launch's image, and its PC is the reset vector of the initial bank. -/
def Obligations.LoadChecksSizeAndStarts : Prop :=
  ∀ l : Launch,
    let n := l.image.length
    let bank := l.params.initialBank.bank
    let rows : List (Mapper × Nat × Nat) :=
      [(.m2k, 2048, 1), (.m4k, 4096, 1), (.f8, 8192, 2), (.f8sc, 8192, 2), (.f6, 16384, 4), (.f6sc, 16384, 4), (.f4, 32768, 8),
       (.f4sc, 32768, 8), (.e0, 8192, 1)]
    let takes := fun (banks : Nat) =>
      (l.mapper, n, banks) ∈ rows ∨ l.mapper = .m3f ∧ n % 2048 = 0 ∧ banks = n / 2048 ∧ 4 ≤ banks ∧ n ≠ 12288
    ((∀ banks, ¬ takes banks) → load l = .error (.cartridgeError n)) ∧
    (∀ banks, takes banks → banks ≤ bank → load l = .error (.badInitialBank bank)) ∧
    ∀ banks, takes banks → bank < banks → ∃ s, load l = .ok s ∧
      MachineInv s ∧ Running s ∧ s.cart.mapper = l.mapper ∧ s.cart.size = n ∧ s.cart.bank = bank ∧ s.params = l.params ∧
      (∀ k, s.cart.image.read k = l.image.getD k 0#8) ∧
      s.cpu.pc = s.cart.byteAt 0xFFD ++ s.cart.byteAt 0xFFC

/-- 60_exceptions R460, R467, 20_memory R74, R103, 61_tia R561, 62_television R600, 63_riot_console R650, R660: every step from a
state that meets the invariant ends in one that does; and a state that meets it, with no fault and no refusal mark, is running: it
answers neither MemoryError nor PanicError. -/
def Obligations.EveryStepKeepsInvariant : Prop :=
  (∀ s t : State, MachineInv s → step s = .next t → MachineInv t) ∧
  ∀ s : State, MachineInv s → s.fault = none → s.refusal = none → Running s

/-! ### Encoding -/

/-- 30_encoding R140, R155: decoding an encoded instruction gives it back with the bytes after it, for every instruction and every
value of its operand. -/
def Obligations.DecodeOfEncode : Prop :=
  ∀ (i : Instr) (rest : List Byte), decode (encode i ++ rest) = .ok (i, rest)

/-- 30_encoding R141, R151: the bytes an instruction is decoded from are its encoding, so no bit is dropped; an instruction is 1 to
3 bytes, as many as its opcode's row says. -/
def Obligations.EncodeOfDecode : Prop :=
  ∀ (bytes rest : List Byte) (i : Instr), decode bytes = .ok (i, rest) →
    bytes = encode i ++ rest ∧ ∃ d, opcodeTable (opcodeOf i) = some d ∧ (encode i).length = d.bytes ∧ 1 ≤ d.bytes ∧ d.bytes ≤ 3

/-- 30_encoding R152, R153: the 105 values R152 lists are exactly those that select no row of the table, and decoding rejects them by
name whatever follows; every other value selects a row, and with two bytes after it decodes. -/
def Obligations.UndefinedOpcodesAreListed : Prop :=
  let undefinedOpcodes : List Nat :=
    [0x02, 0x03, 0x04, 0x07, 0x0B, 0x0C, 0x0F, 0x12, 0x13, 0x14, 0x17, 0x1A, 0x1B, 0x1C, 0x1F, 0x22, 0x23, 0x27, 0x2B, 0x2F,
     0x32, 0x33, 0x34, 0x37, 0x3A, 0x3B, 0x3C, 0x3F, 0x42, 0x43, 0x44, 0x47, 0x4B, 0x4F, 0x52, 0x53, 0x54, 0x57, 0x5A, 0x5B,
     0x5C, 0x5F, 0x62, 0x63, 0x64, 0x67, 0x6B, 0x6F, 0x72, 0x73, 0x74, 0x77] ++
    [0x7A, 0x7B, 0x7C, 0x7F, 0x80, 0x82, 0x83, 0x87, 0x89, 0x8B, 0x8F, 0x92, 0x93, 0x97, 0x9B, 0x9C, 0x9E, 0x9F, 0xA3, 0xA7,
     0xAB, 0xAF, 0xB2, 0xB3, 0xB7, 0xBB, 0xBF, 0xC2, 0xC3, 0xC7, 0xCB, 0xCF, 0xD2, 0xD3, 0xD4, 0xD7, 0xDA, 0xDB, 0xDC, 0xDF,
     0xE2, 0xE3, 0xE7, 0xEB, 0xEF, 0xF2, 0xF3, 0xF4, 0xF7, 0xFA, 0xFB, 0xFC, 0xFF]
  undefinedOpcodes.length = 105 ∧
  ∀ (op b1 b2 : Byte) (rest : List Byte),
    (op.toNat ∈ undefinedOpcodes → opcodeTable op = none ∧ decode (op :: b1 :: b2 :: rest) = .error (.undefinedOpcode op)) ∧
    (op.toNat ∉ undefinedOpcodes → (∃ d, opcodeTable op = some d) ∧ ∃ r, decode (op :: b1 :: b2 :: rest) = .ok r)

/-- 30_encoding R140 to R155: words written out from the spec's opcode table decode to the instructions they stand for, one or two
of every family. -/
def Obligations.WordsDecodeAsTheSpecSays : Prop :=
  let reads := fun (bytes : List Nat) (i : Instr) => decode (bytes.map (BitVec.ofNat 8)) = .ok (i, [])
  reads [0xA9, 0x80] (.ldaImm 0x80) ∧ reads [0xB1, 0x90] (.ldaIndy 0x90) ∧ reads [0xBE, 0x34, 0x12] (.ldxAbsy 0x1234) ∧
  reads [0x85, 0x02] (.staZp 0x02) ∧ reads [0x96, 0x7E] (.stxZpy 0x7E) ∧ reads [0x9A] .txs ∧ reads [0x68] .pla ∧
  reads [0x7D, 0xFF, 0xF0] (.adcAbsx 0xF0FF) ∧ reads [0xE1, 0x80] (.sbcIndx 0x80) ∧ reads [0xE0, 0x06] (.cpxImm 0x06) ∧
  reads [0xF6, 0x10] (.incZpx 0x10) ∧ reads [0x24, 0x80] (.bitZp 0x80) ∧ reads [0x2A] .rolAcc ∧
  reads [0x6C, 0xFF, 0xF1] (.jmpInd 0xF1FF) ∧ reads [0x20, 0x00, 0xF1] (.jsr 0xF100) ∧ reads [0xF0, 0xFC] (.beq 0xFC) ∧
  reads [0x00] .brk ∧ reads [0x40] .rti ∧ reads [0xEA] .nop ∧ reads [0xF8] .sed

/-! ### The step and the whole machine -/

/-- 63_riot_console R661, 40_addressing_modes R182, R198: where the fetch at PC gives instruction i and the state u, the step is
exec of i at u, and the end of the instruction closes the result record. -/
def Obligations.StepRunsDecodedInstruction : Prop :=
  ∀ (s u : State) (i : Instr), Running s → fetchInstr s = (some i, u) →
    step s = match exec i u with
      | .next t => .next (finishInstr t)
      | .fault f => .fault f
      | .refused r => .refused r

/-- 40_addressing_modes R182 to R191, 10_state R35, 20_memory R123, 63_riot_console R661: where an instruction's encoding stands at PC
in PIA RAM or in cartridge bytes that are no hotspot, the fetch reads it over the bus, one cycle a byte, and PC is after the
bytes read, the cycles of a WSYNC hold apart; JSR's third byte is read by JSR itself (45_control R352). The registers,
    RAM and the bank are kept. -/
def Obligations.FetchReadsStoredInstruction : Prop :=
  ∀ (s : State) (i : Instr),
    let bytes := encode i
    (∀ k, k < bytes.length → placeable s.cart (s.cpu.pc + BitVec.ofNat 16 k) = true ∧
      peek (s.cpu.pc + BitVec.ofNat 16 k) s = bytes.getD k 0#8) →
    let n := if opcodeOf i = 0x20#8 then 2 else bytes.length
    ∃ u, fetchInstr s = (some i, u) ∧ u.cpu = { s.cpu with pc := s.cpu.pc + BitVec.ofNat 16 n } ∧ u.cart = s.cart ∧
      u.result = { opcode := some (opcodeOf i), defn := opcodeTable (opcodeOf i), bytes := n, cycles := n,
                   pageCrossed := false, bug := none, final := false } ∧
      u.lastAccessId = s.lastAccessId + n ∧ u.cpuCycles = (stall s).cpuCycles + n ∧ Frame [] s u

/-- 60_exceptions R461, 30_encoding R152: where the opcode fetch reads one of the undefined values, the step is that fetch cycle
alone: PC moves by one and UndefinedOpcode is recorded with the byte and its address; nothing else of the state it leaves differs
from the read cycle's, and the next step answers the fault. That the step answers the faulted state, and the step after it the fault,
is the model's choice (log 10); what the result record then holds is not stated (log 38). -/
def Obligations.UndefinedOpcodeFaultsAfterFetch : Prop :=
  ∀ s : State,
    let r := memRead s.cpu.pc s
    Running s → opcodeTable r.1 = none →
      ∃ t, step s = .next t ∧ t = { r.2 with
          cpu := { s.cpu with pc := s.cpu.pc + 1#16 }, result := t.result, fault := some (.undefinedOpcode r.1 s.cpu.pc) } ∧
        t.ram = s.ram ∧ t.colorClock = (stall s).colorClock + 3 ∧ t.cpuCycles = (stall s).cpuCycles + 1 ∧
        step t = .fault (.undefinedOpcode r.1 s.cpu.pc)

/-- 60_exceptions R460, 61_tia R506, 63_riot_console R664: once a fatal fault is recorded, or the refusal mark is set, the machine has
no step; of what the host can do only a reset removes either. That the step after the mark answers the refusal and that a reset
clears the mark is the model's choice (logs 11 and 40). -/
def Obligations.RecordedFaultStopsTheMachine : Prop :=
  (∀ (s : State) (f : Fault), s.fault = some f → s.refusal = none →
    step s = .fault f ∧ (hostReset s).fault = none ∧ (hostReset s).reports = [] ∧ (hostReset s).cpu.p.i = true ∧
    ∀ h : HostAction, h ≠ .reset → (applyHost h s).fault = some f ∧ step (applyHost h s) = .fault f) ∧
  ∀ (s : State) (r : Refusal), s.refusal = some r →
    step s = .refused r ∧ (hostReset s).refusal = none ∧
    ∀ h : HostAction, h ≠ .reset → (applyHost h s).refusal = some r ∧ step (applyHost h s) = .refused r

/-- 60_exceptions R465, R466 and 40_addressing_modes R193, R194: every instruction the fetch gives meets the post-condition on its
byte and cycle counts, whatever the state and the operands, so InvalidResult is never raised and Final is set. -/
def Obligations.EveryResultIsValid : Prop :=
  ∀ (s u t : State) (i : Instr), fetchInstr s = (some i, u) → exec i u = .next t →
    resultValid t.result = true ∧ finishInstr t = { t with result := { t.result with final := true } }

/-- 60_exceptions R460, 20_memory R116, 63_riot_console R663, 70_reset_and_hazards R727: whatever the instruction, a step that
answers a next state keeps the inputs, the parameters, the mapper and every byte of the cartridge image, never shortens the
report log, runs three color clocks per CPU cycle and at least one cycle. -/
def Obligations.EveryStepKeepsRomInputsAndLog : Prop :=
  ∀ s t : State, step s = .next t →
    t.inputs = s.inputs ∧ t.params = s.params ∧ t.cart.mapper = s.cart.mapper ∧ t.cart.size = s.cart.size ∧
    (∀ k, t.cart.image.read k = s.cart.image.read k) ∧ s.reports <+: t.reports ∧
    t.colorClock + 3 * s.cpuCycles = s.colorClock + 3 * t.cpuCycles ∧ s.cpuCycles < t.cpuCycles ∧
    s.lastAccessId < t.lastAccessId

/-- 30_encoding R157, 10_state R38: no instruction changes a flag that its mnemonic's row does not list. -/
def Obligations.FlagsChangeOnlyAsListed : Prop :=
  ∀ (i : Instr) (m : Mnemonic) (s t : State), mnemonicOf i = some m → exec i s = .next t →
    SameFlagsOutside (flagsWritten m) s.cpu.p t.cpu.p

/-- 10_state R31 to R34: A, X, Y and S are written by the instructions those rules list and by no other. -/
def Obligations.RegistersChangeOnlyAsListed : Prop :=
  ∀ (i : Instr) (m : Mnemonic) (s t : State), mnemonicOf i = some m → exec i s = .next t →
    (m ∉ [.lda, .txa, .tya, .pla, .adc, .sbc, .and, .ora, .eor] →
      i ∉ [.aslAcc, .lsrAcc, .rolAcc, .rorAcc] → t.cpu.a = s.cpu.a) ∧
    (m ∉ [.ldx, .tax, .tsx, .inx, .dex] → t.cpu.x = s.cpu.x) ∧
    (m ∉ [.ldy, .tay, .iny, .dey] → t.cpu.y = s.cpu.y) ∧
    (m ∉ [.txs, .pha, .php, .pla, .plp, .jsr, .rts, .rti, .brk] → t.cpu.sp = s.cpu.sp)

/-- 60_exceptions R445: the I flag has no effect on execution. An instruction that neither pushes nor writes it does the same with
I at either value, in every other piece of the state. -/
def Obligations.InterruptFlagHasNoEffect : Prop :=
  ∀ (i : Instr) (s t : State) (b : Bool), i ∉ [.php, .brk, .plp, .rti, .cli, .sei] → exec i s = .next t →
    exec i { s with cpu := { s.cpu with p := { s.cpu.p with i := b } } } =
      .next { t with cpu := { t.cpu with p := { t.cpu.p with i := b } } }

/-! ### The bus, the memory map and the cartridge -/

/-- 20_memory R71, R72: bits 15 to 13 of the address have no effect on which byte is accessed; the trace entry
alone shows them, as the 16-bit address it holds is the model's choice (log 22). The low 13 bits decode to four areas,
    which do not overlap, with the local address of each on a read and on a write. -/
def Obligations.MemoryMapDecodes : Prop :=
  (∀ (a b : Word) (v : Byte) (s : State), a.toNat % 8192 = b.toNat % 8192 →
    let r := busRead a s
    busRead b s = (r.1, { r.2 with lastAccess := some { address := b, value := r.1, isWrite := false } }) ∧
    busWrite b v s = { busWrite a v s with lastAccess := some { address := b, value := v, isWrite := true } }) ∧
  ∀ (a : Addr13) (isRead : Bool),
    let n := a.toNat
    (4096 ≤ n → mapAddress a isRead = (.cart, n - 4096)) ∧
    (n < 4096 → n % 256 < 128 → mapAddress a isRead = (.tia, if isRead then n % 16 else n % 64)) ∧
    (n < 4096 → 128 ≤ n % 256 → n % 1024 < 512 → mapAddress a isRead = (.ram, n % 128)) ∧
    (n < 4096 → 128 ≤ n % 256 → 512 ≤ n % 1024 → mapAddress a isRead = (.riot, n % 32))

/-- 20_memory R74: PIA RAM is readable and writable at every local with all eight bits driven; a read gives the byte last written
there, every other byte is kept, and a read changes none. -/
def Obligations.RamReadsWhatWasWritten : Prop :=
  ∀ (a b : Word) (v : Byte) (s : State), s.ram.wf 128 = true → areaOf (addr13 a) = .ram → areaOf (addr13 b) = .ram →
    let t := memWrite a v s
    (memRead b t).1 = (if a.toNat % 128 = b.toNat % 128 then v else s.ram.read (b.toNat % 128)) ∧
    (memRead b t).2.ram = t.ram ∧ t.ram.wf 128 = true

/-- 61_tia R501, R553, R554 and 20_memory R80: what a TIA read returns on the bits the chip drives: collision latches, paddles
grounded by VBLANK bit 7, fire buttons latched under VBLANK bit 6. -/
def Obligations.TiaReadsLatchesAndInputs : Prop :=
  ∀ (a : Word) (s : State), areaOf (addr13 a) = .tia →
    let c := s.tia.collisions
    let loc := a.toNat % 16
    let v := (busRead a s).1
    (∀ row ∈ [(0x0, c.p1m0, c.p0m0), (0x1, c.p0m1, c.p1m1), (0x2, c.p0pf, c.p0bl), (0x3, c.p1pf, c.p1bl), (0x4, c.m0pf, c.m0bl),
        (0x5, c.m1pf, c.m1bl), (0x7, c.p0p1, c.m0m1)], loc = row.1 → v.getLsbD 7 = row.2.1 ∧ v.getLsbD 6 = row.2.2) ∧
    (loc = 0x6 → v.getLsbD 7 = c.blpf) ∧
    (∀ row ∈ [(0x8, s.inputs.paddle0), (0x9, s.inputs.paddle1), (0xA, s.inputs.paddle2), (0xB, s.inputs.paddle3)],
      loc = row.1 → v.getLsbD 7 = (row.2 && !s.tia.inptDump)) ∧
    (∀ row ∈ [(0xC, s.inputs.fireLeft, s.tia.inpt4Low), (0xD, s.inputs.fireRight, s.tia.inpt5Low)],
      loc = row.1 → v.getLsbD 7 = (!row.2.1 && !(s.tia.inptLatchEnable && row.2.2)))

/-- 20_memory R81, R85, R84: a read records its trace entry and has no side effect but those R81 lists: a hotspot, INTIM, TIMINT and
the superchip's write port. Only a read of no register is reported; that a report carries the id of the access itself is the
model's choice (log 22). -/
def Obligations.ReadsHaveListedSideEffects : Prop :=
  ∀ (a : Word) (s : State),
    let area := areaOf (addr13 a)
    let v := (busRead a s).1
    let t := (busRead a s).2
    t.lastAccess = some { address := a, value := v, isWrite := false } ∧ t.lastAccessId = s.lastAccessId + 1 ∧
    (¬ (area = .cart ∧ (s.cart.isHotspot (a.toNat % 4096) = true ∨ s.cart.mapper.hasSuperchip = true ∧ a.toNat % 4096 < 128)) →
      ¬ (area = .riot ∧ 4 ≤ a.toNat % 8) →
      t = { s with lastAccess := t.lastAccess, lastAccessId := t.lastAccessId, draws := t.draws, reports := t.reports }) ∧
    (¬ (area = .tia ∧ 14 ≤ a.toNat % 16) → ¬ (area = .cart ∧ s.cart.mapper.hasSuperchip = true ∧ a.toNat % 4096 < 128) →
      t.reports = s.reports) ∧
    (area = .tia → 14 ≤ a.toNat % 16 →
      t.reports = s.reports ++ [{ report := .unreadableAddress (a.setWidth 13), accessId := t.lastAccessId }])

/-- 20_memory R86, R113, 62_television R618, 63_riot_console R664, R672: `Peek` gives what a read of PIA RAM or of a cartridge byte that
is no hotspot and no write port returns; `Poke` stores one byte, which `Peek` then gives from PIA RAM and the cartridge, and triggers no
strobe, timer, bank switch, clock or trace. At a TIA latch it stores that register alone: no vertical-delay copy and no fire-button
latch, the model's choice (log 32). `GetBank` is the bank a read is served from; `CPUState` and `TVState` give what they name. -/
def Obligations.PeekAndPokeHaveNoSideEffects : Prop :=
  ∀ (a : Word) (v : Byte) (s : State), MachineInv s →
    let area := areaOf (addr13 a)
    let loc := a.toNat % 4096
    let ports := s.cart.mapper.hasSuperchip = true ∧ loc < 256
    let bankSize := match s.cart.mapper with | .m2k | .m3f => 2048 | .e0 => 1024 | _ => 4096
    (placeable s.cart a = true → (busRead a s).1 = peek a s) ∧
    (area = .cart → s.cart.isHotspot loc = false → ¬ ports →
      (busRead a s).1 = s.cart.image.read (getBank a s * bankSize + loc % bankSize)) ∧
    cpuState s = (s.cpu, s.result) ∧
    [tvState .framenum s, tvState .scanline s, tvState .horizPos s, tvState .visibleTop s, tvState .visibleBottom s] =
      [(s.tv.frame : Int), s.tv.scanline, s.tv.horizontal, s.tv.visibleTop, s.tv.visibleBottom] ∧
    (let t := poke a v s
     (area = .ram ∨ area = .cart → peek a t = v) ∧
     (area = .ram → t = { s with ram := t.ram } ∧ ∀ k, k ≠ a.toNat % 128 → t.ram.read k = s.ram.read k) ∧
     (area = .cart → t = { s with cart := { s.cart with image := t.cart.image, scRam := t.cart.scRam } } ∧
       (∀ k, ¬ ports ∧ k = s.cart.offset loc ∨ t.cart.image.read k = s.cart.image.read k) ∧
       (∀ k, ports ∧ k = loc % 128 ∨ t.cart.scRam.read k = s.cart.scRam.read k)) ∧
     (area = .tia → t = { s with tia := t.tia } ∧
       (a.toNat % 64 = 0x01 → t.tia = { s.tia with
         vblank := v.getLsbD 1, inptLatchEnable := v.getLsbD 6, inptDump := v.getLsbD 7 }) ∧
       (a.toNat % 64 = 0x1B → t.tia = { s.tia with grp0new := v }) ∧ (a.toNat % 64 = 0x1C → t.tia = { s.tia with grp1new := v }) ∧
       (a.toNat % 64 ∈ [0x02, 0x03, 0x10, 0x11, 0x12, 0x13, 0x14, 0x2A, 0x2B, 0x2C] ∨ 0x2D ≤ a.toNat % 64 → t = s)) ∧
     (area = .riot → t = { s with riot := t.riot }) ∧
     t.cpu = s.cpu ∧ bankSelection t.cart = bankSelection s.cart ∧ t.tia.futures = s.tia.futures ∧ t.tia.wsync = s.tia.wsync ∧
     t.tia.pos = s.tia.pos ∧ t.tia.collisions = s.tia.collisions ∧ t.riot.tf = s.riot.tf ∧ t.riot.interval = s.riot.interval ∧
     t.riot.prescale = s.riot.prescale ∧ t.riot.pf7 = s.riot.pf7 ∧ t.riot.edgePos = s.riot.edgePos ∧
     t.colorClock = s.colorClock ∧ t.lastAccess = s.lastAccess ∧ t.lastAccessId = s.lastAccessId ∧ t.reports = s.reports)

/-- 20_memory R111, 60_exceptions R462: a write to a cartridge address that is not cartridge RAM changes no state but a hotspot's bank
and is reported with its address and datum; no other write is reported so. The model's choices: a report carries the id of the access
itself (log 22), and an E0 hotspot follows `hotspot_on_write` as an F-series one does (log 23). -/
def Obligations.RomWritesAreReported : Prop :=
  ∀ (a : Word) (v : Byte) (s : State),
    let loc := a.toNat % 4096
    let t := busWrite a v s
    let intoRom := areaOf (addr13 a) = .cart ∧ ¬ (s.cart.mapper.hasSuperchip = true ∧ loc < 128)
    (intoRom → t = { s with
      cart := if s.params.hotspotOnWrite then s.cart.hotspot loc else s.cart,
      lastAccess := some { address := a, value := v, isWrite := true }, lastAccessId := s.lastAccessId + 1,
      reports := s.reports ++ [{ report := .unwritableAddress (a.setWidth 13) v, accessId := s.lastAccessId + 1 }] }) ∧
    (¬ intoRom → t.reports = s.reports)

/-- 20_memory R101 to R107: a read of a 2K, 4K or F-series cartridge gives the image's byte in the bank in force, a hotspot having
switched it at that access; a write to a hotspot switches too under `hotspot_on_write`. Superchip ports are apart. -/
def Obligations.FSeriesBanksSwitchAtHotspots : Prop :=
  ∀ (a : Word) (v : Byte) (s : State), areaOf (addr13 a) = .cart →
    let loc := a.toNat % 4096
    (s.cart.mapper = .m2k → (busRead a s).1 = s.cart.image.read (loc % 2048) ∧ (busRead a s).2.cart = s.cart) ∧
    (s.cart.mapper = .m4k → (busRead a s).1 = s.cart.image.read loc ∧ (busRead a s).2.cart = s.cart) ∧
    ∀ row ∈ [(Mapper.f8, 2, 0xFF8), (.f6, 4, 0xFF6), (.f4, 8, 0xFF4), (.f8sc, 2, 0xFF8), (.f6sc, 4, 0xFF6), (.f4sc, 8, 0xFF4)],
      s.cart.mapper = row.1 → (s.cart.mapper.hasSuperchip = true → 0x100 ≤ loc) →
        let bank := if row.2.2 ≤ loc ∧ loc < row.2.2 + row.2.1 then loc - row.2.2 else s.cart.bank
        (busRead a s).1 = s.cart.image.read (bank * 4096 + loc) ∧ (busRead a s).2.cart = { s.cart with bank := bank } ∧
        (busWrite a v s).cart = { s.cart with bank := if s.params.hotspotOnWrite then bank else s.cart.bank }

/-- 20_memory R108, R109, R112: an E0 access selects the slice its local names and reads the slice of its segment; segment 3 is slice
7. A 3F write to 0x0000..0x003F selects the bank, which no read does; segment 1 is the last bank. No other mapper acts there. -/
def Obligations.SlicesAndTigervisionBanks : Prop :=
  ∀ (a : Word) (v : Byte) (s : State),
    let loc := a.toNat % 4096
    let n := s.cart.size / 2048
    let r := busRead a s
    (s.cart.mapper = .e0 → areaOf (addr13 a) = .cart →
      (r.2.cart.slice0.val = if loc / 8 = 0x1FC then loc % 8 else s.cart.slice0.val) ∧
      (r.2.cart.slice1.val = if loc / 8 = 0x1FD then loc % 8 else s.cart.slice1.val) ∧
      (r.2.cart.slice2.val = if loc / 8 = 0x1FE then loc % 8 else s.cart.slice2.val) ∧
      r.1 = s.cart.image.read
        ([r.2.cart.slice0.val, r.2.cart.slice1.val, r.2.cart.slice2.val, 7].getD (loc / 1024) 0 * 1024 + loc % 1024) ∧
      bankSelection (busWrite a v s).cart = if s.params.hotspotOnWrite then bankSelection r.2.cart else bankSelection s.cart) ∧
    (s.cart.mapper = .m3f → areaOf (addr13 a) = .cart →
      r.2.cart = s.cart ∧ r.1 = s.cart.image.read (if loc < 2048 then s.cart.bank * 2048 + loc else (n - 1) * 2048 + (loc - 2048))) ∧
    (areaOf (addr13 a) ≠ .cart → (busWrite a v s).cart =
      { s.cart with bank := if s.cart.mapper = .m3f ∧ a.toNat % 8192 < 64 then v.toNat % n else s.cart.bank })

/-- 20_memory R110, 60_exceptions R463: superchip RAM is written at locals 0x000..0x07F and read at 0x080..0x0FF; a write to the read
port is a ROM write, a read of the write port is reported and leaves the other bytes. That the report carries the id of the access
itself is the model's choice (log 22). -/
def Obligations.SuperchipPorts : Prop :=
  ∀ (a : Word) (v : Byte) (s : State), s.cart.mapper.hasSuperchip = true → s.cart.scRam.wf 128 = true →
    areaOf (addr13 a) = .cart →
    let loc := a.toNat % 4096
    let sc := s.cart.scRam
    (loc < 128 → (∀ k, (busWrite a v s).cart.scRam.read k = if k = loc then v else sc.read k) ∧
      (busWrite a v s).reports = s.reports ∧
      (∀ k, k ≠ loc → (busRead a s).2.cart.scRam.read k = sc.read k) ∧
      (busRead a s).2.reports = s.reports ++ [{ report := .unreadableAddress (a.setWidth 13), accessId := s.lastAccessId + 1 }]) ∧
    (128 ≤ loc → loc < 256 → (busRead a s).1 = sc.read (loc - 128) ∧ (busRead a s).2.cart = s.cart ∧ (busWrite a v s).cart = s.cart)

/-- 40_addressing_modes R181, R185 to R191: where the effective address each addressing mode gives reaches PIA RAM, and the pointer's
two bytes do, the operand is the byte there: zero-page sums and pointers wrap within page 0, indexed addresses carry into the page.
For the Write and RMW classes: the effective address itself, and the reads made on the way to it, the dummy reads among them, which an
indexed address has with and without a carry. -/
def Obligations.OperandsComeFromEffectiveAddress : Prop :=
  ∀ (b : Byte) (w : Word) (s : State),
    let ram := fun (a : Word) => s.ram.read (a.toNat % 128)
    let isRam := fun (a : Word) => areaOf (addr13 a) = .ram
    let zp := fun (k : Byte) => (k.setWidth 16 : Word)
    let ptr := fun (k : Byte) => (ram (zp (k + 1)) ++ ram (zp k) : Word)
    let x := s.cpu.x
    let y := s.cpu.y.setWidth 16
    let unfixed := fun (base : Word) (index : Byte) => (base.extractLsb' 8 8 ++ (base.setWidth 8 + index) : Word)
    let pointerReads := fun (k : Byte) (t : State) => dummyRead (zp (k + 1)) (dummyRead (zp k) t)
    (isRam (zp b) → (readZp b s).1 = ram (zp b)) ∧
    (isRam (zp (b + x)) → (readZpx b s).1 = ram (zp (b + x))) ∧
    (isRam (zp (b + s.cpu.y)) → (readZpy b s).1 = ram (zp (b + s.cpu.y))) ∧
    (isRam w → (readAbs w s).1 = ram w) ∧
    (isRam (w + x.setWidth 16) → (readAbsx w s).1 = ram (w + x.setWidth 16)) ∧
    (isRam (w + y) → (readAbsy w s).1 = ram (w + y)) ∧
    (isRam (zp (b + x)) → isRam (zp (b + x + 1)) → isRam (ptr (b + x)) → (readIndx b s).1 = ram (ptr (b + x))) ∧
    (isRam (zp b) → isRam (zp (b + 1)) → isRam (ptr b + y) → (readIndy b s).1 = ram (ptr b + y)) ∧
    eaZp b s = (zp b, s) ∧ eaAbs w s = (w, s) ∧
    eaZpx b s = (zp (b + x), dummyRead (zp b) s) ∧ eaZpy b s = (zp (b + s.cpu.y), dummyRead (zp b) s) ∧
    eaAbsx w s = (w + x.setWidth 16, dummyRead (unfixed w x) s) ∧ eaAbsy w s = (w + y, dummyRead (unfixed w s.cpu.y) s) ∧
    (isRam (zp (b + x)) → isRam (zp (b + x + 1)) → eaIndx b s = (ptr (b + x), pointerReads (b + x) (dummyRead (zp b) s))) ∧
    (isRam (zp b) → isRam (zp (b + 1)) →
      eaIndy b s = (ptr b + y, dummyRead (unfixed (ptr b) s.cpu.y) (pointerReads b s)))

/-! ### Instructions: what each does, what it leaves alone, and that it completes -/

/-- 41_load_store R231 to R233: every form of LDA, LDX and LDY copies its operand into the register and sets N and Z from it; no
other register or flag changes and nothing is stored. -/
def Obligations.LoadsWriteRegisterAndNZ : Prop :=
  ∀ (b : Byte) (w : Word) (s : State),
    (∀ f ∈ ldaForms b w, ReadCompletes f (fun m c => { c with a := m, p := nz c.p m }) s) ∧
    (∀ f ∈ ldxForms b w, ReadCompletes f (fun m c => { c with x := m, p := nz c.p m }) s) ∧
    (∀ f ∈ ldyForms b w, ReadCompletes f (fun m c => { c with y := m, p := nz c.p m }) s)

/-- 41_load_store R234 to R236: every form of STA, STX and STY stores the register at its effective address and changes no
register and no flag. -/
def Obligations.StoresWriteOneByte : Prop :=
  ∀ (b : Byte) (w : Word) (s : State),
    (∀ f ∈ staForms b w, StoreCompletes f Cpu.a s) ∧
    (∀ f ∈ stxForms b w, StoreCompletes f Cpu.x s) ∧
    (∀ f ∈ styForms b w, StoreCompletes f Cpu.y s)

/-- 42_transfer_stack R250 to R256: the six transfers; every one but TXS sets N and Z from the value transferred. -/
def Obligations.TransfersCopyRegisters : Prop :=
  ∀ s : State,
    ImpliedCompletes .tax (fun c => { c with x := c.a, p := nz c.p c.a }) s ∧
    ImpliedCompletes .tay (fun c => { c with y := c.a, p := nz c.p c.a }) s ∧
    ImpliedCompletes .txa (fun c => { c with a := c.x, p := nz c.p c.x }) s ∧
    ImpliedCompletes .tya (fun c => { c with a := c.y, p := nz c.p c.y }) s ∧
    ImpliedCompletes .tsx (fun c => { c with x := c.sp, p := nz c.p c.sp }) s ∧
    ImpliedCompletes .txs (fun c => { c with sp := c.x }) s

/-- 42_transfer_stack R257 to R260 and 40_addressing_modes R196: PHA and PHP store A or Pbyte at 0x0100 + S and decrement S; Pbyte is
N V 1 1 D I Z C from bit 7 down. PLA and PLP read the byte at 0x0100 + (S + 1) after incrementing S; PLA sets A, N and Z from it, PLP
all six flags from its bits 7, 6, 3, 2, 1 and 0. -/
def Obligations.PushesAndPulls : Prop :=
  ∀ s : State,
    (let ea : Word := 0x0100#16 + s.cpu.sp.setWidth 16
     ∀ i v, (i = .pha ∧ v = s.cpu.a) ∨ (i = .php ∧ v = BitVec.ofBoolListBE
         [s.cpu.p.n, s.cpu.p.v, true, true, s.cpu.p.d, s.cpu.p.i, s.cpu.p.z, s.cpu.p.c]) →
       ∃ t, exec i s = .next t ∧ t = { memWrite ea v (dummyRead s.cpu.pc s) with cpu := t.cpu } ∧
         t.cpu = { s.cpu with sp := s.cpu.sp - 1 } ∧ t.result = recordAfter s.result 2 false ∧
         t.lastAccess = some { address := ea, value := v, isWrite := true } ∧
         (s.ram.wf 128 = true → ∀ k, storesRam ea k → t.ram.read k = v) ∧ Frame [ea] s t) ∧
    (let u := dummyRead (0x0100#16 + s.cpu.sp.setWidth 16) (dummyRead s.cpu.pc s)
     let r := memRead (0x0100#16 + (s.cpu.sp + 1).setWidth 16) u
     let v := r.1
     (∃ t, exec .pla s = .next t ∧ t = { r.2 with cpu := t.cpu, result := t.result } ∧
       t.cpu = { s.cpu with a := v, sp := s.cpu.sp + 1, p := nz s.cpu.p v } ∧
       t.result = recordAfter s.result 3 false ∧ Frame [] s t) ∧
     (∃ t, exec .plp s = .next t ∧ t = { r.2 with cpu := t.cpu, result := t.result } ∧
       t.cpu = { s.cpu with sp := s.cpu.sp + 1, p :=
         { n := v.getLsbD 7, v := v.getLsbD 6, d := v.getLsbD 3, i := v.getLsbD 2, z := v.getLsbD 1, c := v.getLsbD 0 } } ∧
       t.result = recordAfter s.result 3 false ∧ Frame [] s t))

/-- 63_riot_console R658, R663, R664, 61_tia R554: an input event changes the pin it names and nothing else; the fire-button latches see
the buttons at every tick (log 19): with no VBLANK store pending a tick latches a pressed button low while VBLANK bit 6 is 1, keeps it
so after the button is released, and clears the latch while bit 6 is 0. Which paddle input an event drives is the model's choice
(log 39). -/
def Obligations.InputsDrivePinsAndButtonLatches : Prop :=
  (∀ (e : InputEvent) (s : State), applyInput e s = { s with inputs := (applyInput e s).inputs }) ∧
  (∀ (s : State) (level : Bool),
    let i := s.inputs
    let after := fun e => (applyInput e s).inputs
    (∀ row ∈ [(Side.left, Direction.right, 7), (.left, .left, 6), (.left, .down, 5), (.left, .up, 4), (.right, .right, 3),
        (.right, .left, 2), (.right, .down, 1), (.right, .up, 0)],
      let j := after (.joystick row.1 row.2.1 level)
      j = { i with pinsA := j.pinsA } ∧ ∀ k < 8, j.pinsA.getLsbD k = if k = row.2.2 then !level else i.pinsA.getLsbD k) ∧
    (∀ row ∈ [(PanelSwitch.reset, 0), (.select, 1), (.colour, 3), (.difficultyLeft, 6), (.difficultyRight, 7)],
      let j := after (.panel row.1 level)
      j = { i with pinsB := j.pinsB } ∧ ∀ k < 8, j.pinsB.getLsbD k = if k = row.2 then level else i.pinsB.getLsbD k) ∧
    after (.fire .left level) = { i with fireLeft := level } ∧ after (.fire .right level) = { i with fireRight := level } ∧
    after (.paddle 0 level) = { i with paddle0 := level } ∧ after (.paddle 1 level) = { i with paddle1 := level } ∧
    after (.paddle 2 level) = { i with paddle2 := level } ∧ after (.paddle 3 level) = { i with paddle3 := level }) ∧
  ∀ s : State, (∀ f ∈ s.tia.futures, ∀ v, f.action ≠ .store .vblank v) →
    let t := tiaTick s
    t.inputs = s.inputs ∧ t.tia.inptLatchEnable = s.tia.inptLatchEnable ∧ t.tia.inptDump = s.tia.inptDump ∧
    t.tia.inpt4Low = (s.tia.inptLatchEnable && (s.tia.inpt4Low || s.inputs.fireLeft)) ∧
    t.tia.inpt5Low = (s.tia.inptLatchEnable && (s.tia.inpt5Low || s.inputs.fireRight))

/-- 43_arithmetic R281, R283: every form of ADC and SBC writes A and the flags N, V, Z, C as the adder gives them from A, the
operand, C and D; nothing else changes. What the adder gives is `BinaryAddAndSubtract` and `DecimalAddAndSubtract`. -/
def Obligations.AddAndSubtractForms : Prop :=
  ∀ (b : Byte) (w : Word) (s : State),
    (∀ f ∈ adcForms b w, ReadCompletes f (fun m c => { c with a := (adc c.a m c.p).a, p := (adc c.a m c.p).p }) s) ∧
    (∀ f ∈ sbcForms b w, ReadCompletes f (fun m c => { c with a := (sbc c.a m c.p).a, p := (sbc c.a m c.p).p }) s)

/-- 43_arithmetic R280, R281, R283: with D clear, ADC gives the sum modulo 256 with C the ninth bit, SBC the difference with C the
inverted borrow; V is set exactly when the signed result leaves -128..127, N and Z come from the result, D and I are kept. -/
def Obligations.BinaryAddAndSubtract : Prop :=
  ∀ (a m : Byte) (p : Flags), p.d = false →
    (let r := adc a m p
     let sum := a.toNat + m.toNat + carryNat p.c
     let signed := a.toInt + m.toInt + carryNat p.c
     r.a.toNat = sum % 256 ∧ r.p.c = decide (256 ≤ sum) ∧ r.p.v = decide (signed < -128 ∨ 127 < signed) ∧
       r.p.n = r.a.getLsbD 7 ∧ r.p.z = decide (r.a = 0#8) ∧ r.p.d = p.d ∧ r.p.i = p.i) ∧
    (let r := sbc a m p
     let diff : Int := (a.toNat : Int) - m.toNat - (1 - carryNat p.c)
     let signed := a.toInt - m.toInt - (1 - carryNat p.c)
     (r.a.toNat : Int) = diff % 256 ∧ r.p.c = decide (0 ≤ diff) ∧ r.p.v = decide (signed < -128 ∨ 127 < signed) ∧
       r.p.n = r.a.getLsbD 7 ∧ r.p.z = decide (r.a = 0#8) ∧ r.p.d = p.d ∧ r.p.i = p.i)

/-- 43_arithmetic R282 to R284: with D set, on every operand (invalid digits too: log 36): the digits of ADC are adjusted one after the
other, N and V come from the sum after the low digit's adjustment, Z from the binary sum, C from the high digit's; SBC adjusts the
digits of the difference, and all four of its flags are the binary subtraction's. On valid BCD operands ADC so gives the BCD sum modulo
100 with C the decimal carry, SBC the BCD difference modulo 100 with C = 0 exactly when a decimal borrow occurred. -/
def Obligations.DecimalAddAndSubtract : Prop :=
  (∀ (a m : Byte) (p : Flags), p.d = true →
    let c := carryNat p.c
    let hi := fun (b : Byte) => 16 * (b.toNat / 16)
    let signedHi := fun (b : Byte) => (16 * ((b.toNat / 16 + 8) % 16) : Nat) - (128 : Int)
    let lo := a.toNat % 16 + m.toNat % 16 + c
    let al := if 10 ≤ lo then (lo + 6) % 16 + 16 else lo
    let t := hi a + hi m + al
    let st := signedHi a + signedHi m + al
    (adc a m p).a.toNat = (if 0xA0 ≤ t then t + 0x60 else t) % 256 ∧
    (adc a m p).p = { p with n := decide (128 ≤ t % 256), v := decide (st < -128 ∨ 127 < st),
                             z := decide ((a.toNat + m.toNat + c) % 256 = 0), c := decide (0xA0 ≤ t) } ∧
    (let dl : Int := (a.toNat % 16 : Nat) - (m.toNat % 16 : Nat) + c - 1
     let al := if dl < 0 then (dl - 6) % 16 - 16 else dl
     let t : Int := hi a - hi m + al
     ((sbc a m p).a.toNat : Int) = (if t < 0 then t - 0x60 else t) % 256 ∧
     (sbc a m p).p = { (sbc a m { p with d := false }).p with d := true })) ∧
  ∀ (x y : Fin 100) (p : Flags), p.d = true →
    let bcd : Nat → Byte := fun n => BitVec.ofNat 8 (16 * (n / 10) + n % 10)
    let a := bcd x
    let m := bcd y
    (adc a m p).a = bcd ((x.val + y.val + carryNat p.c) % 100) ∧
    (adc a m p).p.c = decide (100 ≤ x.val + y.val + carryNat p.c) ∧
    (sbc a m p).a = bcd (((x.val : Int) - y.val - (1 - carryNat p.c)) % 100).toNat ∧
    (sbc a m p).p.c = decide (y.val + (1 - carryNat p.c) ≤ x.val)

/-- 43_arithmetic R285 to R288: every form of CMP, CPX and CPY sets C from the unsigned comparison, Z from equality and N from bit
7 of the difference, whatever D is; no register and no other flag changes. -/
def Obligations.ComparesSetFlags : Prop :=
  ∀ (b : Byte) (w : Word) (s : State),
    let flags := fun (r m : Byte) (c : Cpu) =>
      { c with p := { c.p with c := decide (m.toNat ≤ r.toNat), z := decide (r = m), n := (r - m).getLsbD 7 } }
    (∀ f ∈ cmpForms b w, ReadCompletes f (fun m c => flags c.a m c) s) ∧
    (∀ f ∈ cpxForms b w, ReadCompletes f (fun m c => flags c.x m c) s) ∧
    (∀ f ∈ cpyForms b w, ReadCompletes f (fun m c => flags c.y m c) s)

/-- 44_logic_shift R320 to R324: every form of AND, ORA and EOR writes A and sets N and Z from it; BIT changes no register, takes N
and V from the operand's bits 7 and 6 and Z from the and with A. -/
def Obligations.LogicWritesA : Prop :=
  ∀ (b : Byte) (w : Word) (s : State),
    (∀ f ∈ andForms b w, ReadCompletes f (fun m c => { c with a := c.a &&& m, p := nz c.p (c.a &&& m) }) s) ∧
    (∀ f ∈ oraForms b w, ReadCompletes f (fun m c => { c with a := c.a ||| m, p := nz c.p (c.a ||| m) }) s) ∧
    (∀ f ∈ eorForms b w, ReadCompletes f (fun m c => { c with a := c.a ^^^ m, p := nz c.p (c.a ^^^ m) }) s) ∧
    (∀ f ∈ bitForms b w, ReadCompletes f
      (fun m c => { c with p := { c.p with z := decide (c.a &&& m = 0#8), n := m.getLsbD 7, v := m.getLsbD 6 } }) s)

/-- 40_addressing_modes R187, 43_arithmetic R289, R292, 44_logic_shift R325 to R328: the memory forms of INC, DEC, ASL, LSR, ROL and
ROR read the effective address, store the unmodified byte and then the result there, and write N and Z (the shifts C too). -/
def Obligations.MemoryModifyForms : Prop :=
  ∀ (b : Byte) (w : Word) (s : State),
    let bit := fun (c : Bool) => BitVec.setWidth 8 (BitVec.ofBool c)
    let shift := fun (out : Byte → Flags → Byte) (carry : Byte → Bool) (v : Byte) (p : Flags) =>
      { nz p (out v p) with c := carry v }
    let lsl := fun (v : Byte) (_ : Flags) => v <<< 1
    let lsr := fun (v : Byte) (_ : Flags) => v >>> 1
    let rol := fun (v : Byte) (p : Flags) => v <<< 1 ||| bit p.c
    let ror := fun (v : Byte) (p : Flags) => v >>> 1 ||| bit p.c <<< 7
    (∀ f ∈ rmwForms .incZp .incZpx .incAbs .incAbsx b w, ModifyCompletes f (fun v _ => v + 1) (fun v p => nz p (v + 1)) s) ∧
    (∀ f ∈ rmwForms .decZp .decZpx .decAbs .decAbsx b w, ModifyCompletes f (fun v _ => v - 1) (fun v p => nz p (v - 1)) s) ∧
    (∀ f ∈ rmwForms .aslZp .aslZpx .aslAbs .aslAbsx b w, ModifyCompletes f lsl (shift lsl (·.getLsbD 7)) s) ∧
    (∀ f ∈ rmwForms .lsrZp .lsrZpx .lsrAbs .lsrAbsx b w, ModifyCompletes f lsr (shift lsr (·.getLsbD 0)) s) ∧
    (∀ f ∈ rmwForms .rolZp .rolZpx .rolAbs .rolAbsx b w, ModifyCompletes f rol (shift rol (·.getLsbD 7)) s) ∧
    (∀ f ∈ rmwForms .rorZp .rorZpx .rorAbs .rorAbsx b w, ModifyCompletes f ror (shift ror (·.getLsbD 0)) s)

/-- 43_arithmetic R290, R291, R293, R294 and 44_logic_shift R325 to R328: INX, INY, DEX, DEY and the accumulator forms of the
shifts act on a register in two cycles. -/
def Obligations.RegisterModifyForms : Prop :=
  ∀ s : State,
    let bit := fun (c : Bool) => BitVec.setWidth 8 (BitVec.ofBool c)
    let shiftA := fun (out : Byte → Flags → Byte) (carry : Byte → Bool) (c : Cpu) =>
      { c with a := out c.a c.p, p := { nz c.p (out c.a c.p) with c := carry c.a } }
    ImpliedCompletes .inx (fun c => { c with x := c.x + 1, p := nz c.p (c.x + 1) }) s ∧
    ImpliedCompletes .iny (fun c => { c with y := c.y + 1, p := nz c.p (c.y + 1) }) s ∧
    ImpliedCompletes .dex (fun c => { c with x := c.x - 1, p := nz c.p (c.x - 1) }) s ∧
    ImpliedCompletes .dey (fun c => { c with y := c.y - 1, p := nz c.p (c.y - 1) }) s ∧
    ImpliedCompletes .aslAcc (shiftA (fun v _ => v <<< 1) (·.getLsbD 7)) s ∧
    ImpliedCompletes .lsrAcc (shiftA (fun v _ => v >>> 1) (·.getLsbD 0)) s ∧
    ImpliedCompletes .rolAcc (shiftA (fun v p => v <<< 1 ||| bit p.c) (·.getLsbD 7)) s ∧
    ImpliedCompletes .rorAcc (shiftA (fun v p => v >>> 1 ||| bit p.c <<< 7) (·.getLsbD 0)) s

/-- 46_flags_system R380 to R388: each flag instruction writes exactly one flag and nothing else; NOP changes no register, flag or
memory. -/
def Obligations.FlagInstructionsWriteOneFlag : Prop :=
  ∀ s : State,
    ImpliedCompletes .clc (fun c => { c with p := { c.p with c := false } }) s ∧
    ImpliedCompletes .cld (fun c => { c with p := { c.p with d := false } }) s ∧
    ImpliedCompletes .cli (fun c => { c with p := { c.p with i := false } }) s ∧
    ImpliedCompletes .clv (fun c => { c with p := { c.p with v := false } }) s ∧
    ImpliedCompletes .sec (fun c => { c with p := { c.p with c := true } }) s ∧
    ImpliedCompletes .sed (fun c => { c with p := { c.p with d := true } }) s ∧
    ImpliedCompletes .sei (fun c => { c with p := { c.p with i := true } }) s ∧
    ImpliedCompletes .nop (fun c => c) s

/-- 45_control R351: JMP abs sets PC to its operand; JMP (abs) reads PC's low byte at the pointer and its high byte at the pointer
plus one within the pointer's page, and a pointer ending in 0xFF is marked as the documented bug. No other register, no flag and
no memory changes. -/
def Obligations.JumpsSetPc : Prop :=
  ∀ (w : Word) (s : State),
    (∃ t, exec (.jmpAbs w) s = .next t ∧ t = { s with cpu := { s.cpu with pc := w } } ∧ Frame [] s t) ∧
    (let lo := memRead w s
     let hi := memRead (if w.toNat % 256 = 255 then w - 255#16 else w + 1#16) lo.2
     ∃ t, exec (.jmpInd w) s = .next t ∧ t = { hi.2 with cpu := t.cpu, result := t.result } ∧
       t.cpu = { s.cpu with pc := hi.1 ++ lo.1 } ∧
       t.result = { recordAfter s.result 2 false with
         bug := if w.toNat % 256 = 255 then some .jmpIndirectWrap else s.result.bug } ∧
       Frame [] s t)

/-- 45_control R352, R353: JSR reads the stack once as a dummy, pushes PC (the address of its last byte) high byte first, then reads its
last byte and jumps there; the target's high byte is read after the pushes. RTS pulls PC, low byte first, reads there once as a dummy
and adds one; it changes S and PC only. -/
def Obligations.SubroutineCallAndReturn : Prop :=
  ∀ (w : Word) (s : State),
    (let ea1 : Word := 0x0100#16 + s.cpu.sp.setWidth 16
     let ea2 : Word := 0x0100#16 + (s.cpu.sp - 1).setWidth 16
     let u := memWrite ea2 (s.cpu.pc.setWidth 8) (memWrite ea1 ((s.cpu.pc >>> 8).setWidth 8) (dummyRead ea1 s))
     let hi := memRead s.cpu.pc u
     ∃ t, exec (.jsr w) s = .next t ∧ t = { hi.2 with cpu := t.cpu, result := t.result } ∧
       t.cpu = { s.cpu with sp := s.cpu.sp - 2, pc := hi.1 ++ w.setWidth 8 } ∧
       t.result = { recordAfter s.result 4 false with bytes := s.result.bytes + 1 } ∧ Frame [ea1, ea2] s t) ∧
    (let u := dummyRead (0x0100#16 + s.cpu.sp.setWidth 16) (dummyRead s.cpu.pc s)
     let lo := memRead (0x0100#16 + (s.cpu.sp + 1).setWidth 16) u
     let hi := memRead (0x0100#16 + (s.cpu.sp + 2).setWidth 16) lo.2
     ∃ t, exec .rts s = .next t ∧ t = { dummyRead (hi.1 ++ lo.1) hi.2 with cpu := t.cpu, result := t.result } ∧
       t.cpu = { s.cpu with sp := s.cpu.sp + 2, pc := (hi.1 ++ lo.1) + 1#16 } ∧
       t.result = recordAfter s.result 5 false ∧ Frame [] s t)

/-- 63_riot_console R665, R673: a run ends at the first step that completes a `JMP abs` to its own address, or at a state that has no
step (a fault is no successful end), or after the launch's number of steps; each end has the state of that boundary. That a refusal ends
a run, and a fault recorded by the last step allowed is a fault, is the model's choice (log 42). -/
def Obligations.RunEndsAtJumpToSelf : Prop :=
  (∀ (s u t : State) (i : Instr), Running s → fetchInstr s = (some i, u) → step s = .next t →
    (endsRun s t = true ↔ i = .jmpAbs s.cpu.pc)) ∧
  (∀ (k : Nat) (s : State),
    let next := fun (o : Option State) => o.bind (fun u => match step u with | .next v => some v | .fault _ | .refused _ => none)
    let after := fun n => Nat.repeat next n (some s)
    let goesOn := fun n => ∀ j < n, ∀ u v, after j = some u → after (j + 1) = some v → endsRun u v = false
    (∀ t, run k s = .jumpToSelf t ↔ ∃ n < k, goesOn n ∧ after (n + 1) = some t ∧ ∃ u, after n = some u ∧ endsRun u t = true) ∧
    (∀ t, run k s = .maxSteps t ↔ goesOn k ∧ after k = some t ∧ Running t) ∧
    (∀ f t, run k s = .fault f t ↔ ∃ n ≤ k, goesOn n ∧ after n = some t ∧ step t = .fault f) ∧
    (∀ r t, run k s = .refused r t ↔ ∃ n ≤ k, goesOn n ∧ after n = some t ∧ step t = .refused r) ∧
    (runEnds k s = true ↔ ∃ t, run k s = .jumpToSelf t)) ∧
  ∀ l : Launch, (∀ s, load l = .ok s → l.run = .ok (run l.maxSteps s)) ∧ (∀ e, load l = .error e → l.run = .error e)

/-- 45_control R354 to R362: a branch whose condition fails changes nothing; a taken one sets PC to the address after the branch
plus the signed offset, in one more cycle with a dummy read at that address, or two with the page-fault mark when the target is in
another page, the second dummy read being in the old page. -/
def Obligations.BranchesFollowCondition : Prop :=
  ∀ (off : Byte) (s : State),
    let p := s.cpu.p
    let target := s.cpu.pc + off.signExtend 16
    let crossed := decide (target.toNat / 256 ≠ s.cpu.pc.toNat / 256)
    ∀ i cond, (i, cond) ∈ [(Instr.bcc off, !p.c), (.bcs off, p.c), (.beq off, p.z), (.bne off, !p.z), (.bmi off, p.n),
        (.bpl off, !p.n), (.bvc off, !p.v), (.bvs off, p.v)] →
      (cond = false → exec i s = .next s) ∧
      (cond = true → ∃ t, exec i s = .next t ∧ t.cpu = { s.cpu with pc := target } ∧
        t = { (if crossed then dummyRead (s.cpu.pc.extractLsb' 8 8 ++ target.extractLsb' 0 8) (dummyRead s.cpu.pc s)
               else dummyRead s.cpu.pc s) with cpu := t.cpu, result := t.result } ∧
        t.result = recordAfter s.result 1 crossed ∧ Frame [] s t)

/-- 46_flags_system R389, R390, 60_exceptions R442, R443: BRK reads and skips the padding byte, stores the address after it (high byte
first) and Pbyte at 0x0100 + S, S - 1 and S - 2, sets I and takes PC from 0xFFFE and 0xFFFF; D and every other register are kept. RTI
pulls the six flags, then PC low byte first, with no increment. -/
def Obligations.BrkAndRti : Prop :=
  ∀ s : State,
    (let ret := s.cpu.pc + 1#16
     let ea := fun (k : Byte) => (0x0100#16 + (s.cpu.sp - k).setWidth 16 : Word)
     let pbyte : Byte := BitVec.ofBoolListBE
       [s.cpu.p.n, s.cpu.p.v, true, true, s.cpu.p.d, s.cpu.p.i, s.cpu.p.z, s.cpu.p.c]
     let u := memWrite (ea 2) pbyte (memWrite (ea 1) (ret.setWidth 8) (memWrite (ea 0) ((ret >>> 8).setWidth 8) (dummyRead s.cpu.pc s)))
     let lo := memRead 0xFFFE#16 u
     let hi := memRead 0xFFFF#16 lo.2
     ∃ t, exec .brk s = .next t ∧ t = { hi.2 with cpu := t.cpu, result := t.result } ∧
       t.cpu = { s.cpu with sp := s.cpu.sp - 3, pc := hi.1 ++ lo.1, p := { s.cpu.p with i := true } } ∧
       t.result = recordAfter s.result 6 false ∧ Frame [ea 0, ea 1, ea 2] s t) ∧
    (let u := dummyRead (0x0100#16 + s.cpu.sp.setWidth 16) (dummyRead s.cpu.pc s)
     let v := memRead (0x0100#16 + (s.cpu.sp + 1).setWidth 16) u
     let lo := memRead (0x0100#16 + (s.cpu.sp + 2).setWidth 16) v.2
     let hi := memRead (0x0100#16 + (s.cpu.sp + 3).setWidth 16) lo.2
     ∃ t, exec .rti s = .next t ∧ t = { hi.2 with cpu := t.cpu, result := t.result } ∧
       t.cpu = { s.cpu with sp := s.cpu.sp + 3, pc := hi.1 ++ lo.1, p :=
         { n := v.1.getLsbD 7, v := v.1.getLsbD 6, d := v.1.getLsbD 3, i := v.1.getLsbD 2, z := v.1.getLsbD 1,
           c := v.1.getLsbD 0 } } ∧
       t.result = recordAfter s.result 5 false ∧ Frame [] s t)

/-- 63_riot_console R660 to R662, R672, 62_television R617, 10_state R40: a step is its CPU cycles, each three color clocks and an end.
From the start of a running step some number of parts leads to the next boundary, where the state is the one `step` answers. `Step`
with a quantum gives its callback the states at those points, in order; with no renderer error it ends at the boundary; a renderer
error ends it at the part whose calls returned it, with the state as that part left it. From any of these points the rest of the step
can be run on. What happens in which part of a cycle is the model's choice (logs 41, 43,
44). -/
def Obligations.InstructionIsItsCycles : Prop :=
  ∀ s : State, Running s → ∃ (n : Nat) (t : State),
    let point := fun k => Nat.repeat Suspended.advance k (Suspended.start s)
    let seen := fun (q : Quantum) (j : Nat) => ((List.range j).map (fun k => point (k + 1))).filter (observes q)
    let err := fun (render : Renderer) (k : Nat) => errorBetween render (point k).state (point (k + 1)).state
    step s = .next t ∧ 0 < n ∧ (point n).state = t ∧ (point n).atBoundary = true ∧
    (∀ k < n, (point k).atBoundary = false) ∧
    (∀ k ≤ n, (point k).ticks.val = k % 4 ∧ (point k).state.cpuCycles = s.cpuCycles + k / 4 ∧
      (point k).state.colorClock = s.colorClock + 3 * (k / 4)) ∧
    (∀ (q : Quantum) (render : Renderer), ∃ r, stepWith q render s = .next r ∧
      (r.error = none ↔ ∀ k < n, err render k = none) ∧
      (r.error = none → r.last = point n ∧ r.callbacks = seen q n) ∧
      ∀ e, r.error = some e → ∃ k < n, (∀ j < k, err render j = none) ∧ err render k = some e ∧
        r.last = point (k + 1) ∧ r.callbacks = seen q (k + 1)) ∧
    ∀ (q : Quantum) (k : Nat), k ≤ n → (resume q (fun _ _ => none) (point k)).last = point n
/-! ### The TIA -/

/-- 61_tia R560 and 70_reset_and_hazards R712: a read waits while WSYNC's latch is set; the wait runs the clocks and nothing else, and
it always ends, in the cycle in which the next line starts when nothing is pending. A write waits for nothing. -/
def Obligations.WsyncHoldEnds : Prop :=
  ∀ (a : Word) (v : Byte) (s : State),
    let u := stall s
    u.tia.wsync = false ∧ u.cpu = s.cpu ∧ u.result = s.result ∧ u.ram = s.ram ∧ u.cart = s.cart ∧
    u.lastAccess = s.lastAccess ∧ u.lastAccessId = s.lastAccessId ∧
    (s.tia.wsync = false → u = s) ∧ u.cpuCycles ≤ s.cpuCycles + 76 ∧
    (s.tia.wsync = true → s.tia.futures = [] → u.cpuCycles = s.cpuCycles + (230 - s.tia.hclock.val) / 3) ∧
    (memRead a s).2.cpuCycles = u.cpuCycles + 1 ∧ (memWrite a v s).cpuCycles = s.cpuCycles + 1

/-- 61_tia R500, R503, R518, R522, R554, 70_reset_and_hazards R717: a write to a latched register stores at once,
    or under a delay d as a future that fires at the
(d + 1)-th tick. The store takes the bits the register map lists and ignores the others; GRP0 and GRP1 also copy the other latches,
one of them the ball's, as the model's own parameter says (log 37), VBLANK re-samples the fire-button latches (log 19),
    a motion write may free its object's position
(log 15); nothing else in the TIA changes. A write to a local with no register changes nothing in the TIA. -/
def Obligations.LatchedRegistersStore : Prop :=
  ∀ (a : Word) (v : Byte) (s : State), areaOf (addr13 a) = .tia →
    let loc := a.toNat % 64
    let n := v.toNat
    let t := (busWrite a v s).tia
    let o := s.params.delayOther
    let f := s.params.delayPf
    let g := s.params.delayGrp
    let regs : List (Nat × TiaLatch × Nat) :=
      [(0x00, .vsync, o), (0x01, .vblank, o), (0x04, .nusiz0, o), (0x05, .nusiz1, o), (0x06, .colup0, o), (0x07, .colup1, o),
       (0x08, .colupf, o), (0x09, .colubk, o), (0x0A, .ctrlpf, o), (0x0B, .refp0, o), (0x0C, .refp1, o), (0x0D, .pf0, f),
       (0x0E, .pf1, f), (0x0F, .pf2, f), (0x15, .audc0, o), (0x16, .audc1, o), (0x17, .audf0, o), (0x18, .audf1, o),
       (0x19, .audv0, o), (0x1A, .audv1, o), (0x1B, .grp0, g), (0x1C, .grp1, g), (0x1D, .enam0, o), (0x1E, .enam1, o),
       (0x1F, .enabl, g), (0x20, .hmp0, o), (0x21, .hmp1, o), (0x22, .hmm0, o), (0x23, .hmm1, o), (0x24, .hmbl, o),
       (0x25, .vdelp0, o), (0x26, .vdelp1, o), (0x27, .vdelbl, o), (0x28, .resmp0, o), (0x29, .resmp1, o)]
    let b := s.tia
    let u := fun (r : TiaLatch) => (fireAction (.store r v) s).tia
    let ball := fun (c : BallCopy) => if s.params.ballCopy = c then b.blNew else b.blOld
    let values : List (Nat × Nat) :=
      [((u .vsync).vsync.toNat, n / 2 % 2), ((u .vblank).vblank.toNat, n / 2 % 2), ((u .vblank).inptLatchEnable.toNat, n / 64 % 2),
       ((u .vblank).inptDump.toNat, n / 128), ((u .nusiz0).nusiz0.copies.toNat, n % 8), ((u .nusiz0).nusiz0.width.toNat, n / 16 % 4),
       ((u .nusiz1).nusiz1.copies.toNat, n % 8), ((u .nusiz1).nusiz1.width.toNat, n / 16 % 4), ((u .colup0).colup0.toNat, n / 2),
       ((u .colup1).colup1.toNat, n / 2), ((u .colupf).colupf.toNat, n / 2), ((u .colubk).colubk.toNat, n / 2),
       ((u .ctrlpf).ctrlpf.ref.toNat, n % 2), ((u .ctrlpf).ctrlpf.score.toNat, n / 2 % 2), ((u .ctrlpf).ctrlpf.pfp.toNat, n / 4 % 2),
       ((u .ctrlpf).ctrlpf.ballWidth.toNat, n / 16 % 4), ((u .refp0).refp0.toNat, n / 8 % 2), ((u .refp1).refp1.toNat, n / 8 % 2),
       ((u .pf0).pf0.toNat, n / 16), ((u .pf1).pf1.toNat, n), ((u .pf2).pf2.toNat, n), ((u .audc0).audio.audc0.toNat, n % 16),
       ((u .audc1).audio.audc1.toNat, n % 16), ((u .audf0).audio.audf0.toNat, n % 32), ((u .audf1).audio.audf1.toNat, n % 32),
       ((u .audv0).audio.audv0.toNat, n % 16), ((u .audv1).audio.audv1.toNat, n % 16)] ++
      [((u .grp0).grp0new.toNat, n), ((u .grp0).grp1old.toNat, b.grp1new.toNat), ((u .grp1).grp1new.toNat, n),
       ((u .grp1).grp0old.toNat, b.grp0new.toNat), ((u .grp0).blOld.toNat, (ball .withGrp0).toNat),
       ((u .grp1).blOld.toNat, (ball .withGrp1).toNat), ((u .enam0).enam0.toNat, n / 2 % 2),
       ((u .enam1).enam1.toNat, n / 2 % 2), ((u .enabl).blNew.toNat, n / 2 % 2), ((u .hmp0).hm.p0.toNat, n / 16),
       ((u .hmp1).hm.p1.toNat, n / 16), ((u .hmm0).hm.m0.toNat, n / 16), ((u .hmm1).hm.m1.toNat, n / 16),
       ((u .hmbl).hm.bl.toNat, n / 16), ((u .vdelp0).vdelp0.toNat, n % 2), ((u .vdelp1).vdelp1.toNat, n % 2),
       ((u .vdelbl).vdelbl.toNat, n % 2), ((u .resmp0).resmp0.toNat, n / 2 % 2), ((u .resmp1).resmp1.toNat, n / 2 % 2)]
    let kept : List (Tia × Tia) :=
      [(u .vsync, { b with vsync := (u .vsync).vsync }),
       (u .vblank, { b with
         vblank := (u .vblank).vblank, inptLatchEnable := (u .vblank).inptLatchEnable, inptDump := (u .vblank).inptDump,
         inpt4Low := (u .vblank).inptLatchEnable && (b.inpt4Low || s.inputs.fireLeft),
         inpt5Low := (u .vblank).inptLatchEnable && (b.inpt5Low || s.inputs.fireRight) }),
       (u .nusiz0, { b with nusiz0 := (u .nusiz0).nusiz0 }), (u .nusiz1, { b with nusiz1 := (u .nusiz1).nusiz1 }),
       (u .colup0, { b with colup0 := (u .colup0).colup0 }), (u .colup1, { b with colup1 := (u .colup1).colup1 }),
       (u .colupf, { b with colupf := (u .colupf).colupf }), (u .colubk, { b with colubk := (u .colubk).colubk }),
       (u .ctrlpf, { b with ctrlpf := (u .ctrlpf).ctrlpf }), (u .refp0, { b with refp0 := (u .refp0).refp0 }),
       (u .refp1, { b with refp1 := (u .refp1).refp1 }), (u .pf0, { b with pf0 := (u .pf0).pf0 }),
       (u .pf1, { b with pf1 := (u .pf1).pf1 }), (u .pf2, { b with pf2 := (u .pf2).pf2 }),
       (u .audc0, { b with audio := { b.audio with audc0 := (u .audc0).audio.audc0 } }),
       (u .audc1, { b with audio := { b.audio with audc1 := (u .audc1).audio.audc1 } }),
       (u .audf0, { b with audio := { b.audio with audf0 := (u .audf0).audio.audf0 } }),
       (u .audf1, { b with audio := { b.audio with audf1 := (u .audf1).audio.audf1 } }),
       (u .audv0, { b with audio := { b.audio with audv0 := (u .audv0).audio.audv0 } }),
       (u .audv1, { b with audio := { b.audio with audv1 := (u .audv1).audio.audv1 } })] ++
      [(u .grp0, { b with grp0new := (u .grp0).grp0new, grp1old := b.grp1new, blOld := ball .withGrp0 }),
       (u .grp1, { b with grp1new := (u .grp1).grp1new, grp0old := b.grp0new, blOld := ball .withGrp1 }),
       (u .enam0, { b with enam0 := (u .enam0).enam0 }), (u .enam1, { b with enam1 := (u .enam1).enam1 }),
       (u .enabl, { b with blNew := (u .enabl).blNew }),
       (u .hmp0, { b with hm := { b.hm with p0 := (u .hmp0).hm.p0 }, pos := { b.pos with p0 := (u .hmp0).pos.p0 } }),
       (u .hmp1, { b with hm := { b.hm with p1 := (u .hmp1).hm.p1 }, pos := { b.pos with p1 := (u .hmp1).pos.p1 } }),
       (u .hmm0, { b with hm := { b.hm with m0 := (u .hmm0).hm.m0 }, pos := { b.pos with m0 := (u .hmm0).pos.m0 } }),
       (u .hmm1, { b with hm := { b.hm with m1 := (u .hmm1).hm.m1 }, pos := { b.pos with m1 := (u .hmm1).pos.m1 } }),
       (u .hmbl, { b with hm := { b.hm with bl := (u .hmbl).hm.bl }, pos := { b.pos with bl := (u .hmbl).pos.bl } }),
       (u .vdelp0, { b with vdelp0 := (u .vdelp0).vdelp0 }), (u .vdelp1, { b with vdelp1 := (u .vdelp1).vdelp1 }),
       (u .vdelbl, { b with vdelbl := (u .vdelbl).vdelbl }), (u .resmp0, { b with resmp0 := (u .resmp0).resmp0 }),
       (u .resmp1, { b with resmp1 := (u .resmp1).resmp1 })]
    (∀ row ∈ regs, loc = row.1 →
      (row.2.2 = 0 → t = u row.2.1) ∧
      ∀ d, row.2.2 = d + 1 → t = { b with futures := b.futures ++ [{ remaining := d + 2, action := .store row.2.1 v }] }) ∧
    (∀ row ∈ values, row.1 = row.2) ∧ (∀ row ∈ kept, row.1 = row.2) ∧ (0x2D ≤ loc → t = b)

/-- 61_tia R500, R503, R506, R560 and 20_memory R83: a write to a strobe ignores its datum and schedules the strobe's action with its
delay, WSYNC sets its latch itself, and RSYNC follows `rsync_model`; nothing else in the TIA changes. When it fires, CXCLR's action
clears the fifteen collision latches (R552) and RSYNC's sets the counter to 227 (R506), and nothing else. -/
def Obligations.StrobesScheduleTheirAction : Prop :=
  ∀ (a : Word) (v : Byte) (s : State), areaOf (addr13 a) = .tia →
    let loc := a.toNat % 64
    let p := s.params
    let t := busWrite a v s
    let scheduled := fun (d : Nat) (act : TiaAction) =>
      t.tia = { s.tia with futures := s.tia.futures ++ [{ remaining := d + 1, action := act }] } ∧ t.refusal = s.refusal
    (∀ row ∈ [(0x10, p.delayRes, TiaAction.resetPos .p0), (0x11, p.delayRes, .resetPos .p1), (0x12, p.delayRes, .resetPos .m0),
        (0x13, p.delayRes, .resetPos .m1), (0x14, p.delayRes, .resetPos .bl), (0x2A, p.delayHmove, .hmove),
        (0x2B, p.delayOther, .hmclr), (0x2C, p.delayOther, .cxclr)], loc = row.1 → scheduled row.2.1 row.2.2) ∧
    (loc = 0x02 → t.tia = { s.tia with wsync := true } ∧ t.refusal = s.refusal) ∧
    (loc = 0x03 → p.rsyncModel = .restartLine → scheduled p.delayOther .rsync) ∧
    (loc = 0x03 → p.rsyncModel = .refuse → t.tia = s.tia ∧ t.refusal = some .rsyncRefused) ∧
    (let c := (fireAction .cxclr s).tia.collisions
     fireAction .cxclr s = { s with tia := { s.tia with collisions := c } } ∧
     [c.p0p1, c.p0m0, c.p0m1, c.p0bl, c.p0pf, c.p1m0, c.p1m1, c.p1bl, c.p1pf, c.m0m1, c.m0bl, c.m0pf, c.m1bl, c.m1pf, c.blpf] =
       List.replicate 15 false) ∧
    fireAction .rsync s = { s with tia := { s.tia with hclock := 227 } }

/-- 61_tia R503, R511, R515, R521, R529, R554, R561: a tick latches the fire buttons (log 19), advances the counter, which clears `wsync`,
`hmoveLine` and the suppressions at a new line, fires every due future in scheduling order on the state that keeps the others one clock
closer, locks the missiles under RESMP to their players, draws and sends the signals, and emits an audio sample at its two clocks. So
a future scheduled with delay d fires at the (d + 1)-th tick. -/
def Obligations.FuturesFireInOrder : Prop :=
  ∀ (s : State),
    let clocked := { latchButtons s with tia := advanceClock s.params (latchButtons s).tia }
    let fired := runFutures clocked
    let locked := { fired with tia := resmpLock fired.params fired.tia }
    let d := drawPixel locked
    let sent := sendSignal (signalOf d.2.2.tia d.1 d.2.1) d.2.2
    let closer := fun (n : Nat) (fs : List Future) =>
      (fs.filter (fun f => decide (n < f.remaining))).map (fun f => { f with remaining := f.remaining - n })
    let offset := fun (z : Nusiz) =>
      if z.copies = 5#3 then fired.params.resmpOffset2 else if z.copies = 7#3 then fired.params.resmpOffset4 else fired.params.resmpOffset1
    let sample := sent.tia.hclock.val = sent.params.audioPhase.val ∨ sent.tia.hclock.val = sent.params.audioPhase.val + 114
    runFutures s = (s.tia.futures.filter (fun f => decide (f.remaining ≤ 1))).foldl (fun u f => fireAction f.action u)
      { s with tia := { s.tia with futures := closer 1 s.tia.futures } } ∧
    tiaTick s = audioEvent sent ∧
    clocked.tia.hclock.val = (s.tia.hclock.val + 1) % 228 ∧
    (clocked.tia.hclock = 0 → clocked.tia.wsync = false ∧ clocked.tia.hmoveLine = false ∧
      clocked.tia.copy0Suppressed = PerObj.all false) ∧
    (clocked.tia.hclock ≠ 0 → clocked.tia.wsync = s.tia.wsync ∧ clocked.tia.hmoveLine = s.tia.hmoveLine ∧
      clocked.tia.copy0Suppressed = s.tia.copy0Suppressed) ∧
    clocked.tia.futures = s.tia.futures ∧
    locked.tia = { fired.tia with pos := { fired.tia.pos with
      m0 := if fired.tia.resmp0 then fired.tia.pos.p0 + offset fired.tia.nusiz0 else fired.tia.pos.m0,
      m1 := if fired.tia.resmp1 then fired.tia.pos.p1 + offset fired.tia.nusiz1 else fired.tia.pos.m1 } } ∧
    (sample → audioEvent sent = { sent with
      sink := .audioSample (Config.freeSample sent.draws) :: sent.sink, draws := sent.draws + 1 }) ∧
    (¬ sample → audioEvent sent = sent) ∧
    ((∀ f ∈ s.tia.futures, 0 < f.remaining) → ∀ n, (Nat.repeat tiaTick n s).tia.futures = closer n s.tia.futures) ∧
    (∀ v w, s.tia.futures = [{ remaining := 1, action := .store .pf1 v }, { remaining := 1, action := .store .pf1 w }] →
      (tiaTick s).tia.pf1 = w)

/-- 61_tia R523, R524, R543: a position reset firing at clock h gives the object the HBLANK position below 68 and the pixel of the
clock plus its offset from 68 on, where a player's or missile's main copy is suppressed; inside `hmove_busy` the position is a free
value. The other objects and the rest of the state are kept. -/
def Obligations.PositionResetsPlaceTheObject : Prop :=
  ∀ (o : Obj) (s : State),
    let p := s.params
    let h := s.tia.hclock.val
    let t := fireAction (.resetPos o) s
    let busy := ∃ k, s.tia.hmoveAge = some k ∧ k ≤ p.hmoveBusy
    let blank := match o with | .p0 | .p1 => p.hbPosPlayer | .m0 | .m1 => p.hbPosMissile | .bl => p.hbPosBall
    let off := match o with | .p0 | .p1 => p.visOffPlayer | .m0 | .m1 => p.visOffMissile | .bl => p.visOffBall
    (¬ busy → (t.tia.pos.get o).val = (if h < 68 then blank.val else (h - 68 + off.val) % 160) ∧ t.draws = s.draws) ∧
    (busy → t.tia.pos.get o = Config.freePos s.draws ∧ t.draws = s.draws + 1) ∧
    t.tia.copy0Suppressed.get o = (s.tia.copy0Suppressed.get o || (decide (68 ≤ h) && (decide (o ≠ .bl) || p.ballSuppress))) ∧
    (∀ q, q ≠ o → t.tia.pos.get q = s.tia.pos.get q ∧ t.tia.copy0Suppressed.get q = s.tia.copy0Suppressed.get q) ∧
    t = { s with tia := { s.tia with pos := t.tia.pos, copy0Suppressed := t.tia.copy0Suppressed }, draws := t.draws }

/-- 61_tia R540 to R543: a full HMOVE moves every object left by its signed motion nibble and extends HBLANK; a late one leaves every
position and the extension free (log 29). HMCLR clears the five nibbles and nothing else; inside `hmove_busy` it frees the five positions
and a motion write that of its object (log 15). -/
def Obligations.HmoveMovesObjects : Prop :=
  ∀ (v : Byte) (s : State),
    let p := s.params
    let busy := ∃ k, s.tia.hmoveAge = some k ∧ k ≤ p.hmoveBusy
    let t := fireAction .hmove s
    let c := fireAction .hmclr s
    (s.tia.hclock.val ≤ p.hmoveFullLast →
      (∀ o, ((t.tia.pos.get o).val : Int) = ((s.tia.pos.get o).val - (s.tia.hm.get o).toInt) % 160) ∧
      t = { s with tia := { s.tia with hmoveLine := true, hmoveAge := some 0, pos := t.tia.pos } }) ∧
    (p.hmoveFullLast < s.tia.hclock.val →
      [t.tia.pos.p0, t.tia.pos.p1, t.tia.pos.m0, t.tia.pos.m1, t.tia.pos.bl] =
        [0, 1, 2, 3, 4].map (fun k => Config.freePos (s.draws + k)) ∧
      t.tia.hmoveLine = Config.freeBool (s.draws + 5) ∧ t.draws = s.draws + 6 ∧
      t = { s with tia := { s.tia with hmoveLine := t.tia.hmoveLine, pos := t.tia.pos }, draws := t.draws }) ∧
    (¬ busy → c = { s with tia := { s.tia with hm := PerObj.all 0#4 } }) ∧
    (busy → c = { s with tia := { s.tia with hm := PerObj.all 0#4, pos :=
        { p0 := Config.freePos s.draws, p1 := Config.freePos (s.draws + 1), m0 := Config.freePos (s.draws + 2),
          m1 := Config.freePos (s.draws + 3), bl := Config.freePos (s.draws + 4) } }, draws := s.draws + 5 }) ∧
    (∀ row ∈ [(TiaLatch.hmp0, Obj.p0), (.hmp1, .p1), (.hmm0, .m0), (.hmm1, .m1), (.hmbl, .bl)],
      let w := fireAction (.store row.1 v) s
      (w.tia.hm.get row.2).toNat = v.toNat / 16 ∧ (¬ busy → w.tia.pos = s.tia.pos) ∧
      (busy → w.tia.pos = s.tia.pos.set row.2 (Config.freePos s.draws)))

/-- 61_tia R516, R519, R520, R522: the six sources at a visible pixel: the 20-bit playfield pattern, four pixels a bit, its right half
repeated or reflected; the copies of the players and missiles with their scale, width, reflection and suppression; the ball. -/
def Obligations.PixelsFollowTheRegisters : Prop :=
  ∀ (t : Tia) (x : Fin 160),
    let bits := fun (w : Nat) (v : BitVec w) => (List.range w).map v.getLsbD
    let pattern := bits 4 t.pf0 ++ (bits 8 t.pf1).reverse ++ bits 8 t.pf2
    let line := pattern ++ (if t.ctrlpf.ref then pattern.reverse else pattern)
    let copies : Nat → List (Fin 160) := fun n => [[0], [0, 16], [0, 32], [0, 16, 32], [0, 64], [0], [0, 32, 64], [0]].getD n []
    let scale := fun (n : Nusiz) => if n.copies = 5#3 then 2 else if n.copies = 7#3 then 4 else 1
    let player := fun (pos : Fin 160) (n : Nusiz) (gfx : Byte) (refl supp : Bool) =>
      ∃ c ∈ copies n.copies.toNat, ¬ (c = 0 ∧ supp = true) ∧ ∃ k < 8 * scale n,
        x = pos + c + Fin.ofNat 160 (k + if scale n = 1 then 0 else 1) ∧
        gfx.getLsbD (if refl then k / scale n else 7 - k / scale n) = true
    let missile := fun (pos : Fin 160) (n : Nusiz) (supp : Bool) =>
      ∃ c ∈ copies n.copies.toNat, ¬ (c = 0 ∧ supp = true) ∧ ∃ k < 2 ^ n.width.toNat, x = pos + c + Fin.ofNat 160 k
    let b := pixelBits t x
    b.pf = line.getD (x.val / 4) false ∧
    (b.p0 = true ↔ player t.pos.p0 t.nusiz0 (if t.vdelp0 then t.grp0old else t.grp0new) t.refp0 t.copy0Suppressed.p0) ∧
    (b.p1 = true ↔ player t.pos.p1 t.nusiz1 (if t.vdelp1 then t.grp1old else t.grp1new) t.refp1 t.copy0Suppressed.p1) ∧
    (b.m0 = true ↔ t.enam0 = true ∧ t.resmp0 = false ∧ missile t.pos.m0 t.nusiz0 t.copy0Suppressed.m0) ∧
    (b.m1 = true ↔ t.enam1 = true ∧ t.resmp1 = false ∧ missile t.pos.m1 t.nusiz1 t.copy0Suppressed.m1) ∧
    (b.bl = true ↔ (if t.vdelbl then t.blOld else t.blNew) = true ∧ t.copy0Suppressed.bl = false ∧
      ∃ k < 2 ^ t.ctrlpf.ballWidth.toNat, x = t.pos.bl + Fin.ofNat 160 k)

/-- 61_tia R513, R525 to R527, R550, R551: in HBLANK and under VBLANK the output is black, otherwise the colour of the highest source
on, by PFP; the score colours are the playfield's, and where playfield and ball are both on either colour may show. Outside HBLANK
every pair of sources both on sets its latch, which no pixel clears. `AltPixel` is the source that won (R528), a source of the first
priority group with one on; which of two in one group won is free (log 18). -/
def Obligations.PriorityColourAndCollisions : Prop :=
  ∀ (s : State),
    let t := s.tia
    let b := pixelBits t (visibleX t)
    let d := drawPixel s
    let blank := t.hclock.val < 68 ∨ (t.hmoveLine = true ∧ t.hclock.val < 76)
    let score := t.ctrlpf.score && (!t.ctrlpf.pfp || s.params.scoreWithPfp)
    let pfColour := if score then (if t.hclock.val < 148 then t.colup0 else t.colup1) else t.colupf
    let players := if b.p0 || b.m0 then some t.colup0 else if b.p1 || b.m1 then some t.colup1 else none
    let playfield := if b.pf then some pfColour else if b.bl then some t.colupf else none
    let c := d.2.2.tia.collisions
    let on := fun (l : List (Bool × Source)) => (l.filter Prod.fst).map Prod.snd
    let front := if b.p0 || b.m0 then on [(b.p0, .p0), (b.m0, .m0)] else on [(b.p1, .p1), (b.m1, .m1)]
    let field := on [(b.pf, .pf), (b.bl, .bl)]
    let groups := if t.ctrlpf.pfp then [field, front] else [front, field]
    let first := (groups.find? (fun g => !g.isEmpty)).getD [.bk]
    let colourOf := fun (src : Source) => match src with
      | .p0 | .m0 => t.colup0 | .p1 | .m1 => t.colup1 | .pf => pfColour | .bl => t.colupf | .bk => t.colubk
    (blank → d = (none, none, s)) ∧
    (¬ blank → t.vblank = true → d.1 = none ∧ d.2.1 = none) ∧
    (¬ blank → t.vblank = false → (b.pf && b.bl && score) = false →
      d.1 = some ((if t.ctrlpf.pfp then playfield.or players else players.or playfield).getD t.colubk)) ∧
    (¬ blank → t.vblank = false → b.pf = true → b.bl = true → ∃ colour ∈ [pfColour, t.colupf],
      d.1 = if t.ctrlpf.pfp then some colour else players.or (some colour)) ∧
    (¬ blank → t.vblank = false → ∃ src ∈ first, d.2.1 = some src ∧ d.1 = some (colourOf src)) ∧
    (¬ blank → (t.vblank = false ∨ s.params.collisionsInVblank = true) →
      [c.p0p1, c.p0m0, c.p0m1, c.p0bl, c.p0pf, c.p1m0, c.p1m1, c.p1bl, c.p1pf, c.m0m1, c.m0bl, c.m0pf, c.m1bl, c.m1pf, c.blpf] =
      List.zipWith (· || ·)
        [t.collisions.p0p1, t.collisions.p0m0, t.collisions.p0m1, t.collisions.p0bl, t.collisions.p0pf, t.collisions.p1m0,
         t.collisions.p1m1, t.collisions.p1bl, t.collisions.p1pf, t.collisions.m0m1, t.collisions.m0bl, t.collisions.m0pf,
         t.collisions.m1bl, t.collisions.m1pf, t.collisions.blpf]
        [b.p0 && b.p1, b.p0 && b.m0, b.p0 && b.m1, b.p0 && b.bl, b.p0 && b.pf, b.p1 && b.m0, b.p1 && b.m1, b.p1 && b.bl, b.p1 && b.pf,
         b.m0 && b.m1, b.m0 && b.bl, b.m0 && b.pf, b.m1 && b.bl, b.m1 && b.pf, b.bl && b.pf]) ∧
    (¬ blank → t.vblank = true → s.params.collisionsInVblank = false → c = t.collisions)

/-- 61_tia R511, R514, R515 and 62_television R601, R604, R605: with no RSYNC pending a tick advances the counter modulo 228 and sends
the signals of the new clock; a television aligned to the beam stays aligned, and of its checks only the overlong frame can fail. -/
def Obligations.TelevisionFollowsTheBeam : Prop :=
  let aligned := fun (s : State) =>
    s.tv.horizontal = (s.tia.hclock.val : Int) - 68 ∧
    s.tv.prev.hsync = (decide (16 ≤ s.tia.hclock.val) && decide (s.tia.hclock.val < 32)) ∧
    s.tv.prev.cburst = (decide (32 ≤ s.tia.hclock.val) && decide (s.tia.hclock.val < 48))
  ∀ (s : State), (∀ f ∈ s.tia.futures, f.action ≠ .rsync) → aligned s →
    s.params.cburstOnLo ≤ -36 → -36 ≤ s.params.cburstOnHi → s.params.cburstOffLo ≤ -20 → -20 ≤ s.params.cburstOffHi →
    let t := tiaTick s
    t.tia.hclock.val = (s.tia.hclock.val + 1) % 228 ∧ aligned t ∧
    t.tv.prev.frontporch = decide (t.tia.hclock = 0) ∧ t.tv.prev.vsync = t.tia.vsync ∧ t.tv.prev.vblank = t.tia.vblank ∧
    (∀ r ∈ newReports s t, r.report = .outOfSpec .overlongFrame)


/-! ### The television -/

/-- 62_television R607, R609, R612: `vsyncCount` counts the signals with VSYNC on; a falling edge with at least `vsync_clocks` of
them commits the frame and the learned bounds, any other falling edge commits nothing,
    and `outOfSpec` does not depend on it; the learned bounds follow the visible pixels. -/
def Obligations.VsyncCommitsFrame : Prop :=
  ∀ (p : Params) (a : Attrs) (tv : Tv),
    let w := tvSignal p a tv
    let falls := a.vsync = false ∧ tv.prev.vsync = true
    let commits := falls ∧ p.vsyncClocks ≤ tv.vsyncCount
    let visible := 0 ≤ w.tv.horizontal ∧ a.vblank = false
    w.tv.vsyncCount = (if a.vsync then tv.vsyncCount + 1 else if tv.prev.vsync then 0 else tv.vsyncCount) ∧ w.tv.prev = a ∧
    (∀ n, (tvSignal p a { tv with vsyncCount := n }).tv.outOfSpec = w.tv.outOfSpec) ∧
    (∀ n, SinkEvent.newFrame n ∈ w.events ↔ commits ∧ n = tv.frame + 1) ∧
    (commits → w.tv.frame = tv.frame + 1 ∧ w.tv.scanline = 0 ∧ w.tv.endOfScreen = false ∧
      w.tv.visibleTop = tv.learnTop.getD tv.visibleTop ∧ w.tv.visibleBottom = tv.learnBottom.getD tv.visibleBottom ∧
      (visible → w.tv.learnTop = some 0 ∧ w.tv.learnBottom = some 0) ∧
      (¬ visible → w.tv.learnTop = none ∧ w.tv.learnBottom = none)) ∧
    (¬ commits → w.tv.frame = tv.frame ∧ w.tv.visibleTop = tv.visibleTop ∧ w.tv.visibleBottom = tv.visibleBottom ∧
      (visible → (∃ m, w.tv.learnTop = some m ∧ m ≤ w.tv.scanline ∧ (m = w.tv.scanline ∨ tv.learnTop = some m) ∧
          ∀ k, tv.learnTop = some k → m ≤ k) ∧
        ∃ m, w.tv.learnBottom = some m ∧ w.tv.scanline ≤ m ∧ (m = w.tv.scanline ∨ tv.learnBottom = some m) ∧
          ∀ k, tv.learnBottom = some k → k ≤ m) ∧
      (¬ visible → w.tv.learnTop = tv.learnTop ∧ w.tv.learnBottom = tv.learnBottom))

/-- 62_television R602, R603, R606, R608, R610: FRONTPORCH, or a line past position 159, starts a scanline; the scanline count sets
`endOfScreen` past the specification's lines and turns NTSC into PAL past 276; the renderer gets each scanline and pixel but while
`endOfScreen` holds. -/
def Obligations.LinesAndPixelsReachRenderer : Prop :=
  ∀ (p : Params) (a : Attrs) (tv : Tv),
    let w := tvSignal p a tv
    let starts := a.frontporch = true ∨ 159 ≤ tv.horizontal
    let commits := a.vsync = false ∧ tv.prev.vsync = true ∧ p.vsyncClocks ≤ tv.vsyncCount
    let line := if starts then tv.scanline + 1 else tv.scanline
    w.tv.horizontal = (if starts then -68 else tv.horizontal + 1) ∧ w.tv.lineSynced = (decide starts || tv.lineSynced) ∧
    (¬ commits → w.tv.scanline = line ∧
      (w.tv.endOfScreen = true ↔ tv.endOfScreen = true ∨ (starts ∧ tv.spec.lines < line)) ∧
      w.tv.spec = if starts ∧ 276 < line then .pal else tv.spec) ∧
    (commits → w.tv.spec = tv.spec) ∧
    (∀ n, SinkEvent.newScanline n ∈ w.events ↔ starts ∧ tv.endOfScreen = false ∧ n = tv.scanline + 1) ∧
    (∀ x y c v, SinkEvent.setPixel x y c v ∈ w.events ↔ 0 ≤ w.tv.horizontal ∧ w.tv.endOfScreen = false ∧ x = w.tv.horizontal ∧
      y = w.tv.scanline ∧ c = palette w.tv.spec a.pixel ∧ v = a.vblank) ∧
    (∀ x y c v, SinkEvent.setAltPixel x y c v ∈ w.events ↔ 0 ≤ w.tv.horizontal ∧ w.tv.endOfScreen = false ∧ x = w.tv.horizontal ∧
      y = w.tv.scanline ∧ c = a.alt ∧ v = a.vblank)

/-- 62_television R602, R604, R605, R606, R611 and 60_exceptions R464: which checks a signal fails, the overlong frame only on a signal
that starts a scanline (log 25) and CBURST not before the first line (log 26),
    which are the model's choices; a tick sets `outOfSpec` exactly when it logs a
failed check, no step clears it, and of what the host can do only a reset does. -/
def Obligations.OutOfSpecIsStickyAndLogged : Prop :=
  (∀ (p : Params) (a : Attrs) (tv : Tv),
    let w := tvSignal p a tv
    let starts := a.frontporch = true ∨ 159 ≤ tv.horizontal
    let outside := fun (lo hi : Int) => w.tv.horizontal < lo ∨ hi < w.tv.horizontal
    (TvCheck.horizontalWrap ∈ w.checks ↔ a.frontporch = false ∧ 159 ≤ tv.horizontal) ∧
    (TvCheck.hsyncWindow ∈ w.checks ↔ (starts ∨ tv.lineSynced = true) ∧
      ((a.hsync = true ∧ tv.prev.hsync = false ∧ outside (-52) (-49)) ∨
       (a.hsync = false ∧ tv.prev.hsync = true ∧ outside (-36) (-33)))) ∧
    (TvCheck.cburstWindow ∈ w.checks ↔ (starts ∨ tv.lineSynced = true) ∧
      ((a.cburst = true ∧ tv.prev.cburst = false ∧ outside p.cburstOnLo p.cburstOnHi) ∨
       (a.cburst = false ∧ tv.prev.cburst = true ∧ outside p.cburstOffLo p.cburstOffHi))) ∧
    (TvCheck.overlongFrame ∈ w.checks ↔ starts ∧ tv.spec.lines < tv.scanline + 1)) ∧
  ∀ s : State,
    ((tiaTick s).tv.outOfSpec = true ↔
      s.tv.outOfSpec = true ∨ ∃ r ∈ newReports s (tiaTick s), ∃ c, r.report = .outOfSpec c) ∧
    (hostReset s).tv.outOfSpec = false ∧ (∀ h : HostAction, h ≠ .reset → (applyHost h s).tv = s.tv) ∧
    ∀ t, step s = .next t → s.tv.outOfSpec = true → t.tv.outOfSpec = true

/-! ### The RIOT -/

/-- 63_riot_console R653, R654, R660: every CPU cycle ends with one timer tick; after a write of v with interval n the timer reads
v - 1 - floor((t - 1) / n) after t cycles until it has passed 0, then 0xFF with TF set, and downward once a cycle. Under `full_interval`
the first decrement comes after a whole interval, on the model's reading (log 24). -/
def Obligations.TimerCountsDown : Prop :=
  (∀ (a : Word) (v : Byte) (s : State),
    (memWrite a v s).riot = edgeTick s.inputs (timerTick (busWrite a v s).riot) ∧
    (memRead a s).2.riot = edgeTick s.inputs (timerTick (busRead a (stall s)).2.riot)) ∧
  ∀ (v : Byte) (r : Riot) (t : Nat), ∀ row ∈ [(Interval.i1, 1), (.i8, 8), (.i64, 64), (.i1024, 1024)],
    let i := row.1
    let n := row.2
    let u := Nat.repeat timerTick t (riotWrite .decrementFirst (.timer i) v r)
    let f := Nat.repeat timerTick t (riotWrite .fullInterval (.timer i) v r)
    u = { r with timer := u.timer, interval := i, prescale := u.prescale, tf := u.tf } ∧
    (t = 0 → u.timer = v ∧ u.prescale = 0 ∧ u.tf = false) ∧
    (1 ≤ t → (t - 1) / n < v.toNat → u.timer.toNat = v.toNat - 1 - (t - 1) / n ∧ u.tf = false) ∧
    (∀ j, t = n * v.toNat + 1 + j → u.timer.toNat = 255 - j % 256 ∧ u.tf = true) ∧
    (t < n → f.timer = v ∧ f.tf = false) ∧ (t = n → f.timer = v - 1)

/-- 63_riot_console R651, R652, R655 to R658: what a RIOT read gives and clears, what a RIOT write stores, and the PA7 edge flag. -/
def Obligations.RiotPortsAndFlags : Prop :=
  (∀ (a : Word) (v : Byte) (s : State), areaOf (addr13 a) = .riot →
    let r := a.toNat % 32
    let q := s.riot
    let x := busRead a s
    let t := busWrite a v s
    let port := fun (out ddr pins : Byte) => ((out &&& ddr) ||| (pins &&& ~~~ddr) : Byte)
    (r % 8 = 0 → x.1 = port q.ora q.ddra s.inputs.pinsA ∧ x.2.riot = q ∧ t.riot = { q with ora := v }) ∧
    (r % 8 = 1 → x.1 = q.ddra ∧ x.2.riot = q ∧ t.riot = { q with ddra := v }) ∧
    (r % 8 = 2 → (∀ k < 8, x.1.getLsbD k = if k ∈ [2, 4, 5] ∧ q.ddrb.getLsbD k = false
        then (Config.freeByte s.draws).getLsbD k else (port q.orb q.ddrb s.inputs.pinsB).getLsbD k) ∧
      x.2.riot = q ∧ t.riot = { q with orb := v }) ∧
    (r % 8 = 3 → x.1 = q.ddrb ∧ x.2.riot = q ∧ t.riot = { q with ddrb := v }) ∧
    (r % 8 = 4 ∨ r % 8 = 6 → x.1 = q.timer ∧ x.2.riot = { q with tf := false, prescale := if q.tf then 0 else q.prescale }) ∧
    (r % 8 = 5 ∨ r % 8 = 7 → x.1.toNat = 128 * q.tf.toNat + 64 * q.pf7.toNat ∧ x.2.riot = { q with pf7 := false }) ∧
    (4 ≤ r % 8 → r < 16 → t.riot = { q with edgePos := decide (r % 2 = 1) }) ∧
    (4 ≤ r % 8 → 16 ≤ r → s.params.riotWritePhase = .decrementFirst → t.riot = { q with
      timer := v, tf := false, prescale := 0, interval := [Interval.i1, .i8, .i64, .i1024].getD (r % 4) .i1 })) ∧
  ∀ s : State,
    let now := (((s.riot.ora &&& s.riot.ddra) ||| (s.inputs.pinsA &&& ~~~s.riot.ddra) : Byte)).getLsbD 7
    let u := (riotTick s).riot
    u.prevPa7 = now ∧ (u.pf7 = true ↔ s.riot.pf7 = true ∨ (now ≠ s.riot.prevPa7 ∧ now = s.riot.edgePos))
end

