-- ==== Sys2Proof/Laws/Clock.lean ====
section
/-! SUPPORT. What the clocks can do: one lemma per clocked operation says which fields it leaves alone. -/

namespace Sys2Proof.Machine

/-- What no tick changes, and the report log, which only grows. -/
structure ClockFrame (s t : State) : Prop where
  cpu : t.cpu = s.cpu
  result : t.result = s.result
  ram : t.ram = s.ram
  cart : t.cart = s.cart
  lastAccess : t.lastAccess = s.lastAccess
  lastAccessId : t.lastAccessId = s.lastAccessId
  inputs : t.inputs = s.inputs
  fault : t.fault = s.fault
  refusal : t.refusal = s.refusal
  params : t.params = s.params
  reports : s.reports <+: t.reports

/-- What no TIA tick changes. -/
structure TickFrame (s t : State) : Prop extends ClockFrame s t where
  riot : t.riot = s.riot
  colorClock : t.colorClock = s.colorClock
  cpuCycles : t.cpuCycles = s.cpuCycles

theorem ClockFrame.refl (s : State) : ClockFrame s s :=
  ⟨rfl, rfl, rfl, rfl, rfl, rfl, rfl, rfl, rfl, rfl, List.prefix_refl _⟩

theorem ClockFrame.trans {s t u : State} (h : ClockFrame s t) (k : ClockFrame t u) : ClockFrame s u :=
  ⟨k.cpu.trans h.cpu, k.result.trans h.result, k.ram.trans h.ram, k.cart.trans h.cart, k.lastAccess.trans h.lastAccess,
    k.lastAccessId.trans h.lastAccessId, k.inputs.trans h.inputs, k.fault.trans h.fault, k.refusal.trans h.refusal,
    k.params.trans h.params, h.reports.trans k.reports⟩

theorem TickFrame.refl (s : State) : TickFrame s s := ⟨ClockFrame.refl s, rfl, rfl, rfl⟩

theorem TickFrame.trans {s t u : State} (h : TickFrame s t) (k : TickFrame t u) : TickFrame s u :=
  ⟨h.toClockFrame.trans k.toClockFrame, k.riot.trans h.riot, k.colorClock.trans h.colorClock, k.cpuCycles.trans h.cpuCycles⟩

/-- A change of the TIA, the television, the sink and the draws is a tick's. -/
theorem TickFrame.of_devices {s : State} {tia : Tia} {tv : Tv} {sink : List SinkEvent} {draws : Nat} :
    TickFrame s { s with tia := tia, tv := tv, sink := sink, draws := draws } :=
  ⟨⟨rfl, rfl, rfl, rfl, rfl, rfl, rfl, rfl, rfl, rfl, List.prefix_refl _⟩, rfl, rfl, rfl⟩

theorem drawPos_frame (o : Obj) (s : State) : TickFrame s (drawPos o s) := TickFrame.of_devices

theorem drawAllPos_frame (s : State) : TickFrame s (drawAllPos s) :=
  (((drawPos_frame .p0 s).trans (drawPos_frame .p1 _)).trans (drawPos_frame .m0 _)).trans
    ((drawPos_frame .m1 _).trans (drawPos_frame .bl _))

theorem storeLatch_frame (r : TiaLatch) (v : Byte) (s : State) : TickFrame s (storeLatch r v s) := by
  have hs : ∀ o, TickFrame s (drawPos o { s with tia := (s.tia.store r v).copyBall s.params.ballCopy r }) := fun o => TickFrame.of_devices
  cases r <;> simp only [storeLatch, TiaLatch.motionOf] <;> first
    | exact TickFrame.of_devices
    | (split <;> first | exact hs _ | exact TickFrame.of_devices)

theorem resetPosition_frame (o : Obj) (s : State) : TickFrame s (resetPosition o s) := by
  simp only [resetPosition]
  split <;> split <;> exact TickFrame.of_devices

theorem hmoveAction_frame (s : State) : TickFrame s (hmoveAction s) := by
  simp only [hmoveAction]
  split
  · exact TickFrame.of_devices
  · exact (drawAllPos_frame s).trans TickFrame.of_devices

theorem hmclrAction_frame (s : State) : TickFrame s (hmclrAction s) := by
  simp only [hmclrAction]
  split
  · exact TickFrame.of_devices.trans (drawAllPos_frame _)
  · exact TickFrame.of_devices

theorem fireAction_frame (a : TiaAction) (s : State) : TickFrame s (fireAction a s) := by
  cases a with
  | resetPos o => exact resetPosition_frame o s
  | hmove => exact hmoveAction_frame s
  | hmclr => exact hmclrAction_frame s
  | cxclr => exact TickFrame.of_devices
  | rsync => exact TickFrame.of_devices
  | store r v => exact storeLatch_frame r v s

theorem fireAll_frame (fs : List Future) (s : State) : TickFrame s (fireAll fs s) := by
  induction fs generalizing s with
  | nil => exact TickFrame.refl s
  | cons f rest ih => exact (fireAction_frame f.action s).trans (ih _)

theorem runFutures_frame (s : State) : TickFrame s (runFutures s) :=
  TickFrame.of_devices.trans (fireAll_frame _ _)

theorem drawPixel_frame (s : State) : TickFrame s (drawPixel s).2.2 := by
  simp only [drawPixel]
  split
  · exact TickFrame.refl s
  · split <;> exact TickFrame.of_devices

theorem report_frame (s : State) (r : Report) : TickFrame s (s.report r) :=
  ⟨⟨rfl, rfl, rfl, rfl, rfl, rfl, rfl, rfl, rfl, rfl, List.prefix_append _ _⟩, rfl, rfl, rfl⟩

theorem reportAll_frame (rs : List Report) (s : State) : TickFrame s (reportAll rs s) :=
  ⟨⟨rfl, rfl, rfl, rfl, rfl, rfl, rfl, rfl, rfl, rfl, List.prefix_append _ _⟩, rfl, rfl, rfl⟩

theorem sendSignal_frame (a : Attrs) (s : State) : TickFrame s (sendSignal a s) :=
  TickFrame.of_devices.trans (reportAll_frame _ _)

theorem audioEvent_frame (s : State) : TickFrame s (audioEvent s) := by
  simp only [audioEvent]
  split
  · exact TickFrame.of_devices
  · exact TickFrame.refl s

theorem latchButtons_frame (s : State) : TickFrame s (latchButtons s) := TickFrame.of_devices

theorem beamTick_frame (s : State) : TickFrame s (beamTick s) :=
  (((TickFrame.of_devices.trans (runFutures_frame _)).trans TickFrame.of_devices).trans (drawPixel_frame _)).trans
    ((sendSignal_frame _ _).trans (audioEvent_frame _))

/-- What a TIA tick leaves alone. -/
theorem tiaTick_frame (s : State) : TickFrame s (tiaTick s) := (latchButtons_frame s).trans (beamTick_frame _)

theorem riotTick_frame (s : State) : ClockFrame s (riotTick s) :=
  ⟨rfl, rfl, rfl, rfl, rfl, rfl, rfl, rfl, rfl, rfl, List.prefix_refl _⟩

/-- The three TIA ticks of a cycle. -/
def threeTicks (s : State) : State := tiaTick (tiaTick (tiaTick s))

theorem threeTicks_frame (s : State) : TickFrame s (threeTicks s) :=
  ((tiaTick_frame s).trans (tiaTick_frame _)).trans (tiaTick_frame _)

theorem endCycle_eq (s : State) : endCycle s =
    { riotTick (threeTicks s) with colorClock := s.colorClock + 3, cpuCycles := s.cpuCycles + 1 } := by
  simp only [endCycle, riotTick]
  rw [show tiaTick (tiaTick (tiaTick s)) = threeTicks s from rfl, (threeTicks_frame s).colorClock, (threeTicks_frame s).cpuCycles]

/-- What the end of a cycle leaves alone. -/
theorem endCycle_frame (s : State) : ClockFrame s (endCycle s) := by
  rw [endCycle_eq]
  have h := (threeTicks_frame s).toClockFrame
  generalize threeTicks s = t at h
  exact h.trans ⟨rfl, rfl, rfl, rfl, rfl, rfl, rfl, rfl, rfl, rfl, List.prefix_refl _⟩

@[simp] theorem endCycle_cpu (s : State) : (endCycle s).cpu = s.cpu := (endCycle_frame s).cpu
@[simp] theorem endCycle_result (s : State) : (endCycle s).result = s.result := (endCycle_frame s).result
@[simp] theorem endCycle_ram (s : State) : (endCycle s).ram = s.ram := (endCycle_frame s).ram
@[simp] theorem endCycle_cart (s : State) : (endCycle s).cart = s.cart := (endCycle_frame s).cart
@[simp] theorem endCycle_lastAccess (s : State) : (endCycle s).lastAccess = s.lastAccess := (endCycle_frame s).lastAccess
@[simp] theorem endCycle_lastAccessId (s : State) : (endCycle s).lastAccessId = s.lastAccessId := (endCycle_frame s).lastAccessId
@[simp] theorem endCycle_inputs (s : State) : (endCycle s).inputs = s.inputs := (endCycle_frame s).inputs
@[simp] theorem endCycle_fault (s : State) : (endCycle s).fault = s.fault := (endCycle_frame s).fault
@[simp] theorem endCycle_refusal (s : State) : (endCycle s).refusal = s.refusal := (endCycle_frame s).refusal
@[simp] theorem endCycle_params (s : State) : (endCycle s).params = s.params := (endCycle_frame s).params

/-- A cycle is three color clocks and one CPU cycle. -/
@[simp] theorem endCycle_colorClock (s : State) : (endCycle s).colorClock = s.colorClock + 3 := by rw [endCycle_eq]
@[simp] theorem endCycle_cpuCycles (s : State) : (endCycle s).cpuCycles = s.cpuCycles + 1 := by rw [endCycle_eq]

/-- The RIOT of a cycle's end is ticked once; no TIA tick touches it. -/
@[simp] theorem endCycle_riot (s : State) : (endCycle s).riot = edgeTick s.inputs (timerTick s.riot) := by
  rw [endCycle_eq]
  simp only [riotTick, (threeTicks_frame s).riot, (threeTicks_frame s).inputs]

@[simp] theorem endCycle_tia (s : State) : (endCycle s).tia = (threeTicks s).tia := by
  rw [endCycle_eq]
  generalize threeTicks s = t
  rfl
@[simp] theorem endCycle_tv (s : State) : (endCycle s).tv = (threeTicks s).tv := by
  rw [endCycle_eq]
  generalize threeTicks s = t
  rfl
@[simp] theorem endCycle_reports (s : State) : (endCycle s).reports = (threeTicks s).reports := by
  rw [endCycle_eq]
  generalize threeTicks s = t
  rfl

theorem stallFor_frame (n : Nat) (s : State) : ClockFrame s (stallFor n s) := by
  induction n generalizing s with
  | zero => exact ClockFrame.refl s
  | succ n ih =>
    simp only [stallFor]
    split
    · exact (endCycle_frame s).trans (ih _)
    · exact ClockFrame.refl s

/-- What the WSYNC hold leaves alone. -/
theorem stall_frame (s : State) : ClockFrame s (stall s) := stallFor_frame 76 s

@[simp] theorem stall_cpu (s : State) : (stall s).cpu = s.cpu := (stall_frame s).cpu
@[simp] theorem stall_result (s : State) : (stall s).result = s.result := (stall_frame s).result
@[simp] theorem stall_ram (s : State) : (stall s).ram = s.ram := (stall_frame s).ram
@[simp] theorem stall_cart (s : State) : (stall s).cart = s.cart := (stall_frame s).cart
@[simp] theorem stall_lastAccess (s : State) : (stall s).lastAccess = s.lastAccess := (stall_frame s).lastAccess
@[simp] theorem stall_lastAccessId (s : State) : (stall s).lastAccessId = s.lastAccessId := (stall_frame s).lastAccessId
@[simp] theorem stall_inputs (s : State) : (stall s).inputs = s.inputs := (stall_frame s).inputs
@[simp] theorem stall_fault (s : State) : (stall s).fault = s.fault := (stall_frame s).fault
@[simp] theorem stall_refusal (s : State) : (stall s).refusal = s.refusal := (stall_frame s).refusal
@[simp] theorem stall_params (s : State) : (stall s).params = s.params := (stall_frame s).params

theorem stallFor_of_clear (n : Nat) {s : State} (h : s.tia.wsync = false) : stallFor n s = s := by
  cases n with
  | zero => rfl
  | succ n => simp [stallFor, h]

/-- With `wsync` clear nothing is held. -/
theorem stall_of_clear {s : State} (h : s.tia.wsync = false) : stall s = s := stallFor_of_clear 76 h

/-- The clocks run in step: three color clocks per CPU cycle, and never back. -/
theorem stallFor_clocks (n : Nat) (s : State) :
    (stallFor n s).colorClock + 3 * s.cpuCycles = s.colorClock + 3 * (stallFor n s).cpuCycles ∧
      s.cpuCycles ≤ (stallFor n s).cpuCycles := by
  induction n generalizing s with
  | zero => simp [stallFor]
  | succ n ih =>
    simp only [stallFor]
    split
    · have h := ih (endCycle s)
      simp only [endCycle_colorClock, endCycle_cpuCycles] at h
      omega
    · omega

end Sys2Proof.Machine
end

