-- ==== Sys2Proof/Laws/Memory.lean ====
section
/-! SUPPORT. Memory: a read after a write, and the canonical form kept by every operation. -/

namespace Sys2Proof.Machine

theorem readCells_consCell (a b : Nat) (v : Byte) (rest : List Host.Cell) (h : readCells rest a = unlistedByte) :
    readCells (consCell a v rest) b = if a = b then v else readCells rest b := by
  unfold consCell
  split
  · next hv =>
    split
    · next hab => subst hab; rw [h, hv]
    · rfl
  · rfl

/-- A list in canonical form from `lo` on lists nothing below `lo`. -/
theorem readCells_below {size lo : Nat} {cells : List Host.Cell} (h : wfCells size lo cells = true) {a : Nat} (ha : a < lo) :
    readCells cells a = unlistedByte := by
  induction cells generalizing lo with
  | nil => rfl
  | cons c rest ih =>
    obtain ⟨k, v⟩ := c
    simp only [wfCells, Bool.and_eq_true, decide_eq_true_eq] at h
    rw [readCells, if_neg (by omega)]
    exact ih h.2 (by omega)

theorem wfCells_mono {size lo lo' : Nat} {cells : List Host.Cell} (h : wfCells size lo cells = true) (hl : lo' ≤ lo) :
    wfCells size lo' cells = true := by
  cases cells with
  | nil => rfl
  | cons c rest =>
    obtain ⟨k, v⟩ := c
    simp only [wfCells, Bool.and_eq_true, decide_eq_true_eq] at h ⊢
    exact ⟨⟨⟨by omega, h.1.1.2⟩, h.1.2⟩, h.2⟩

theorem wfCells_consCell {size a : Nat} (v : Byte) {rest : List Host.Cell} (ha : a < size)
    (h : wfCells size (a + 1) rest = true) : wfCells size a (consCell a v rest) = true := by
  unfold consCell
  split
  · exact wfCells_mono h (by omega)
  · next hv => simp [wfCells, ha, hv, h]

/-- A write keeps the canonical form. -/
theorem wfCells_writeCells {size lo a : Nat} (v : Byte) {cells : List Host.Cell} (hlo : lo ≤ a) (ha : a < size)
    (h : wfCells size lo cells = true) : wfCells size lo (writeCells cells a v) = true := by
  induction cells generalizing lo with
  | nil => exact wfCells_mono (wfCells_consCell v ha rfl) hlo
  | cons c rest ih =>
    obtain ⟨k, w⟩ := c
    simp only [wfCells, Bool.and_eq_true, decide_eq_true_eq] at h
    rw [writeCells]
    split
    · next hk =>
      refine wfCells_mono (wfCells_consCell v ha ?_) hlo
      simp only [wfCells, Bool.and_eq_true, decide_eq_true_eq]
      exact ⟨⟨⟨by omega, h.1.1.2⟩, h.1.2⟩, h.2⟩
    · split
      · next hk hak => exact wfCells_mono (wfCells_consCell v ha (hak ▸ h.2)) hlo
      · next hk hak =>
        simp only [wfCells, Bool.and_eq_true, decide_eq_true_eq]
        exact ⟨⟨⟨h.1.1.1, h.1.1.2⟩, h.1.2⟩, ih (by omega) h.2⟩

/-- A read after a write to a list in canonical form. -/
theorem readCells_writeCells {size lo : Nat} {cells : List Host.Cell} (h : wfCells size lo cells = true) (a b : Nat) (v : Byte) :
    readCells (writeCells cells a v) b = if a = b then v else readCells cells b := by
  induction cells generalizing lo with
  | nil => exact readCells_consCell a b v [] rfl
  | cons c rest ih =>
    obtain ⟨k, w⟩ := c
    have h' := h
    simp only [wfCells, Bool.and_eq_true, decide_eq_true_eq] at h
    rw [writeCells]
    split
    · next hk =>
      refine readCells_consCell a b v _ ?_
      rw [readCells, if_neg (by omega)]
      exact readCells_below h.2 (by omega)
    · split
      · next hk hak =>
        subst hak
        rw [readCells_consCell a b v rest (readCells_below h.2 (by omega)), readCells]
        split <;> rfl
      · next hk hak =>
        rw [readCells, readCells, ih h.2]
        by_cases hkb : k = b
        · rw [if_pos hkb, if_pos hkb, if_neg (by omega)]
        · rw [if_neg hkb, if_neg hkb]

/-- The byte written is the byte read, and every other byte is as before. -/
theorem Memory.read_write {size : Nat} {m : Memory} (h : m.wf size = true) (a b : Nat) (v : Byte) :
    (m.write a v).read b = if a = b then v else m.read b := readCells_writeCells h a b v

/-- A write inside a memory keeps its canonical form. -/
theorem Memory.wf_write {size : Nat} {m : Memory} (h : m.wf size = true) {a : Nat} (ha : a < size) (v : Byte) :
    (m.write a v).wf size = true := wfCells_writeCells v (Nat.zero_le a) ha h

@[simp] theorem Memory.wf_empty (size : Nat) : Memory.empty.wf size = true := rfl

@[simp] theorem Memory.read_empty (a : Nat) : Memory.empty.read a = unlistedByte := rfl

theorem wfCells_cellsFrom (bytes : List Byte) (a size : Nat) (h : a + bytes.length ≤ size) :
    wfCells size a (cellsFrom a bytes) = true := by
  induction bytes generalizing a with
  | nil => rfl
  | cons b rest ih =>
    simp only [List.length_cons] at h
    exact wfCells_consCell b (by omega) (ih (a + 1) (by omega))

/-- An image's memory is in canonical form. -/
theorem Memory.wf_ofBytes (bytes : List Byte) : (Memory.ofBytes bytes).wf bytes.length = true :=
  wfCells_cellsFrom bytes 0 bytes.length (by omega)

theorem readCells_cellsFrom (bytes : List Byte) (a b : Nat) :
    readCells (cellsFrom a bytes) b = if b < a then unlistedByte else bytes.getD (b - a) unlistedByte := by
  induction bytes generalizing a b with
  | nil => simp [cellsFrom, readCells]
  | cons x rest ih =>
    rw [cellsFrom, readCells_consCell a b x]
    · rw [ih]
      by_cases hab : a = b
      · subst hab; simp
      · rw [if_neg hab]
        by_cases hlt : b < a
        · rw [if_pos (by omega), if_pos hlt]
        · rw [if_neg (by omega), if_neg hlt, show b - a = (b - (a + 1)) + 1 by omega]
          rfl
    · rw [ih, if_pos (by omega)]

/-- The memory of an image reads the image's bytes. -/
theorem Memory.read_ofBytes (bytes : List Byte) (b : Nat) :
    (Memory.ofBytes bytes).read b = bytes.getD b unlistedByte := by
  rw [Memory.read, Memory.ofBytes, readCells_cellsFrom, if_neg (Nat.not_lt_zero b), Nat.sub_zero]

end Sys2Proof.Machine
end

