-- ==== Sys2Proof/Laws/State.lean ====
section
/-! SUPPORT. One lemma per field per update of the state: later proofs never unfold a record update. -/

namespace Sys2Proof.Machine

@[simp] theorem State.setA_cpu_a (s : State) (v : Byte) : (s.setA v).cpu.a = v := rfl
@[simp] theorem State.setA_cpu_x (s : State) (v : Byte) : (s.setA v).cpu.x = s.cpu.x := rfl
@[simp] theorem State.setA_cpu_y (s : State) (v : Byte) : (s.setA v).cpu.y = s.cpu.y := rfl
@[simp] theorem State.setA_cpu_sp (s : State) (v : Byte) : (s.setA v).cpu.sp = s.cpu.sp := rfl
@[simp] theorem State.setA_cpu_pc (s : State) (v : Byte) : (s.setA v).cpu.pc = s.cpu.pc := rfl
@[simp] theorem State.setA_cpu_p (s : State) (v : Byte) : (s.setA v).cpu.p = s.cpu.p := rfl
@[simp] theorem State.setA_result (s : State) (v : Byte) : (s.setA v).result = s.result := rfl
@[simp] theorem State.setA_ram (s : State) (v : Byte) : (s.setA v).ram = s.ram := rfl
@[simp] theorem State.setA_cart (s : State) (v : Byte) : (s.setA v).cart = s.cart := rfl
@[simp] theorem State.setA_lastAccess (s : State) (v : Byte) : (s.setA v).lastAccess = s.lastAccess := rfl
@[simp] theorem State.setA_lastAccessId (s : State) (v : Byte) : (s.setA v).lastAccessId = s.lastAccessId := rfl
@[simp] theorem State.setA_tia (s : State) (v : Byte) : (s.setA v).tia = s.tia := rfl
@[simp] theorem State.setA_riot (s : State) (v : Byte) : (s.setA v).riot = s.riot := rfl
@[simp] theorem State.setA_inputs (s : State) (v : Byte) : (s.setA v).inputs = s.inputs := rfl
@[simp] theorem State.setA_tv (s : State) (v : Byte) : (s.setA v).tv = s.tv := rfl
@[simp] theorem State.setA_sink (s : State) (v : Byte) : (s.setA v).sink = s.sink := rfl
@[simp] theorem State.setA_colorClock (s : State) (v : Byte) : (s.setA v).colorClock = s.colorClock := rfl
@[simp] theorem State.setA_cpuCycles (s : State) (v : Byte) : (s.setA v).cpuCycles = s.cpuCycles := rfl
@[simp] theorem State.setA_fault (s : State) (v : Byte) : (s.setA v).fault = s.fault := rfl
@[simp] theorem State.setA_refusal (s : State) (v : Byte) : (s.setA v).refusal = s.refusal := rfl
@[simp] theorem State.setA_reports (s : State) (v : Byte) : (s.setA v).reports = s.reports := rfl
@[simp] theorem State.setA_params (s : State) (v : Byte) : (s.setA v).params = s.params := rfl
@[simp] theorem State.setA_draws (s : State) (v : Byte) : (s.setA v).draws = s.draws := rfl

@[simp] theorem State.setX_cpu_a (s : State) (v : Byte) : (s.setX v).cpu.a = s.cpu.a := rfl
@[simp] theorem State.setX_cpu_x (s : State) (v : Byte) : (s.setX v).cpu.x = v := rfl
@[simp] theorem State.setX_cpu_y (s : State) (v : Byte) : (s.setX v).cpu.y = s.cpu.y := rfl
@[simp] theorem State.setX_cpu_sp (s : State) (v : Byte) : (s.setX v).cpu.sp = s.cpu.sp := rfl
@[simp] theorem State.setX_cpu_pc (s : State) (v : Byte) : (s.setX v).cpu.pc = s.cpu.pc := rfl
@[simp] theorem State.setX_cpu_p (s : State) (v : Byte) : (s.setX v).cpu.p = s.cpu.p := rfl
@[simp] theorem State.setX_result (s : State) (v : Byte) : (s.setX v).result = s.result := rfl
@[simp] theorem State.setX_ram (s : State) (v : Byte) : (s.setX v).ram = s.ram := rfl
@[simp] theorem State.setX_cart (s : State) (v : Byte) : (s.setX v).cart = s.cart := rfl
@[simp] theorem State.setX_lastAccess (s : State) (v : Byte) : (s.setX v).lastAccess = s.lastAccess := rfl
@[simp] theorem State.setX_lastAccessId (s : State) (v : Byte) : (s.setX v).lastAccessId = s.lastAccessId := rfl
@[simp] theorem State.setX_tia (s : State) (v : Byte) : (s.setX v).tia = s.tia := rfl
@[simp] theorem State.setX_riot (s : State) (v : Byte) : (s.setX v).riot = s.riot := rfl
@[simp] theorem State.setX_inputs (s : State) (v : Byte) : (s.setX v).inputs = s.inputs := rfl
@[simp] theorem State.setX_tv (s : State) (v : Byte) : (s.setX v).tv = s.tv := rfl
@[simp] theorem State.setX_sink (s : State) (v : Byte) : (s.setX v).sink = s.sink := rfl
@[simp] theorem State.setX_colorClock (s : State) (v : Byte) : (s.setX v).colorClock = s.colorClock := rfl
@[simp] theorem State.setX_cpuCycles (s : State) (v : Byte) : (s.setX v).cpuCycles = s.cpuCycles := rfl
@[simp] theorem State.setX_fault (s : State) (v : Byte) : (s.setX v).fault = s.fault := rfl
@[simp] theorem State.setX_refusal (s : State) (v : Byte) : (s.setX v).refusal = s.refusal := rfl
@[simp] theorem State.setX_reports (s : State) (v : Byte) : (s.setX v).reports = s.reports := rfl
@[simp] theorem State.setX_params (s : State) (v : Byte) : (s.setX v).params = s.params := rfl
@[simp] theorem State.setX_draws (s : State) (v : Byte) : (s.setX v).draws = s.draws := rfl

@[simp] theorem State.setY_cpu_a (s : State) (v : Byte) : (s.setY v).cpu.a = s.cpu.a := rfl
@[simp] theorem State.setY_cpu_x (s : State) (v : Byte) : (s.setY v).cpu.x = s.cpu.x := rfl
@[simp] theorem State.setY_cpu_y (s : State) (v : Byte) : (s.setY v).cpu.y = v := rfl
@[simp] theorem State.setY_cpu_sp (s : State) (v : Byte) : (s.setY v).cpu.sp = s.cpu.sp := rfl
@[simp] theorem State.setY_cpu_pc (s : State) (v : Byte) : (s.setY v).cpu.pc = s.cpu.pc := rfl
@[simp] theorem State.setY_cpu_p (s : State) (v : Byte) : (s.setY v).cpu.p = s.cpu.p := rfl
@[simp] theorem State.setY_result (s : State) (v : Byte) : (s.setY v).result = s.result := rfl
@[simp] theorem State.setY_ram (s : State) (v : Byte) : (s.setY v).ram = s.ram := rfl
@[simp] theorem State.setY_cart (s : State) (v : Byte) : (s.setY v).cart = s.cart := rfl
@[simp] theorem State.setY_lastAccess (s : State) (v : Byte) : (s.setY v).lastAccess = s.lastAccess := rfl
@[simp] theorem State.setY_lastAccessId (s : State) (v : Byte) : (s.setY v).lastAccessId = s.lastAccessId := rfl
@[simp] theorem State.setY_tia (s : State) (v : Byte) : (s.setY v).tia = s.tia := rfl
@[simp] theorem State.setY_riot (s : State) (v : Byte) : (s.setY v).riot = s.riot := rfl
@[simp] theorem State.setY_inputs (s : State) (v : Byte) : (s.setY v).inputs = s.inputs := rfl
@[simp] theorem State.setY_tv (s : State) (v : Byte) : (s.setY v).tv = s.tv := rfl
@[simp] theorem State.setY_sink (s : State) (v : Byte) : (s.setY v).sink = s.sink := rfl
@[simp] theorem State.setY_colorClock (s : State) (v : Byte) : (s.setY v).colorClock = s.colorClock := rfl
@[simp] theorem State.setY_cpuCycles (s : State) (v : Byte) : (s.setY v).cpuCycles = s.cpuCycles := rfl
@[simp] theorem State.setY_fault (s : State) (v : Byte) : (s.setY v).fault = s.fault := rfl
@[simp] theorem State.setY_refusal (s : State) (v : Byte) : (s.setY v).refusal = s.refusal := rfl
@[simp] theorem State.setY_reports (s : State) (v : Byte) : (s.setY v).reports = s.reports := rfl
@[simp] theorem State.setY_params (s : State) (v : Byte) : (s.setY v).params = s.params := rfl
@[simp] theorem State.setY_draws (s : State) (v : Byte) : (s.setY v).draws = s.draws := rfl

@[simp] theorem State.setS_cpu_a (s : State) (v : Byte) : (s.setS v).cpu.a = s.cpu.a := rfl
@[simp] theorem State.setS_cpu_x (s : State) (v : Byte) : (s.setS v).cpu.x = s.cpu.x := rfl
@[simp] theorem State.setS_cpu_y (s : State) (v : Byte) : (s.setS v).cpu.y = s.cpu.y := rfl
@[simp] theorem State.setS_cpu_sp (s : State) (v : Byte) : (s.setS v).cpu.sp = v := rfl
@[simp] theorem State.setS_cpu_pc (s : State) (v : Byte) : (s.setS v).cpu.pc = s.cpu.pc := rfl
@[simp] theorem State.setS_cpu_p (s : State) (v : Byte) : (s.setS v).cpu.p = s.cpu.p := rfl
@[simp] theorem State.setS_result (s : State) (v : Byte) : (s.setS v).result = s.result := rfl
@[simp] theorem State.setS_ram (s : State) (v : Byte) : (s.setS v).ram = s.ram := rfl
@[simp] theorem State.setS_cart (s : State) (v : Byte) : (s.setS v).cart = s.cart := rfl
@[simp] theorem State.setS_lastAccess (s : State) (v : Byte) : (s.setS v).lastAccess = s.lastAccess := rfl
@[simp] theorem State.setS_lastAccessId (s : State) (v : Byte) : (s.setS v).lastAccessId = s.lastAccessId := rfl
@[simp] theorem State.setS_tia (s : State) (v : Byte) : (s.setS v).tia = s.tia := rfl
@[simp] theorem State.setS_riot (s : State) (v : Byte) : (s.setS v).riot = s.riot := rfl
@[simp] theorem State.setS_inputs (s : State) (v : Byte) : (s.setS v).inputs = s.inputs := rfl
@[simp] theorem State.setS_tv (s : State) (v : Byte) : (s.setS v).tv = s.tv := rfl
@[simp] theorem State.setS_sink (s : State) (v : Byte) : (s.setS v).sink = s.sink := rfl
@[simp] theorem State.setS_colorClock (s : State) (v : Byte) : (s.setS v).colorClock = s.colorClock := rfl
@[simp] theorem State.setS_cpuCycles (s : State) (v : Byte) : (s.setS v).cpuCycles = s.cpuCycles := rfl
@[simp] theorem State.setS_fault (s : State) (v : Byte) : (s.setS v).fault = s.fault := rfl
@[simp] theorem State.setS_refusal (s : State) (v : Byte) : (s.setS v).refusal = s.refusal := rfl
@[simp] theorem State.setS_reports (s : State) (v : Byte) : (s.setS v).reports = s.reports := rfl
@[simp] theorem State.setS_params (s : State) (v : Byte) : (s.setS v).params = s.params := rfl
@[simp] theorem State.setS_draws (s : State) (v : Byte) : (s.setS v).draws = s.draws := rfl

@[simp] theorem State.setPC_cpu_a (s : State) (w : Word) : (s.setPC w).cpu.a = s.cpu.a := rfl
@[simp] theorem State.setPC_cpu_x (s : State) (w : Word) : (s.setPC w).cpu.x = s.cpu.x := rfl
@[simp] theorem State.setPC_cpu_y (s : State) (w : Word) : (s.setPC w).cpu.y = s.cpu.y := rfl
@[simp] theorem State.setPC_cpu_sp (s : State) (w : Word) : (s.setPC w).cpu.sp = s.cpu.sp := rfl
@[simp] theorem State.setPC_cpu_pc (s : State) (w : Word) : (s.setPC w).cpu.pc = w := rfl
@[simp] theorem State.setPC_cpu_p (s : State) (w : Word) : (s.setPC w).cpu.p = s.cpu.p := rfl
@[simp] theorem State.setPC_result (s : State) (w : Word) : (s.setPC w).result = s.result := rfl
@[simp] theorem State.setPC_ram (s : State) (w : Word) : (s.setPC w).ram = s.ram := rfl
@[simp] theorem State.setPC_cart (s : State) (w : Word) : (s.setPC w).cart = s.cart := rfl
@[simp] theorem State.setPC_lastAccess (s : State) (w : Word) : (s.setPC w).lastAccess = s.lastAccess := rfl
@[simp] theorem State.setPC_lastAccessId (s : State) (w : Word) : (s.setPC w).lastAccessId = s.lastAccessId := rfl
@[simp] theorem State.setPC_tia (s : State) (w : Word) : (s.setPC w).tia = s.tia := rfl
@[simp] theorem State.setPC_riot (s : State) (w : Word) : (s.setPC w).riot = s.riot := rfl
@[simp] theorem State.setPC_inputs (s : State) (w : Word) : (s.setPC w).inputs = s.inputs := rfl
@[simp] theorem State.setPC_tv (s : State) (w : Word) : (s.setPC w).tv = s.tv := rfl
@[simp] theorem State.setPC_sink (s : State) (w : Word) : (s.setPC w).sink = s.sink := rfl
@[simp] theorem State.setPC_colorClock (s : State) (w : Word) : (s.setPC w).colorClock = s.colorClock := rfl
@[simp] theorem State.setPC_cpuCycles (s : State) (w : Word) : (s.setPC w).cpuCycles = s.cpuCycles := rfl
@[simp] theorem State.setPC_fault (s : State) (w : Word) : (s.setPC w).fault = s.fault := rfl
@[simp] theorem State.setPC_refusal (s : State) (w : Word) : (s.setPC w).refusal = s.refusal := rfl
@[simp] theorem State.setPC_reports (s : State) (w : Word) : (s.setPC w).reports = s.reports := rfl
@[simp] theorem State.setPC_params (s : State) (w : Word) : (s.setPC w).params = s.params := rfl
@[simp] theorem State.setPC_draws (s : State) (w : Word) : (s.setPC w).draws = s.draws := rfl

@[simp] theorem State.setP_cpu_a (s : State) (p : Flags) : (s.setP p).cpu.a = s.cpu.a := rfl
@[simp] theorem State.setP_cpu_x (s : State) (p : Flags) : (s.setP p).cpu.x = s.cpu.x := rfl
@[simp] theorem State.setP_cpu_y (s : State) (p : Flags) : (s.setP p).cpu.y = s.cpu.y := rfl
@[simp] theorem State.setP_cpu_sp (s : State) (p : Flags) : (s.setP p).cpu.sp = s.cpu.sp := rfl
@[simp] theorem State.setP_cpu_pc (s : State) (p : Flags) : (s.setP p).cpu.pc = s.cpu.pc := rfl
@[simp] theorem State.setP_cpu_p (s : State) (p : Flags) : (s.setP p).cpu.p = p := rfl
@[simp] theorem State.setP_result (s : State) (p : Flags) : (s.setP p).result = s.result := rfl
@[simp] theorem State.setP_ram (s : State) (p : Flags) : (s.setP p).ram = s.ram := rfl
@[simp] theorem State.setP_cart (s : State) (p : Flags) : (s.setP p).cart = s.cart := rfl
@[simp] theorem State.setP_lastAccess (s : State) (p : Flags) : (s.setP p).lastAccess = s.lastAccess := rfl
@[simp] theorem State.setP_lastAccessId (s : State) (p : Flags) : (s.setP p).lastAccessId = s.lastAccessId := rfl
@[simp] theorem State.setP_tia (s : State) (p : Flags) : (s.setP p).tia = s.tia := rfl
@[simp] theorem State.setP_riot (s : State) (p : Flags) : (s.setP p).riot = s.riot := rfl
@[simp] theorem State.setP_inputs (s : State) (p : Flags) : (s.setP p).inputs = s.inputs := rfl
@[simp] theorem State.setP_tv (s : State) (p : Flags) : (s.setP p).tv = s.tv := rfl
@[simp] theorem State.setP_sink (s : State) (p : Flags) : (s.setP p).sink = s.sink := rfl
@[simp] theorem State.setP_colorClock (s : State) (p : Flags) : (s.setP p).colorClock = s.colorClock := rfl
@[simp] theorem State.setP_cpuCycles (s : State) (p : Flags) : (s.setP p).cpuCycles = s.cpuCycles := rfl
@[simp] theorem State.setP_fault (s : State) (p : Flags) : (s.setP p).fault = s.fault := rfl
@[simp] theorem State.setP_refusal (s : State) (p : Flags) : (s.setP p).refusal = s.refusal := rfl
@[simp] theorem State.setP_reports (s : State) (p : Flags) : (s.setP p).reports = s.reports := rfl
@[simp] theorem State.setP_params (s : State) (p : Flags) : (s.setP p).params = s.params := rfl
@[simp] theorem State.setP_draws (s : State) (p : Flags) : (s.setP p).draws = s.draws := rfl

@[simp] theorem State.setNZ_cpu_a (s : State) (v : Byte) : (s.setNZ v).cpu.a = s.cpu.a := rfl
@[simp] theorem State.setNZ_cpu_x (s : State) (v : Byte) : (s.setNZ v).cpu.x = s.cpu.x := rfl
@[simp] theorem State.setNZ_cpu_y (s : State) (v : Byte) : (s.setNZ v).cpu.y = s.cpu.y := rfl
@[simp] theorem State.setNZ_cpu_sp (s : State) (v : Byte) : (s.setNZ v).cpu.sp = s.cpu.sp := rfl
@[simp] theorem State.setNZ_cpu_pc (s : State) (v : Byte) : (s.setNZ v).cpu.pc = s.cpu.pc := rfl
@[simp] theorem State.setNZ_cpu_p (s : State) (v : Byte) : (s.setNZ v).cpu.p = s.cpu.p.setNZ v := rfl
@[simp] theorem State.setNZ_result (s : State) (v : Byte) : (s.setNZ v).result = s.result := rfl
@[simp] theorem State.setNZ_ram (s : State) (v : Byte) : (s.setNZ v).ram = s.ram := rfl
@[simp] theorem State.setNZ_cart (s : State) (v : Byte) : (s.setNZ v).cart = s.cart := rfl
@[simp] theorem State.setNZ_lastAccess (s : State) (v : Byte) : (s.setNZ v).lastAccess = s.lastAccess := rfl
@[simp] theorem State.setNZ_lastAccessId (s : State) (v : Byte) : (s.setNZ v).lastAccessId = s.lastAccessId := rfl
@[simp] theorem State.setNZ_tia (s : State) (v : Byte) : (s.setNZ v).tia = s.tia := rfl
@[simp] theorem State.setNZ_riot (s : State) (v : Byte) : (s.setNZ v).riot = s.riot := rfl
@[simp] theorem State.setNZ_inputs (s : State) (v : Byte) : (s.setNZ v).inputs = s.inputs := rfl
@[simp] theorem State.setNZ_tv (s : State) (v : Byte) : (s.setNZ v).tv = s.tv := rfl
@[simp] theorem State.setNZ_sink (s : State) (v : Byte) : (s.setNZ v).sink = s.sink := rfl
@[simp] theorem State.setNZ_colorClock (s : State) (v : Byte) : (s.setNZ v).colorClock = s.colorClock := rfl
@[simp] theorem State.setNZ_cpuCycles (s : State) (v : Byte) : (s.setNZ v).cpuCycles = s.cpuCycles := rfl
@[simp] theorem State.setNZ_fault (s : State) (v : Byte) : (s.setNZ v).fault = s.fault := rfl
@[simp] theorem State.setNZ_refusal (s : State) (v : Byte) : (s.setNZ v).refusal = s.refusal := rfl
@[simp] theorem State.setNZ_reports (s : State) (v : Byte) : (s.setNZ v).reports = s.reports := rfl
@[simp] theorem State.setNZ_params (s : State) (v : Byte) : (s.setNZ v).params = s.params := rfl
@[simp] theorem State.setNZ_draws (s : State) (v : Byte) : (s.setNZ v).draws = s.draws := rfl

@[simp] theorem State.markCrossed_cpu (s : State) : (s.markCrossed).cpu = s.cpu := rfl
@[simp] theorem State.markCrossed_ram (s : State) : (s.markCrossed).ram = s.ram := rfl
@[simp] theorem State.markCrossed_cart (s : State) : (s.markCrossed).cart = s.cart := rfl
@[simp] theorem State.markCrossed_lastAccess (s : State) : (s.markCrossed).lastAccess = s.lastAccess := rfl
@[simp] theorem State.markCrossed_lastAccessId (s : State) : (s.markCrossed).lastAccessId = s.lastAccessId := rfl
@[simp] theorem State.markCrossed_tia (s : State) : (s.markCrossed).tia = s.tia := rfl
@[simp] theorem State.markCrossed_riot (s : State) : (s.markCrossed).riot = s.riot := rfl
@[simp] theorem State.markCrossed_inputs (s : State) : (s.markCrossed).inputs = s.inputs := rfl
@[simp] theorem State.markCrossed_tv (s : State) : (s.markCrossed).tv = s.tv := rfl
@[simp] theorem State.markCrossed_sink (s : State) : (s.markCrossed).sink = s.sink := rfl
@[simp] theorem State.markCrossed_colorClock (s : State) : (s.markCrossed).colorClock = s.colorClock := rfl
@[simp] theorem State.markCrossed_cpuCycles (s : State) : (s.markCrossed).cpuCycles = s.cpuCycles := rfl
@[simp] theorem State.markCrossed_fault (s : State) : (s.markCrossed).fault = s.fault := rfl
@[simp] theorem State.markCrossed_refusal (s : State) : (s.markCrossed).refusal = s.refusal := rfl
@[simp] theorem State.markCrossed_reports (s : State) : (s.markCrossed).reports = s.reports := rfl
@[simp] theorem State.markCrossed_params (s : State) : (s.markCrossed).params = s.params := rfl
@[simp] theorem State.markCrossed_draws (s : State) : (s.markCrossed).draws = s.draws := rfl

@[simp] theorem State.markBug_cpu (s : State) (b : CpuBug) : (s.markBug b).cpu = s.cpu := rfl
@[simp] theorem State.markBug_ram (s : State) (b : CpuBug) : (s.markBug b).ram = s.ram := rfl
@[simp] theorem State.markBug_cart (s : State) (b : CpuBug) : (s.markBug b).cart = s.cart := rfl
@[simp] theorem State.markBug_lastAccess (s : State) (b : CpuBug) : (s.markBug b).lastAccess = s.lastAccess := rfl
@[simp] theorem State.markBug_lastAccessId (s : State) (b : CpuBug) : (s.markBug b).lastAccessId = s.lastAccessId := rfl
@[simp] theorem State.markBug_tia (s : State) (b : CpuBug) : (s.markBug b).tia = s.tia := rfl
@[simp] theorem State.markBug_riot (s : State) (b : CpuBug) : (s.markBug b).riot = s.riot := rfl
@[simp] theorem State.markBug_inputs (s : State) (b : CpuBug) : (s.markBug b).inputs = s.inputs := rfl
@[simp] theorem State.markBug_tv (s : State) (b : CpuBug) : (s.markBug b).tv = s.tv := rfl
@[simp] theorem State.markBug_sink (s : State) (b : CpuBug) : (s.markBug b).sink = s.sink := rfl
@[simp] theorem State.markBug_colorClock (s : State) (b : CpuBug) : (s.markBug b).colorClock = s.colorClock := rfl
@[simp] theorem State.markBug_cpuCycles (s : State) (b : CpuBug) : (s.markBug b).cpuCycles = s.cpuCycles := rfl
@[simp] theorem State.markBug_fault (s : State) (b : CpuBug) : (s.markBug b).fault = s.fault := rfl
@[simp] theorem State.markBug_refusal (s : State) (b : CpuBug) : (s.markBug b).refusal = s.refusal := rfl
@[simp] theorem State.markBug_reports (s : State) (b : CpuBug) : (s.markBug b).reports = s.reports := rfl
@[simp] theorem State.markBug_params (s : State) (b : CpuBug) : (s.markBug b).params = s.params := rfl
@[simp] theorem State.markBug_draws (s : State) (b : CpuBug) : (s.markBug b).draws = s.draws := rfl

@[simp] theorem State.countByte_cpu (s : State) : (s.countByte).cpu = s.cpu := rfl
@[simp] theorem State.countByte_ram (s : State) : (s.countByte).ram = s.ram := rfl
@[simp] theorem State.countByte_cart (s : State) : (s.countByte).cart = s.cart := rfl
@[simp] theorem State.countByte_lastAccess (s : State) : (s.countByte).lastAccess = s.lastAccess := rfl
@[simp] theorem State.countByte_lastAccessId (s : State) : (s.countByte).lastAccessId = s.lastAccessId := rfl
@[simp] theorem State.countByte_tia (s : State) : (s.countByte).tia = s.tia := rfl
@[simp] theorem State.countByte_riot (s : State) : (s.countByte).riot = s.riot := rfl
@[simp] theorem State.countByte_inputs (s : State) : (s.countByte).inputs = s.inputs := rfl
@[simp] theorem State.countByte_tv (s : State) : (s.countByte).tv = s.tv := rfl
@[simp] theorem State.countByte_sink (s : State) : (s.countByte).sink = s.sink := rfl
@[simp] theorem State.countByte_colorClock (s : State) : (s.countByte).colorClock = s.colorClock := rfl
@[simp] theorem State.countByte_cpuCycles (s : State) : (s.countByte).cpuCycles = s.cpuCycles := rfl
@[simp] theorem State.countByte_fault (s : State) : (s.countByte).fault = s.fault := rfl
@[simp] theorem State.countByte_refusal (s : State) : (s.countByte).refusal = s.refusal := rfl
@[simp] theorem State.countByte_reports (s : State) : (s.countByte).reports = s.reports := rfl
@[simp] theorem State.countByte_params (s : State) : (s.countByte).params = s.params := rfl
@[simp] theorem State.countByte_draws (s : State) : (s.countByte).draws = s.draws := rfl

@[simp] theorem State.countCycle_cpu (s : State) : (s.countCycle).cpu = s.cpu := rfl
@[simp] theorem State.countCycle_ram (s : State) : (s.countCycle).ram = s.ram := rfl
@[simp] theorem State.countCycle_cart (s : State) : (s.countCycle).cart = s.cart := rfl
@[simp] theorem State.countCycle_lastAccess (s : State) : (s.countCycle).lastAccess = s.lastAccess := rfl
@[simp] theorem State.countCycle_lastAccessId (s : State) : (s.countCycle).lastAccessId = s.lastAccessId := rfl
@[simp] theorem State.countCycle_tia (s : State) : (s.countCycle).tia = s.tia := rfl
@[simp] theorem State.countCycle_riot (s : State) : (s.countCycle).riot = s.riot := rfl
@[simp] theorem State.countCycle_inputs (s : State) : (s.countCycle).inputs = s.inputs := rfl
@[simp] theorem State.countCycle_tv (s : State) : (s.countCycle).tv = s.tv := rfl
@[simp] theorem State.countCycle_sink (s : State) : (s.countCycle).sink = s.sink := rfl
@[simp] theorem State.countCycle_colorClock (s : State) : (s.countCycle).colorClock = s.colorClock := rfl
@[simp] theorem State.countCycle_cpuCycles (s : State) : (s.countCycle).cpuCycles = s.cpuCycles := rfl
@[simp] theorem State.countCycle_fault (s : State) : (s.countCycle).fault = s.fault := rfl
@[simp] theorem State.countCycle_refusal (s : State) : (s.countCycle).refusal = s.refusal := rfl
@[simp] theorem State.countCycle_reports (s : State) : (s.countCycle).reports = s.reports := rfl
@[simp] theorem State.countCycle_params (s : State) : (s.countCycle).params = s.params := rfl
@[simp] theorem State.countCycle_draws (s : State) : (s.countCycle).draws = s.draws := rfl

@[simp] theorem State.markCrossed_result_opcode (s : State) : (s.markCrossed).result.opcode = s.result.opcode := rfl
@[simp] theorem State.markCrossed_result_defn (s : State) : (s.markCrossed).result.defn = s.result.defn := rfl
@[simp] theorem State.markCrossed_result_bytes (s : State) : (s.markCrossed).result.bytes = s.result.bytes := rfl
@[simp] theorem State.markCrossed_result_cycles (s : State) : (s.markCrossed).result.cycles = s.result.cycles := rfl
@[simp] theorem State.markCrossed_result_pageCrossed (s : State) : (s.markCrossed).result.pageCrossed = true := rfl
@[simp] theorem State.markCrossed_result_bug (s : State) : (s.markCrossed).result.bug = s.result.bug := rfl
@[simp] theorem State.markCrossed_result_final (s : State) : (s.markCrossed).result.final = s.result.final := rfl

@[simp] theorem State.markBug_result_opcode (s : State) (b : CpuBug) : (s.markBug b).result.opcode = s.result.opcode := rfl
@[simp] theorem State.markBug_result_defn (s : State) (b : CpuBug) : (s.markBug b).result.defn = s.result.defn := rfl
@[simp] theorem State.markBug_result_bytes (s : State) (b : CpuBug) : (s.markBug b).result.bytes = s.result.bytes := rfl
@[simp] theorem State.markBug_result_cycles (s : State) (b : CpuBug) : (s.markBug b).result.cycles = s.result.cycles := rfl
@[simp] theorem State.markBug_result_pageCrossed (s : State) (b : CpuBug) : (s.markBug b).result.pageCrossed = s.result.pageCrossed := rfl
@[simp] theorem State.markBug_result_bug (s : State) (b : CpuBug) : (s.markBug b).result.bug = some b := rfl
@[simp] theorem State.markBug_result_final (s : State) (b : CpuBug) : (s.markBug b).result.final = s.result.final := rfl

@[simp] theorem State.countByte_result_opcode (s : State) : (s.countByte).result.opcode = s.result.opcode := rfl
@[simp] theorem State.countByte_result_defn (s : State) : (s.countByte).result.defn = s.result.defn := rfl
@[simp] theorem State.countByte_result_bytes (s : State) : (s.countByte).result.bytes = s.result.bytes + 1 := rfl
@[simp] theorem State.countByte_result_cycles (s : State) : (s.countByte).result.cycles = s.result.cycles := rfl
@[simp] theorem State.countByte_result_pageCrossed (s : State) : (s.countByte).result.pageCrossed = s.result.pageCrossed := rfl
@[simp] theorem State.countByte_result_bug (s : State) : (s.countByte).result.bug = s.result.bug := rfl
@[simp] theorem State.countByte_result_final (s : State) : (s.countByte).result.final = s.result.final := rfl

@[simp] theorem State.countCycle_result_opcode (s : State) : (s.countCycle).result.opcode = s.result.opcode := rfl
@[simp] theorem State.countCycle_result_defn (s : State) : (s.countCycle).result.defn = s.result.defn := rfl
@[simp] theorem State.countCycle_result_bytes (s : State) : (s.countCycle).result.bytes = s.result.bytes := rfl
@[simp] theorem State.countCycle_result_cycles (s : State) : (s.countCycle).result.cycles = s.result.cycles + 1 := rfl
@[simp] theorem State.countCycle_result_pageCrossed (s : State) : (s.countCycle).result.pageCrossed = s.result.pageCrossed := rfl
@[simp] theorem State.countCycle_result_bug (s : State) : (s.countCycle).result.bug = s.result.bug := rfl
@[simp] theorem State.countCycle_result_final (s : State) : (s.countCycle).result.final = s.result.final := rfl

@[simp] theorem State.raise_cpu (s : State) (f : Fault) : (s.raise f).cpu = s.cpu := rfl
@[simp] theorem State.raise_result (s : State) (f : Fault) : (s.raise f).result = s.result := rfl
@[simp] theorem State.raise_ram (s : State) (f : Fault) : (s.raise f).ram = s.ram := rfl
@[simp] theorem State.raise_cart (s : State) (f : Fault) : (s.raise f).cart = s.cart := rfl
@[simp] theorem State.raise_lastAccess (s : State) (f : Fault) : (s.raise f).lastAccess = s.lastAccess := rfl
@[simp] theorem State.raise_lastAccessId (s : State) (f : Fault) : (s.raise f).lastAccessId = s.lastAccessId := rfl
@[simp] theorem State.raise_tia (s : State) (f : Fault) : (s.raise f).tia = s.tia := rfl
@[simp] theorem State.raise_riot (s : State) (f : Fault) : (s.raise f).riot = s.riot := rfl
@[simp] theorem State.raise_inputs (s : State) (f : Fault) : (s.raise f).inputs = s.inputs := rfl
@[simp] theorem State.raise_tv (s : State) (f : Fault) : (s.raise f).tv = s.tv := rfl
@[simp] theorem State.raise_sink (s : State) (f : Fault) : (s.raise f).sink = s.sink := rfl
@[simp] theorem State.raise_colorClock (s : State) (f : Fault) : (s.raise f).colorClock = s.colorClock := rfl
@[simp] theorem State.raise_cpuCycles (s : State) (f : Fault) : (s.raise f).cpuCycles = s.cpuCycles := rfl
@[simp] theorem State.raise_refusal (s : State) (f : Fault) : (s.raise f).refusal = s.refusal := rfl
@[simp] theorem State.raise_reports (s : State) (f : Fault) : (s.raise f).reports = s.reports := rfl
@[simp] theorem State.raise_params (s : State) (f : Fault) : (s.raise f).params = s.params := rfl
@[simp] theorem State.raise_draws (s : State) (f : Fault) : (s.raise f).draws = s.draws := rfl
@[simp] theorem State.raise_fault (s : State) (f : Fault) : (s.raise f).fault = some f := rfl

@[simp] theorem Flags.setNZ_n (p : Flags) (v : Byte) : (p.setNZ v).n = v.getLsbD 7 := rfl
@[simp] theorem Flags.setNZ_v (p : Flags) (v : Byte) : (p.setNZ v).v = p.v := rfl
@[simp] theorem Flags.setNZ_d (p : Flags) (v : Byte) : (p.setNZ v).d = p.d := rfl
@[simp] theorem Flags.setNZ_i (p : Flags) (v : Byte) : (p.setNZ v).i = p.i := rfl
@[simp] theorem Flags.setNZ_z (p : Flags) (v : Byte) : (p.setNZ v).z = (v == 0x00#8) := rfl
@[simp] theorem Flags.setNZ_c (p : Flags) (v : Byte) : (p.setNZ v).c = p.c := rfl

end Sys2Proof.Machine
end

