-- ==== Sys2Proof/Laws/Frame.lean ====
section
/-! SUPPORT. The frame of one cycle and of several: what a read, a write and the clocks leave alone, and how frames join. -/

namespace Sys2Proof

open Sys2Proof.Machine

/-! ### A tick with nothing pending -/

/-- The TIA parts of a frame: with nothing pending, the registers and the positions are kept. -/
structure TiaKept (inp : Inputs) (s t : Tia) : Prop where
  futures : t.futures = []
  registers : tiaRegisters inp t = tiaRegisters inp s
  p0 : t.pos.p0 = s.pos.p0
  p1 : t.pos.p1 = s.pos.p1
  bl : t.pos.bl = s.pos.bl
  m0 : s.resmp0 = false → t.pos.m0 = s.pos.m0
  m1 : s.resmp1 = false → t.pos.m1 = s.pos.m1

theorem tiaRegisters_resmp {inp : Inputs} {s t : Tia} (h : tiaRegisters inp t = tiaRegisters inp s) :
    t.resmp0 = s.resmp0 ∧ t.resmp1 = s.resmp1 := by
  constructor
  · have e := congrArg Tia.resmp0 h
    exact e
  · have e := congrArg Tia.resmp1 h
    exact e

theorem TiaKept.trans {inp : Inputs} {s t u : Tia} (h : TiaKept inp s t) (k : TiaKept inp t u) : TiaKept inp s u :=
  have hr := tiaRegisters_resmp h.registers
  ⟨k.futures, k.registers.trans h.registers, k.p0.trans h.p0, k.p1.trans h.p1, k.bl.trans h.bl,
    fun e => (k.m0 (hr.1.trans e)).trans (h.m0 e), fun e => (k.m1 (hr.2.trans e)).trans (h.m1 e)⟩

theorem TiaKept.refl {inp : Inputs} {s : Tia} (h : s.futures = []) : TiaKept inp s s :=
  ⟨h, rfl, rfl, rfl, rfl, fun _ => rfl, fun _ => rfl⟩

/-- Sampling the buttons twice under the same inputs is sampling them once (61_tia R554). -/
@[simp] theorem tiaRegisters_sampleButtons (inp : Inputs) (t : Tia) :
    tiaRegisters inp (sampleButtons inp t) = tiaRegisters inp t := by
  have e : ∀ a b c : Bool, (a && ((a && (b || c)) || c)) = (a && (b || c)) := by decide
  simp [tiaRegisters, sampleButtons, e]

theorem sampleButtons_kept (inp : Inputs) {t : Tia} (h : t.futures = []) : TiaKept inp t (sampleButtons inp t) :=
  ⟨h, tiaRegisters_sampleButtons inp t, rfl, rfl, rfl, fun _ => rfl, fun _ => rfl⟩

theorem advanceClock_kept (inp : Inputs) (p : Params) {t : Tia} (h : t.futures = []) : TiaKept inp t (advanceClock p t) := by
  simp only [advanceClock]
  split <;> exact ⟨h, rfl, rfl, rfl, rfl, fun _ => rfl, fun _ => rfl⟩

theorem resmpLock_kept (inp : Inputs) (p : Params) {t : Tia} (h : t.futures = []) : TiaKept inp t (resmpLock p t) :=
  ⟨h, rfl, rfl, rfl, rfl, fun e => by simp [resmpLock, e], fun e => by simp [resmpLock, e]⟩

theorem drawPixel_kept (inp : Inputs) {s : State} (h : s.tia.futures = []) : TiaKept inp s.tia (drawPixel s).2.2.tia := by
  simp only [drawPixel]
  split
  · exact TiaKept.refl h
  · split <;> split <;> exact ⟨h, rfl, rfl, rfl, rfl, fun _ => rfl, fun _ => rfl⟩

theorem reportAll_tia (rs : List Report) (s : State) : (reportAll rs s).tia = s.tia := rfl

@[simp] theorem sendSignal_tia (a : Attrs) (s : State) : (sendSignal a s).tia = s.tia := reportAll_tia _ _

@[simp] theorem audioEvent_tia (s : State) : (audioEvent s).tia = s.tia := by
  simp only [audioEvent]
  split <;> rfl

theorem runFutures_of_none {s : State} (h : s.tia.futures = []) : runFutures s = s := by
  have e : ({ s with tia := { s.tia with futures := [] } } : State) = s := by
    rw [← h]
  rw [runFutures, h]
  exact e

/-- The steps of a tick with nothing pending keep the TIA's registers and positions. -/
theorem beamTick_kept (inp : Inputs) {s : State} (h : s.tia.futures = []) : TiaKept inp s.tia (beamTick s).tia := by
  have h1 := advanceClock_kept inp s.params h
  have h2 : runFutures { s with tia := advanceClock s.params s.tia } = { s with tia := advanceClock s.params s.tia } :=
    runFutures_of_none h1.futures
  have h3 := h1.trans (resmpLock_kept inp s.params h1.futures)
  have h4 := drawPixel_kept inp (s := { s with tia := resmpLock s.params (advanceClock s.params s.tia) }) h3.futures
  have h5 := h3.trans h4
  simp only [beamTick, audioEvent_tia, sendSignal_tia, h2]
  exact h5

/-- A tick with nothing pending keeps the TIA's registers and positions. -/
theorem tiaTick_kept {s : State} (h : s.tia.futures = []) : TiaKept s.inputs s.tia (tiaTick s).tia :=
  (sampleButtons_kept s.inputs h).trans (beamTick_kept s.inputs (s := latchButtons s) h)

theorem endCycle_kept {s : State} (h : s.tia.futures = []) : TiaKept s.inputs s.tia (endCycle s).tia := by
  have h1 := tiaTick_kept h
  have h2 := tiaTick_kept h1.futures
  rw [(tiaTick_frame s).inputs] at h2
  have h3 := tiaTick_kept h2.futures
  rw [(tiaTick_frame (tiaTick s)).inputs, (tiaTick_frame s).inputs] at h3
  rw [endCycle_tia]
  exact (h1.trans h2).trans h3

/-! ### Joining frames -/

theorem drop_of_prefixes {α : Type} {a b c : List α} (h : a <+: b) (k : b <+: c) :
    c.drop a.length = b.drop a.length ++ c.drop b.length := by
  obtain ⟨x, rfl⟩ := h
  obtain ⟨y, rfl⟩ := k
  simp

theorem Frame.refl (s : State) : Frame [] s s where
  inputs := rfl
  params := rfl
  fault := rfl
  mapper := rfl
  size := rfl
  image _ := rfl
  reports := List.prefix_refl _
  clocks := by omega
  later := Nat.le_refl _
  accesses := Nat.le_refl _
  ram _ _ := rfl
  superchip _ _ := .inl rfl
  bank _ _ := rfl
  refusal _ := rfl
  riot _ := rfl
  tia _ h := ⟨h, rfl⟩
  positions _ _ := ⟨rfl, rfl, rfl, fun _ => rfl, fun _ => rfl⟩

theorem readWritePort_left {s t u : State} (h : s.reports <+: t.reports) (k : t.reports <+: u.reports) {n : Nat}
    (e : readWritePort s t n) : readWritePort s u n := by
  obtain ⟨r, hr, a, e⟩ := e
  refine ⟨r, ?_, a, e⟩
  rw [newReports, drop_of_prefixes h k]
  exact List.mem_append_left _ hr

theorem readWritePort_right {s t u : State} (h : s.reports <+: t.reports) (k : t.reports <+: u.reports) {n : Nat}
    (e : readWritePort t u n) : readWritePort s u n := by
  obtain ⟨r, hr, a, e⟩ := e
  refine ⟨r, ?_, a, e⟩
  rw [newReports, drop_of_prefixes h k]
  exact List.mem_append_right _ hr

/-- Frames of consecutive parts join. -/
theorem Frame.trans {l m : List Word} {s t u : State} (h : Frame l s t) (k : Frame m t u) : Frame (l ++ m) s u where
  inputs := k.inputs.trans h.inputs
  params := k.params.trans h.params
  fault := k.fault.trans h.fault
  mapper := k.mapper.trans h.mapper
  size := k.size.trans h.size
  image n := (k.image n).trans (h.image n)
  reports := h.reports.trans k.reports
  clocks := by have := h.clocks; have := k.clocks; omega
  later := Nat.le_trans h.later k.later
  accesses := Nat.le_trans h.accesses k.accesses
  ram n e := (k.ram n fun a ha => e a (List.mem_append_right _ ha)).trans (h.ram n fun a ha => e a (List.mem_append_left _ ha))
  superchip n e := by
    have h1 := h.superchip n fun a ha => e a (List.mem_append_left _ ha)
    have h2 := k.superchip n (h.mapper ▸ fun a ha => e a (List.mem_append_right _ ha))
    rcases h2 with h2 | h2
    · rcases h1 with h1 | h1
      · exact .inl (h2.trans h1)
      · exact .inr (readWritePort_left h.reports k.reports h1)
    · exact .inr (readWritePort_right h.reports k.reports h2)
  bank e f := by
    have h1 := h.bank e fun hm a ha => f hm a (List.mem_append_left _ ha)
    have h2 := k.bank (h.mapper ▸ e) (h.mapper ▸ fun hm a ha => f hm a (List.mem_append_right _ ha))
    exact h2.trans h1
  refusal e := (k.refusal fun a ha => e a (List.mem_append_right _ ha)).trans (h.refusal fun a ha => e a (List.mem_append_left _ ha))
  riot e := (k.riot fun a ha => e a (List.mem_append_right _ ha)).trans (h.riot fun a ha => e a (List.mem_append_left _ ha))
  tia e f := by
    have h1 := h.tia (fun a ha => e a (List.mem_append_left _ ha)) f
    have h2 := k.tia (fun a ha => e a (List.mem_append_right _ ha)) h1.1
    rw [h.inputs] at h2
    exact ⟨h2.1, h2.2.trans h1.2⟩
  positions e f := by
    have el := fun a ha => e a (List.mem_append_left _ ha)
    have h1 := h.tia el f
    have hr := tiaRegisters_resmp h1.2
    have p1 := h.positions el f
    have p2 := k.positions (fun a ha => e a (List.mem_append_right _ ha)) h1.1
    exact ⟨p2.1.trans p1.1, p2.2.1.trans p1.2.1, p2.2.2.1.trans p1.2.2.1,
      fun x => (p2.2.2.2.1 (hr.1.trans x)).trans (p1.2.2.2.1 x), fun x => (p2.2.2.2.2 (hr.2.trans x)).trans (p1.2.2.2.2 x)⟩

/-- A frame with nothing stored joins on the right without a trace. -/
theorem Frame.trans_nil {l : List Word} {s t u : State} (h : Frame l s t) (k : Frame [] t u) : Frame l s u := by
  simpa using h.trans k

theorem Frame.nil_trans {l : List Word} {s t u : State} (h : Frame [] s t) (k : Frame l t u) : Frame l s u := by
  simpa using h.trans k

/-! ### Register writes -/

/-- A change of the CPU's registers and the result record alone. -/
theorem Frame.of_cpu (s : State) (cpu : Cpu) (result : ResultRecord) : Frame [] s { s with cpu := cpu, result := result } where
  inputs := rfl
  params := rfl
  fault := rfl
  mapper := rfl
  size := rfl
  image _ := rfl
  reports := List.prefix_refl _
  clocks := by rfl
  later := Nat.le_refl _
  accesses := Nat.le_refl _
  ram _ _ := rfl
  superchip _ _ := .inl rfl
  bank _ _ := rfl
  refusal _ := rfl
  riot _ := rfl
  tia _ h := ⟨h, rfl⟩
  positions _ _ := ⟨rfl, rfl, rfl, fun _ => rfl, fun _ => rfl⟩

theorem Frame.setA {l : List Word} {s t : State} (h : Frame l s t) (v : Byte) : Frame l s (t.setA v) := h.trans_nil (.of_cpu t _ _)
theorem Frame.setX {l : List Word} {s t : State} (h : Frame l s t) (v : Byte) : Frame l s (t.setX v) := h.trans_nil (.of_cpu t _ _)
theorem Frame.setY {l : List Word} {s t : State} (h : Frame l s t) (v : Byte) : Frame l s (t.setY v) := h.trans_nil (.of_cpu t _ _)
theorem Frame.setS {l : List Word} {s t : State} (h : Frame l s t) (v : Byte) : Frame l s (t.setS v) := h.trans_nil (.of_cpu t _ _)
theorem Frame.setPC {l : List Word} {s t : State} (h : Frame l s t) (v : Word) : Frame l s (t.setPC v) := h.trans_nil (.of_cpu t _ _)
theorem Frame.setP {l : List Word} {s t : State} (h : Frame l s t) (p : Flags) : Frame l s (t.setP p) := h.trans_nil (.of_cpu t _ _)
theorem Frame.setNZ {l : List Word} {s t : State} (h : Frame l s t) (v : Byte) : Frame l s (t.setNZ v) := h.trans_nil (.of_cpu t _ _)
theorem Frame.markCrossed {l : List Word} {s t : State} (h : Frame l s t) : Frame l s t.markCrossed := h.trans_nil (.of_cpu t _ _)
theorem Frame.markBug {l : List Word} {s t : State} (h : Frame l s t) (b : CpuBug) : Frame l s (t.markBug b) :=
  h.trans_nil (.of_cpu t _ _)
theorem Frame.countByte {l : List Word} {s t : State} (h : Frame l s t) : Frame l s t.countByte := h.trans_nil (.of_cpu t _ _)
theorem Frame.countCycle {l : List Word} {s t : State} (h : Frame l s t) : Frame l s t.countCycle := h.trans_nil (.of_cpu t _ _)

/-! ### Cycles -/

@[simp] theorem riotRegisters_edgeTick (i : Inputs) (r : Riot) : riotRegisters (edgeTick i r) = riotRegisters r := rfl

@[simp] theorem riotRegisters_timerTick (r : Riot) : riotRegisters (timerTick r) = riotRegisters r := by
  simp only [timerTick]
  split
  · rfl
  · split <;> (try split) <;> rfl

/-- The end of a cycle stores nothing. -/
theorem endCycle_Frame (s : State) : Frame [] s (endCycle s) where
  inputs := endCycle_inputs s
  params := endCycle_params s
  fault := endCycle_fault s
  mapper := by rw [endCycle_cart]
  size := by rw [endCycle_cart]
  image _ := by rw [endCycle_cart]
  reports := (endCycle_frame s).reports
  clocks := by rw [endCycle_colorClock, endCycle_cpuCycles]; omega
  later := by rw [endCycle_cpuCycles]; omega
  accesses := Nat.le_of_eq (endCycle_lastAccessId s).symm
  ram _ _ := by rw [endCycle_ram]
  superchip _ _ := .inl (by rw [endCycle_cart])
  bank _ _ := by rw [endCycle_cart]
  refusal _ := endCycle_refusal s
  riot _ := by rw [endCycle_riot, riotRegisters_edgeTick, riotRegisters_timerTick]
  tia _ h := ⟨(endCycle_kept h).futures, (endCycle_kept h).registers⟩
  positions _ h := ⟨(endCycle_kept h).p0, (endCycle_kept h).p1, (endCycle_kept h).bl, (endCycle_kept h).m0, (endCycle_kept h).m1⟩

theorem stallFor_Frame (n : Nat) (s : State) : Frame [] s (stallFor n s) := by
  induction n generalizing s with
  | zero => exact Frame.refl s
  | succ n ih =>
    simp only [stallFor]
    split
    · exact (endCycle_Frame s).trans_nil (ih _)
    · exact Frame.refl s

/-- The WSYNC hold stores nothing. -/
theorem stall_Frame (s : State) : Frame [] s (stall s) := stallFor_Frame 76 s

/-- A hotspot changes the bank selection only. -/
theorem Machine.Cart.hotspot_kept (c : Cart) (loc : Nat) :
    (c.hotspot loc).mapper = c.mapper ∧ (c.hotspot loc).size = c.size ∧ (c.hotspot loc).image = c.image ∧
      (c.hotspot loc).scRam = c.scRam ∧ (switchesOnAccess c.mapper = false → c.hotspot loc = c) := by
  unfold Cart.hotspot switchesOnAccess
  cases hm : c.mapper <;> simp only [Mapper.fSeries] <;> (repeat' split) <;> simp_all

@[simp] theorem Machine.Cart.hotspot_mapper (c : Cart) (loc : Nat) : (c.hotspot loc).mapper = c.mapper := (c.hotspot_kept loc).1
@[simp] theorem Machine.Cart.hotspot_size (c : Cart) (loc : Nat) : (c.hotspot loc).size = c.size := (c.hotspot_kept loc).2.1
@[simp] theorem Machine.Cart.hotspot_image (c : Cart) (loc : Nat) : (c.hotspot loc).image = c.image := (c.hotspot_kept loc).2.2.1
@[simp] theorem Machine.Cart.hotspot_scRam (c : Cart) (loc : Nat) : (c.hotspot loc).scRam = c.scRam := (c.hotspot_kept loc).2.2.2.1

end Sys2Proof
end

