-- ==== Sys2Proof/Laws/Bus.lean ====
section
/-! SUPPORT. One bus access and one memory cycle: the fields they leave alone, and their frames. -/

namespace Sys2Proof.Machine

/-! ### A read access -/

/-- A read access changes the cartridge, the RIOT, the draws, the trace and the report log, and nothing else. -/
theorem busRead_eq (addr : Word) (s : State) : ∃ cart riot draws reports,
    (busRead addr s).2 = { s with
      cart := cart, riot := riot, draws := draws, reports := reports,
      lastAccess := some { address := addr, value := (busRead addr s).1, isWrite := false },
      lastAccessId := s.lastAccessId + 1 } := by
  simp only [busRead]
  cases areaOf (addr13 addr) with
  | ram => exact ⟨s.cart, s.riot, s.draws, s.reports, rfl⟩
  | tia => simp only [areaRead, tiaRead, drawByte]; split <;> exact ⟨_, _, _, _, rfl⟩
  | riot =>
    simp only [areaRead]
    cases riotReadReg (readLocal (addr13 addr)) <;> exact ⟨_, _, _, _, rfl⟩
  | cart =>
    simp only [areaRead, cartRead, drawByte, unreadable]
    split <;> exact ⟨_, _, _, _, rfl⟩

@[simp] theorem busRead_cpu (a : Word) (s : State) : (busRead a s).2.cpu = s.cpu := by
  obtain ⟨_, _, _, _, h⟩ := busRead_eq a s; rw [h]
@[simp] theorem busRead_result (a : Word) (s : State) : (busRead a s).2.result = s.result := by
  obtain ⟨_, _, _, _, h⟩ := busRead_eq a s; rw [h]
@[simp] theorem busRead_ram (a : Word) (s : State) : (busRead a s).2.ram = s.ram := by
  obtain ⟨_, _, _, _, h⟩ := busRead_eq a s; rw [h]
@[simp] theorem busRead_tia (a : Word) (s : State) : (busRead a s).2.tia = s.tia := by
  obtain ⟨_, _, _, _, h⟩ := busRead_eq a s; rw [h]
@[simp] theorem busRead_tv (a : Word) (s : State) : (busRead a s).2.tv = s.tv := by
  obtain ⟨_, _, _, _, h⟩ := busRead_eq a s; rw [h]
@[simp] theorem busRead_inputs (a : Word) (s : State) : (busRead a s).2.inputs = s.inputs := by
  obtain ⟨_, _, _, _, h⟩ := busRead_eq a s; rw [h]
@[simp] theorem busRead_params (a : Word) (s : State) : (busRead a s).2.params = s.params := by
  obtain ⟨_, _, _, _, h⟩ := busRead_eq a s; rw [h]
@[simp] theorem busRead_fault (a : Word) (s : State) : (busRead a s).2.fault = s.fault := by
  obtain ⟨_, _, _, _, h⟩ := busRead_eq a s; rw [h]
@[simp] theorem busRead_refusal (a : Word) (s : State) : (busRead a s).2.refusal = s.refusal := by
  obtain ⟨_, _, _, _, h⟩ := busRead_eq a s; rw [h]
@[simp] theorem busRead_colorClock (a : Word) (s : State) : (busRead a s).2.colorClock = s.colorClock := by
  obtain ⟨_, _, _, _, h⟩ := busRead_eq a s; rw [h]
@[simp] theorem busRead_cpuCycles (a : Word) (s : State) : (busRead a s).2.cpuCycles = s.cpuCycles := by
  obtain ⟨_, _, _, _, h⟩ := busRead_eq a s; rw [h]
@[simp] theorem busRead_lastAccessId (a : Word) (s : State) : (busRead a s).2.lastAccessId = s.lastAccessId + 1 := by
  obtain ⟨_, _, _, _, h⟩ := busRead_eq a s; rw [h]
@[simp] theorem busRead_lastAccess (a : Word) (s : State) :
    (busRead a s).2.lastAccess = some { address := a, value := (busRead a s).1, isWrite := false } := by
  obtain ⟨_, _, _, _, h⟩ := busRead_eq a s; rw [h]

/-- The cartridge after a read access. -/
theorem busRead_cart (a : Word) (s : State) : (busRead a s).2.cart =
    if areaOf (addr13 a) = .cart then
      if s.cart.inWritePort (readLocal (addr13 a)) = true then
        { s.cart with scRam := s.cart.scRam.write (readLocal (addr13 a)) (Config.freeByte (s.draws + 1)) }
      else s.cart.hotspot (readLocal (addr13 a))
    else s.cart := by
  simp only [busRead]
  cases h : areaOf (addr13 a) with
  | ram => rfl
  | tia => simp only [areaRead, tiaRead, drawByte, reduceCtorEq, if_false]; split <;> rfl
  | riot =>
    simp only [areaRead, reduceCtorEq, if_false]
    cases riotReadReg (readLocal (addr13 a)) <;> rfl
  | cart =>
    simp only [areaRead, cartRead, drawByte, unreadable, if_true]
    split <;> rfl

/-- The RIOT after a read access. -/
theorem busRead_riot (a : Word) (s : State) : (busRead a s).2.riot =
    if areaOf (addr13 a) = .riot then
      match riotReadReg (readLocal (addr13 a)) with
      | .intim => riotAfterIntim s.riot
      | .timint => riotAfterTimint s.riot
      | .swcha | .swacnt | .swchb | .swbcnt => s.riot
    else s.riot := by
  simp only [busRead]
  cases h : areaOf (addr13 a) with
  | ram => rfl
  | tia => simp only [areaRead, tiaRead, drawByte, reduceCtorEq, if_false]; split <;> rfl
  | riot =>
    simp only [areaRead, if_true]
    cases riotReadReg (readLocal (addr13 a)) <;> rfl
  | cart =>
    simp only [areaRead, cartRead, drawByte, unreadable, reduceCtorEq, if_false]
    split <;> rfl

/-- The reports after a read access. -/
theorem busRead_reports (a : Word) (s : State) : (busRead a s).2.reports =
    s.reports ++ (if unreadable (areaOf (addr13 a)) (readLocal (addr13 a)) s.cart = true then
      [{ report := .unreadableAddress (addr13 a), accessId := s.lastAccessId + 1 }] else []) := by
  simp only [busRead]
  cases h : areaOf (addr13 a) with
  | ram => simp [unreadable, areaRead, State.recordAccess]
  | tia =>
    simp only [areaRead, tiaRead, drawByte]
    split <;> simp [State.report, State.recordAccess]
  | riot =>
    simp only [areaRead, unreadable]
    cases riotReadReg (readLocal (addr13 a)) <;> simp [riotRead, drawByte, State.recordAccess]
  | cart =>
    simp only [areaRead, cartRead, drawByte, unreadable]
    split <;> simp_all [State.report, State.recordAccess]

theorem riotRegisters_read (q : RiotRead) (r : Riot) :
    riotRegisters (match q with
      | .intim => riotAfterIntim r
      | .timint => riotAfterTimint r
      | .swcha | .swacnt | .swchb | .swbcnt => r) = riotRegisters r := by cases q <;> rfl

/-- A write leaves every other byte as it was, whatever the list's form. -/
theorem readCells_writeCells_ne (cells : List Host.Cell) {a b : Nat} (v : Byte) (h : a ≠ b) :
    readCells (writeCells cells a v) b = readCells cells b := by
  have hc : ∀ rest, readCells (consCell a v rest) b = readCells rest b := by
    intro rest
    unfold consCell
    split
    · rfl
    · rw [readCells, if_neg h]
  induction cells with
  | nil => exact hc []
  | cons c rest ih =>
    obtain ⟨k, w⟩ := c
    rw [writeCells]
    split
    · exact hc _
    · split
      · next hk => rw [hc, readCells, if_neg (hk ▸ h)]
      · rw [readCells, readCells, ih]

theorem Memory.read_write_ne (m : Memory) {a b : Nat} (v : Byte) (h : a ≠ b) : (m.write a v).read b = m.read b :=
  readCells_writeCells_ne m.cells v h

/-- A read access stores nothing. -/
theorem busRead_Frame (a : Word) (s : State) : Frame [] s (busRead a s).2 where
  inputs := busRead_inputs a s
  params := busRead_params a s
  fault := busRead_fault a s
  mapper := by rw [busRead_cart]; (repeat' split) <;> simp
  size := by rw [busRead_cart]; (repeat' split) <;> simp
  image _ := by rw [busRead_cart]; (repeat' split) <;> simp
  reports := by rw [busRead_reports]; exact List.prefix_append _ _
  clocks := by rw [busRead_colorClock, busRead_cpuCycles]
  later := Nat.le_of_eq (busRead_cpuCycles a s).symm
  accesses := by rw [busRead_lastAccessId]; omega
  ram _ _ := by rw [busRead_ram]
  superchip k _ := by
    by_cases h : areaOf (addr13 a) = .cart ∧ s.cart.inWritePort (readLocal (addr13 a)) = true ∧ readLocal (addr13 a) = k
    · refine .inr ⟨⟨.unreadableAddress (addr13 a), s.lastAccessId + 1⟩, ?_, addr13 a, rfl, h.1, h.2.2⟩
      · rw [newReports, busRead_reports, h.1]
        simp [unreadable, h.2.1]
    · refine .inl ?_
      rw [busRead_cart]
      split
      · next h1 =>
        split
        · next h2 => exact Memory.read_write_ne _ _ fun h3 => h ⟨h1, h2, h3⟩
        · rw [Cart.hotspot_scRam]
      · rfl
  bank h _ := by
    rw [busRead_cart]
    (repeat' split)
    · rfl
    · rw [(Cart.hotspot_kept _ _).2.2.2.2 h]
    · rfl
  refusal _ := busRead_refusal a s
  riot _ := by
    rw [busRead_riot]
    split
    · exact riotRegisters_read _ _
    · rfl
  tia _ h := by rw [busRead_tia]; exact ⟨h, rfl⟩
  positions _ h := by rw [busRead_tia]; exact ⟨rfl, rfl, rfl, fun _ => rfl, fun _ => rfl⟩

/-! ### A read cycle -/

@[simp] theorem memRead_cpu (a : Word) (s : State) : (memRead a s).2.cpu = s.cpu := by simp [memRead]

/-- A read cycle counts one cycle of the instruction. -/
@[simp] theorem memRead_result (a : Word) (s : State) :
    (memRead a s).2.result = { s.result with cycles := s.result.cycles + 1 } := by
  simp [memRead, State.countCycle]

@[simp] theorem memRead_ram (a : Word) (s : State) : (memRead a s).2.ram = s.ram := by simp [memRead]

@[simp] theorem memRead_lastAccess (a : Word) (s : State) :
    (memRead a s).2.lastAccess = some { address := a, value := (memRead a s).1, isWrite := false } := by
  simp [memRead]

/-- A read cycle stores nothing. -/
theorem memRead_Frame (a : Word) (s : State) : Frame [] s (memRead a s).2 :=
  ((stall_Frame s).trans_nil (busRead_Frame a _)).countCycle.trans_nil (endCycle_Frame _)

@[simp] theorem dummyRead_cpu (a : Word) (s : State) : (dummyRead a s).cpu = s.cpu := memRead_cpu a s
@[simp] theorem dummyRead_result (a : Word) (s : State) :
    (dummyRead a s).result = { s.result with cycles := s.result.cycles + 1 } := memRead_result a s
@[simp] theorem dummyRead_ram (a : Word) (s : State) : (dummyRead a s).ram = s.ram := memRead_ram a s
theorem dummyRead_Frame (a : Word) (s : State) : Frame [] s (dummyRead a s) := memRead_Frame a s

@[simp] theorem dummyReadPC_cpu (s : State) : (dummyReadPC s).cpu = s.cpu := dummyRead_cpu _ s
@[simp] theorem dummyReadPC_result (s : State) :
    (dummyReadPC s).result = { s.result with cycles := s.result.cycles + 1 } := dummyRead_result _ s
@[simp] theorem dummyReadPC_ram (s : State) : (dummyReadPC s).ram = s.ram := dummyRead_ram _ s
theorem dummyReadPC_Frame (s : State) : Frame [] s (dummyReadPC s) := dummyRead_Frame _ s

@[simp] theorem dummyReadStack_cpu (s : State) : (dummyReadStack s).cpu = s.cpu := dummyRead_cpu _ s
@[simp] theorem dummyReadStack_result (s : State) :
    (dummyReadStack s).result = { s.result with cycles := s.result.cycles + 1 } := dummyRead_result _ s
@[simp] theorem dummyReadStack_ram (s : State) : (dummyReadStack s).ram = s.ram := dummyRead_ram _ s
theorem dummyReadStack_Frame (s : State) : Frame [] s (dummyReadStack s) := dummyRead_Frame _ s

/-! ### A write access -/

/-- A TIA write changes the TIA, the draws and the refusal mark, and nothing else. -/
theorem tiaWrite_eq (loc : Nat) (v : Byte) (s : State) : ∃ tia draws refusal,
    tiaWrite loc v s = { s with tia := tia, draws := draws, refusal := refusal } := by
  simp only [tiaWrite]
  split
  · exact ⟨s.tia, s.draws, s.refusal, rfl⟩
  · next r _ =>
    split
    · cases r <;> simp only [storeLatch, TiaLatch.motionOf] <;> first
        | exact ⟨_, _, s.refusal, rfl⟩
        | (split <;> exact ⟨_, _, s.refusal, rfl⟩)
    · exact ⟨_, _, s.refusal, rfl⟩
  · exact ⟨_, s.draws, s.refusal, rfl⟩
  · split
    · exact ⟨_, s.draws, s.refusal, rfl⟩
    · exact ⟨s.tia, s.draws, _, rfl⟩
  all_goals exact ⟨_, s.draws, s.refusal, rfl⟩

/-- A write access: the area's own change, `listen`, the trace and the report. -/
theorem busWrite_eq (addr : Word) (v : Byte) (s : State) : ∃ ram tia riot cart draws refusal reports,
    busWrite addr v s = { s with
      ram := ram, tia := tia, riot := riot, cart := cart, draws := draws, refusal := refusal, reports := reports,
      lastAccess := some { address := addr, value := v, isWrite := true }, lastAccessId := s.lastAccessId + 1 } := by
  simp only [busWrite]
  cases areaOf (addr13 addr) with
  | ram => exact ⟨_, s.tia, s.riot, _, s.draws, s.refusal, s.reports, rfl⟩
  | riot => exact ⟨s.ram, s.tia, _, _, s.draws, s.refusal, s.reports, rfl⟩
  | tia =>
    obtain ⟨tia, draws, refusal, h⟩ := tiaWrite_eq (writeLocal (addr13 addr)) v s
    simp only [areaWrite, h, unwritable]
    exact ⟨s.ram, _, s.riot, _, _, _, s.reports, rfl⟩
  | cart =>
    simp only [areaWrite, unwritable]
    rcases Bool.eq_false_or_eq_true (s.cart.inWritePort (writeLocal (addr13 addr))) with hw | hw <;>
      simp only [hw, Bool.not_true, Bool.not_false, Bool.false_eq_true, if_true, if_false] <;>
      exact ⟨s.ram, s.tia, s.riot, _, s.draws, s.refusal, _, rfl⟩

@[simp] theorem busWrite_cpu (a : Word) (v : Byte) (s : State) : (busWrite a v s).cpu = s.cpu := by
  obtain ⟨_, _, _, _, _, _, _, h⟩ := busWrite_eq a v s; rw [h]
@[simp] theorem busWrite_result (a : Word) (v : Byte) (s : State) : (busWrite a v s).result = s.result := by
  obtain ⟨_, _, _, _, _, _, _, h⟩ := busWrite_eq a v s; rw [h]
@[simp] theorem busWrite_tv (a : Word) (v : Byte) (s : State) : (busWrite a v s).tv = s.tv := by
  obtain ⟨_, _, _, _, _, _, _, h⟩ := busWrite_eq a v s; rw [h]
@[simp] theorem busWrite_inputs (a : Word) (v : Byte) (s : State) : (busWrite a v s).inputs = s.inputs := by
  obtain ⟨_, _, _, _, _, _, _, h⟩ := busWrite_eq a v s; rw [h]
@[simp] theorem busWrite_params (a : Word) (v : Byte) (s : State) : (busWrite a v s).params = s.params := by
  obtain ⟨_, _, _, _, _, _, _, h⟩ := busWrite_eq a v s; rw [h]
@[simp] theorem busWrite_fault (a : Word) (v : Byte) (s : State) : (busWrite a v s).fault = s.fault := by
  obtain ⟨_, _, _, _, _, _, _, h⟩ := busWrite_eq a v s; rw [h]
@[simp] theorem busWrite_colorClock (a : Word) (v : Byte) (s : State) : (busWrite a v s).colorClock = s.colorClock := by
  obtain ⟨_, _, _, _, _, _, _, h⟩ := busWrite_eq a v s; rw [h]
@[simp] theorem busWrite_cpuCycles (a : Word) (v : Byte) (s : State) : (busWrite a v s).cpuCycles = s.cpuCycles := by
  obtain ⟨_, _, _, _, _, _, _, h⟩ := busWrite_eq a v s; rw [h]
@[simp] theorem busWrite_lastAccessId (a : Word) (v : Byte) (s : State) : (busWrite a v s).lastAccessId = s.lastAccessId + 1 := by
  obtain ⟨_, _, _, _, _, _, _, h⟩ := busWrite_eq a v s; rw [h]
@[simp] theorem busWrite_lastAccess (a : Word) (v : Byte) (s : State) :
    (busWrite a v s).lastAccess = some { address := a, value := v, isWrite := true } := by
  obtain ⟨_, _, _, _, _, _, _, h⟩ := busWrite_eq a v s; rw [h]

/-- PIA RAM after a write access. -/
theorem busWrite_ram (a : Word) (v : Byte) (s : State) : (busWrite a v s).ram =
    if areaOf (addr13 a) = .ram then s.ram.write (writeLocal (addr13 a)) v else s.ram := by
  simp only [busWrite]
  cases areaOf (addr13 a) with
  | ram => rfl
  | riot => rfl
  | tia =>
    obtain ⟨tia, draws, refusal, h⟩ := tiaWrite_eq (writeLocal (addr13 a)) v s
    simp only [areaWrite, h, unwritable, reduceCtorEq, if_false]
    rfl
  | cart =>
    simp only [areaWrite, unwritable, reduceCtorEq, if_false]
    rcases Bool.eq_false_or_eq_true (s.cart.inWritePort (writeLocal (addr13 a))) with hw | hw <;>
      simp only [hw, Bool.not_true, Bool.not_false, Bool.false_eq_true, if_true, if_false] <;>
      rfl

/-- The cartridge after a write access: its own write, then `listen`. -/
theorem busWrite_cart (a : Word) (v : Byte) (s : State) : (busWrite a v s).cart =
    (if areaOf (addr13 a) = .cart then s.cart.write s.params.hotspotOnWrite (writeLocal (addr13 a)) v else s.cart).listen
      (addr13 a) v := by
  simp only [busWrite]
  cases areaOf (addr13 a) with
  | ram => rfl
  | riot => rfl
  | tia =>
    obtain ⟨tia, draws, refusal, h⟩ := tiaWrite_eq (writeLocal (addr13 a)) v s
    simp only [areaWrite, h, unwritable, reduceCtorEq, if_false]
    rfl
  | cart =>
    simp only [areaWrite, unwritable, if_true]
    rcases Bool.eq_false_or_eq_true (s.cart.inWritePort (writeLocal (addr13 a))) with hw | hw <;>
      simp only [hw, Bool.not_true, Bool.not_false, Bool.false_eq_true, if_true, if_false] <;>
      rfl

/-- The RIOT after a write access. -/
theorem busWrite_riot (a : Word) (v : Byte) (s : State) : (busWrite a v s).riot =
    if areaOf (addr13 a) = .riot then riotWrite s.params.riotWritePhase (riotWriteReg (writeLocal (addr13 a))) v s.riot
    else s.riot := by
  simp only [busWrite]
  cases areaOf (addr13 a) with
  | ram => rfl
  | riot => rfl
  | tia =>
    obtain ⟨tia, draws, refusal, h⟩ := tiaWrite_eq (writeLocal (addr13 a)) v s
    simp only [areaWrite, h, unwritable, reduceCtorEq, if_false]
    rfl
  | cart =>
    simp only [areaWrite, unwritable, reduceCtorEq, if_false]
    rcases Bool.eq_false_or_eq_true (s.cart.inWritePort (writeLocal (addr13 a))) with hw | hw <;>
      simp only [hw, Bool.not_true, Bool.not_false, Bool.false_eq_true, if_true, if_false] <;>
      rfl

/-- The TIA and the refusal mark after a write access. -/
theorem busWrite_tia (a : Word) (v : Byte) (s : State) :
    (busWrite a v s).tia = (if areaOf (addr13 a) = .tia then (tiaWrite (writeLocal (addr13 a)) v s).tia else s.tia) ∧
      (busWrite a v s).refusal =
        (if areaOf (addr13 a) = .tia then (tiaWrite (writeLocal (addr13 a)) v s).refusal else s.refusal) := by
  simp only [busWrite]
  cases areaOf (addr13 a) with
  | ram => exact ⟨rfl, rfl⟩
  | riot => exact ⟨rfl, rfl⟩
  | tia => simp only [areaWrite, unwritable, if_true]; exact ⟨rfl, rfl⟩
  | cart =>
    simp only [areaWrite, unwritable, reduceCtorEq, if_false]
    rcases Bool.eq_false_or_eq_true (s.cart.inWritePort (writeLocal (addr13 a))) with hw | hw <;>
      simp only [hw, Bool.not_true, Bool.not_false, Bool.false_eq_true, if_true, if_false] <;>
      exact ⟨rfl, rfl⟩

/-- The reports after a write access. -/
theorem busWrite_reports (a : Word) (v : Byte) (s : State) : (busWrite a v s).reports =
    s.reports ++ (if unwritable (areaOf (addr13 a)) (writeLocal (addr13 a)) s.cart = true then
      [{ report := .unwritableAddress (addr13 a) v, accessId := s.lastAccessId + 1 }] else []) := by
  simp only [busWrite]
  cases areaOf (addr13 a) with
  | ram => simp [unwritable, areaWrite, State.recordAccess]
  | riot => simp [unwritable, areaWrite, State.recordAccess]
  | tia =>
    obtain ⟨tia, draws, refusal, h⟩ := tiaWrite_eq (writeLocal (addr13 a)) v s
    simp [areaWrite, h, unwritable, State.recordAccess]
  | cart =>
    simp only [areaWrite, unwritable]
    rcases Bool.eq_false_or_eq_true (s.cart.inWritePort (writeLocal (addr13 a))) with hw | hw <;>
      simp only [hw, Bool.not_true, Bool.not_false, Bool.false_eq_true, if_true, if_false] <;>
      simp [State.report, State.recordAccess]

theorem Cart.write_kept (b : Bool) (c : Cart) (loc : Nat) (v : Byte) :
    (c.write b loc v).mapper = c.mapper ∧ (c.write b loc v).size = c.size ∧ (c.write b loc v).image = c.image ∧
      (∀ k, ¬ (c.inWritePort loc = true ∧ loc = k) → (c.write b loc v).scRam.read k = c.scRam.read k) ∧
      (switchesOnAccess c.mapper = false → bankSelection (c.write b loc v) = bankSelection c) := by
  unfold Cart.write
  split
  · next h => exact ⟨rfl, rfl, rfl, fun k hk => Memory.read_write_ne _ _ fun e => hk ⟨h, e⟩, fun _ => rfl⟩
  · split
    · refine ⟨by simp, by simp, by simp, fun k _ => by simp, fun h => ?_⟩
      rw [(Cart.hotspot_kept _ _).2.2.2.2 h]
    · exact ⟨rfl, rfl, rfl, fun _ _ => rfl, fun _ => rfl⟩

theorem Cart.listen_kept (c : Cart) (a : Addr13) (v : Byte) :
    (c.listen a v).mapper = c.mapper ∧ (c.listen a v).size = c.size ∧ (c.listen a v).image = c.image ∧
      (c.listen a v).scRam = c.scRam ∧ ((c.mapper = .m3f → 0x40 ≤ a.toNat) → c.listen a v = c) := by
  unfold Cart.listen
  split
  · next hm =>
    split
    · exact ⟨rfl, rfl, rfl, rfl, fun e => absurd (e hm) (by omega)⟩
    · exact ⟨rfl, rfl, rfl, rfl, fun _ => rfl⟩
  · exact ⟨rfl, rfl, rfl, rfl, fun _ => rfl⟩

/-- A write access stores at its address only. -/
theorem busWrite_Frame (a : Word) (v : Byte) (s : State) : Frame [a] s (busWrite a v s) where
  inputs := busWrite_inputs a v s
  params := busWrite_params a v s
  fault := busWrite_fault a v s
  mapper := by rw [busWrite_cart, (Cart.listen_kept _ _ _).1]; split <;> simp [Cart.write_kept]
  size := by rw [busWrite_cart, (Cart.listen_kept _ _ _).2.1]; split <;> simp [Cart.write_kept]
  image _ := by rw [busWrite_cart, (Cart.listen_kept _ _ _).2.2.1]; split <;> simp [Cart.write_kept]
  reports := by rw [busWrite_reports]; exact List.prefix_append _ _
  clocks := by rw [busWrite_colorClock, busWrite_cpuCycles]
  later := Nat.le_of_eq (busWrite_cpuCycles a v s).symm
  accesses := by rw [busWrite_lastAccessId]; omega
  ram k h := by
    rw [busWrite_ram]
    split
    · next ha => exact Memory.read_write_ne _ _ fun e => h a (List.mem_singleton.mpr rfl) ⟨ha, e⟩
    · rfl
  superchip k h := by
    refine .inl ?_
    rw [busWrite_cart, (Cart.listen_kept _ _ _).2.2.2.1]
    split
    · next ha =>
      refine (Cart.write_kept _ _ _ _).2.2.2.1 k fun e => h a (List.mem_singleton.mpr rfl) ?_
      have e1 := e.1
      simp only [Cart.inWritePort, Bool.and_eq_true, decide_eq_true_eq] at e1
      exact ⟨e1.1, ha, e.2, by omega⟩
    · rfl
  bank h h3 := by
    rw [busWrite_cart]
    have hm : (if areaOf (addr13 a) = .cart then s.cart.write s.params.hotspotOnWrite (writeLocal (addr13 a)) v
        else s.cart).mapper = s.cart.mapper := by split <;> simp [Cart.write_kept]
    rw [(Cart.listen_kept _ _ _).2.2.2.2 (hm ▸ fun e => h3 e a (List.mem_singleton.mpr rfl))]
    split
    · exact (Cart.write_kept _ _ _ _).2.2.2.2 h
    · rfl
  refusal h := by rw [(busWrite_tia a v s).2, if_neg (h a (List.mem_singleton.mpr rfl))]
  riot h := by rw [busWrite_riot, if_neg (h a (List.mem_singleton.mpr rfl))]
  tia h e := by rw [(busWrite_tia a v s).1, if_neg (h a (List.mem_singleton.mpr rfl))]; exact ⟨e, rfl⟩
  positions h e := by
    rw [(busWrite_tia a v s).1, if_neg (h a (List.mem_singleton.mpr rfl))]
    exact ⟨rfl, rfl, rfl, fun _ => rfl, fun _ => rfl⟩

/-! ### A write cycle -/

@[simp] theorem memWrite_cpu (a : Word) (v : Byte) (s : State) : (memWrite a v s).cpu = s.cpu := by simp [memWrite]

/-- A write cycle counts one cycle of the instruction. -/
@[simp] theorem memWrite_result (a : Word) (v : Byte) (s : State) :
    (memWrite a v s).result = { s.result with cycles := s.result.cycles + 1 } := by
  simp [memWrite, State.countCycle]

@[simp] theorem memWrite_ram (a : Word) (v : Byte) (s : State) : (memWrite a v s).ram =
    if areaOf (addr13 a) = .ram then s.ram.write (writeLocal (addr13 a)) v else s.ram := by
  simp [memWrite, busWrite_ram]

@[simp] theorem memWrite_lastAccess (a : Word) (v : Byte) (s : State) :
    (memWrite a v s).lastAccess = some { address := a, value := v, isWrite := true } := by
  simp [memWrite]

/-- A write cycle stores at its address only. -/
theorem memWrite_Frame (a : Word) (v : Byte) (s : State) : Frame [a] s (memWrite a v s) :=
  (busWrite_Frame a v s).countCycle.trans_nil (endCycle_Frame _)

/-- The byte a push stores, where, and the stack pointer after it. -/
theorem push_Frame (v : Byte) (s : State) : Frame [stackAddr s.cpu.sp] s (push v s) := (memWrite_Frame _ v s).setS _

@[simp] theorem push_cpu (v : Byte) (s : State) : (push v s).cpu = { s.cpu with sp := s.cpu.sp - 1 } := by
  simp [push, State.setS]

@[simp] theorem push_result (v : Byte) (s : State) :
    (push v s).result = { s.result with cycles := s.result.cycles + 1 } := by simp [push]

@[simp] theorem pull_cpu (s : State) : (pull s).2.cpu = { s.cpu with sp := s.cpu.sp + 1 } := by simp [pull, State.setS]

@[simp] theorem pull_result (s : State) : (pull s).2.result = { s.result with cycles := s.result.cycles + 1 } := by
  simp [pull]

theorem pull_Frame (s : State) : Frame [] s (pull s).2 := ((Frame.refl s).setS _).trans_nil (memRead_Frame _ _)

@[simp] theorem push_ram (v : Byte) (s : State) : (push v s).ram =
    if areaOf (addr13 (stackAddr s.cpu.sp)) = .ram then s.ram.write (writeLocal (addr13 (stackAddr s.cpu.sp))) v else s.ram := by
  simp [push]

@[simp] theorem pull_ram (s : State) : (pull s).2.ram = s.ram := by simp [pull]

end Sys2Proof.Machine
end

