-- ==== Sys2Proof/Laws/Map.lean ====
section
/-! SUPPORT. The memory map in numbers, and what one bus access gives in each area. -/

namespace Sys2Proof.Machine

theorem addr13_toNat (a : Word) : (addr13 a).toNat = a.toNat % 8192 := by simp [addr13]

theorem addr13_congr {a b : Word} (h : a.toNat % 8192 = b.toNat % 8192) : addr13 b = addr13 a :=
  BitVec.eq_of_toNat_eq (by rw [addr13_toNat, addr13_toNat, h])

theorem areaOf_eq (a : Addr13) : areaOf a = if 4096 ≤ a.toNat then .cart else if a.toNat % 256 < 128 then .tia
   else if a.toNat % 1024 < 512 then .ram else .riot := by
  have h12 : a.getLsbD 12 = decide (4096 ≤ a.toNat) := by
    rw [BitVec.getLsbD, Nat.testBit_eq_decide_div_mod_eq]; have := a.isLt; simp; omega
  have h7 : a.getLsbD 7 = !decide (a.toNat % 256 < 128) := by
    rw [BitVec.getLsbD, Nat.testBit_eq_decide_div_mod_eq, ← decide_not]; simp only [decide_eq_decide]; omega
  have h9 : a.getLsbD 9 = !decide (a.toNat % 1024 < 512) := by
    rw [BitVec.getLsbD, Nat.testBit_eq_decide_div_mod_eq, ← decide_not]; simp only [decide_eq_decide]; omega
  simp only [areaOf, h12, h7, h9]
  simp

theorem areaOf_cart {a : Addr13} (h : 4096 ≤ a.toNat) : areaOf a = .cart := by rw [areaOf_eq, if_pos h]

theorem areaOf_tia {a : Addr13} (h : a.toNat < 4096) (h1 : a.toNat % 256 < 128) : areaOf a = .tia := by
  rw [areaOf_eq, if_neg (by omega), if_pos h1]

theorem areaOf_ram {a : Addr13} (h : a.toNat < 4096) (h1 : 128 ≤ a.toNat % 256) (h2 : a.toNat % 1024 < 512) : areaOf a = .ram := by
  rw [areaOf_eq, if_neg (by omega), if_neg (by omega), if_pos h2]

theorem areaOf_riot {a : Addr13} (h : a.toNat < 4096) (h1 : 128 ≤ a.toNat % 256) (h2 : 512 ≤ a.toNat % 1024) : areaOf a = .riot := by
  rw [areaOf_eq, if_neg (by omega), if_neg (by omega), if_neg (by omega)]

theorem cart_of_area {a : Word} (h : areaOf (addr13 a) = .cart) : 4096 ≤ a.toNat % 8192 := by
  rw [areaOf_eq, addr13_toNat] at h
  split at h
  · assumption
  · split at h
    · cases h
    · split at h <;> cases h

theorem readLocal_ram {a : Word} (h : areaOf (addr13 a) = .ram) : readLocal (addr13 a) = a.toNat % 128 := by
  rw [readLocal, h]; simp only [addr13_toNat]; omega
theorem writeLocal_ram {a : Word} (h : areaOf (addr13 a) = .ram) : writeLocal (addr13 a) = a.toNat % 128 := by
  rw [writeLocal, h]; simp only [addr13_toNat]; omega
theorem readLocal_tia {a : Word} (h : areaOf (addr13 a) = .tia) : readLocal (addr13 a) = a.toNat % 16 := by
  rw [readLocal, h]; simp only [addr13_toNat]; omega
theorem writeLocal_tia {a : Word} (h : areaOf (addr13 a) = .tia) : writeLocal (addr13 a) = a.toNat % 64 := by
  rw [writeLocal, h]; simp only [addr13_toNat]; omega
theorem readLocal_riot {a : Word} (h : areaOf (addr13 a) = .riot) : readLocal (addr13 a) = a.toNat % 32 := by
  rw [readLocal, h]; simp only [addr13_toNat]; omega
theorem writeLocal_riot {a : Word} (h : areaOf (addr13 a) = .riot) : writeLocal (addr13 a) = a.toNat % 32 := by
  rw [writeLocal, h]; simp only [addr13_toNat]; omega
theorem readLocal_cart {a : Word} (h : areaOf (addr13 a) = .cart) : readLocal (addr13 a) = a.toNat % 4096 := by
  rw [readLocal, h]; simp only [addr13_toNat]; omega
theorem writeLocal_cart {a : Word} (h : areaOf (addr13 a) = .cart) : writeLocal (addr13 a) = a.toNat % 4096 := by
  rw [writeLocal, h]; simp only [addr13_toNat]; omega

/-! ### Reads -/

theorem busRead_val_ram {a : Word} {s : State} (h : areaOf (addr13 a) = .ram) : (busRead a s).1 = s.ram.read (a.toNat % 128) := by
  simp only [busRead, h, areaRead, readLocal_ram h]

theorem memRead_val_ram {a : Word} {s : State} (h : areaOf (addr13 a) = .ram) : (memRead a s).1 = s.ram.read (a.toNat % 128) :=
  by
  show (busRead a (stall s)).1 = _
  rw [busRead_val_ram h, stall_ram]

theorem busRead_val_tia {a : Word} {s : State} (h : areaOf (addr13 a) = .tia) : (busRead a s).1 =
    mergeBits (tiaDriven (a.toNat % 16)) (tiaChip s.tia s.inputs (a.toNat % 16)) (Config.freeByte s.draws) := by
  simp only [busRead, h, areaRead, readLocal_tia h, tiaRead, drawByte]

/-- A bit the chip drives. -/
theorem mergeBits_driven (m c f : Byte) (k : Nat) (h : m.getLsbD k = true) : (mergeBits m c f).getLsbD k = c.getLsbD k := by
  simp [mergeBits, h]

theorem tiaDriven_seven {loc : Nat} (h : loc < 14) : (tiaDriven loc).getLsbD 7 = true := by
  by_cases h6 : loc < 6 ∨ loc = 7
  · rw [tiaDriven, if_pos h6]; rfl
  · rw [tiaDriven, if_neg h6, if_pos h]; rfl

theorem tiaDriven_six {loc : Nat} (h : loc < 6 ∨ loc = 7) : (tiaDriven loc).getLsbD 6 = true := by
  rw [tiaDriven, if_pos h]; rfl

theorem topBits_seven (a b : Bool) : (topBits a b).getLsbD 7 = a := by cases a <;> cases b <;> rfl
theorem topBits_six (a b : Bool) : (topBits a b).getLsbD 6 = b := by cases a <;> cases b <;> rfl

/-! ### The cartridge -/

theorem inWritePort_iff (c : Cart) (l : Nat) : c.inWritePort l = true ↔ c.mapper.hasSuperchip = true ∧ l < 128 := by
  simp [Cart.inWritePort]

theorem inReadPort_iff (c : Cart) (l : Nat) :
    c.inReadPort l = true ↔ c.mapper.hasSuperchip = true ∧ 128 ≤ l ∧ l < 256 := by
  simp [Cart.inReadPort, and_assoc]

theorem hotspot_of_not {c : Cart} {l : Nat} (h : c.isHotspot l = false) : c.hotspot l = c := by
  revert h
  simp only [Cart.isHotspot, Cart.hotspot]
  split
  · intro h
    rw [if_neg]; intro h'; simp_all
  · split
    · intro h
      rw [if_neg, if_neg, if_neg] <;> (intro h'; simp at h; omega)
    · intro; rfl

theorem busRead_cart_of_not_port {a : Word} {s : State} (h : areaOf (addr13 a) = .cart)
    (hw : s.cart.inWritePort (a.toNat % 4096) = false) :
    (busRead a s).1 = (s.cart.hotspot (a.toNat % 4096)).byteAt (a.toNat % 4096) ∧
      (busRead a s).2.cart = s.cart.hotspot (a.toNat % 4096) := by
  simp [busRead, h, areaRead, readLocal_cart h, cartRead, hw, Cart.read, unreadable, State.recordAccess]

end Sys2Proof.Machine
end

