-- ==== Sys2Proof/Laws/Cart.lean ====
section
/-! SUPPORT. Every operation on the memories keeps their canonical form, and every operation on the cartridge keeps it well formed:
accesses, `listen`, `Poke` and the placing of an instruction. -/

namespace Sys2Proof.Machine

theorem State.reset_ram_wf : State.reset.ram.wf 128 = true := rfl

theorem State.reset_cart_wf : State.reset.cart.wf = true := rfl

theorem Cart.wf_iff (c : Cart) : c.wf = true ↔
    c.mapper.sizeOk c.size = true ∧ c.bank < c.banks ∧ c.image.wf c.size = true ∧ c.scRam.wf 128 = true := by
  simp [Cart.wf, Cart.bankOk, and_assoc]

theorem Cart.banks_pos {c : Cart} (h : c.wf = true) : 0 < c.banks := by
  have := ((Cart.wf_iff c).1 h).2.1; omega

/-- A bank in range keeps a cartridge well formed. -/
theorem Cart.wf_bank {c : Cart} (h : c.wf = true) {b : Nat} (hb : b < c.banks) : Cart.wf { c with bank := b } = true := by
  obtain ⟨h1, _, h3, h4⟩ := (Cart.wf_iff c).1 h
  exact (Cart.wf_iff _).2 ⟨h1, hb, h3, h4⟩

theorem Cart.banks_fSeries {c : Cart} {n h0 : Nat} (h : c.mapper.fSeries = some (n, h0)) : c.banks = n := by
  revert h; rw [Cart.banks]; cases c.mapper <;> simp [Mapper.fSeries] <;> omega

theorem Cart.wf_hotspot {c : Cart} (h : c.wf = true) (loc : Nat) : (c.hotspot loc).wf = true := by
  rw [Cart.hotspot]
  split
  · rename_i n h0 hf
    split
    · exact Cart.wf_bank h (by rw [Cart.banks_fSeries hf]; omega)
    · exact h
  · split
    · repeat' split
      all_goals exact h
    · exact h

theorem Cart.wf_scRam {c : Cart} (h : c.wf = true) {a : Nat} (ha : a < 128) (v : Byte) :
    Cart.wf { c with scRam := c.scRam.write a v } = true := by
  obtain ⟨h1, h2, h3, h4⟩ := (Cart.wf_iff c).1 h
  exact (Cart.wf_iff _).2 ⟨h1, h2, h3, Memory.wf_write h4 ha v⟩

theorem Cart.wf_image {c : Cart} (h : c.wf = true) {a : Nat} (ha : a < c.size) (v : Byte) :
    Cart.wf { c with image := c.image.write a v } = true := by
  obtain ⟨h1, h2, h3, h4⟩ := (Cart.wf_iff c).1 h
  exact (Cart.wf_iff _).2 ⟨h1, h2, Memory.wf_write h3 ha v, h4⟩

theorem Cart.wf_write {c : Cart} (h : c.wf = true) (b : Bool) (loc : Nat) (v : Byte) : (c.write b loc v).wf = true := by
  rw [Cart.write]
  split
  · rename_i hw
    exact Cart.wf_scRam h ((inWritePort_iff c loc).1 hw).2 v
  · split
    · exact Cart.wf_hotspot h loc
    · exact h

theorem Cart.wf_listen {c : Cart} (h : c.wf = true) (a : Addr13) (v : Byte) : (c.listen a v).wf = true := by
  rw [Cart.listen]
  split
  · split
    · exact Cart.wf_bank h (Nat.mod_lt _ (Cart.banks_pos h))
    · exact h
  · exact h

theorem Cart.sizeOk_cases {c : Cart} (h : c.wf = true) : c.banks * 2048 ≤ c.size ∧ (c.mapper ≠ .m2k → c.mapper ≠ .m4k →
    c.mapper ≠ .e0 → c.mapper ≠ .m3f → c.size = c.banks * 4096) ∧ (c.mapper = .m4k → c.size = 4096) ∧
      (c.mapper = .e0 → c.size = 8192) ∧ (c.mapper = .m3f → c.banks = c.size / 2048) := by
  have h1 := ((Cart.wf_iff c).1 h).1
  revert h1
  rw [Cart.banks]
  cases c.mapper <;>
    simp only [Mapper.sizeOk, beq_iff_eq, Bool.and_eq_true, decide_eq_true_eq, bne_iff_ne, ne_eq, reduceCtorEq, not_false_eq_true,
      true_implies, not_true_eq_false, false_implies, true_and, and_true] <;>
    intro h1 <;> omega

/-- The image offset of a local lies inside the image (20_memory R101 to R109). -/
theorem Cart.offset_lt {c : Cart} (h : c.wf = true) {loc : Nat} (hl : loc < 4096) : c.offset loc < c.size := by
  have hb := ((Cart.wf_iff c).1 h).2.1
  obtain ⟨s1, s2, s3, s4, s5⟩ := Cart.sizeOk_cases h
  have hb' := hb
  rw [Cart.offset]
  cases hm : c.mapper <;> simp only [hm, ne_eq, reduceCtorEq, not_false_eq_true, true_implies, not_true_eq_false, false_implies] at *
  · omega
  · omega
  iterate 6 exact (by omega)
  · have : c.slice (loc / 1024) ≤ 7 := by
      simp only [Cart.slice]; split <;> omega
    omega
  · split
    · omega
    · omega

theorem placeByte_wf (a : Word) (v : Byte) {s : State} (hr : s.ram.wf 128 = true) (hc : s.cart.wf = true) :
    (placeByte a v s).ram.wf 128 = true ∧ (placeByte a v s).cart.wf = true := by
  simp only [placeByte]
  split
  · rename_i ha
    exact ⟨Memory.wf_write hr (by rw [readLocal_ram ha]; omega) v, hc⟩
  · rename_i ha
    split
    · rename_i hp
      have := ((inReadPort_iff _ _).1 hp).2
      exact ⟨hr, Cart.wf_scRam hc (by omega) v⟩
    · exact ⟨hr, Cart.wf_image hc (Cart.offset_lt hc (by rw [readLocal_cart ha]; omega)) v⟩
  · exact ⟨hr, hc⟩
  · exact ⟨hr, hc⟩

theorem placeBytes_wf (bytes : List Byte) : ∀ (a : Word) {s : State}, s.ram.wf 128 = true → s.cart.wf = true →
    (placeBytes a bytes s).ram.wf 128 = true ∧ (placeBytes a bytes s).cart.wf = true := by
  induction bytes with
  | nil => exact fun _ _ hr hc => ⟨hr, hc⟩
  | cons b rest ih =>
    intro a s hr hc
    have h := placeByte_wf a b hr hc
    exact ih (a + 1) h.1 h.2

theorem withFetchWord_wf (nbits w : Nat) {s : State} (hr : s.ram.wf 128 = true) (hc : s.cart.wf = true) :
    (s.withFetchWord nbits w).ram.wf 128 = true ∧ (s.withFetchWord nbits w).cart.wf = true :=
  placeBytes_wf _ _ hr hc

theorem poke_wf (a : Word) (v : Byte) {s : State} (hr : s.ram.wf 128 = true) (hc : s.cart.wf = true) :
    (poke a v s).ram.wf 128 = true ∧ (poke a v s).cart.wf = true := by
  simp only [poke]
  split
  · rename_i ha
    exact ⟨Memory.wf_write hr (by rw [writeLocal_ram ha]; omega) v, hc⟩
  · rename_i ha
    split
    · rename_i hp
      exact ⟨hr, Cart.wf_scRam hc ((inWritePort_iff _ _).1 hp).2 v⟩
    · split
      · rename_i hp
        have := ((inReadPort_iff _ _).1 hp).2
        exact ⟨hr, Cart.wf_scRam hc (by omega) v⟩
      · exact ⟨hr, Cart.wf_image hc (Cart.offset_lt hc (by rw [writeLocal_cart ha]; omega)) v⟩
  · split <;> exact ⟨hr, hc⟩
  · split <;> exact ⟨hr, hc⟩

theorem busRead_wf (a : Word) {s : State} (hr : s.ram.wf 128 = true) (hc : s.cart.wf = true) :
    (busRead a s).2.ram.wf 128 = true ∧ (busRead a s).2.cart.wf = true := by
  refine ⟨by simpa using hr, ?_⟩
  rw [busRead_cart]
  split
  · split
    · rename_i hp
      exact Cart.wf_scRam hc ((inWritePort_iff _ _).1 hp).2 _
    · exact Cart.wf_hotspot hc _
  · exact hc

theorem busWrite_wf (a : Word) (v : Byte) {s : State} (hr : s.ram.wf 128 = true) (hc : s.cart.wf = true) :
    (busWrite a v s).ram.wf 128 = true ∧ (busWrite a v s).cart.wf = true := by
  constructor
  · rw [busWrite_ram]
    split
    · rename_i ha
      exact Memory.wf_write hr (by rw [writeLocal_ram ha]; omega) v
    · exact hr
  · rw [busWrite_cart]
    refine Cart.wf_listen ?_ _ _
    split
    · exact Cart.wf_write hc _ _ _
    · exact hc

end Sys2Proof.Machine
end

