-- ==== Sys2Proof/Laws/Closed.lean ====
section
/-! SUPPORT. What every instruction and every step can do, said once: a relation between states that holds across one change of the
CPU's registers, one bus access and the clocks of one cycle holds across every instruction; with a recorded fault and the start of
a record, across every step. Invariants and frames of the whole machine follow from this with no case split over instructions. -/

namespace Sys2Proof.Machine

/-- `R` holds across each of the changes an instruction is made of, one after the other. -/
structure Closed (R : State → State → Prop) : Prop where
  refl : ∀ s, R s s
  trans : ∀ {s t u}, R s t → R t u → R s u
  /-- The CPU's registers take any value, and the result record any but another opcode. -/
  cpu : ∀ s cpu result, result.opcode = s.result.opcode → result.defn = s.result.defn → R s { s with cpu := cpu, result := result }
  read : ∀ a s, R s (busRead a s).2
  write : ∀ a v s, R s (busWrite a v s)
  cycle : ∀ s, R s (endCycle s)

namespace Closed

variable {R : State → State → Prop} {s t : State}

theorem setA (C : Closed R) (h : R s t) (v : Byte) : R s (t.setA v) := C.trans h (C.cpu t _ _ rfl rfl)
theorem setX (C : Closed R) (h : R s t) (v : Byte) : R s (t.setX v) := C.trans h (C.cpu t _ _ rfl rfl)
theorem setY (C : Closed R) (h : R s t) (v : Byte) : R s (t.setY v) := C.trans h (C.cpu t _ _ rfl rfl)
theorem setS (C : Closed R) (h : R s t) (v : Byte) : R s (t.setS v) := C.trans h (C.cpu t _ _ rfl rfl)
theorem setPC (C : Closed R) (h : R s t) (w : Word) : R s (t.setPC w) := C.trans h (C.cpu t _ _ rfl rfl)
theorem setP (C : Closed R) (h : R s t) (p : Flags) : R s (t.setP p) := C.trans h (C.cpu t _ _ rfl rfl)
theorem setNZ (C : Closed R) (h : R s t) (v : Byte) : R s (t.setNZ v) := C.trans h (C.cpu t _ _ rfl rfl)
theorem markCrossed (C : Closed R) (h : R s t) : R s t.markCrossed := C.trans h (C.cpu t _ _ rfl rfl)
theorem markBug (C : Closed R) (h : R s t) (b : CpuBug) : R s (t.markBug b) := C.trans h (C.cpu t _ _ rfl rfl)
theorem countByte (C : Closed R) (h : R s t) : R s t.countByte := C.trans h (C.cpu t _ _ rfl rfl)
theorem countCycle (C : Closed R) (h : R s t) : R s t.countCycle := C.trans h (C.cpu t _ _ rfl rfl)
theorem endCycle (C : Closed R) (h : R s t) : R s (Machine.endCycle t) := C.trans h (C.cycle t)

theorem stallFor (C : Closed R) (n : Nat) : ∀ {t}, R s t → R s (Machine.stallFor n t) := by
  induction n with
  | zero => exact fun h => h
  | succ n ih =>
    intro t h
    simp only [Machine.stallFor]
    split
    · exact ih (C.endCycle h)
    · exact h

theorem memRead (C : Closed R) (h : R s t) (a : Word) : R s (Machine.memRead a t).2 :=
  C.endCycle (C.countCycle (C.trans (C.stallFor 76 h) (C.read a _)))

theorem memWrite (C : Closed R) (h : R s t) (a : Word) (v : Byte) : R s (Machine.memWrite a v t) :=
  C.endCycle (C.countCycle (C.trans h (C.write a v t)))

theorem dummyRead (C : Closed R) (h : R s t) (a : Word) : R s (Machine.dummyRead a t) := C.memRead h a
theorem dummyReadPC (C : Closed R) (h : R s t) : R s (Machine.dummyReadPC t) := C.dummyRead h _
theorem dummyReadStack (C : Closed R) (h : R s t) : R s (Machine.dummyReadStack t) := C.dummyRead h _
theorem fetchByte (C : Closed R) (h : R s t) : R s (Machine.fetchByte t).2 := C.countByte (C.setPC (C.memRead h _) _)
theorem push (C : Closed R) (h : R s t) (v : Byte) : R s (Machine.push v t) := C.setS (C.memWrite h _ _) _
theorem pull (C : Closed R) (h : R s t) : R s (Machine.pull t).2 := C.memRead (C.setS h _) _

theorem takeTrap (C : Closed R) (h : R s t) : R s (Machine.takeTrap t) :=
  C.setPC (C.memRead (C.memRead (C.setP (C.push (C.push (C.push h _) _) _) _) _) _) _

theorem returnFromTrap (C : Closed R) (h : R s t) : R s (Machine.returnFromTrap t) :=
  C.setPC (C.pull (C.pull (C.setP (C.pull (C.dummyReadStack h)) _))) _

/-! ### Operands -/

theorem readPointer (C : Closed R) (h : R s t) (p : Byte) : R s (Machine.readPointer p t).2 := C.memRead (C.memRead h _) _

theorem readIndexed (C : Closed R) (h : R s t) (w : Word) (i : Byte) : R s (Machine.readIndexed w i t).2 := by
  simp only [Machine.readIndexed]
  split
  · exact C.memRead (C.markCrossed (C.memRead h _)) _
  · exact C.memRead h _

theorem readZp (C : Closed R) (h : R s t) (a : Byte) : R s (Machine.readZp a t).2 := C.memRead h _
theorem readZpx (C : Closed R) (h : R s t) (a : Byte) : R s (Machine.readZpx a t).2 := C.memRead (C.dummyRead h _) _
theorem readZpy (C : Closed R) (h : R s t) (a : Byte) : R s (Machine.readZpy a t).2 := C.memRead (C.dummyRead h _) _
theorem readAbs (C : Closed R) (h : R s t) (w : Word) : R s (Machine.readAbs w t).2 := C.memRead h _
theorem readAbsx (C : Closed R) (h : R s t) (w : Word) : R s (Machine.readAbsx w t).2 := C.readIndexed h _ _
theorem readAbsy (C : Closed R) (h : R s t) (w : Word) : R s (Machine.readAbsy w t).2 := C.readIndexed h _ _
theorem eaIndx (C : Closed R) (h : R s t) (p : Byte) : R s (Machine.eaIndx p t).2 := C.readPointer (C.dummyRead h _) _
theorem readIndx (C : Closed R) (h : R s t) (p : Byte) : R s (Machine.readIndx p t).2 := C.memRead (C.eaIndx h p) _
theorem readIndy (C : Closed R) (h : R s t) (p : Byte) : R s (Machine.readIndy p t).2 := C.readIndexed (C.readPointer h p) _ _
theorem eaIndy (C : Closed R) (h : R s t) (p : Byte) : R s (Machine.eaIndy p t).2 := C.dummyRead (C.readPointer h p) _

theorem loadA (C : Closed R) {r : Byte × State} (h : R s r.2) : R s (Machine.loadA r) := C.setNZ (C.setA h _) _
theorem loadX (C : Closed R) {r : Byte × State} (h : R s r.2) : R s (Machine.loadX r) := C.setNZ (C.setX h _) _
theorem loadY (C : Closed R) {r : Byte × State} (h : R s r.2) : R s (Machine.loadY r) := C.setNZ (C.setY h _) _
theorem addOperand (C : Closed R) {r : Byte × State} (h : R s r.2) : R s (Machine.addOperand r) := C.setP (C.setA h _) _
theorem subOperand (C : Closed R) {r : Byte × State} (h : R s r.2) : R s (Machine.subOperand r) := C.setP (C.setA h _) _
theorem combineA (C : Closed R) (f : Byte → Byte → Byte) {r : Byte × State} (h : R s r.2) : R s (Machine.combineA f r) :=
  C.setNZ (C.setA h _) _
theorem setP_of (C : Closed R) {r : Byte × State} (h : R s r.2) (p : Flags) : R s (r.2.setP p) := C.setP h p

theorem modifyAt (C : Closed R) (f : Byte → Flags → ShiftResult) {ea : Word × State} (h : R s ea.2) :
    R s (Machine.modifyAt f ea) :=
  C.markBug (C.setP (C.memWrite (C.memWrite (C.memRead h _) _ _) _ _) _) _

theorem modifyA (C : Closed R) (h : R s t) (f : Byte → Flags → ShiftResult) : R s (Machine.modifyA f t) :=
  C.setP (C.setA (C.dummyReadPC h) _) _

theorem jumpIndirect (C : Closed R) (h : R s t) (w : Word) : R s (Machine.jumpIndirect w t) := by
  have h1 : ∀ pc, R s ((Machine.memRead (mkWord (hiByte w) (loByte w + 1)) (Machine.memRead w t).2).2.setPC pc) :=
    C.setPC (C.memRead (C.memRead h _) _)
  simp only [Machine.jumpIndirect]
  split
  · exact C.markBug (h1 _) _
  · exact h1 _

theorem callSubroutine (C : Closed R) (h : R s t) (l : Byte) : R s (Machine.callSubroutine l t) :=
  C.countByte (C.setPC (C.memRead (C.push (C.push (C.dummyReadStack h) _) _) _) _)

theorem returnSubroutine (C : Closed R) (h : R s t) : R s (Machine.returnSubroutine t) :=
  C.setPC (C.dummyRead (C.setPC (C.pull (C.pull (C.dummyReadStack (C.dummyReadPC h)))) _) _) _

theorem branchIf (C : Closed R) (h : R s t) (c : Bool) (off : Byte) : R s (Machine.branchIf c off t) := by
  have h1 : ∀ pc, R s ((Machine.dummyRead t.cpu.pc t).setPC pc) := C.setPC (C.dummyRead h _)
  simp only [Machine.branchIf]
  split
  · split
    · exact h1 _
    · exact C.markCrossed (C.setPC (C.dummyRead (h1 _) _) _)
  · exact h

theorem setFlag (C : Closed R) (h : R s t) (f : Flags → Flags) : R s (Machine.setFlag f t) := C.setP (C.dummyReadPC h) _

theorem of_next (_ : Closed R) {u : State} (h : Host.Outcome.next u = (.next t : Host.Outcome State Fault Refusal)) (r : R s u) : R s t :=
  Host.Outcome.next.inj h ▸ r

/-- Across every instruction. -/
theorem exec (C : Closed R) {i : Instr} (h : Machine.exec i s = .next t) : R s t := by
  have r := C.refl s
  match i with
  | .brk => exact C.of_next h (C.takeTrap (C.setPC (C.dummyReadPC r) _))
  | .oraIndx _ => exact C.of_next h (C.combineA _ (C.readIndx r _))
  | .oraZp _ => exact C.of_next h (C.combineA _ (C.readZp r _))
  | .aslZp _ => exact C.of_next h (C.modifyAt _ r)
  | .php => exact C.of_next h (C.push (C.dummyReadPC r) _)
  | .oraImm _ => exact C.of_next h (C.combineA _ r)
  | .aslAcc => exact C.of_next h (C.modifyA r _)
  | .oraAbs _ => exact C.of_next h (C.combineA _ (C.readAbs r _))
  | .aslAbs _ => exact C.of_next h (C.modifyAt _ r)
  | .bpl _ => exact C.of_next h (C.branchIf r _ _)
  | .oraIndy _ => exact C.of_next h (C.combineA _ (C.readIndy r _))
  | .oraZpx _ => exact C.of_next h (C.combineA _ (C.readZpx r _))
  | .aslZpx _ => exact C.of_next h (C.modifyAt _ (C.dummyRead r _))
  | .clc => exact C.of_next h (C.setFlag r _)
  | .oraAbsy _ => exact C.of_next h (C.combineA _ (C.readAbsy r _))
  | .oraAbsx _ => exact C.of_next h (C.combineA _ (C.readAbsx r _))
  | .aslAbsx _ => exact C.of_next h (C.modifyAt _ (C.dummyRead r _))
  | .jsr _ => exact C.of_next h (C.callSubroutine r _)
  | .andIndx _ => exact C.of_next h (C.combineA _ (C.readIndx r _))
  | .bitZp _ => exact C.of_next h (C.setP (C.readZp r _) _)
  | .andZp _ => exact C.of_next h (C.combineA _ (C.readZp r _))
  | .rolZp _ => exact C.of_next h (C.modifyAt _ r)
  | .plp => exact C.of_next h (C.setP (C.pull (C.dummyReadStack (C.dummyReadPC r))) _)
  | .andImm _ => exact C.of_next h (C.combineA _ r)
  | .rolAcc => exact C.of_next h (C.modifyA r _)
  | .bitAbs _ => exact C.of_next h (C.setP (C.readAbs r _) _)
  | .andAbs _ => exact C.of_next h (C.combineA _ (C.readAbs r _))
  | .rolAbs _ => exact C.of_next h (C.modifyAt _ r)
  | .bmi _ => exact C.of_next h (C.branchIf r _ _)
  | .andIndy _ => exact C.of_next h (C.combineA _ (C.readIndy r _))
  | .andZpx _ => exact C.of_next h (C.combineA _ (C.readZpx r _))
  | .rolZpx _ => exact C.of_next h (C.modifyAt _ (C.dummyRead r _))
  | .sec => exact C.of_next h (C.setFlag r _)
  | .andAbsy _ => exact C.of_next h (C.combineA _ (C.readAbsy r _))
  | .andAbsx _ => exact C.of_next h (C.combineA _ (C.readAbsx r _))
  | .rolAbsx _ => exact C.of_next h (C.modifyAt _ (C.dummyRead r _))
  | .rti => exact C.of_next h (C.returnFromTrap (C.dummyReadPC r))
  | .eorIndx _ => exact C.of_next h (C.combineA _ (C.readIndx r _))
  | .eorZp _ => exact C.of_next h (C.combineA _ (C.readZp r _))
  | .lsrZp _ => exact C.of_next h (C.modifyAt _ r)
  | .pha => exact C.of_next h (C.push (C.dummyReadPC r) _)
  | .eorImm _ => exact C.of_next h (C.combineA _ r)
  | .lsrAcc => exact C.of_next h (C.modifyA r _)
  | .jmpAbs _ => exact C.of_next h (C.setPC r _)
  | .eorAbs _ => exact C.of_next h (C.combineA _ (C.readAbs r _))
  | .lsrAbs _ => exact C.of_next h (C.modifyAt _ r)
  | .bvc _ => exact C.of_next h (C.branchIf r _ _)
  | .eorIndy _ => exact C.of_next h (C.combineA _ (C.readIndy r _))
  | .eorZpx _ => exact C.of_next h (C.combineA _ (C.readZpx r _))
  | .lsrZpx _ => exact C.of_next h (C.modifyAt _ (C.dummyRead r _))
  | .cli => exact C.of_next h (C.setFlag r _)
  | .eorAbsy _ => exact C.of_next h (C.combineA _ (C.readAbsy r _))
  | .eorAbsx _ => exact C.of_next h (C.combineA _ (C.readAbsx r _))
  | .lsrAbsx _ => exact C.of_next h (C.modifyAt _ (C.dummyRead r _))
  | .rts => exact C.of_next h (C.returnSubroutine r)
  | .adcIndx _ => exact C.of_next h (C.addOperand (C.readIndx r _))
  | .adcZp _ => exact C.of_next h (C.addOperand (C.readZp r _))
  | .rorZp _ => exact C.of_next h (C.modifyAt _ r)
  | .pla => exact C.of_next h (C.setNZ (C.setA (C.pull (C.dummyReadStack (C.dummyReadPC r))) _) _)
  | .adcImm _ => exact C.of_next h (C.addOperand r)
  | .rorAcc => exact C.of_next h (C.modifyA r _)
  | .jmpInd _ => exact C.of_next h (C.jumpIndirect r _)
  | .adcAbs _ => exact C.of_next h (C.addOperand (C.readAbs r _))
  | .rorAbs _ => exact C.of_next h (C.modifyAt _ r)
  | .bvs _ => exact C.of_next h (C.branchIf r _ _)
  | .adcIndy _ => exact C.of_next h (C.addOperand (C.readIndy r _))
  | .adcZpx _ => exact C.of_next h (C.addOperand (C.readZpx r _))
  | .rorZpx _ => exact C.of_next h (C.modifyAt _ (C.dummyRead r _))
  | .sei => exact C.of_next h (C.setFlag r _)
  | .adcAbsy _ => exact C.of_next h (C.addOperand (C.readAbsy r _))
  | .adcAbsx _ => exact C.of_next h (C.addOperand (C.readAbsx r _))
  | .rorAbsx _ => exact C.of_next h (C.modifyAt _ (C.dummyRead r _))
  | .staIndx _ => exact C.of_next h (C.memWrite (C.eaIndx r _) _ _)
  | .styZp _ => exact C.of_next h (C.memWrite r _ _)
  | .staZp _ => exact C.of_next h (C.memWrite r _ _)
  | .stxZp _ => exact C.of_next h (C.memWrite r _ _)
  | .dey => exact C.of_next h (C.setNZ (C.setY (C.dummyReadPC r) _) _)
  | .txa => exact C.of_next h (C.setNZ (C.setA (C.dummyReadPC r) _) _)
  | .styAbs _ => exact C.of_next h (C.memWrite r _ _)
  | .staAbs _ => exact C.of_next h (C.memWrite r _ _)
  | .stxAbs _ => exact C.of_next h (C.memWrite r _ _)
  | .bcc _ => exact C.of_next h (C.branchIf r _ _)
  | .staIndy _ => exact C.of_next h (C.memWrite (C.eaIndy r _) _ _)
  | .styZpx _ => exact C.of_next h (C.memWrite (C.dummyRead r _) _ _)
  | .staZpx _ => exact C.of_next h (C.memWrite (C.dummyRead r _) _ _)
  | .stxZpy _ => exact C.of_next h (C.memWrite (C.dummyRead r _) _ _)
  | .tya => exact C.of_next h (C.setNZ (C.setA (C.dummyReadPC r) _) _)
  | .staAbsy _ => exact C.of_next h (C.memWrite (C.dummyRead r _) _ _)
  | .txs => exact C.of_next h (C.setS (C.dummyReadPC r) _)
  | .staAbsx _ => exact C.of_next h (C.memWrite (C.dummyRead r _) _ _)
  | .ldyImm _ => exact C.of_next h (C.loadY r)
  | .ldaIndx _ => exact C.of_next h (C.loadA (C.readIndx r _))
  | .ldxImm _ => exact C.of_next h (C.loadX r)
  | .ldyZp _ => exact C.of_next h (C.loadY (C.readZp r _))
  | .ldaZp _ => exact C.of_next h (C.loadA (C.readZp r _))
  | .ldxZp _ => exact C.of_next h (C.loadX (C.readZp r _))
  | .tay => exact C.of_next h (C.setNZ (C.setY (C.dummyReadPC r) _) _)
  | .ldaImm _ => exact C.of_next h (C.loadA r)
  | .tax => exact C.of_next h (C.setNZ (C.setX (C.dummyReadPC r) _) _)
  | .ldyAbs _ => exact C.of_next h (C.loadY (C.readAbs r _))
  | .ldaAbs _ => exact C.of_next h (C.loadA (C.readAbs r _))
  | .ldxAbs _ => exact C.of_next h (C.loadX (C.readAbs r _))
  | .bcs _ => exact C.of_next h (C.branchIf r _ _)
  | .ldaIndy _ => exact C.of_next h (C.loadA (C.readIndy r _))
  | .ldyZpx _ => exact C.of_next h (C.loadY (C.readZpx r _))
  | .ldaZpx _ => exact C.of_next h (C.loadA (C.readZpx r _))
  | .ldxZpy _ => exact C.of_next h (C.loadX (C.readZpy r _))
  | .clv => exact C.of_next h (C.setFlag r _)
  | .ldaAbsy _ => exact C.of_next h (C.loadA (C.readAbsy r _))
  | .tsx => exact C.of_next h (C.setNZ (C.setX (C.dummyReadPC r) _) _)
  | .ldyAbsx _ => exact C.of_next h (C.loadY (C.readAbsx r _))
  | .ldaAbsx _ => exact C.of_next h (C.loadA (C.readAbsx r _))
  | .ldxAbsy _ => exact C.of_next h (C.loadX (C.readAbsy r _))
  | .cpyImm _ => exact C.of_next h (C.setP r _)
  | .cmpIndx _ => exact C.of_next h (C.setP (C.readIndx r _) _)
  | .cpyZp _ => exact C.of_next h (C.setP (C.readZp r _) _)
  | .cmpZp _ => exact C.of_next h (C.setP (C.readZp r _) _)
  | .decZp _ => exact C.of_next h (C.modifyAt _ r)
  | .iny => exact C.of_next h (C.setNZ (C.setY (C.dummyReadPC r) _) _)
  | .cmpImm _ => exact C.of_next h (C.setP r _)
  | .dex => exact C.of_next h (C.setNZ (C.setX (C.dummyReadPC r) _) _)
  | .cpyAbs _ => exact C.of_next h (C.setP (C.readAbs r _) _)
  | .cmpAbs _ => exact C.of_next h (C.setP (C.readAbs r _) _)
  | .decAbs _ => exact C.of_next h (C.modifyAt _ r)
  | .bne _ => exact C.of_next h (C.branchIf r _ _)
  | .cmpIndy _ => exact C.of_next h (C.setP (C.readIndy r _) _)
  | .cmpZpx _ => exact C.of_next h (C.setP (C.readZpx r _) _)
  | .decZpx _ => exact C.of_next h (C.modifyAt _ (C.dummyRead r _))
  | .cld => exact C.of_next h (C.setFlag r _)
  | .cmpAbsy _ => exact C.of_next h (C.setP (C.readAbsy r _) _)
  | .cmpAbsx _ => exact C.of_next h (C.setP (C.readAbsx r _) _)
  | .decAbsx _ => exact C.of_next h (C.modifyAt _ (C.dummyRead r _))
  | .cpxImm _ => exact C.of_next h (C.setP r _)
  | .sbcIndx _ => exact C.of_next h (C.subOperand (C.readIndx r _))
  | .cpxZp _ => exact C.of_next h (C.setP (C.readZp r _) _)
  | .sbcZp _ => exact C.of_next h (C.subOperand (C.readZp r _))
  | .incZp _ => exact C.of_next h (C.modifyAt _ r)
  | .inx => exact C.of_next h (C.setNZ (C.setX (C.dummyReadPC r) _) _)
  | .sbcImm _ => exact C.of_next h (C.subOperand r)
  | .nop => exact C.of_next h (C.dummyReadPC r)
  | .cpxAbs _ => exact C.of_next h (C.setP (C.readAbs r _) _)
  | .sbcAbs _ => exact C.of_next h (C.subOperand (C.readAbs r _))
  | .incAbs _ => exact C.of_next h (C.modifyAt _ r)
  | .beq _ => exact C.of_next h (C.branchIf r _ _)
  | .sbcIndy _ => exact C.of_next h (C.subOperand (C.readIndy r _))
  | .sbcZpx _ => exact C.of_next h (C.subOperand (C.readZpx r _))
  | .incZpx _ => exact C.of_next h (C.modifyAt _ (C.dummyRead r _))
  | .sed => exact C.of_next h (C.setFlag r _)
  | .sbcAbsy _ => exact C.of_next h (C.subOperand (C.readAbsy r _))
  | .sbcAbsx _ => exact C.of_next h (C.subOperand (C.readAbsx r _))
  | .incAbsx _ => exact C.of_next h (C.modifyAt _ (C.dummyRead r _))

/-! ### The fetch and the step -/

/-- Across the fetch of the opcode, which starts a record. -/
theorem fetchOpcode (C : Closed R) (record : ∀ s r, R s { s with result := r }) (h : R s t) : R s (Machine.fetchOpcode t).2 :=
  C.trans (C.fetchByte (C.trans h (record t _))) (record _ _)

theorem fetchOperands (C : Closed R) (h : R s t) (op : Byte) : R s (Machine.fetchOperands op t).2 := by
  simp only [Machine.fetchOperands]
  split
  · exact h
  · exact h
  · exact C.fetchByte h
  · split
    · exact C.fetchByte h
    · exact C.fetchByte (C.fetchByte h)

/-- Across the fetch of an instruction. -/
theorem fetchInstr (C : Closed R) (record : ∀ s r, R s { s with result := r }) (raise : ∀ s f, R s (State.raise s f))
    (h : R s t) : R s (Machine.fetchInstr t).2 := by
  simp only [Machine.fetchInstr]
  split
  · exact C.fetchOperands (C.fetchOpcode record h) _
  · exact C.trans (C.fetchOpcode record h) (raise _ _)

/-- Across the end of an instruction. -/
theorem finishInstr (C : Closed R) (raise : ∀ s f, R s (State.raise s f)) (h : R s t) : R s (Machine.finishInstr t) := by
  simp only [Machine.finishInstr]
  split
  · exact C.trans h (C.cpu t _ _ rfl rfl)
  · exact C.trans h (raise _ _)

/-- Across every step. -/
theorem step (C : Closed R) (record : ∀ s r, R s { s with result := r }) (raise : ∀ s f, R s (State.raise s f))
    (h : Machine.step s = .next t) : R s t := by
  have hf := C.fetchInstr record raise (C.refl s)
  revert hf h
  simp only [Machine.step]
  split
  · exact fun h => by cases h
  · exact fun h => by cases h
  · generalize Machine.fetchInstr s = f
    rcases f with ⟨_ | i, u⟩
    · intro h hf; injection h with h; exact h ▸ hf
    · intro h hf
      dsimp only at h hf
      generalize he : Machine.exec i u = o at h
      cases o with
      | next v => injection h with h; exact h ▸ C.finishInstr raise (C.trans hf (C.exec he))
      | fault => cases h
      | refused => cases h

end Closed

/-- Every instruction's meaning answers a next state. -/
theorem exec_completes (i : Instr) (s : State) : ∃ t, exec i s = .next t := by
  cases i <;> exact ⟨_, rfl⟩

/-- An instruction keeps the opcode and the definition its fetch recorded. -/
theorem exec_record {i : Instr} {s t : State} (h : Machine.exec i s = .next t) :
    t.result.opcode = s.result.opcode ∧ t.result.defn = s.result.defn := by
  have C : Closed (fun s t => t.result.opcode = s.result.opcode ∧ t.result.defn = s.result.defn) :=
    { refl := fun _ => ⟨rfl, rfl⟩
      trans := fun h k => ⟨k.1.trans h.1, k.2.trans h.2⟩
      cpu := fun _ _ _ h k => ⟨h, k⟩
      read := fun a s => by rw [busRead_result]; exact ⟨rfl, rfl⟩
      write := fun a v s => by rw [busWrite_result]; exact ⟨rfl, rfl⟩
      cycle := fun s => by rw [endCycle_result]; exact ⟨rfl, rfl⟩ }
  exact C.exec h

end Sys2Proof.Machine
end

