-- ==== Sys2Proof/Laws/Operands.lean ====
section
/-! SUPPORT. What each addressing mode can do: the CPU's registers are kept, the cycles are counted, nothing is stored. -/

namespace Sys2Proof.Machine

/-- A pure read sequence: it keeps the CPU's registers and RAM, counts its cycles and stores nothing. -/
structure ReadSeq (n : Nat) (crossed : Bool) (s t : State) : Prop where
  cpu : t.cpu = s.cpu
  ram : t.ram = s.ram
  result : t.result = recordAfter s.result n crossed
  frame : Frame [] s t

theorem ReadSeq.refl (s : State) : ReadSeq 0 false s s := ⟨rfl, rfl, by simp [recordAfter], Frame.refl s⟩

theorem ReadSeq.trans {n m : Nat} {b : Bool} {s t u : State} (h : ReadSeq n false s t) (k : ReadSeq m b t u) :
    ReadSeq (n + m) b s u :=
  ⟨k.cpu.trans h.cpu, k.ram.trans h.ram, by rw [k.result, h.result]; simp [recordAfter]; omega,
    h.frame.trans_nil k.frame⟩

theorem memRead_seq (a : Word) (s : State) : ReadSeq 1 false s (memRead a s).2 :=
  ⟨memRead_cpu a s, memRead_ram a s, by simp [recordAfter], memRead_Frame a s⟩

theorem dummyRead_seq (a : Word) (s : State) : ReadSeq 1 false s (dummyRead a s) := memRead_seq a s

theorem eaZpIndexed_seq (a i : Byte) (s : State) : ReadSeq 1 false s (eaZpIndexed a i s).2 := dummyRead_seq _ s

theorem readPointer_seq (p : Byte) (s : State) : ReadSeq 2 false s (readPointer p s).2 := by
  unfold readPointer
  have h := memRead_seq (zpAddr p) s
  have k := memRead_seq (zpAddr (p + 1)) (memRead (zpAddr p) s).2
  exact h.trans k

theorem eaIndx_seq (p : Byte) (s : State) : ReadSeq 3 false s (eaIndx p s).2 :=
  (dummyRead_seq _ s).trans (readPointer_seq _ _)

theorem eaFixed_seq (w : Word) (i : Byte) (s : State) : ReadSeq 1 false s (eaFixed w i s).2 := dummyRead_seq _ s

theorem eaIndy_seq (p : Byte) (s : State) : ReadSeq 3 false s (eaIndy p s).2 :=
  (readPointer_seq p s).trans (eaFixed_seq _ _ _)

theorem readIndexed_seq (w : Word) (i : Byte) (s : State) : ReadSeq 1 (crosses w i) s (readIndexed w i s).2 := by
  unfold readIndexed
  have h := memRead_seq (unfixed w i) s
  generalize memRead (unfixed w i) s = r at h ⊢
  cases crosses w i
  · simp only [Bool.false_eq_true, if_false]
    exact h
  · simp only [if_true]
    have k := memRead_seq (indexed w i) r.2.markCrossed
    refine ⟨k.cpu.trans h.cpu, k.ram.trans h.ram, ?_, h.frame.markCrossed.trans_nil k.frame⟩
    rw [k.result]
    have hr := h.result
    simp [hr, recordAfter, State.markCrossed]

theorem readZp_seq (a : Byte) (s : State) : ReadSeq 1 false s (readZp a s).2 := memRead_seq _ s
theorem readZpx_seq (a : Byte) (s : State) : ReadSeq 2 false s (readZpx a s).2 := (eaZpIndexed_seq a _ s).trans (memRead_seq _ _)
theorem readZpy_seq (a : Byte) (s : State) : ReadSeq 2 false s (readZpy a s).2 := (eaZpIndexed_seq a _ s).trans (memRead_seq _ _)
theorem readAbs_seq (w : Word) (s : State) : ReadSeq 1 false s (readAbs w s).2 := memRead_seq w s
theorem readAbsx_seq (w : Word) (s : State) : ReadSeq 1 (crosses w s.cpu.x) s (readAbsx w s).2 := readIndexed_seq w _ s
theorem readAbsy_seq (w : Word) (s : State) : ReadSeq 1 (crosses w s.cpu.y) s (readAbsy w s).2 := readIndexed_seq w _ s
theorem readIndx_seq (p : Byte) (s : State) : ReadSeq 4 false s (readIndx p s).2 := (eaIndx_seq p s).trans (memRead_seq _ _)
theorem readIndy_seq (p : Byte) (s : State) :
    ReadSeq 3 (crosses (readPointer p s).1 s.cpu.y) s (readIndy p s).2 :=
  (readPointer_seq p s).trans (readIndexed_seq _ _ _)

/-! ### Stores -/

/-- The end of a Write-class instruction: the registers kept, one store, one more cycle. -/
structure StoreSeq (n : Nat) (ea : Word) (v : Byte) (s t : State) : Prop where
  cpu : t.cpu = s.cpu
  ram : t.ram = if areaOf (addr13 ea) = .ram then s.ram.write (writeLocal (addr13 ea)) v else s.ram
  result : t.result = recordAfter s.result n false
  lastAccess : t.lastAccess = some { address := ea, value := v, isWrite := true }
  frame : Frame [ea] s t

theorem storeAt_seq {n : Nat} {s : State} {ea : Word × State} (h : ReadSeq n false s ea.2) (v : Byte) :
    StoreSeq (n + 1) ea.1 v s (storeAt v ea) where
  cpu := (memWrite_cpu _ _ _).trans h.cpu
  ram := by rw [storeAt, memWrite_ram, h.ram]
  result := by rw [storeAt, memWrite_result, h.result]; simp [recordAfter]; omega
  lastAccess := memWrite_lastAccess _ _ _
  frame := h.frame.nil_trans (memWrite_Frame _ _ _)

end Sys2Proof.Machine
end

