-- ==== Sys2Proof/Laws/Cpu.lean ====
section
/-! SUPPORT. The chips do not see the CPU's registers or the result record: a cycle commutes with a change of them. -/

namespace Sys2Proof.Machine

/-- The state with other CPU registers and another result record. -/
def State.withCpu (s : State) (c : Cpu) (r : ResultRecord) : State := { s with cpu := c, result := r }

@[simp] theorem State.withCpu_self (s : State) : s.withCpu s.cpu s.result = s := rfl
@[simp] theorem State.withCpu_withCpu (s : State) (c d : Cpu) (r q : ResultRecord) :
    (s.withCpu c r).withCpu d q = s.withCpu d q := rfl
@[simp] theorem State.withCpu_cpu (s : State) (c : Cpu) (r : ResultRecord) : (s.withCpu c r).cpu = c := rfl
@[simp] theorem State.withCpu_result (s : State) (c : Cpu) (r : ResultRecord) : (s.withCpu c r).result = r := rfl

theorem drawPos_withCpu (o : Obj) (s : State) (c : Cpu) (r : ResultRecord) :
    drawPos o (s.withCpu c r) = (drawPos o s).withCpu c r := rfl

theorem drawAllPos_withCpu (s : State) (c : Cpu) (r : ResultRecord) :
    drawAllPos (s.withCpu c r) = (drawAllPos s).withCpu c r := rfl

theorem storeLatch_withCpu (l : TiaLatch) (v : Byte) (s : State) (c : Cpu) (r : ResultRecord) :
    storeLatch l v (s.withCpu c r) = (storeLatch l v s).withCpu c r := by
  have h : (s.withCpu c r).tia = s.tia := rfl
  have hp : (s.withCpu c r).params = s.params := rfl
  cases l <;> simp only [storeLatch, TiaLatch.motionOf, h, hp] <;> first
    | rfl
    | (split <;> rfl)

theorem resetPosition_withCpu (o : Obj) (s : State) (c : Cpu) (r : ResultRecord) :
    resetPosition o (s.withCpu c r) = (resetPosition o s).withCpu c r := by
  have h : (s.withCpu c r).tia = s.tia := rfl
  have hp : (s.withCpu c r).params = s.params := rfl
  simp only [resetPosition, h, hp]
  split <;> split <;> rfl

theorem hmoveAction_withCpu (s : State) (c : Cpu) (r : ResultRecord) :
    hmoveAction (s.withCpu c r) = (hmoveAction s).withCpu c r := by
  have h : (s.withCpu c r).tia = s.tia := rfl
  have hp : (s.withCpu c r).params = s.params := rfl
  simp only [hmoveAction, h, hp]
  split <;> rfl

theorem hmclrAction_withCpu (s : State) (c : Cpu) (r : ResultRecord) :
    hmclrAction (s.withCpu c r) = (hmclrAction s).withCpu c r := by
  have h : (s.withCpu c r).tia = s.tia := rfl
  have hp : (s.withCpu c r).params = s.params := rfl
  simp only [hmclrAction, h, hp]
  split <;> rfl

theorem fireAction_withCpu (a : TiaAction) (s : State) (c : Cpu) (r : ResultRecord) :
    fireAction a (s.withCpu c r) = (fireAction a s).withCpu c r := by
  cases a with
  | resetPos o => exact resetPosition_withCpu o s c r
  | hmove => exact hmoveAction_withCpu s c r
  | hmclr => exact hmclrAction_withCpu s c r
  | cxclr => rfl
  | rsync => rfl
  | store l v => exact storeLatch_withCpu l v s c r

theorem fireAll_withCpu (fs : List Future) (s : State) (c : Cpu) (r : ResultRecord) :
    fireAll fs (s.withCpu c r) = (fireAll fs s).withCpu c r := by
  induction fs generalizing s with
  | nil => rfl
  | cons f rest ih => rw [fireAll, fireAll, fireAction_withCpu, ih]

theorem drawPixel_withCpu (s : State) (c : Cpu) (r : ResultRecord) :
    drawPixel (s.withCpu c r) = ((drawPixel s).1, (drawPixel s).2.1, (drawPixel s).2.2.withCpu c r) := by
  have h : (s.withCpu c r).tia = s.tia := rfl
  have hp : (s.withCpu c r).params = s.params := rfl
  simp only [drawPixel, h, hp]
  split
  · rfl
  · split <;> rfl

theorem reportAll_withCpu (rs : List Report) (s : State) (c : Cpu) (r : ResultRecord) :
    reportAll rs (s.withCpu c r) = (reportAll rs s).withCpu c r := rfl

theorem sendSignal_withCpu (a : Attrs) (s : State) (c : Cpu) (r : ResultRecord) :
    sendSignal a (s.withCpu c r) = (sendSignal a s).withCpu c r :=
  reportAll_withCpu _ { s with
    tv := (tvSignal s.params a s.tv).tv, sink := (tvSignal s.params a s.tv).events.reverse ++ s.sink } c r

theorem audioEvent_withCpu (s : State) (c : Cpu) (r : ResultRecord) :
    audioEvent (s.withCpu c r) = (audioEvent s).withCpu c r := by
  have h : (s.withCpu c r).tia = s.tia := rfl
  have hp : (s.withCpu c r).params = s.params := rfl
  simp only [audioEvent, h, hp]
  split <;> rfl

theorem runFutures_withCpu (s : State) (c : Cpu) (r : ResultRecord) :
    runFutures (s.withCpu c r) = (runFutures s).withCpu c r :=
  fireAll_withCpu (dueNow s.tia.futures) { s with tia := { s.tia with futures := stillPending s.tia.futures } } c r

theorem beamTick_withCpu (s : State) (c : Cpu) (r : ResultRecord) : beamTick (s.withCpu c r) = (beamTick s).withCpu c r := by
  have h1 := runFutures_withCpu { s with tia := advanceClock s.params s.tia } c r
  have h2 := drawPixel_withCpu
    { runFutures { s with tia := advanceClock s.params s.tia } with
      tia := resmpLock (runFutures { s with tia := advanceClock s.params s.tia }).params
        (runFutures { s with tia := advanceClock s.params s.tia }).tia } c r
  have e1 : ({ s.withCpu c r with tia := advanceClock (s.withCpu c r).params (s.withCpu c r).tia } : State) =
    State.withCpu { s with tia := advanceClock s.params s.tia } c r := rfl
  simp only [beamTick]
  rw [e1, h1]
  generalize runFutures { s with tia := advanceClock s.params s.tia } = u at h2 ⊢
  have e2 : ({ u.withCpu c r with tia := resmpLock (u.withCpu c r).params (u.withCpu c r).tia } : State) =
    State.withCpu { u with tia := resmpLock u.params u.tia } c r := rfl
  rw [e2, h2]
  generalize drawPixel { u with tia := resmpLock u.params u.tia } = d
  have e3 : (d.2.2.withCpu c r).tia = d.2.2.tia := rfl
  simp only [e3, sendSignal_withCpu, audioEvent_withCpu]

theorem tiaTick_withCpu (s : State) (c : Cpu) (r : ResultRecord) : tiaTick (s.withCpu c r) = (tiaTick s).withCpu c r :=
  beamTick_withCpu (latchButtons s) c r

theorem endCycle_withCpu (s : State) (c : Cpu) (r : ResultRecord) : endCycle (s.withCpu c r) = (endCycle s).withCpu c r := by
  simp only [endCycle, tiaTick_withCpu]
  generalize tiaTick (tiaTick (tiaTick s)) = u
  rfl

theorem stallFor_withCpu (n : Nat) (s : State) (c : Cpu) (r : ResultRecord) :
    stallFor n (s.withCpu c r) = (stallFor n s).withCpu c r := by
  induction n generalizing s with
  | zero => rfl
  | succ n ih =>
    have h : (s.withCpu c r).tia = s.tia := rfl
    simp only [stallFor, h]
    split
    · rw [endCycle_withCpu, ih]
    · rfl

theorem stall_withCpu (s : State) (c : Cpu) (r : ResultRecord) : stall (s.withCpu c r) = (stall s).withCpu c r :=
  stallFor_withCpu 76 s c r

theorem busRead_withCpu (a : Word) (s : State) (c : Cpu) (r : ResultRecord) :
    busRead a (s.withCpu c r) = ((busRead a s).1, (busRead a s).2.withCpu c r) := by
  have h : (s.withCpu c r).cart = s.cart := rfl
  simp only [busRead, h]
  cases areaOf (addr13 a) with
  | ram => rfl
  | tia => simp only [areaRead, tiaRead, drawByte]; split <;> rfl
  | riot =>
    simp only [areaRead]
    cases riotReadReg (readLocal (addr13 a)) <;> rfl
  | cart =>
    simp only [areaRead, cartRead, drawByte, unreadable, h]
    split <;> rfl

/-- A read cycle gives the same byte whatever the CPU's registers are. -/
theorem memRead_withCpu (a : Word) (s : State) (c : Cpu) (r : ResultRecord) :
    memRead a (s.withCpu c r) =
      ((memRead a s).1, (memRead a s).2.withCpu c { r with cycles := r.cycles + 1 }) := by
  simp only [memRead, stall_withCpu, busRead_withCpu]
  generalize (busRead a (stall s)).2 = u
  have e : (u.withCpu c r).countCycle = u.countCycle.withCpu c { r with cycles := r.cycles + 1 } := rfl
  rw [e, endCycle_withCpu]

theorem tiaWrite_withCpu (loc : Nat) (v : Byte) (s : State) (c : Cpu) (r : ResultRecord) :
    tiaWrite loc v (s.withCpu c r) = (tiaWrite loc v s).withCpu c r := by
  have hp : (s.withCpu c r).params = s.params := rfl
  simp only [tiaWrite, hp]
  split
  · rfl
  · split
    · exact storeLatch_withCpu _ v s c r
    · rfl
  · rfl
  · split <;> rfl
  all_goals rfl

theorem busWrite_withCpu (a : Word) (v : Byte) (s : State) (c : Cpu) (r : ResultRecord) :
    busWrite a v (s.withCpu c r) = (busWrite a v s).withCpu c r := by
  have h : (s.withCpu c r).cart = s.cart := rfl
  simp only [busWrite, h]
  cases areaOf (addr13 a) with
  | ram => rfl
  | riot => rfl
  | tia => simp only [areaWrite, tiaWrite_withCpu, unwritable]; rfl
  | cart =>
    simp only [areaWrite, unwritable, h]
    rcases Bool.eq_false_or_eq_true (s.cart.inWritePort (writeLocal (addr13 a))) with hw | hw <;>
      simp only [hw, Bool.not_true, Bool.not_false, Bool.false_eq_true, if_true, if_false] <;> rfl

/-- A write cycle does the same whatever the CPU's registers are. -/
theorem memWrite_withCpu (a : Word) (v : Byte) (s : State) (c : Cpu) (r : ResultRecord) :
    memWrite a v (s.withCpu c r) = (memWrite a v s).withCpu c { r with cycles := r.cycles + 1 } := by
  simp only [memWrite, busWrite_withCpu]
  generalize busWrite a v s = u
  have e : (u.withCpu c r).countCycle = u.countCycle.withCpu c { r with cycles := r.cycles + 1 } := rfl
  rw [e, endCycle_withCpu]

theorem State.setA_eq (s : State) (v : Byte) : s.setA v = s.withCpu { s.cpu with a := v } s.result := rfl
theorem State.setX_eq (s : State) (v : Byte) : s.setX v = s.withCpu { s.cpu with x := v } s.result := rfl
theorem State.setY_eq (s : State) (v : Byte) : s.setY v = s.withCpu { s.cpu with y := v } s.result := rfl
theorem State.setS_eq (s : State) (v : Byte) : s.setS v = s.withCpu { s.cpu with sp := v } s.result := rfl
theorem State.setPC_eq (s : State) (w : Word) : s.setPC w = s.withCpu { s.cpu with pc := w } s.result := rfl
theorem State.setP_eq (s : State) (p : Flags) : s.setP p = s.withCpu { s.cpu with p := p } s.result := rfl

end Sys2Proof.Machine
end

