-- ==== Sys2Proof/Laws/Tick.lean ====
section
/-! SUPPORT. What a future, a TIA tick and one `Signal` to the television can do, each said once. -/

namespace Sys2Proof.Machine

/-! ### Futures -/

/-- What no future's action changes, and how it can change the counter and the age of an HMOVE. -/
structure FireKept (s t : State) : Prop where
  futures : t.tia.futures = s.tia.futures
  wsync : t.tia.wsync = s.tia.wsync
  hclock : t.tia.hclock = s.tia.hclock ∨ t.tia.hclock = 227
  hmoveAge : t.tia.hmoveAge = s.tia.hmoveAge ∨ t.tia.hmoveAge = some 0
  tv : t.tv = s.tv
  sink : t.sink = s.sink
  reports : t.reports = s.reports
  lastAccessId : t.lastAccessId = s.lastAccessId
  params : t.params = s.params

theorem FireKept.refl (s : State) : FireKept s s := ⟨rfl, rfl, .inl rfl, .inl rfl, rfl, rfl, rfl, rfl, rfl⟩

theorem FireKept.trans {s t u : State} (h : FireKept s t) (k : FireKept t u) : FireKept s u where
  futures := k.futures.trans h.futures
  wsync := k.wsync.trans h.wsync
  hclock := k.hclock.elim (fun e => by rw [e]; exact h.hclock) .inr
  hmoveAge := k.hmoveAge.elim (fun e => by rw [e]; exact h.hmoveAge) .inr
  tv := k.tv.trans h.tv
  sink := k.sink.trans h.sink
  reports := k.reports.trans h.reports
  lastAccessId := k.lastAccessId.trans h.lastAccessId
  params := k.params.trans h.params

theorem drawPos_kept (o : Obj) (s : State) : FireKept s (drawPos o s) := ⟨rfl, rfl, .inl rfl, .inl rfl, rfl, rfl, rfl, rfl, rfl⟩

theorem drawAllPos_kept (s : State) : FireKept s (drawAllPos s) :=
  ((((drawPos_kept _ _).trans (drawPos_kept _ _)).trans (drawPos_kept _ _)).trans (drawPos_kept _ _)).trans (drawPos_kept _ _)

/-- Five free positions, one per object, in the order P0, P1, M0, M1, BL. -/
theorem drawAllPos_eq (s : State) : drawAllPos s = { s with
    tia := { s.tia with pos :=
      { p0 := Config.freePos s.draws, p1 := Config.freePos (s.draws + 1), m0 := Config.freePos (s.draws + 2),
        m1 := Config.freePos (s.draws + 3), bl := Config.freePos (s.draws + 4) } },
    draws := s.draws + 5 } := by
  rcases s with ⟨cpu, result, ram, cart, la, lid, tia, riot, inputs, tv, sink, cc, cy, fault, refusal, reports, params, draws⟩
  simp only [drawAllPos, drawPos, PerObj.set]

/-- The stores of the players' graphics (61_tia R518, 70_reset_and_hazards R717). -/
theorem storeLatch_grp0 (v : Byte) (s : State) : storeLatch .grp0 v s = { s with tia := { s.tia with
    grp0new := v, grp1old := s.tia.grp1new, blOld := if s.params.ballCopy = .withGrp0 then s.tia.blNew else s.tia.blOld } } := by
  simp only [storeLatch, TiaLatch.motionOf, Tia.copyBall, TiaLatch.copiesBall, Tia.store, beq_iff_eq]

theorem storeLatch_grp1 (v : Byte) (s : State) : storeLatch .grp1 v s = { s with tia := { s.tia with
    grp1new := v, grp0old := s.tia.grp0new, blOld := if s.params.ballCopy = .withGrp1 then s.tia.blNew else s.tia.blOld } } := by
  simp only [storeLatch, TiaLatch.motionOf, Tia.copyBall, TiaLatch.copiesBall, Tia.store, beq_iff_eq]

/-- A latch's store leaves the futures, the clocks and the WSYNC latch. -/
theorem Tia.store_kept (t : Tia) (r : TiaLatch) (v : Byte) : (t.store r v).futures = t.futures ∧ (t.store r v).wsync = t.wsync ∧
    (t.store r v).hclock = t.hclock ∧ (t.store r v).hmoveAge = t.hmoveAge := by
  cases r <;> exact ⟨rfl, rfl, rfl, rfl⟩

theorem storeLatch_kept (r : TiaLatch) (v : Byte) (s : State) : FireKept s (storeLatch r v s) := by
  have k := Tia.store_kept s.tia r v
  have h : FireKept s { s with tia := (s.tia.store r v).copyBall s.params.ballCopy r } :=
    ⟨k.1, k.2.1, .inl k.2.2.1, .inl k.2.2.2, rfl, rfl, rfl, rfl, rfl⟩
  unfold storeLatch
  generalize (s.tia.store r v).copyBall s.params.ballCopy r = t at h
  split
  · exact ⟨h.futures, h.wsync, h.hclock, h.hmoveAge, rfl, rfl, rfl, rfl, rfl⟩
  · split
    · split
      · exact h.trans (drawPos_kept _ _)
      · exact h
    · exact h

theorem fireAction_kept (a : TiaAction) (s : State) : FireKept s (fireAction a s) := by
  cases a with
  | resetPos o =>
    simp only [fireAction, resetPosition]
    split <;> split <;> exact ⟨rfl, rfl, .inl rfl, .inl rfl, rfl, rfl, rfl, rfl, rfl⟩
  | hmove =>
    simp only [fireAction, hmoveAction]
    split
    · exact ⟨rfl, rfl, .inl rfl, .inr rfl, rfl, rfl, rfl, rfl, rfl⟩
    · refine (drawAllPos_kept s).trans ?_
      generalize drawAllPos s = u
      exact ⟨rfl, rfl, .inl rfl, .inl rfl, rfl, rfl, rfl, rfl, rfl⟩
  | hmclr =>
    have h : FireKept s { s with tia := { s.tia with hm := PerObj.all 0#4 } } :=
      ⟨rfl, rfl, .inl rfl, .inl rfl, rfl, rfl, rfl, rfl, rfl⟩
    simp only [fireAction, hmclrAction]
    split
    · exact h.trans (drawAllPos_kept _)
    · exact h
  | cxclr => exact ⟨rfl, rfl, .inl rfl, .inl rfl, rfl, rfl, rfl, rfl, rfl⟩
  | rsync => exact ⟨rfl, rfl, .inr rfl, .inl rfl, rfl, rfl, rfl, rfl, rfl⟩
  | store r v =>
    exact storeLatch_kept r v s

theorem fireAll_kept (fs : List Future) : ∀ s, FireKept s (fireAll fs s) := by
  induction fs with
  | nil => exact FireKept.refl
  | cons f rest ih => exact fun s => (fireAction_kept f.action s).trans (ih _)

/-- After the due futures, those still pending are one clock closer. -/
theorem runFutures_kept (s : State) :
    FireKept { s with tia := { s.tia with futures := stillPending s.tia.futures } } (runFutures s) := fireAll_kept _ _

/-! ### The pixel, the signal and the audio event -/

/-- The pixel changes the collision latches and the draws only. -/
theorem drawPixel_eq (s : State) : ∃ collisions draws,
    (drawPixel s).2.2 = { s with tia := { s.tia with collisions := collisions }, draws := draws } := by
  simp only [drawPixel]
  split
  · exact ⟨s.tia.collisions, s.draws, rfl⟩
  · split <;> split <;> exact ⟨_, _, rfl⟩

/-- The report log after several reports. -/
theorem reportAll_reports (rs : List Report) (s : State) : (reportAll rs s).reports =
    s.reports ++ rs.map (fun r => { report := r, accessId := s.lastAccessId }) := rfl

theorem reportAll_tv (rs : List Report) (s : State) : (reportAll rs s).tv = s.tv := rfl

/-- The television and the report log after a tick's `Signal`. -/
theorem sendSignal_tv (a : Attrs) (s : State) : (sendSignal a s).tv = (tvSignal s.params a s.tv).tv := reportAll_tv _ _

theorem sendSignal_reports (a : Attrs) (s : State) : (sendSignal a s).reports =
    s.reports ++ (tvSignal s.params a s.tv).checks.map (fun c => { report := .outOfSpec c, accessId := s.lastAccessId }) := by
  rw [sendSignal, reportAll_reports, List.map_map]; rfl

theorem audioEvent_tv (s : State) : (audioEvent s).tv = s.tv := by simp only [audioEvent]; split <;> rfl
theorem audioEvent_reports (s : State) : (audioEvent s).reports = s.reports := by simp only [audioEvent]; split <;> rfl

/-! ### The fire-button latches -/

/-- What a read of INPT4 or INPT5 and a Poke at VBLANK can see: the inputs, VBLANK's two input bits and the fire-button latches. -/
def buttons (s : State) : Inputs × Bool × Bool × Bool × Bool :=
  (s.inputs, s.tia.inptLatchEnable, s.tia.inptDump, s.tia.inpt4Low, s.tia.inpt5Low)

/-- An action other than a VBLANK store leaves them. -/
theorem fireAction_buttons (a : TiaAction) (s : State) (h : ∀ v, a ≠ .store .vblank v) : buttons (fireAction a s) = buttons s := by
  cases a with
  | resetPos o => simp only [fireAction, resetPosition]; split <;> split <;> rfl
  | hmove => simp only [fireAction, hmoveAction, drawAllPos_eq]; split <;> rfl
  | hmclr => simp only [fireAction, hmclrAction, drawAllPos_eq]; split <;> rfl
  | cxclr => rfl
  | rsync => rfl
  | store r v =>
    cases r <;> first
      | exact absurd rfl (h v)
      | (simp only [fireAction, storeLatch, TiaLatch.motionOf]; split <;> rfl)
      | rfl

theorem fireAll_buttons (l : List Future) (s : State) (h : ∀ f ∈ l, ∀ v, f.action ≠ .store .vblank v) :
    buttons (fireAll l s) = buttons s := by
  induction l generalizing s with
  | nil => rfl
  | cons f l ih =>
    exact (ih _ (fun g hg => h g (List.mem_cons_of_mem _ hg))).trans (fireAction_buttons _ _ (h f List.mem_cons_self))

/-- With no VBLANK store pending, the steps of a tick leave the fire-button latches to the sampling before them. -/
theorem beamTick_buttons (s : State) (h : ∀ f ∈ s.tia.futures, ∀ v, f.action ≠ .store .vblank v) :
    buttons (beamTick s) = buttons s := by
  have h1 : buttons { s with tia := advanceClock s.params s.tia } = buttons s := by simp only [advanceClock]; split <;> rfl
  have h2 : (advanceClock s.params s.tia).futures = s.tia.futures := by simp only [advanceClock]; split <;> rfl
  have h3 : buttons (runFutures { s with tia := advanceClock s.params s.tia }) = buttons s := by
    refine (fireAll_buttons _ _ fun f hf => h f ?_).trans h1
    have := (List.mem_filter.1 hf).1
    rw [← h2]; exact this
  simp only [beamTick]
  generalize runFutures { s with tia := advanceClock s.params s.tia } = u at h3
  obtain ⟨x, y, e⟩ := drawPixel_eq { u with tia := resmpLock u.params u.tia }
  have e1 : ∀ b v, buttons (audioEvent (sendSignal b v)) = buttons v := by
    intro b v
    have k1 := audioEvent_tia (sendSignal b v)
    have k2 := ((sendSignal_frame b v).trans (audioEvent_frame _)).inputs
    simp only [buttons, k1, k2, sendSignal_tia]
  rw [e1, e, ← h3]
  rfl

/-! ### The television's position -/

theorem TvWork.emitVisible_tv (w : TvWork) (e : SinkEvent) : (w.emitVisible e).tv = w.tv := by
  simp only [TvWork.emitVisible]; split <;> rfl

theorem tvNewLine_horizontal (w : TvWork) : (tvNewLine w).tv.horizontal = -68 := by
  simp only [tvNewLine]; rw [TvWork.emitVisible_tv]

theorem tvEdgeCheck_horizontal (a b : Bool) (l1 l2 l3 l4 : Int) (c : TvCheck) (w : TvWork) :
    (tvEdgeCheck a b l1 l2 l3 l4 c w).tv.horizontal = w.tv.horizontal := by
  simp only [tvEdgeCheck]; split <;> rfl

theorem tvOverlong_horizontal (w : TvWork) : (tvOverlong w).tv.horizontal = w.tv.horizontal := by
  simp only [tvOverlong]; split <;> rfl

theorem tvVsync_horizontal (p : Params) (a : Attrs) (w : TvWork) : (tvVsync p a w).tv.horizontal = w.tv.horizontal := by
  simp only [tvVsync]
  split
  · rfl
  · split
    · split <;> rfl
    · rfl

theorem tvDetect_horizontal (w : TvWork) : (tvDetect w).tv.horizontal = w.tv.horizontal := by
  simp only [tvDetect]; split <;> rfl

theorem tvLearn_horizontal (a : Attrs) (w : TvWork) : (tvLearn a w).tv.horizontal = w.tv.horizontal := by
  simp only [tvLearn]; split <;> rfl

theorem tvPixel_tv (a : Attrs) (w : TvWork) : (tvPixel a w).tv = w.tv := by
  simp only [tvPixel]
  split
  · rw [TvWork.emitVisible_tv, TvWork.emitVisible_tv]
  · rfl

/-- The horizontal position after one `Signal` (62_television R602, R603). -/
theorem tvSignal_horizontal (p : Params) (a : Attrs) (tv : Tv) : (tvSignal p a tv).tv.horizontal =
    if a.frontporch = true ∨ 159 ≤ tv.horizontal then -68 else tv.horizontal + 1 := by
  simp only [tvSignal, tvPixel_tv, tvLearn_horizontal, tvDetect_horizontal, tvVsync_horizontal, tvOverlong_horizontal, tvCburst,
    tvHsync, tvEdgeCheck_horizontal, tvHorizontal]
  by_cases hf : a.frontporch = true
  · simp [hf, tvNewLine_horizontal]
  · by_cases h : 159 ≤ tv.horizontal <;> simp [hf, h, tvNewLine_horizontal]

end Sys2Proof.Machine
end

