-- ==== Sys2Proof/Laws/Wsync.lean ====
section
/-! SUPPORT. The WSYNC hold: the latch and the horizontal counter over a tick and a cycle, and that the hold ends (61_tia R560). -/

namespace Sys2Proof.Machine

theorem beamTick_wsync (s : State) : (s.tia.wsync = false → (beamTick s).tia.wsync = false) ∧
   ((beamTick s).tia.wsync = false ∨ s.tia.hclock.val + 1 ≤ (beamTick s).tia.hclock.val) := by
  simp only [beamTick, audioEvent_tia, sendSignal_tia]
  have e2 : ∀ c : State, (drawPixel c).2.2.tia.wsync = c.tia.wsync ∧ (drawPixel c).2.2.tia.hclock = c.tia.hclock := by
    intro c; obtain ⟨x, y, h⟩ := drawPixel_eq c; rw [h]; exact ⟨rfl, rfl⟩
  rw [(e2 _).1, (e2 _).2]
  have k := runFutures_kept ({ s with tia := advanceClock s.params s.tia } : State)
  generalize runFutures { s with tia := advanceClock s.params s.tia } = b at k
  have kw : (resmpLock b.params b.tia).wsync = (advanceClock s.params s.tia).wsync := k.wsync
  have kh : (resmpLock b.params b.tia).hclock = (advanceClock s.params s.tia).hclock ∨ (resmpLock b.params b.tia).hclock = 227 := k.hclock
  dsimp only
  rw [kw]
  constructor
  · intro h; simp only [advanceClock]; split
    · rfl
    · exact h
  · by_cases hz : s.tia.hclock + 1 = 0
    · left; simp [advanceClock, hz]
    · right
      have hval : (s.tia.hclock + 1).val = s.tia.hclock.val + 1 := by
        have := s.tia.hclock.isLt
        rw [Fin.val_add]
        rcases Nat.lt_or_ge (s.tia.hclock.val + 1) 228 with h | h
        · exact Nat.mod_eq_of_lt h
        · exfalso; apply hz; apply Fin.ext; rw [Fin.val_add]
          have : s.tia.hclock.val = 227 := by omega
          rw [this]; rfl
      have hc : (advanceClock s.params s.tia).hclock = s.tia.hclock + 1 := by
        simp [advanceClock, hz]
      rcases kh with h | h
      · exact Nat.le_of_eq (by rw [h, hc, hval])
      · rw [h]
        have := s.tia.hclock.isLt
        have h2 := (s.tia.hclock + 1).isLt
        show _ ≤ 227
        omega

/-- A tick never sets the latch, and either clears it or moves the counter on. -/
theorem tiaTick_wsync (s : State) : (s.tia.wsync = false → (tiaTick s).tia.wsync = false) ∧
   ((tiaTick s).tia.wsync = false ∨ s.tia.hclock.val + 1 ≤ (tiaTick s).tia.hclock.val) := beamTick_wsync (latchButtons s)

/-- A cycle never sets the latch, and either clears it or moves the counter on by three. -/
theorem endCycle_wsync (s : State) : (s.tia.wsync = false → (endCycle s).tia.wsync = false) ∧
    ((endCycle s).tia.wsync = false ∨ s.tia.hclock.val + 3 ≤ (endCycle s).tia.hclock.val) := by
  rw [endCycle_tia, threeTicks]
  have h1 := tiaTick_wsync s
  have h2 := tiaTick_wsync (tiaTick s)
  have h3 := tiaTick_wsync (tiaTick (tiaTick s))
  generalize tiaTick (tiaTick (tiaTick s)) = c at *
  generalize tiaTick (tiaTick s) = b at *
  generalize tiaTick s = a at *
  refine ⟨fun h => h3.1 (h2.1 (h1.1 h)), ?_⟩
  rcases h1.2 with h | h
  · left; exact h3.1 (h2.1 h)
  · rcases h2.2 with k | k
    · left; exact h3.1 k
    · rcases h3.2 with l | l
      · exact .inl l
      · right; omega

/-- Enough cycles to the end of the line end the hold. -/
theorem stallFor_wsync (n : Nat) : ∀ s : State, 228 ≤ s.tia.hclock.val + 3 * n → (stallFor n s).tia.wsync = false := by
  induction n with
  | zero => intro s h; have := s.tia.hclock.isLt; omega
  | succ n ih =>
    intro s h
    rw [stallFor]
    split
    · rcases (endCycle_wsync s).2 with k | k
      · rw [stallFor_of_clear n k]; exact k
      · exact ih _ (by omega)
    · simpa using ‹¬ s.tia.wsync = true›

/-- The hold has always ended. -/
theorem stall_wsync (s : State) : (stall s).tia.wsync = false := stallFor_wsync 76 s (by omega)

/-- reads -/

theorem memRead_wsync (a : Word) (s : State) : (memRead a s).2.tia.wsync = false := by
  have h : (busRead a (stall s)).2.countCycle.tia.wsync = false := by
    show (busRead a (stall s)).2.tia.wsync = false
    rw [busRead_tia]; exact stall_wsync s
  exact (endCycle_wsync _).1 h

theorem memRead_cpuCycles (a : Word) (s : State) : (memRead a s).2.cpuCycles = (stall s).cpuCycles + 1 := by
  show (endCycle (busRead a (stall s)).2.countCycle).cpuCycles = _
  rw [endCycle_cpuCycles]
  show (busRead a (stall s)).2.cpuCycles + 1 = _
  rw [busRead_cpuCycles]

theorem beamTick_of_none (s : State) (hf : s.tia.futures = []) : (beamTick s).tia.futures = [] ∧
   (beamTick s).tia.hclock = s.tia.hclock + 1 ∧ (beamTick s).tia.wsync = if s.tia.hclock + 1 = 0 then false else s.tia.wsync := by
  have k1 : (advanceClock s.params s.tia).hclock = s.tia.hclock + 1 ∧ (advanceClock s.params s.tia).futures = [] ∧
      (advanceClock s.params s.tia).wsync = if s.tia.hclock + 1 = 0 then false else s.tia.wsync := by
    simp only [advanceClock]; split
    · rename_i h; exact ⟨rfl, hf, rfl⟩
    · rename_i h; exact ⟨rfl, hf, rfl⟩
  have h2 : runFutures { s with tia := advanceClock s.params s.tia } = { s with tia := advanceClock s.params s.tia } :=
    runFutures_of_none k1.2.1
  simp only [beamTick, audioEvent_tia, sendSignal_tia, h2]
  have e2 : ∀ c : State, (drawPixel c).2.2.tia.futures = c.tia.futures ∧ (drawPixel c).2.2.tia.hclock = c.tia.hclock ∧
      (drawPixel c).2.2.tia.wsync = c.tia.wsync := by
    intro c; obtain ⟨x, y, h⟩ := drawPixel_eq c; rw [h]; exact ⟨rfl, rfl, rfl⟩
  obtain ⟨h1, h3, h4⟩ := e2 { s with tia := resmpLock s.params (advanceClock s.params s.tia) }
  rw [h1, h3, h4]
  exact ⟨k1.2.1, k1.1, k1.2.2⟩

/-- A tick with nothing pending: the counter advances, and a new line clears the latch. -/
theorem tiaTick_of_none (s : State) (hf : s.tia.futures = []) : (tiaTick s).tia.futures = [] ∧
   (tiaTick s).tia.hclock = s.tia.hclock + 1 ∧ (tiaTick s).tia.wsync = if s.tia.hclock + 1 = 0 then false else s.tia.wsync :=
  beamTick_of_none (latchButtons s) hf

/-- A held cycle with nothing pending ends the hold exactly when the line ends in it. -/
theorem endCycle_held (s : State) (hf : s.tia.futures = []) (hw : s.tia.wsync = true) : (endCycle s).tia.futures = [] ∧
    (endCycle s).cpuCycles = s.cpuCycles + 1 ∧
    (if s.tia.hclock.val < 225 then (endCycle s).tia.wsync = true ∧ (endCycle s).tia.hclock.val = s.tia.hclock.val + 3 else
        (endCycle s).tia.wsync = false) := by
  obtain ⟨a1, a2, a3⟩ := tiaTick_of_none s hf
  obtain ⟨b1, b2, b3⟩ := tiaTick_of_none (tiaTick s) a1
  obtain ⟨c1, c2, c3⟩ := tiaTick_of_none (tiaTick (tiaTick s)) b1
  rw [endCycle_tia, endCycle_cpuCycles, threeTicks]
  refine ⟨c1, by omega, ?_⟩
  rw [a2] at b2 b3
  rw [b2] at c2 c3
  rw [c2, c3, b3, a3, hw]
  generalize s.tia.hclock = h
  revert h; decide +kernel

/-- How many cycles a hold with nothing pending takes. -/
theorem stallFor_cycles (n : Nat) : ∀ s : State, s.tia.futures = [] → s.tia.wsync = true → 228 ≤ s.tia.hclock.val + 3 * n →
    (stallFor n s).cpuCycles = s.cpuCycles + (230 - s.tia.hclock.val) / 3 := by
  induction n with
  | zero => intro s _ _ h; have := s.tia.hclock.isLt; omega
  | succ n ih =>
    intro s hf hw h
    rw [stallFor, if_pos hw]
    obtain ⟨a, b, c⟩ := endCycle_held s hf hw
    have := s.tia.hclock.isLt
    split at c
    · rw [ih _ a c.1 (by omega), b]; omega
    · rw [stallFor_of_clear n c, b]; omega

theorem stallFor_le (n : Nat) : ∀ s : State, (stallFor n s).cpuCycles ≤ s.cpuCycles + n := by
  induction n with
  | zero => intro s; exact Nat.le_refl _
  | succ n ih =>
    intro s
    rw [stallFor]; split
    · have := ih (endCycle s); rw [endCycle_cpuCycles] at this; omega
    · omega

end Sys2Proof.Machine
end

