-- ==== Sys2Proof/Laws/Fetch.lean ====
section
/-! SUPPORT. Fetching: what one fetched byte changes, and a run of fetched bytes from a place that can hold an instruction. -/

namespace Sys2Proof.Machine

/-- One fetched byte: a read cycle at PC, PC one further, one byte and one cycle counted. -/
theorem fetchByte_facts (s : State) : (fetchByte s).2.cpu = { s.cpu with pc := s.cpu.pc + 1 } ∧ (fetchByte s).2.ram = s.ram ∧
   (fetchByte s).2.result = { s.result with bytes := s.result.bytes + 1, cycles := s.result.cycles + 1 } ∧
       (fetchByte s).2.tia.wsync = false ∧
   (fetchByte s).2.cpuCycles = (stall s).cpuCycles + 1 ∧ (fetchByte s).2.lastAccessId = s.lastAccessId + 1 ∧ Frame [] s
       (fetchByte s).2 := by
  have h0 := memRead_cpu s.cpu.pc s
  have h1 := memRead_ram s.cpu.pc s
  have h2 := (memRead_seq s.cpu.pc s).result
  have h3 := memRead_wsync s.cpu.pc s
  have h4 := memRead_cpuCycles s.cpu.pc s
  have h5 : (memRead s.cpu.pc s).2.lastAccessId = s.lastAccessId + 1 := by simp [memRead]
  have h6 := memRead_Frame s.cpu.pc s
  simp only [fetchByte]
  generalize memRead s.cpu.pc s = r at *
  refine ⟨?_, h1, ?_, h3, h4, h5, (h6.setPC _).countByte⟩
  · simp [State.countByte, State.setPC, h0]
  · simp [State.countByte, State.setPC, h2, recordAfter]

/-- A fetch from a place that can hold an instruction gives what `Peek` gives there, and keeps the cartridge. -/
theorem fetchByte_placeable {s : State} (h : placeable s.cart s.cpu.pc = true) : (fetchByte s).1 = peek s.cpu.pc s ∧
    (fetchByte s).2.cart = s.cart := by
  have hc : (memRead s.cpu.pc s).2.cart = (busRead s.cpu.pc (stall s)).2.cart := by
    simp [memRead]
  have hv : (memRead s.cpu.pc s).1 = (busRead s.cpu.pc (stall s)).1 := rfl
  have e : (fetchByte s).2.cart = (memRead s.cpu.pc s).2.cart := by
    simp only [fetchByte]
    generalize memRead s.cpu.pc s = r
    rfl
  have e1 : (fetchByte s).1 = (memRead s.cpu.pc s).1 := by simp only [fetchByte]
  rw [e1, e, hv, hc]
  generalize s.cpu.pc = a at h ⊢
  simp only [placeable] at h
  rcases ha : areaOf (addr13 a) with _ | _ | _ | _ <;> rw [ha] at h
  · cases h
  · rw [busRead_val_ram ha, busRead_cart, ha]
    simp [peek, ha, readLocal_ram ha]
  · cases h
  · simp only [Bool.and_eq_true, Bool.not_eq_true', readLocal_cart ha] at h
    have := busRead_cart_of_not_port (s := stall s) ha (by rw [stall_cart]; exact h.1)
    rw [stall_cart, hotspot_of_not h.2] at this
    rw [this.1, this.2]
    simp [peek, ha, readLocal_cart ha]

theorem peek_congr (a : Word) {s t : State} (hr : t.ram = s.ram) (hc : t.cart = s.cart)
    (h : placeable s.cart a = true) : peek a t = peek a s := by
  simp only [placeable] at h
  simp only [peek, hr, hc]
  cases ha : areaOf (addr13 a) <;> rw [ha] at h <;> first | rfl | cases h

/-- An encoding is the opcode and as many operand bytes as the table gives it. -/
theorem encode_shape (i : Instr) : (operandCount (opcodeOf i) = some 0 ∧ encode i = [opcodeOf i] ∧ opcodeOf i ≠ 0x20#8) ∨
   (operandCount (opcodeOf i) = some 1 ∧ opcodeOf i ≠ 0x20#8 ∧ ∃ b, encode i = [opcodeOf i, b]) ∨
   (operandCount (opcodeOf i) = some 2 ∧ ∃ b c, encode i = [opcodeOf i, b, c]) := by
  cases i <;> simp only [opcodeOf, encode, List.headD_cons] <;> first
   | exact .inl ⟨by decide, by trivial, by decide⟩
   | exact .inr (.inl ⟨by decide, by decide, _, rfl⟩)
   | exact .inr (.inr ⟨by decide, _, _, rfl⟩)

/-- The state after the first `k` bytes of an instruction have been fetched. -/
structure Fetched (k : Nat) (s t : State) : Prop where
  cpu : t.cpu = { s.cpu with pc := s.cpu.pc + BitVec.ofNat 16 k }
  ram : t.ram = s.ram
  cart : t.cart = s.cart
  bytes : t.result.bytes = k
  cycles : t.result.cycles = k
  flag : t.result.pageCrossed = false ∧ t.result.bug = none ∧ t.result.final = false
  wsync : 0 < k → t.tia.wsync = false
  cyc : t.cpuCycles + (stall t).cpuCycles = (stall s).cpuCycles + k + t.cpuCycles
  id : t.lastAccessId = s.lastAccessId + k
  frame : Frame [] s t

/-- One more byte. -/
theorem Fetched.next {k : Nat} {s t : State} (h : Fetched k s t) (hp : placeable s.cart (s.cpu.pc + BitVec.ofNat 16 k) = true) :
   (fetchByte t).1 = peek (s.cpu.pc + BitVec.ofNat 16 k) s ∧ Fetched (k + 1) s (fetchByte t).2 ∧
       (fetchByte t).2.result.opcode = t.result.opcode ∧ (fetchByte t).2.result.defn = t.result.defn := by
  have hp' : placeable t.cart t.cpu.pc = true := by rw [h.cart, h.cpu]; exact hp
  have q := fetchByte_placeable hp'
  have pk : peek t.cpu.pc t = peek (s.cpu.pc + BitVec.ofNat 16 k) s := by
    rw [h.cpu]; exact peek_congr _ h.ram h.cart hp
  obtain ⟨f1, f2, f3, f4, f5, f6, f7⟩ := fetchByte_facts t
  generalize fetchByte t = r at *
  refine ⟨q.1.trans pk, ⟨?_, f2.trans h.ram, q.2.trans h.cart, ?_, ?_, ?_, fun _ => f4, ?_, ?_, h.frame.trans_nil f7⟩, by rw [f3],
      by rw [f3]⟩
  · rw [f1, h.cpu]
    simp only [Cpu.mk.injEq, true_and, and_true]
    rw [BitVec.add_assoc]; congr 1
    apply BitVec.eq_of_toNat_eq; simp
  · rw [f3]; simp [h.bytes]
  · rw [f3]; simp [h.cycles]
  · rw [f3]; exact h.flag
  · rw [stall_of_clear f4, f5]; have := h.cyc; omega
  · rw [f6, h.id]; omega

/-- Nothing fetched yet. -/
theorem Fetched.zero (s : State) : Fetched 0 s (beginInstr s) := by
  have hst : (stall (beginInstr s)).cpuCycles = (stall s).cpuCycles := by
    have : beginInstr s = s.withCpu s.cpu (beginInstr s).result := rfl
    rw [this, stall_withCpu]; rfl
  refine ⟨?_, rfl, rfl, rfl, rfl, ⟨rfl, rfl, rfl⟩, fun h => absurd h (by omega), ?_, rfl, Frame.of_cpu s _ _⟩
  · simp [beginInstr]
  · rw [hst]; omega

/-- Recording the opcode. -/
theorem Fetched.record {k : Nat} {s t : State} (h : Fetched k s t) (hk : 0 < k) (op : Byte) : Fetched k s (recordOpcode op t) := by
  refine ⟨h.cpu, h.ram, h.cart, h.bytes, h.cycles, h.flag, h.wsync, ?_, h.id, h.frame.trans_nil (Frame.of_cpu _ _ _)⟩
  have hw : (recordOpcode op t).tia.wsync = false := h.wsync hk
  rw [stall_of_clear hw]; have := h.cyc; rw [stall_of_clear (h.wsync hk)] at this
  show t.cpuCycles + t.cpuCycles = _ + t.cpuCycles; omega

/-- The decoder's table has a row exactly where the spec's has. -/
theorem opForm_isNone (op : Byte) : (opForm op).isNone = (opcodeTable op).isNone := by
  have : ∀ n : Fin 256, (opForm (BitVec.ofFin n)).isNone = (opcodeTable (BitVec.ofFin n)).isNone := by decide +kernel
  exact this op.toFin

end Sys2Proof.Machine
end

