-- ==== Sys2Proof/Laws/Cycle.lean ====
section
/-! SUPPORT. The color-clock machine cycle by cycle: one CPU cycle of an instruction, its WSYNC hold included, is one memory cycle
and the CPU's part, and how the parts of a step are counted and watched. -/

namespace Sys2Proof.Machine

/-! ### From point to point -/

/-- From one point to another in `n` parts of cycles, with no instruction boundary before the last. -/
structure Leads (n : Nat) (m m' : Suspended) : Prop where
  arrives : Nat.repeat Suspended.advance n m = m'
  inside : ∀ k < n, (Nat.repeat Suspended.advance k m).atBoundary = false

theorem Leads.refl (m : Suspended) : Leads 0 m m := ⟨rfl, fun _ h => absurd h (Nat.not_lt_zero _)⟩

theorem repeat_add {α : Type} (f : α → α) (n k : Nat) (m : α) : Nat.repeat f (n + k) m = Nat.repeat f k (Nat.repeat f n m) := by
  induction k with
  | zero => rfl
  | succ k ih => rw [← Nat.add_assoc]; simp only [Nat.repeat]; rw [ih]

theorem Leads.trans {n k : Nat} {a b c : Suspended} (h : Leads n a b) (g : Leads k b c) : Leads (n + k) a c := by
  refine ⟨by rw [repeat_add, h.arrives, g.arrives], fun j hj => ?_⟩
  rcases Nat.lt_or_ge j n with hn | hn
  · exact h.inside j hn
  · obtain ⟨i, rfl⟩ := Nat.exists_eq_add_of_le hn
    rw [repeat_add, h.arrives]; exact g.inside i (by omega)

/-- Four parts are one CPU cycle: its access, three ticks and its end (63_riot_console R660). -/
theorem four_parts {m : Suspended} {a : State} {c : CycleState} (ht : m.ticks = 0) (hd : m.cycle.todo ≠ [])
    (ho : openCycle m = { state := a, cycle := c, ticks := 0 }) (hc : c.todo = m.cycle.todo) :
    Leads 4 m (closeCycle { state := tiaTick (tiaTick (tiaTick a)), cycle := c, ticks := 3 }) := by
  have e1 : m.advance = { state := tiaTick a, cycle := c, ticks := 1 } := by
    simp only [Suspended.advance, ht, ho]; rfl
  have step : ∀ s : State, ∀ t : Fin 4, t ≠ 3 → t ≠ 0 →
      ({ state := s, cycle := c, ticks := t } : Suspended).advance = { state := tiaTick s, cycle := c, ticks := t + 1 } := by
    intro s t h3 h0; simp only [Suspended.advance, h3, h0, if_false]
  have e2 : m.advance.advance = { state := tiaTick (tiaTick a), cycle := c, ticks := 2 } := by
    rw [e1]; exact step _ 1 (by decide) (by decide)
  have e3 : m.advance.advance.advance = { state := tiaTick (tiaTick (tiaTick a)), cycle := c, ticks := 3 } := by
    rw [e2]; exact step _ 2 (by decide) (by decide)
  have hb : ∀ s t, ({ state := s, cycle := c, ticks := t } : Suspended).atBoundary = false := by
    intro s t
    simp only [Suspended.atBoundary, hc]
    cases h : m.cycle.todo with
    | nil => exact absurd h hd
    | cons => rfl
  have h0 : m.atBoundary = false := by
    simp only [Suspended.atBoundary]
    cases h : m.cycle.todo with
    | nil => exact absurd h hd
    | cons => rfl
  refine ⟨?_, fun k hlt => ?_⟩
  · simp only [Nat.repeat]; rw [e3]; simp only [Suspended.advance, if_true]
  · match k, hlt with
    | 0, _ => exact h0
    | 1, _ => simp only [Nat.repeat]; rw [e1]; exact hb _ _
    | 2, _ => simp only [Nat.repeat]; rw [e2]; exact hb _ _
    | 3, _ => simp only [Nat.repeat]; rw [e3]; exact hb _ _

/-! ### One cycle of an instruction -/

/-- The point after the CPU's part of a cycle. -/
def closeWith (k : CycleKind) (c : CycleState) (s : State) : Suspended :=
  let r := cycleEffect k c s
  { state := if r.1.todo.isEmpty && r.2.fault.isNone then finishInstr r.2 else r.2, cycle := r.1, ticks := 0 }

/-- The point after a whole cycle, its WSYNC hold included. -/
def afterCycle (k : CycleKind) (rest : List CycleKind) (c : CycleState) (s : State) : Suspended :=
  match cycleAccess k c s.cpu with
  | (a, none) =>
    let r := memRead a s
    closeWith k { c with bus := r.1, held := false, todo := rest } r.2
  | (a, some v) => closeWith k { c with held := false, todo := rest } (memWrite a v s)

theorem closeCycle_of {k : CycleKind} {rest : List CycleKind} {c : CycleState} (s : State) (hc : c.todo = k :: rest)
    (hh : c.held = false) :
    closeCycle { state := tiaTick (tiaTick (tiaTick s)), cycle := c, ticks := 3 } =
      closeWith k { c with todo := rest } (endCycle s) := by
  simp only [closeCycle, hh, hc, closeWith, endCycle, Bool.false_eq_true, if_false]

/-- A read cycle that is not held. -/
theorem read_free {k : CycleKind} {rest : List CycleKind} {c : CycleState} {s : State} {a : Word} (hc : c.todo = k :: rest)
    (ha : cycleAccess k c s.cpu = (a, none)) (hw : s.tia.wsync = false) :
    Leads 4 { state := s, cycle := c, ticks := 0 } (closeWith k { c with bus := (busRead a s).1, held := false, todo := rest }
      (endCycle (busRead a s).2.countCycle)) := by
  have ho : openCycle { state := s, cycle := c, ticks := 0 } =
      { state := (busRead a s).2.countCycle, cycle := { c with bus := (busRead a s).1, held := false }, ticks := 0 } := by
    simp only [openCycle, hc, ha, hw, Bool.false_eq_true, if_false]
  rw [← closeCycle_of (c := { c with bus := (busRead a s).1, held := false }) _ hc rfl]
  exact four_parts rfl (by rw [hc]; exact List.cons_ne_nil _ _) ho rfl

/-- A stall cycle. -/
theorem read_held {k : CycleKind} {rest : List CycleKind} {c : CycleState} {s : State} {a : Word} (hc : c.todo = k :: rest)
    (ha : cycleAccess k c s.cpu = (a, none)) (hw : s.tia.wsync = true) :
    Leads 4 { state := s, cycle := c, ticks := 0 } { state := endCycle s, cycle := { c with held := true }, ticks := 0 } := by
  have ho : openCycle { state := s, cycle := c, ticks := 0 } = { state := s, cycle := { c with held := true }, ticks := 0 } := by
    simp only [openCycle, hc, ha, hw, if_true]
  have e : closeCycle { state := tiaTick (tiaTick (tiaTick s)), cycle := { c with held := true }, ticks := 3 } =
      { state := endCycle s, cycle := { c with held := true }, ticks := 0 } := by
    simp only [closeCycle, endCycle, if_true]
  rw [← e]
  exact four_parts rfl (by rw [hc]; exact List.cons_ne_nil _ _) ho rfl

/-- A read cycle with its hold. -/
theorem read_cycle {k : CycleKind} {rest : List CycleKind} {a : Word} (n : Nat) : ∀ {c : CycleState} {s : State}, c.todo = k :: rest →
    cycleAccess k c s.cpu = (a, none) → (stallFor n s).tia.wsync = false →
    ∃ i ≤ 4 * (n + 1), Leads i { state := s, cycle := c, ticks := 0 } (closeWith k
      { c with bus := (busRead a (stallFor n s)).1, held := false, todo := rest }
      (endCycle (busRead a (stallFor n s)).2.countCycle)) := by
  induction n with
  | zero => exact fun hc ha hw => ⟨4, by omega, read_free hc ha hw⟩
  | succ n ih =>
    intro c s hc ha hw
    rw [stallFor] at hw ⊢
    split at hw
    · next h =>
      rw [if_pos h]
      obtain ⟨i, hi, g⟩ := ih (c := { c with held := true }) (s := endCycle s) hc (by rw [endCycle_cpu]; exact ha) hw
      exact ⟨4 + i, by omega, (read_held hc ha h).trans g⟩
    · next h =>
      rw [if_neg h]
      exact ⟨4, by omega, read_free hc ha hw⟩

/-- One cycle of an instruction takes at most 77 CPU cycles of four parts, and is one memory cycle and the CPU's part. -/
theorem leads_afterCycle {k : CycleKind} {rest : List CycleKind} {c : CycleState} (s : State) (hc : c.todo = k :: rest) :
    ∃ i ≤ 4 * 77, Leads i { state := s, cycle := c, ticks := 0 } (afterCycle k rest c s) := by
  unfold afterCycle
  split
  · next a ha =>
    have h := read_cycle 76 hc ha (stall_wsync s)
    rw [← stall] at h
    exact h
  · next a v ha =>
    refine ⟨4, by omega, ?_⟩
    have ho : openCycle { state := s, cycle := c, ticks := 0 } =
        { state := (busWrite a v s).countCycle, cycle := { c with held := false }, ticks := 0 } := by
      simp only [openCycle, hc, ha]
    rw [memWrite, ← closeCycle_of (c := { c with held := false }) _ hc rfl]
    exact four_parts rfl (by rw [hc]; exact List.cons_ne_nil _ _) ho rfl

/-- The point after at most `n` cycles of an instruction. -/
def afterCycles : Nat → Suspended → Suspended
  | 0, m => m
  | n + 1, m =>
    match m.cycle.todo with
    | [] => m
    | k :: rest => afterCycles n (afterCycle k rest m.cycle m.state)

theorem closeWith_ticks (k : CycleKind) (c : CycleState) (s : State) : (closeWith k c s).ticks = 0 := rfl

theorem afterCycle_ticks (k : CycleKind) (rest : List CycleKind) (c : CycleState) (s : State) : (afterCycle k rest c s).ticks = 0 := by
  unfold afterCycle; split <;> rfl

/-- Several cycles of an instruction. -/
theorem leads_afterCycles (n : Nat) : ∀ m : Suspended, m.ticks = 0 → ∃ i ≤ 4 * 77 * n, Leads i m (afterCycles n m) := by
  induction n with
  | zero => exact fun m _ => ⟨0, by omega, Leads.refl m⟩
  | succ n ih =>
    intro m ht
    unfold afterCycles
    split
    · exact ⟨0, by omega, Leads.refl m⟩
    · next k rest hc =>
      obtain ⟨i, hi, h⟩ := leads_afterCycle m.state hc
      obtain ⟨j, hj, g⟩ := ih _ (afterCycle_ticks k rest m.cycle m.state)
      have e : ({ state := m.state, cycle := m.cycle, ticks := 0 } : Suspended) = m := by rw [← ht]
      rw [e] at h
      exact ⟨i + j, by omega, h.trans g⟩

/-! ### Watching a step -/

/-- The states a callback sees on the first `n` parts from a point. -/
def seenBy (q : Quantum) (n : Nat) (m : Suspended) : List Suspended :=
  ((List.range n).map (fun k => Nat.repeat Suspended.advance (k + 1) m)).filter (observes q)

theorem repeat_succ {α : Type} (f : α → α) (n : Nat) (m : α) : Nat.repeat f (n + 1) m = Nat.repeat f n (f m) := by
  rw [Nat.add_comm, repeat_add]; rfl

theorem seenBy_succ (q : Quantum) (n : Nat) (m : Suspended) :
    seenBy q (n + 1) m = (if observes q m.advance then [m.advance] else []) ++ seenBy q n m.advance := by
  unfold seenBy
  rw [List.range_succ_eq_map, List.map_cons, List.map_map, List.filter_cons]
  have e : ((fun k => Nat.repeat Suspended.advance (k + 1) m) ∘ Nat.succ) =
      fun k => Nat.repeat Suspended.advance (k + 1) m.advance := by
    funext k; exact repeat_succ Suspended.advance (k + 1) m
  rw [e]
  show (if observes q m.advance then _ else _) = _
  split <;> rfl

/-- What running the parts of a step gives: with no renderer error up to the boundary, the boundary; else the point after the first
part whose calls returned one. The callbacks saw the points up to there. -/
theorem runParts_eq (q : Quantum) (render : Renderer) (bound : Nat) : ∀ {n : Nat} {m m' : Suspended}, Leads n m m' → n ≤ bound →
    m'.atBoundary = true →
    ∃ j ≤ n, (runParts q render bound m).callbacks = seenBy q j m ∧
      (runParts q render bound m).last = Nat.repeat Suspended.advance j m ∧
      (∀ i, i + 1 < j → errorBetween render (Nat.repeat Suspended.advance i m).state (Nat.repeat Suspended.advance
          (i + 1) m).state = none) ∧
      ((runParts q render bound m).error = none → j = n ∧ ∀ i, i < j →
        errorBetween render (Nat.repeat Suspended.advance i m).state (Nat.repeat Suspended.advance (i + 1) m).state = none) ∧
      (∀ e, (runParts q render bound m).error = some e → ∃ i, j = i + 1 ∧
        errorBetween render (Nat.repeat Suspended.advance i m).state (Nat.repeat Suspended.advance (i + 1) m).state = some e) := by
  induction bound with
  | zero =>
    intro n m m' h hn _
    obtain rfl : n = 0 := by omega
    exact ⟨0, by omega, rfl, rfl, fun i hi => by omega, fun _ => ⟨rfl, fun i hi => by omega⟩, fun e he => by cases he⟩
  | succ b ih =>
    intro n m m' h hn hb
    cases n with
    | zero =>
      have hm : m.atBoundary = true := by have := h.arrives; simp only [Nat.repeat] at this; rw [this]; exact hb
      rw [runParts, if_pos hm]
      exact ⟨0, by omega, rfl, rfl, fun i hi => by omega, fun _ => ⟨rfl, fun i hi => by omega⟩, fun e he => by cases he⟩
    | succ n =>
      have hm : m.atBoundary = false := h.inside 0 (by omega)
      have h' : Leads n m.advance m' := by
        refine ⟨by rw [← repeat_succ]; exact h.arrives, fun k hk => ?_⟩
        rw [← repeat_succ]; exact h.inside (k + 1) (by omega)
      rw [runParts]
      simp only [hm, Bool.false_eq_true, if_false]
      cases he : errorBetween render m.state m.advance.state with
      | some e =>
        refine ⟨1, by omega, ?_, rfl, fun i hi => by omega, ?_, ?_⟩
        · rw [seenBy_succ]; simp [seenBy]
        · intro hn; cases hn
        · intro e' hs; exact ⟨0, rfl, he.trans hs⟩
      | none =>
        obtain ⟨j, hj, h1, h2, h3, h4, h5⟩ := ih h' (by omega) hb
        dsimp only
        refine ⟨j + 1, by omega, ?_, ?_, ?_, ?_, ?_⟩
        · rw [seenBy_succ, h1]
        · rw [h2, repeat_succ]
        · intro i hi
          cases i with
          | zero => exact he
          | succ i => rw [repeat_succ, repeat_succ]; exact h3 i (by omega)
        · intro hn
          obtain ⟨e1, e2⟩ := h4 hn
          refine ⟨by omega, fun i hi => ?_⟩
          cases i with
          | zero => exact he
          | succ i => rw [repeat_succ, repeat_succ]; exact e2 i (by omega)
        · intro e hs
          obtain ⟨i, rfl, hi⟩ := h5 e hs
          exact ⟨i + 1, rfl, by rw [repeat_succ, repeat_succ]; exact hi⟩

/-! ### The clocks -/

/-- The two clocks. -/
def clocks (s : State) : Nat × Nat := (s.cpuCycles, s.colorClock)

theorem busRead_clocks (a : Word) (s : State) : clocks (busRead a s).2 = clocks s := by
  obtain h := busRead_eq a s
  simp [clocks]
theorem busWrite_clocks (a : Word) (v : Byte) (s : State) : clocks (busWrite a v s) = clocks s := by
  obtain ⟨_, _, _, _, _, _, _, h⟩ := busWrite_eq a v s
  simp only [clocks, h]
theorem openCycle_clocks (m : Suspended) : clocks (openCycle m).state = clocks m.state := by
  unfold openCycle
  split
  · rfl
  · split
    · split
      · rfl
      · exact busRead_clocks _ _
    · exact busWrite_clocks _ _ _
theorem readEffect_clocks (m : Mnemonic) (v : Byte) (s : State) : clocks (readEffect m v s) = clocks s := by
  cases m <;> rfl
theorem impliedEffect_clocks (m : Mnemonic) (s : State) : clocks (impliedEffect m s) = clocks s := by
  cases m <;> rfl
theorem cycleEffect_clocks (k : CycleKind) (c : CycleState) (s : State) : clocks (cycleEffect k c s).2 = clocks s := by
  cases k <;> simp only [cycleEffect] <;> first | rfl | exact readEffect_clocks _ _ _ | exact impliedEffect_clocks _ _ |
      (split <;> first | rfl | exact readEffect_clocks _ _ _)
theorem finishInstr_clocks (s : State) : clocks (finishInstr s) = clocks s := by unfold finishInstr; split <;> rfl
theorem closeCycle_clocks (m : Suspended) : clocks (closeCycle m).state = (m.state.cpuCycles + 1, m.state.colorClock + 3) := by
  unfold closeCycle
  dsimp only
  split
  · rfl
  · split
    · rfl
    · dsimp only
      split
      · rw [finishInstr_clocks, cycleEffect_clocks]; rfl
      · rw [cycleEffect_clocks]; rfl
theorem closeCycle_ticks (m : Suspended) : (closeCycle m).ticks = 0 := by
  unfold closeCycle
  dsimp only
  split
  · rfl
  · split <;> rfl
theorem openCycle_ticks (m : Suspended) : (openCycle m).ticks = m.ticks := by
  unfold openCycle
  split
  · rfl
  · split
    · split <;> rfl
    · rfl
/-- What a part of a cycle does to the tick count and the clocks. -/
theorem advance_clocks (m : Suspended) : (m.ticks.val < 3 → m.advance.ticks.val = m.ticks.val + 1 ∧
    clocks m.advance.state = clocks m.state) ∧
   (m.ticks.val = 3 → m.advance.ticks.val = 0 ∧ clocks m.advance.state = (m.state.cpuCycles + 1, m.state.colorClock + 3)) := by
  constructor
  · intro h
    have h3 : m.ticks ≠ 3 := fun e => by rw [e] at h; exact absurd h (by decide)
    have T : ∀ s, clocks (tiaTick s) = clocks s := fun s => by simp only [clocks, (tiaTick_frame s).cpuCycles,
        (tiaTick_frame s).colorClock]
    simp only [Suspended.advance, if_neg h3, T]
    by_cases h0 : m.ticks = 0
    · simp only [if_pos h0, openCycle_ticks, openCycle_clocks, and_true]
      rw [h0]; rfl
    · simp only [if_neg h0, and_true]
      simp only [Fin.val_add]
      show (m.ticks.val + 1) % 4 = _
      omega
  · intro h
    have h3 : m.ticks = 3 := Fin.ext h
    simp only [Suspended.advance, if_pos h3, closeCycle_ticks, closeCycle_clocks]
    exact ⟨rfl, trivial⟩
/-- The tick count and the clocks after so many parts of a step. -/
theorem points_clocks (s : State) (k : Nat) :
    let p := Nat.repeat Suspended.advance k (Suspended.start s)
    p.ticks.val = k % 4 ∧ p.state.cpuCycles = s.cpuCycles + k / 4 ∧ p.state.colorClock = s.colorClock + 3 * (k / 4) := by
  induction k with
  | zero => exact ⟨rfl, rfl, rfl⟩
  | succ k ih =>
    simp only [Nat.repeat] at ih ⊢
    have A := advance_clocks (Nat.repeat Suspended.advance k (Suspended.start s))
    generalize Nat.repeat Suspended.advance k (Suspended.start s) = m at *
    obtain ⟨i1, i2, i3⟩ := ih
    by_cases h : m.ticks.val < 3
    · obtain ⟨a, b⟩ := A.1 h
      simp only [clocks, Prod.mk.injEq] at b
      omega
    · obtain ⟨a, b⟩ := A.2 (by omega)
      simp only [clocks, Prod.mk.injEq] at b
      omega

end Sys2Proof.Machine
end

