-- ==== Sys2Proof/Laws/Words.lean ====
section
/-! SUPPORT. Words and bytes in numbers: the halves of a word, the stack's addresses, a pushed P, and an address's page. -/

namespace Sys2Proof.Machine

theorem loByte_eq (w : Word) : loByte w = w.setWidth 8 := by
  ext i hi; simp [loByte]

theorem hiByte_eq (w : Word) : hiByte w = (w >>> 8).setWidth 8 := by
  ext i hi; simp [hiByte]

theorem loByte_toNat (w : Word) : (loByte w).toNat = w.toNat % 256 := by simp [loByte]

theorem hiByte_toNat (w : Word) : (hiByte w).toNat = w.toNat / 256 := by
  simp only [hiByte, BitVec.extractLsb'_toNat, Nat.shiftRight_eq_div_pow]
  have := w.isLt
  omega

theorem mkWord_toNat (h l : Byte) : (mkWord h l).toNat = h.toNat * 256 + l.toNat := by
  simp only [mkWord, BitVec.toNat_append, Nat.shiftLeft_eq]
  have := l.isLt
  rw [Nat.mul_comm, ← Nat.two_pow_add_eq_or_of_lt (i := 8) (by omega)]

/-- A word is its two halves. -/
theorem mkWord_halves (w : Word) : mkWord (hiByte w) (loByte w) = w := by
  apply BitVec.eq_of_toNat_eq
  rw [mkWord_toNat, hiByte_toNat, loByte_toNat]
  omega

/-- The stack's address (40_addressing_modes R196). -/
theorem stackAddr_eq (x : Byte) : stackAddr x = 0x0100#16 + x.setWidth 16 := by
  revert x; decide +kernel

/-- Pbyte bit by bit (10_state R37). -/
theorem toByte_eq (p : Flags) : p.toByte = BitVec.ofBoolListBE [p.n, p.v, true, true, p.d, p.i, p.z, p.c] := by
  obtain ⟨n, v, d, i, z, c⟩ := p
  revert n v d i z c; decide

/-- The byte after a pointer, within the pointer's page (40_addressing_modes R189). -/
theorem wrapped_next (w : Word) :
    mkWord (hiByte w) (loByte w + 1) = (if w.toNat % 256 = 255 then w - 255#16 else w + 1#16) ∧
      (loByte w = 0xFF#8 ↔ w.toNat % 256 = 255) := by
  refine ⟨?_, by rw [← BitVec.toNat_inj, loByte_toNat]; simp⟩
  have hw := w.isLt
  have hl : (loByte w + 1).toNat = (w.toNat % 256 + 1) % 256 := by rw [BitVec.toNat_add, loByte_toNat]; simp
  apply BitVec.eq_of_toNat_eq
  rw [mkWord_toNat, hiByte_toNat, hl]
  split <;> simp <;> omega

/-- Two addresses share their high byte exactly when they are in one page. -/
theorem hiByte_eq_iff (n t : Word) : hiByte t = hiByte n ↔ t.toNat / 256 = n.toNat / 256 := by
  rw [← BitVec.toNat_inj, hiByte_toNat, hiByte_toNat]

/-- Without a page crossing the address before the fix is the address (40_addressing_modes R185). -/
theorem unfixed_of_not_crosses {w : Word} {i : Byte} (h : crosses w i = false) : unfixed w i = indexed w i := by
  have hk : (loByte w).toNat + i.toNat ≤ 255 := by simp [crosses] at h; exact h
  apply BitVec.eq_of_toNat_eq
  rw [loByte_toNat] at hk
  have := w.isLt
  simp only [unfixed, indexed, mkWord_toNat, hiByte_toNat, BitVec.toNat_add, loByte_toNat, BitVec.toNat_setWidth]
  omega

/-- `EAu` in its halves (40_addressing_modes R189). -/
theorem unfixed_eq (w : Word) (i : Byte) : unfixed w i = (w.extractLsb' 8 8 ++ (w.setWidth 8 + i) : Word) := by
  have e : loByte w = w.setWidth 8 := by apply BitVec.eq_of_toNat_eq; rw [loByte_toNat, BitVec.toNat_setWidth]
  rw [unfixed, e]; rfl

end Sys2Proof.Machine
end

