-- ==== Sys2Proof/Laws/CycleForms.lean ====
section
/-! SUPPORT. The cycles of an instruction run to its end: each kind of cycle is one operation of the whole-instruction meanings
(40_addressing_modes section 2, 42_transfer_stack, 45_control, 46_flags_system). -/

namespace Sys2Proof.Machine

theorem memRead_fault (a : Word) (s : State) : (memRead a s).2.fault = s.fault := (memRead_Frame a s).fault
theorem memWrite_fault (a : Word) (v : Byte) (s : State) : (memWrite a v s).fault = s.fault := (memWrite_Frame a v s).fault

theorem fetchByte_eq (s : State) : fetchByte s = ((memRead s.cpu.pc s).1, passByte (memRead s.cpu.pc s).2) := by
  simp only [fetchByte, passByte, memRead_cpu]

theorem fetchByte_fault (s : State) : (fetchByte s).2.fault = s.fault :=
  (((memRead_Frame s.cpu.pc s).setPC (s.cpu.pc + 1)).countByte).fault

/-! ### The cycles of an instruction to its end -/

/-- From these latches and this state, at most `n` cycles end the instruction in `u`, its result record then being closed. -/
def Ends (n : Nat) (c : CycleState) (s u : State) : Prop :=
  ∃ c', c'.todo = [] ∧ afterCycles n { state := s, cycle := c, ticks := 0 } = { state := finishInstr u, cycle := c', ticks := 0 }

theorem afterCycles_done (n : Nat) {m : Suspended} (h : m.cycle.todo = []) : afterCycles n m = m := by
  cases n with
  | zero => rfl
  | succ n => rw [afterCycles, h]

theorem ends_next {n : Nat} {k : CycleKind} {rest : List CycleKind} {c c' d : CycleState} {s t u v : State} (hc : c.todo = k :: rest)
    (hm : afterCycle k rest c s = closeWith k d t) (he : cycleEffect k d t = (c', v)) (ht : c'.todo ≠ []) (h : Ends n c' v u) :
    Ends (n + 1) c s u := by
  obtain ⟨e, h1, h2⟩ := h
  have hn : c'.todo.isEmpty = false := by simpa using ht
  refine ⟨e, h1, ?_⟩
  simp only [afterCycles, hc, hm, closeWith, he, hn, Bool.false_and, Bool.false_eq_true, if_false]
  exact h2

theorem ends_last {n : Nat} {k : CycleKind} {rest : List CycleKind} {c c' d : CycleState} {s t v : State} (hc : c.todo = k :: rest)
    (hm : afterCycle k rest c s = closeWith k d t) (he : cycleEffect k d t = (c', v)) (ht : c'.todo = []) (hf : v.fault = none) :
    Ends (n + 1) c s v := by
  refine ⟨c', ht, ?_⟩
  simp only [afterCycles, hc, hm, closeWith, he, ht, hf, List.isEmpty_nil, Option.isNone_none, Bool.and_self, if_true]
  exact afterCycles_done n ht

/-- A read cycle that others follow. -/
theorem ends_read {n : Nat} {k : CycleKind} {rest : List CycleKind} {c c' : CycleState} {s t u v : State} {a : Word} {x : Byte}
    (hr : memRead a s = (x, t)) (hc : c.todo = k :: rest) (ha : cycleAccess k c s.cpu = (a, none))
    (he : cycleEffect k { c with bus := x, held := false, todo := rest } t = (c', v))
    (ht : c'.todo ≠ []) (h : Ends n c' v u) : Ends (n + 1) c s u :=
  ends_next (d := { c with bus := x, held := false, todo := rest }) (t := t) hc (by simp only [afterCycle, ha, hr]) he ht h

/-- The last cycle, a read. -/
theorem ends_read_last {n : Nat} {k : CycleKind} {rest : List CycleKind} {c c' : CycleState} {s t v : State} {a : Word} {x : Byte}
    (hr : memRead a s = (x, t)) (hc : c.todo = k :: rest) (ha : cycleAccess k c s.cpu = (a, none))
    (he : cycleEffect k { c with bus := x, held := false, todo := rest } t = (c', v))
    (ht : c'.todo = []) (hf : v.fault = none) : Ends (n + 1) c s v :=
  ends_last (d := { c with bus := x, held := false, todo := rest }) (t := t) hc (by simp only [afterCycle, ha, hr]) he ht hf

/-- A write cycle that others follow. -/
theorem ends_write {n : Nat} {k : CycleKind} {rest : List CycleKind} {c c' : CycleState} {s t u v : State} {a : Word} {b : Byte}
    (hr : memWrite a b s = t) (hc : c.todo = k :: rest) (ha : cycleAccess k c s.cpu = (a, some b))
    (he : cycleEffect k { c with held := false, todo := rest } t = (c', v))
    (ht : c'.todo ≠ []) (h : Ends n c' v u) : Ends (n + 1) c s u :=
  ends_next (d := { c with held := false, todo := rest }) (t := t) hc (by simp only [afterCycle, ha, hr]) he ht h

/-- The last cycle, a write. -/
theorem ends_write_last {n : Nat} {k : CycleKind} {rest : List CycleKind} {c c' : CycleState} {s t v : State} {a : Word} {b : Byte}
    (hr : memWrite a b s = t) (hc : c.todo = k :: rest) (ha : cycleAccess k c s.cpu = (a, some b))
    (he : cycleEffect k { c with held := false, todo := rest } t = (c', v))
    (ht : c'.todo = []) (hf : v.fault = none) : Ends (n + 1) c s v :=
  ends_last (d := { c with held := false, todo := rest }) (t := t) hc (by simp only [afterCycle, ha, hr]) he ht hf

theorem read_facts {a : Word} {s t : State} {x : Byte} (hr : memRead a s = (x, t)) : t.cpu = s.cpu ∧ t.fault = s.fault ∧
    t.result = { s.result with cycles := s.result.cycles + 1 } := by
  have e : t = (memRead a s).2 := by rw [hr]
  rw [e]; exact ⟨memRead_cpu a s, memRead_fault a s, memRead_result a s⟩

/-- The latches of an opcode part-way through its cycles. -/
abbrev latches (op : Byte) (ops : List Byte) (addr : Word) (data bus : Byte) (todo : List CycleKind) : CycleState :=
  { opcode := some op, operands := ops, address := addr, data := data, bus := bus, held := false, todo := todo }

variable {n : Nat} {op data bus : Byte} {addr : Word} {ops : List Byte} {todo : List CycleKind} {s u : State}

theorem ends_operand (ht : todo ≠ [])
    (h : Ends n (latches op (ops ++ [(fetchByte s).1])
      (mkWord ((ops ++ [(fetchByte s).1]).getD 1 0#8) ((ops ++ [(fetchByte s).1]).getD 0 0#8)) data (fetchByte s).1 todo)
          (fetchByte s).2 u) :
    Ends (n + 1) (latches op ops addr data bus (.operand :: todo)) s u := by
  rw [fetchByte_eq] at h
  rcases hr : memRead s.cpu.pc s with ⟨x, t⟩
  rw [hr] at h
  exact ends_read hr rfl rfl rfl ht h

theorem mkWord_zero (b : Byte) : mkWord 0#8 b = zpAddr b := by revert b; decide +kernel
theorem loByte_mkWord (h l : Byte) : loByte (mkWord h l) = l := by
  apply BitVec.eq_of_toNat_eq; rw [loByte_toNat, mkWord_toNat]; have := l.isLt; omega
theorem hiByte_mkWord (h l : Byte) : hiByte (mkWord h l) = h := by
  apply BitVec.eq_of_toNat_eq; rw [hiByte_toNat, mkWord_toNat]; have := l.isLt; omega
theorem loByte_zpAddr (b : Byte) : loByte (zpAddr b) = b := by rw [← mkWord_zero, loByte_mkWord]

/-- one operand byte -/
theorem ends_operand1 (ht : todo ≠ []) (h : Ends n (latches op [(fetchByte s).1] (zpAddr (fetchByte s).1) data
    (fetchByte s).1 todo) (fetchByte s).2 u) :
    Ends (n + 1) (latches op [] addr data bus (.operand :: todo)) s u := by
  refine ends_operand ht ?_
  rw [← mkWord_zero] at h; exact h

theorem ends_operand2 (ht : todo ≠ []) (h : Ends n (latches op [(fetchByte s).1, (fetchByte (fetchByte s).2).1]
      (mkWord (fetchByte (fetchByte s).2).1 (fetchByte s).1) data (fetchByte (fetchByte s).2).1 todo) (fetchByte (fetchByte s).2).2 u) :
    Ends (n + 2) (latches op [] addr data bus (.operand :: .operand :: todo)) s u :=
  ends_operand (List.cons_ne_nil _ _) (ends_operand ht h)

theorem readEffect_fault (m : Mnemonic) (v : Byte) (s : State) : (readEffect m v s).fault = s.fault := by cases m <;> rfl
theorem impliedEffect_fault (m : Mnemonic) (s : State) : (impliedEffect m s).fault = s.fault := by cases m <;> rfl

variable {m : Mnemonic}

theorem index_of (c : CycleState) (h : c.opcode = some op) (r : Cpu) :
    c.index r = (latches op [] 0#16 0#8 0#8 []).index r := by
  simp only [CycleState.index, CycleState.defn, h]

theorem mnemonic_of' (c : CycleState) (h : c.opcode = some op) : c.mnemonic = (latches op [] 0#16 0#8 0#8 []).mnemonic := by
  simp only [CycleState.mnemonic, CycleState.defn, h]

/-- The operand read at the address latch. -/
theorem ends_at (hm : (latches op [] 0#16 0#8 0#8 []).mnemonic = m) (hf : s.fault = none) :
    Ends (n + 1) (latches op ops addr data bus [.read]) s (readEffect m (memRead addr s).1 (memRead addr s).2) := by
  rcases hr : memRead addr s with ⟨x, t⟩
  have k := read_facts hr
  refine ends_read_last (c' := latches op ops addr data x []) hr rfl rfl ?_ rfl (by rw [readEffect_fault, k.2.1]; exact hf)
  simp only [cycleEffect]; rw [mnemonic_of' _ rfl, hm]

theorem ends_unfixed {i : Byte} {r : Cpu} (hm : (latches op [] 0#16 0#8 0#8 []).mnemonic = m) (hc : s.cpu = r)
    (hi : (latches op [] 0#16 0#8 0#8 []).index r = i) (hf : s.fault = none) :
    Ends (n + 2) (latches op ops addr data bus [.readUnfixed]) s
      (readEffect m (readIndexed addr i s).1 (readIndexed addr i s).2) := by
  subst hc
  rcases hr : memRead (unfixed addr i) s with ⟨x, t⟩
  have k := read_facts hr
  have ha : cycleAccess .readUnfixed (latches op ops addr data bus [.readUnfixed]) s.cpu = (unfixed addr i, none) := by
    simp only [cycleAccess]; rw [index_of _ rfl, hi]
  by_cases hx : crosses addr i = true
  · simp only [readIndexed, hr, if_pos hx]
    refine ends_read hr rfl ha ?_ (List.cons_ne_nil _ _) (ends_at (bus := x) (data := data) (ops := ops) hm ?_)
    · simp only [cycleEffect]
      rw [index_of _ rfl, k.1, hi, if_pos hx]
    · rw [State.markCrossed_fault, k.2.1]; exact hf
  · simp only [readIndexed, hr, if_neg hx]
    refine ends_read_last (c' := latches op ops addr data x []) hr rfl ha ?_ rfl ?_
    · simp only [cycleEffect]
      rw [index_of _ rfl, k.1, hi, if_neg hx, mnemonic_of' _ rfl, hm]
    · rw [readEffect_fault, k.2.1]; exact hf

theorem ends_addIndex {i b : Byte} (ht : todo ≠ []) (hi : (latches op [] 0#16 0#8 0#8 []).index s.cpu = i)
    (h : ∀ bus, Ends n (latches op ops (zpAddr (b + i)) data bus todo) (dummyRead (zpAddr b) s) u) :
    Ends (n + 1) (latches op ops (zpAddr b) data bus (.addIndex :: todo)) s u := by
  rcases hr : memRead (zpAddr b) s with ⟨x, t⟩
  have k := read_facts hr
  simp only [dummyRead, hr] at h
  refine ends_read hr rfl rfl ?_ ht (h x)
  simp only [cycleEffect]
  rw [k.1, index_of _ rfl, hi, loByte_zpAddr]

theorem ends_pointer {p : Byte} (ht : todo ≠ [])
    (h : ∀ data bus, Ends n (latches op ops (readPointer p s).1 data bus todo) (readPointer p s).2 u) :
    Ends (n + 2) (latches op ops (zpAddr p) data bus (.pointerLow :: .pointerHigh :: todo)) s u := by
  rcases hr : memRead (zpAddr p) s with ⟨x, t⟩
  rcases hq : memRead (zpAddr (p + 1)) t with ⟨y, v⟩
  simp only [readPointer, hr, hq] at h
  refine ends_read hr rfl rfl rfl (List.cons_ne_nil _ _) (ends_read hq rfl ?_ rfl ht (h x y))
  simp only [cycleAccess, loByte_zpAddr]

theorem ends_fix {i : Byte} (ht : todo ≠ []) (hi : (latches op [] 0#16 0#8 0#8 []).index s.cpu = i)
    (h : ∀ bus, Ends n (latches op ops (indexed addr i) data bus todo) (dummyRead (unfixed addr i) s) u) :
    Ends (n + 1) (latches op ops addr data bus (.fixAddress :: todo)) s u := by
  rcases hr : memRead (unfixed addr i) s with ⟨x, t⟩
  have k := read_facts hr
  simp only [dummyRead, hr] at h
  refine ends_read hr rfl ?_ ?_ ht (h x)
  · simp only [cycleAccess]; rw [index_of _ rfl, hi]
  · simp only [cycleEffect]
    rw [k.1, index_of _ rfl, hi]

theorem ends_store {r : Cpu} (hm : (latches op [] 0#16 0#8 0#8 []).mnemonic = m) (hc : s.cpu = r) (hf : s.fault = none) :
    Ends (n + 1) (latches op ops addr data bus [.store]) s (memWrite addr (storedByte m r) s) := by
  subst hc
  rcases hr : memWrite addr (storedByte m s.cpu) s with t
  refine ends_write_last hr rfl ?_ rfl rfl ?_
  · simp only [cycleAccess]; rw [mnemonic_of' _ rfl, hm]
  · rw [← hr, memWrite_fault]; exact hf

theorem ends_modify (hm : (latches op [] 0#16 0#8 0#8 []).mnemonic = m) (hf : s.fault = none) :
    Ends (n + 3) (latches op ops addr data bus [.modifyRead, .modifyRewrite, .modifyWrite]) s (modifyAt (modifyOp m) (addr, s)) := by
  rcases hr : memRead addr s with ⟨x, t⟩
  have k := read_facts hr
  simp only [modifyAt, hr]
  refine ends_read hr rfl rfl rfl (List.cons_ne_nil _ _) ?_
  have hc : (memWrite addr x t).cpu = t.cpu := memWrite_cpu _ _ _
  have hff : (memWrite addr x t).fault = none := by rw [memWrite_fault, k.2.1, hf]
  refine ends_write (t := memWrite addr x t) rfl rfl rfl (c' := latches op ops addr (modifyOp m x t.cpu.p).value x [.modifyWrite])
    (v := memWrite addr x t) ?_ (List.cons_ne_nil _ _) ?_
  · simp only [cycleEffect]; rw [mnemonic_of' _ rfl, hm, hc]
  rw [← hc]
  generalize memWrite addr x t = w at hff
  have hw : (memWrite addr (modifyOp m x w.cpu.p).value w).cpu = w.cpu := memWrite_cpu _ _ _
  refine ends_write_last (c' := latches op ops addr (modifyOp m x w.cpu.p).value x []) rfl rfl rfl ?_ rfl ?_
  · simp only [cycleEffect]; rw [mnemonic_of' _ rfl, hm, hw]
  · rw [State.markBug_fault, State.setP_fault, memWrite_fault, hff]

theorem ends_immediate (hm : (latches op [] 0#16 0#8 0#8 []).mnemonic = m) (hf : s.fault = none) :
    Ends (n + 1) (latches op [] addr data bus [.immediate]) s (readEffect m (fetchByte s).1 (fetchByte s).2) := by
  have hff := fetchByte_fault s
  rw [fetchByte_eq] at hff ⊢
  rcases hr : memRead s.cpu.pc s with ⟨x, t⟩
  rw [hr] at hff
  refine ends_read_last (c' := latches op [x] (mkWord 0#8 x) data x []) hr rfl rfl ?_ rfl (by rw [readEffect_fault, hff, hf])
  simp only [cycleEffect]; rw [mnemonic_of' _ rfl, hm]
  rfl

theorem ends_implied (hm : (latches op [] 0#16 0#8 0#8 []).mnemonic = m) (hf : s.fault = none) :
    Ends (n + 1) (latches op [] addr data bus [.implied]) s (impliedEffect m (dummyReadPC s)) := by
  simp only [dummyReadPC, dummyRead]
  rcases hr : memRead s.cpu.pc s with ⟨x, t⟩
  have k := read_facts hr
  refine ends_read_last (c' := latches op [] addr data x []) hr rfl rfl ?_ rfl (by rw [impliedEffect_fault, k.2.1, hf])
  simp only [cycleEffect]; rw [mnemonic_of' _ rfl, hm]

theorem ends_dummyPC (ht : todo ≠ []) (h : ∀ bus, Ends n (latches op ops addr data bus todo) (dummyReadPC s) u) :
    Ends (n + 1) (latches op ops addr data bus (.dummyPC :: todo)) s u := by
  simp only [dummyReadPC, dummyRead] at h
  rcases hr : memRead s.cpu.pc s with ⟨x, t⟩
  rw [hr] at h
  exact ends_read hr rfl rfl rfl ht (h x)

theorem ends_dummyStack (ht : todo ≠ []) (h : ∀ bus, Ends n (latches op ops addr data bus todo) (dummyReadStack s) u) :
    Ends (n + 1) (latches op ops addr data bus (.dummyStack :: todo)) s u := by
  simp only [dummyReadStack, dummyRead] at h
  rcases hr : memRead (stackAddr s.cpu.sp) s with ⟨x, t⟩
  rw [hr] at h
  exact ends_read hr rfl rfl rfl ht (h x)

/-- The first cycle of a two-cycle pull leaves S incremented (40_addressing_modes R196). -/
theorem ends_dummyPull (ht : todo ≠ []) (h : ∀ bus, Ends n (latches op ops addr data bus todo)
      ((dummyReadStack s).setS ((dummyReadStack s).cpu.sp + 1)) u) :
    Ends (n + 1) (latches op ops addr data bus (.dummyPull :: todo)) s u := by
  simp only [dummyReadStack, dummyRead] at h
  rcases hr : memRead (stackAddr s.cpu.sp) s with ⟨x, t⟩
  rw [hr] at h
  exact ends_read hr rfl rfl rfl ht (h x)

theorem pull_of {a : Word} {t : State} {x : Byte} (ha : a = stackAddr (s.cpu.sp + 1)) (hr : memRead a s = (x, t)) :
    pull s = (x, t.setS (t.cpu.sp + 1)) := by
  subst ha
  have k := read_facts hr
  rw [pull, State.setS_eq, memRead_withCpu, hr, State.setS_eq, k.1, k.2.2]

/-- A pulled byte held for the next cycle. -/
theorem ends_pullLow (ht : todo ≠ [])
    (h : ∀ bus, Ends n (latches op ops addr (pull s).1 bus todo) (pull s).2 u) :
    Ends (n + 1) (latches op ops addr data bus (.pullLow :: todo)) s u := by
  rcases hr : memRead (stackAddr (s.cpu.sp + 1)) s with ⟨x, t⟩
  rw [pull_of rfl hr] at h
  exact ends_read hr rfl rfl rfl ht (h x)

theorem ends_pullHigh (ht : todo ≠ [])
    (h : ∀ bus, Ends n (latches op ops addr data bus todo) ((pull s).2.setPC (mkWord (pull s).1 data)) u) :
    Ends (n + 1) (latches op ops addr data bus (.pullHigh :: todo)) s u := by
  rcases hr : memRead (stackAddr (s.cpu.sp + 1)) s with ⟨x, t⟩
  rw [pull_of rfl hr] at h
  exact ends_read hr rfl rfl rfl ht (h x)

theorem ends_pullHigh_last (hf : s.fault = none) :
    Ends (n + 1) (latches op ops addr data bus [.pullHigh]) s ((pull s).2.setPC (mkWord (pull s).1 data)) := by
  rcases hr : memRead (stackAddr (s.cpu.sp + 1)) s with ⟨x, t⟩
  have k := read_facts hr
  rw [pull_of rfl hr]
  exact ends_read_last (c' := latches op ops addr data x []) hr rfl rfl rfl rfl
    (by rw [State.setPC_fault, State.setS_fault, k.2.1, hf])

/-- The second cycle of a two-cycle pull: the read, at the incremented S. -/
theorem ends_pullReturn (ht : todo ≠ [])
    (h : ∀ bus, Ends n (latches op ops addr (pull s).1 bus todo) (pull s).2 u) :
    Ends (n + 1) (latches op ops addr data bus (.pullReturn :: todo)) (s.setS (s.cpu.sp + 1)) u := by
  rcases hr : pull s with ⟨x, t⟩
  rw [hr] at h
  exact ends_read (a := stackAddr (s.cpu.sp + 1)) hr rfl rfl rfl ht (h x)

theorem ends_pullStatus (ht : todo ≠ [])
    (h : ∀ bus, Ends n (latches op ops addr data bus todo) ((pull s).2.setP (Flags.ofByte (pull s).1)) u) :
    Ends (n + 1) (latches op ops addr data bus (.pullStatus :: todo)) (s.setS (s.cpu.sp + 1)) u := by
  rcases hr : pull s with ⟨x, t⟩
  rw [hr] at h
  exact ends_read (a := stackAddr (s.cpu.sp + 1)) hr rfl rfl rfl ht (h x)

theorem ends_pullRegister (hf : s.fault = none) :
    Ends (n + 1) (latches op ops addr data bus [.pullRegister]) (s.setS (s.cpu.sp + 1))
      (if (latches op [] 0#16 0#8 0#8 []).mnemonic = .plp then (pull s).2.setP (Flags.ofByte (pull s).1)
       else ((pull s).2.setA (pull s).1).setNZ (pull s).1) := by
  rcases hr : pull s with ⟨x, t⟩
  have k := read_facts (a := stackAddr (s.cpu.sp + 1)) (s := s.setS (s.cpu.sp + 1)) hr
  refine ends_read_last (a := stackAddr (s.cpu.sp + 1)) (c' := latches op ops addr data x []) hr rfl rfl ?_ rfl ?_
  · simp only [cycleEffect]; rw [mnemonic_of' _ rfl]
  · split <;> simp only [State.setP_fault, State.setS_fault, State.setNZ_fault, State.setA_fault, k.2.1, hf]

theorem push_of {a : Word} {t : State} {x : Byte} (ha : a = stackAddr s.cpu.sp) (hr : memWrite a x s = t) :
    push x s = t.setS (t.cpu.sp - 1) ∧ t.cpu = s.cpu ∧ t.fault = s.fault := by
  subst ha
  have hc : t.cpu = s.cpu := by rw [← hr, memWrite_cpu]
  have hf : t.fault = s.fault := by rw [← hr, memWrite_fault]
  exact ⟨by rw [push, hr, hc], hc, hf⟩

theorem ends_pushHigh (ht : todo ≠ []) (h : Ends n (latches op ops addr data bus todo) (push (hiByte s.cpu.pc) s) u) :
    Ends (n + 1) (latches op ops addr data bus (.pushHigh :: todo)) s u := by
  rcases hr : memWrite (stackAddr s.cpu.sp) (hiByte s.cpu.pc) s with t
  rw [(push_of rfl hr).1] at h
  exact ends_write hr rfl rfl rfl ht h

theorem ends_pushLow (ht : todo ≠ []) (h : Ends n (latches op ops addr data bus todo) (push (loByte s.cpu.pc) s) u) :
    Ends (n + 1) (latches op ops addr data bus (.pushLow :: todo)) s u := by
  rcases hr : memWrite (stackAddr s.cpu.sp) (loByte s.cpu.pc) s with t
  rw [(push_of rfl hr).1] at h
  exact ends_write hr rfl rfl rfl ht h

theorem ends_pushStatus (ht : todo ≠ []) (h : Ends n (latches op ops addr data bus todo)
      ((push s.cpu.p.toByte s).setP { (push s.cpu.p.toByte s).cpu.p with i := true }) u) :
    Ends (n + 1) (latches op ops addr data bus (.pushStatus :: todo)) s u := by
  rcases hr : memWrite (stackAddr s.cpu.sp) s.cpu.p.toByte s with t
  rw [(push_of rfl hr).1] at h
  exact ends_write hr rfl rfl rfl ht h

theorem ends_pushRegister {c : Cpu} (hc : s.cpu = c) (hf : s.fault = none) : Ends (n + 1) (latches op ops addr data bus [.pushRegister]) s
    (push (if (latches op [] 0#16 0#8 0#8 []).mnemonic = .php then c.p.toByte else c.a) s) := by
  subst hc
  rcases hr : memWrite (stackAddr s.cpu.sp) (if (latches op [] 0#16 0#8 0#8 []).mnemonic = .php then s.cpu.p.toByte else s.cpu.a) s with t
  have k := push_of rfl hr
  rw [k.1]
  refine ends_write_last (c' := latches op ops addr data bus []) hr rfl ?_ rfl rfl ?_
  · simp only [cycleAccess]; rw [mnemonic_of' _ rfl]
  · rw [State.setS_fault, k.2.2, hf]

theorem ends_returnPlusOne (hf : s.fault = none) : Ends (n + 1) (latches op ops addr data bus [.returnPlusOne]) s
    ((dummyRead s.cpu.pc s).setPC (s.cpu.pc + 1)) := by
  simp only [dummyRead]
  rcases hr : memRead s.cpu.pc s with ⟨x, t⟩
  have k := read_facts hr
  refine ends_read_last (c' := latches op ops addr data x []) hr rfl rfl ?_ rfl ?_
  · simp only [cycleEffect]; rw [k.1]
  · rw [State.setPC_fault, k.2.1, hf]

theorem ends_padding (ht : todo ≠ []) (h : ∀ bus, Ends n (latches op ops addr data bus todo) (skipPadding s) u) :
    Ends (n + 1) (latches op ops addr data bus (.padding :: todo)) s u := by
  simp only [skipPadding, dummyReadPC, dummyRead] at h
  rcases hr : memRead s.cpu.pc s with ⟨x, t⟩
  have k := read_facts hr
  rw [hr] at h
  refine ends_read hr rfl rfl ?_ ht (h x)
  simp only [cycleEffect]; rw [k.1]

theorem ends_vector (hf : s.fault = none) : Ends (n + 2) (latches op ops addr data bus [.vectorLow, .vectorHigh]) s
    ((memRead 0xFFFF#16 (memRead 0xFFFE#16 s).2).2.setPC (mkWord (memRead 0xFFFF#16 (memRead 0xFFFE#16 s).2).1
        (memRead 0xFFFE#16 s).1)) := by
  rcases hr : memRead 0xFFFE#16 s with ⟨x, t⟩
  rcases hq : memRead 0xFFFF#16 t with ⟨y, v⟩
  have k := read_facts hr
  have l := read_facts hq
  exact ends_read hr rfl rfl rfl (List.cons_ne_nil _ _) (ends_read_last (c' := latches op ops addr x y []) hq rfl rfl rfl rfl
    (by rw [State.setPC_fault, l.2.1, k.2.1, hf]))

theorem ends_jumpTarget {lo : Byte} (hf : s.fault = none) : Ends (n + 1) (latches op [lo] addr data bus [.jumpTarget]) s
    ((fetchByte s).2.setPC (mkWord (fetchByte s).1 lo)) := by
  have hff := fetchByte_fault s
  rw [fetchByte_eq] at hff ⊢
  rcases hr : memRead s.cpu.pc s with ⟨x, t⟩
  rw [hr] at hff
  have e : (passByte t).setPC (mkWord x lo) = (t.setPC (mkWord x lo)).countByte := rfl
  have hz : ((t.setPC (mkWord x lo)).countByte).fault = none := by rw [← e, State.setPC_fault]; exact hff.trans hf
  dsimp only
  rw [e]
  exact ends_read_last (c' := latches op [lo, x] (mkWord x lo) data x []) hr rfl rfl rfl rfl hz

theorem ends_callTarget {lo : Byte} (hf : s.fault = none) : Ends (n + 1) (latches op [lo] addr data bus [.callTarget]) s
    (((memRead s.cpu.pc s).2.setPC (mkWord (memRead s.cpu.pc s).1 lo)).countByte) := by
  rcases hr : memRead s.cpu.pc s with ⟨x, t⟩
  have k := read_facts hr
  exact ends_read_last (c' := latches op [lo, x] (mkWord x lo) data x []) hr rfl rfl rfl rfl (by rw [State.countByte_fault,
      State.setPC_fault, k.2.1, hf])

theorem ends_jumpIndirect (hf : s.fault = none) : Ends (n + 2) (latches op ops addr data bus [.jumpLow, .jumpHigh]) s
    (jumpIndirect addr s) := by
  simp only [jumpIndirect]
  rcases hr : memRead addr s with ⟨x, t⟩
  rcases hq : memRead (mkWord (hiByte addr) (loByte addr + 1)) t with ⟨y, v⟩
  have k := read_facts hr
  have l := read_facts hq
  refine ends_read hr rfl rfl rfl (List.cons_ne_nil _ _) (ends_read_last (c' := latches op ops addr x y []) hq rfl rfl rfl rfl ?_)
  split <;> simp only [State.markBug_fault, State.setPC_fault, l.2.1, k.2.1, hf]

/-- A branch. -/
theorem ends_branch (hf : s.fault = none) : Ends (n + 3) (latches op [] addr data bus [.offset]) s
    (branchIf (branchCondition (latches op [] 0#16 0#8 0#8 []).mnemonic (fetchByte s).2.cpu.p) (fetchByte s).1 (fetchByte s).2) := by
  have hff := fetchByte_fault s
  rw [fetchByte_eq] at hff ⊢
  rcases hr : memRead s.cpu.pc s with ⟨x, t⟩
  rw [hr] at hff
  have hp : (passByte t).cpu.p = t.cpu.p := rfl
  dsimp only at hff ⊢
  rw [hp]
  by_cases hb : branchCondition (latches op [] 0#16 0#8 0#8 []).mnemonic t.cpu.p = true
  · refine ends_read (c' := latches op [x] (mkWord 0#8 x) data x [.branchTaken]) (v := passByte t) hr rfl rfl ?_ (List.cons_ne_nil _ _) ?_
    · simp only [cycleEffect]
      rw [mnemonic_of' (op := op) _ rfl, if_pos hb]; rfl
    generalize passByte t = w at hff
    rw [hb]
    simp only [branchIf, if_true, dummyRead]
    rcases hq : memRead w.cpu.pc w with ⟨y, v⟩
    have k := read_facts hq
    by_cases hn : hiByte (branchTarget w.cpu.pc x) = hiByte w.cpu.pc
    · rw [if_pos hn]
      refine ends_read_last (c' := latches op [x] (mkWord 0#8 x) data y []) hq rfl rfl ?_ rfl ?_
      · simp only [cycleEffect]
        rw [k.1]
        show (if hiByte (branchTarget w.cpu.pc x) = hiByte w.cpu.pc then _ else _, _) = _
        rw [if_pos hn]; rfl
      · rw [State.setPC_fault, k.2.1]; exact hff.trans hf
    · rw [if_neg hn]
      refine ends_read (c' := latches op [x] (branchTarget w.cpu.pc x) data y [.branchFix])
        (v := v.setPC (mkWord (hiByte w.cpu.pc) (loByte (branchTarget w.cpu.pc x)))) hq rfl rfl ?_ (List.cons_ne_nil _ _) ?_
      · simp only [cycleEffect]
        rw [k.1]
        show (if hiByte (branchTarget w.cpu.pc x) = hiByte w.cpu.pc then _ else _, _) = _
        rw [if_neg hn]; rfl
      · have hz : (v.setPC (mkWord (hiByte w.cpu.pc) (loByte (branchTarget w.cpu.pc x)))).fault = none := by
          rw [State.setPC_fault, k.2.1]; exact hff.trans hf
        have hpc : (v.setPC (mkWord (hiByte w.cpu.pc) (loByte (branchTarget w.cpu.pc x)))).cpu.pc = mkWord (hiByte w.cpu.pc)
            (loByte (branchTarget w.cpu.pc x)) := rfl
        generalize v.setPC (mkWord (hiByte w.cpu.pc) (loByte (branchTarget w.cpu.pc x))) = z at hz hpc
        rcases hx : memRead (mkWord (hiByte w.cpu.pc) (loByte (branchTarget w.cpu.pc x))) z with ⟨q, r⟩
        have l := read_facts hx
        refine ends_read_last (c' := latches op [x] (branchTarget w.cpu.pc x) data q []) hx rfl ?_ rfl rfl ?_
        · simp only [cycleAccess, hpc]
        · rw [State.markCrossed_fault, State.setPC_fault, l.2.1, hz]
  · have h : Ends (n + 3) (latches op [] addr data bus [.offset]) s (passByte t) := by
      refine ends_read_last (c' := latches op [x] (mkWord 0#8 x) data x []) (v := passByte t) hr rfl rfl ?_ rfl (hff.trans hf)
      simp only [cycleEffect]
      rw [mnemonic_of' (op := op) _ rfl, if_neg hb]; rfl
    rw [Bool.not_eq_true] at hb; rw [hb]; exact h

end Sys2Proof.Machine
end

