-- ==== Sys2Proof/Laws/CycleTable.lean ====
section
/-! SUPPORT. The cycles of every opcode, run to their end, are its instruction's meaning: one lemma per shape of cycles, and the
opcodes in the opcode table's order. -/

namespace Sys2Proof.Machine

variable {op : Byte} {d : InstrDef} {m : Mnemonic}

/-- The mnemonic an opcode's latches give. -/
abbrev mnem (op : Byte) : Mnemonic := (latches op [] 0#16 0#8 0#8 []).mnemonic
/-- The index register an opcode's latches give. -/
abbrev idx (op : Byte) (r : Cpu) : Byte := (latches op [] 0#16 0#8 0#8 []).index r

/-- From the opcode's latches the cycles of this definition end as this meaning says. -/
abbrev EndsAs (op : Byte) (d : InstrDef) (o : Host.Outcome State Fault Refusal) (s : State) : Prop :=
  ∃ t, o = .next t ∧ ∀ b, Ends 6 (latches op [] 0#16 0#8 b (cyclesOf d)) s t

/-- The cycles of an opcode are its instruction. -/
def Fits (op : Byte) (d : InstrDef) (f : OpForm) : Prop := ∀ s : State, s.fault = none →
  match f with
  | .done i => EndsAs op d (exec i s) s
  | .byte g => EndsAs op d (exec (g (fetchByte s).1) (fetchByte s).2) s
  | .word g =>
    if readsHighLate op then ∀ h, EndsAs op d (exec (g (mkWord h (fetchByte s).1)) (fetchByte s).2) s
    else EndsAs op d (exec (g (mkWord (fetchByte (fetchByte s).2).1 (fetchByte s).1)) (fetchByte (fetchByte s).2).2) s

theorem dummyRead_fault (a : Word) (s : State) : (dummyRead a s).fault = s.fault := memRead_fault a s
theorem dummyReadPC_fault (s : State) : (dummyReadPC s).fault = s.fault := memRead_fault _ s
theorem readPointer_fault (p : Byte) (s : State) : (readPointer p s).2.fault = s.fault := (readPointer_seq p s).frame.fault

/-! ### Reading forms -/

theorem fits_imm {g : Byte → Instr} (hc : cyclesOf d = [.immediate])
    (he : ∀ v s, exec (g v) s = .next (readEffect (mnem op) v s)) : Fits op d (.byte g) := fun s hf =>
  ⟨_, he _ _, fun b => by rw [hc]; exact ends_immediate rfl hf⟩

theorem fits_read_zp {g : Byte → Instr} (hc : cyclesOf d = [.operand, .read])
    (he : ∀ v s, exec (g v) s = .next (readEffect (mnem op) (readZp v s).1 (readZp v s).2)) : Fits op d (.byte g) := fun s hf =>
  ⟨_, he _ _, fun b => by
    rw [hc]; exact ends_operand1 (List.cons_ne_nil _ _) (ends_at rfl ((fetchByte_fault s).trans hf))⟩

theorem fits_read_zpi {g : Byte → Instr} (i : Cpu → Byte) (hc : cyclesOf d = [.operand, .addIndex, .read]) (hi : idx op = i)
    (he : ∀ v s, exec (g v) s = .next (readEffect (mnem op) (readAt (eaZpIndexed v (i s.cpu) s)).1 (readAt (eaZpIndexed v
        (i s.cpu) s)).2)) :
    Fits op d (.byte g) := fun s hf =>
  ⟨_, he _ _, fun b => by
    subst hi
    rw [hc]
    exact ends_operand1 (List.cons_ne_nil _ _) (ends_addIndex (List.cons_ne_nil _ _) rfl fun _ =>
      ends_at rfl ((dummyRead_fault _ _).trans ((fetchByte_fault s).trans hf)))⟩

theorem fits_read_abs {g : Word → Instr} (hl : readsHighLate op = false) (hc : cyclesOf d = [.operand, .operand, .read])
    (he : ∀ v s, exec (g v) s = .next (readEffect (mnem op) (readAbs v s).1 (readAbs v s).2)) : Fits op d (.word g) := fun s hf => by
  simp only [hl, Bool.false_eq_true, if_false]
  refine ⟨_, he _ _, fun b => ?_⟩
  rw [hc]
  exact ends_operand2 (List.cons_ne_nil _ _) (ends_at rfl ((fetchByte_fault _).trans ((fetchByte_fault s).trans hf)))

theorem fits_read_absi {g : Word → Instr} (i : Cpu → Byte) (hl : readsHighLate op = false) (hc : cyclesOf d = [.operand, .operand,
    .readUnfixed])
    (hi : idx op = i)
    (he : ∀ v s, exec (g v) s = .next (readEffect (mnem op) (readIndexed v (i s.cpu) s).1 (readIndexed v (i s.cpu) s).2)) :
    Fits op d (.word g) := fun s hf => by
  subst hi
  simp only [hl, Bool.false_eq_true, if_false]
  refine ⟨_, he _ _, fun b => ?_⟩
  rw [hc]
  exact ends_operand2 (List.cons_ne_nil _ _) (ends_unfixed rfl rfl rfl ((fetchByte_fault _).trans ((fetchByte_fault s).trans hf)))

theorem fits_read_indx {g : Byte → Instr} (hc : cyclesOf d = [.operand, .addIndex, .pointerLow, .pointerHigh, .read])
    (hi : idx op = Cpu.x)
    (he : ∀ v s, exec (g v) s = .next (readEffect (mnem op) (readIndx v s).1 (readIndx v s).2)) : Fits op d (.byte g) := fun s hf =>
  ⟨_, he _ _, fun b => by
    rw [hc]
    exact ends_operand1 (List.cons_ne_nil _ _) (ends_addIndex (List.cons_ne_nil _ _) (congrFun hi _) fun _ =>
      ends_pointer (List.cons_ne_nil _ _) fun _ _ =>
        ends_at rfl ((readPointer_fault _ _).trans ((dummyRead_fault _ _).trans ((fetchByte_fault s).trans hf))))⟩

theorem fits_read_indy {g : Byte → Instr} (hc : cyclesOf d = [.operand, .pointerLow, .pointerHigh, .readUnfixed])
    (hi : idx op = Cpu.y)
    (he : ∀ v s, exec (g v) s = .next (readEffect (mnem op) (readIndy v s).1 (readIndy v s).2)) : Fits op d (.byte g) := fun s hf =>
  ⟨_, he _ _, fun b => by
    rw [hc]
    simp only [readIndy]
    exact ends_operand1 (List.cons_ne_nil _ _) (ends_pointer (List.cons_ne_nil _ _) fun _ _ =>
      ends_unfixed rfl (readPointer_seq _ _).cpu (congrFun hi _)
        ((readPointer_fault _ _).trans ((fetchByte_fault s).trans hf)))⟩

/-! ### Storing forms -/

theorem fits_store_zp {g : Byte → Instr} (hc : cyclesOf d = [.operand, .store])
    (he : ∀ v s, exec (g v) s = .next (storeAt (storedByte (mnem op) s.cpu) (eaZp v s))) : Fits op d (.byte g) := fun s hf =>
  ⟨_, he _ _, fun b => by
    rw [hc]; exact ends_operand1 (List.cons_ne_nil _ _) (ends_store rfl rfl ((fetchByte_fault s).trans hf))⟩

theorem fits_store_zpi {g : Byte → Instr} (i : Cpu → Byte) (hc : cyclesOf d = [.operand, .addIndex, .store]) (hi : idx op = i)
    (he : ∀ v s, exec (g v) s = .next (storeAt (storedByte (mnem op) s.cpu) (eaZpIndexed v (i s.cpu) s))) :
    Fits op d (.byte g) := fun s hf =>
  ⟨_, he _ _, fun b => by
    subst hi
    rw [hc]
    exact ends_operand1 (List.cons_ne_nil _ _) (ends_addIndex (List.cons_ne_nil _ _) rfl fun _ =>
      ends_store rfl (dummyRead_seq _ _).cpu ((dummyRead_fault _ _).trans ((fetchByte_fault s).trans hf)))⟩

theorem fits_store_abs {g : Word → Instr} (hl : readsHighLate op = false) (hc : cyclesOf d = [.operand, .operand, .store])
    (he : ∀ v s, exec (g v) s = .next (storeAt (storedByte (mnem op) s.cpu) (eaAbs v s))) : Fits op d (.word g) := fun s hf => by
  simp only [hl, Bool.false_eq_true, if_false]
  refine ⟨_, he _ _, fun b => ?_⟩
  rw [hc]
  exact ends_operand2 (List.cons_ne_nil _ _) (ends_store rfl rfl ((fetchByte_fault _).trans ((fetchByte_fault s).trans hf)))

theorem fits_store_absi {g : Word → Instr} (i : Cpu → Byte) (hl : readsHighLate op = false)
    (hc : cyclesOf d = [.operand, .operand, .fixAddress, .store]) (hi : idx op = i)
    (he : ∀ v s, exec (g v) s = .next (storeAt (storedByte (mnem op) s.cpu) (eaFixed v (i s.cpu) s))) :
    Fits op d (.word g) := fun s hf => by
  subst hi
  simp only [hl, Bool.false_eq_true, if_false]
  refine ⟨_, he _ _, fun b => ?_⟩
  rw [hc]
  exact ends_operand2 (List.cons_ne_nil _ _) (ends_fix (List.cons_ne_nil _ _) rfl fun _ =>
    ends_store rfl (dummyRead_seq _ _).cpu ((dummyRead_fault _ _).trans ((fetchByte_fault _).trans ((fetchByte_fault s).trans hf))))

theorem fits_store_indx {g : Byte → Instr} (hc : cyclesOf d = [.operand, .addIndex, .pointerLow, .pointerHigh, .store])
    (hi : idx op = Cpu.x)
    (he : ∀ v s, exec (g v) s = .next (storeAt (storedByte (mnem op) s.cpu) (eaIndx v s))) : Fits op d (.byte g) := fun s hf =>
  ⟨_, he _ _, fun b => by
    rw [hc]
    exact ends_operand1 (List.cons_ne_nil _ _) (ends_addIndex (List.cons_ne_nil _ _) (congrFun hi _) fun _ =>
      ends_pointer (List.cons_ne_nil _ _) fun _ _ => ends_store rfl (eaIndx_seq _ _).cpu ((readPointer_fault _ _).trans
          ((dummyRead_fault _ _).trans ((fetchByte_fault s).trans hf))))⟩

theorem fits_store_indy {g : Byte → Instr} (hc : cyclesOf d = [.operand, .pointerLow, .pointerHigh, .fixAddress, .store])
    (hi : idx op = Cpu.y)
    (he : ∀ v s, exec (g v) s = .next (storeAt (storedByte (mnem op) s.cpu) (eaIndy v s))) : Fits op d (.byte g) := fun s hf =>
  ⟨_, he _ _, fun b => by
    rw [hc]
    have hff := (readPointer_fault (fetchByte s).1 (fetchByte s).2).trans ((fetchByte_fault s).trans hf)
    exact ends_operand1 (List.cons_ne_nil _ _) (ends_pointer (List.cons_ne_nil _ _) fun _ _ =>
      ends_fix (List.cons_ne_nil _ _) ((congrFun hi _).trans (by rw [(readPointer_seq _ _).cpu])) fun _ =>
        ends_store rfl (eaIndy_seq _ _).cpu ((dummyRead_fault _ _).trans hff))⟩

/-! ### Read-modify-write forms -/

theorem fits_modify_zp {g : Byte → Instr} (hc : cyclesOf d = [.operand, .modifyRead, .modifyRewrite, .modifyWrite])
    (he : ∀ v s, exec (g v) s = .next (modifyAt (modifyOp (mnem op)) (eaZp v s))) : Fits op d (.byte g) := fun s hf =>
  ⟨_, he _ _, fun b => by
    rw [hc]; exact ends_operand1 (List.cons_ne_nil _ _) (ends_modify rfl ((fetchByte_fault s).trans hf))⟩

theorem fits_modify_zpx {g : Byte → Instr} (hc : cyclesOf d = [.operand, .addIndex, .modifyRead, .modifyRewrite, .modifyWrite])
    (hi : idx op = Cpu.x)
    (he : ∀ v s, exec (g v) s = .next (modifyAt (modifyOp (mnem op)) (eaZpx v s))) : Fits op d (.byte g) := fun s hf =>
  ⟨_, he _ _, fun b => by
    rw [hc]
    exact ends_operand1 (List.cons_ne_nil _ _) (ends_addIndex (List.cons_ne_nil _ _) (congrFun hi _) fun _ =>
      ends_modify rfl ((dummyRead_fault _ _).trans ((fetchByte_fault s).trans hf)))⟩

theorem fits_modify_abs {g : Word → Instr} (hl : readsHighLate op = false)
    (hc : cyclesOf d = [.operand, .operand, .modifyRead, .modifyRewrite, .modifyWrite])
    (he : ∀ v s, exec (g v) s = .next (modifyAt (modifyOp (mnem op)) (eaAbs v s))) : Fits op d (.word g) := fun s hf => by
  simp only [hl, Bool.false_eq_true, if_false]
  refine ⟨_, he _ _, fun b => ?_⟩
  rw [hc]
  exact ends_operand2 (List.cons_ne_nil _ _) (ends_modify rfl ((fetchByte_fault _).trans ((fetchByte_fault s).trans hf)))

theorem fits_modify_absx {g : Word → Instr} (hl : readsHighLate op = false)
    (hc : cyclesOf d = [.operand, .operand, .fixAddress, .modifyRead, .modifyRewrite, .modifyWrite]) (hi : idx op = Cpu.x)
    (he : ∀ v s, exec (g v) s = .next (modifyAt (modifyOp (mnem op)) (eaAbsx v s))) : Fits op d (.word g) := fun s hf => by
  simp only [hl, Bool.false_eq_true, if_false]
  refine ⟨_, he _ _, fun b => ?_⟩
  rw [hc]
  exact ends_operand2 (List.cons_ne_nil _ _) (ends_fix (List.cons_ne_nil _ _) (congrFun hi _) fun _ =>
    ends_modify rfl ((dummyRead_fault _ _).trans ((fetchByte_fault _).trans ((fetchByte_fault s).trans hf))))

/-! ### One-byte forms, branches, jumps and the stack -/

theorem fits_implied {i : Instr} (hc : cyclesOf d = [.implied])
    (he : ∀ s, exec i s = .next (impliedEffect (mnem op) (dummyReadPC s))) : Fits op d (.done i) := fun s hf =>
  ⟨_, he _, fun b => by rw [hc]; exact ends_implied rfl hf⟩

theorem fits_branch {g : Byte → Instr} (hc : cyclesOf d = [.offset])
    (he : ∀ v s, exec (g v) s = .next (branchIf (branchCondition (mnem op) s.cpu.p) v s)) : Fits op d (.byte g) := fun s hf =>
  ⟨_, he _ _, fun b => by rw [hc]; exact ends_branch hf⟩

theorem fits_push {i : Instr} (hc : cyclesOf d = [.dummyPC, .pushRegister])
    (he : ∀ s, exec i s = .next (push (if mnem op = .php then s.cpu.p.toByte else s.cpu.a) (dummyReadPC s))) : Fits op d (.done i) :=
  fun s hf => ⟨_, he _, fun b => by
    rw [hc]
    exact ends_dummyPC (List.cons_ne_nil _ _) fun _ => ends_pushRegister (dummyRead_seq _ _).cpu ((dummyReadPC_fault s).trans hf)⟩

theorem fits_pull {i : Instr} (hc : cyclesOf d = [.dummyPC, .dummyPull, .pullRegister])
    (he : ∀ s, exec i s = .next (if mnem op = .plp then pullP s else pullA s)) : Fits op d (.done i) :=
  fun s hf => ⟨_, he _, fun b => by
    rw [hc]
    exact ends_dummyPC (List.cons_ne_nil _ _) fun _ => ends_dummyPull (List.cons_ne_nil _ _) fun _ =>
      ends_pullRegister ((dummyRead_fault _ _).trans ((dummyReadPC_fault s).trans hf))⟩

theorem pull_fault (s : State) : (pull s).2.fault = s.fault := by
  rw [pull, memRead_fault, State.setS_fault]
theorem push_fault (v : Byte) (s : State) : (push v s).fault = s.fault := by
  rw [push, State.setS_fault, memWrite_fault]

theorem ends_trap {n : Nat} {ops : List Byte} {addr : Word} {data bus : Byte} {s : State} (hf : s.fault = none) :
    Ends (n + 5) (latches op ops addr data bus [.pushHigh, .pushLow, .pushStatus, .vectorLow, .vectorHigh]) s (takeTrap s) := by
  simp only [takeTrap]
  refine ends_pushHigh (List.cons_ne_nil _ _) ?_
  have h1 := (push_fault (hiByte s.cpu.pc) s).trans hf
  have e : (push (hiByte s.cpu.pc) s).cpu.pc = s.cpu.pc := by rw [push_cpu]
  generalize push (hiByte s.cpu.pc) s = s1 at h1 e ⊢
  rw [← e]
  refine ends_pushLow (List.cons_ne_nil _ _) ?_
  have h2 := (push_fault (loByte s1.cpu.pc) s1).trans h1
  generalize push (loByte s1.cpu.pc) s1 = s2 at h2 ⊢
  refine ends_pushStatus (List.cons_ne_nil _ _) ?_
  have h3 := (push_fault s2.cpu.p.toByte s2).trans h2
  generalize push s2.cpu.p.toByte s2 = s3 at h3 ⊢
  have h4 := (State.setP_fault s3 { s3.cpu.p with i := true }).trans h3
  generalize s3.setP { s3.cpu.p with i := true } = s4 at h4 ⊢
  exact ends_vector h4

theorem fits_brk (hc : cyclesOf d = [.padding, .pushHigh, .pushLow, .pushStatus, .vectorLow, .vectorHigh]) : Fits op d (.done .brk) :=
  fun s hf => ⟨_, rfl, fun b => by
    rw [hc]
    refine ends_padding (List.cons_ne_nil _ _) fun _ => ends_trap ?_
    rw [skipPadding, State.setPC_fault, dummyReadPC_fault, hf]⟩

theorem fits_rti (hc : cyclesOf d = [.dummyPC, .dummyPull, .pullStatus, .pullLow, .pullHigh]) : Fits op d (.done .rti) :=
  fun s hf => ⟨_, rfl, fun b => by
    rw [hc]
    refine ends_dummyPC (List.cons_ne_nil _ _) fun _ => ends_dummyPull (List.cons_ne_nil _ _) fun _ =>
      ends_pullStatus (List.cons_ne_nil _ _) fun _ => ends_pullLow (List.cons_ne_nil _ _) fun _ => ends_pullHigh_last ?_
    rw [pull_fault, State.setP_fault, pull_fault]
    exact (dummyRead_fault _ _).trans ((dummyReadPC_fault s).trans hf)⟩

theorem fits_rts (hc : cyclesOf d = [.dummyPC, .dummyPull, .pullReturn, .pullHigh, .returnPlusOne]) : Fits op d (.done .rts) :=
  fun s hf => ⟨_, rfl, fun b => by
    rw [hc]
    refine ends_dummyPC (List.cons_ne_nil _ _) fun _ => ends_dummyPull (List.cons_ne_nil _ _) fun _ =>
      ends_pullReturn (List.cons_ne_nil _ _) fun _ => ends_pullHigh (List.cons_ne_nil _ _) fun _ => ends_returnPlusOne ?_
    rw [State.setPC_fault, pull_fault, pull_fault]
    exact (dummyRead_fault _ _).trans ((dummyReadPC_fault s).trans hf)⟩

theorem fits_jsr (hl : readsHighLate op = true) (hc : cyclesOf d = [.operand, .dummyStack, .pushHigh, .pushLow, .callTarget]) :
    Fits op d (.word .jsr) := fun s hf => by
  simp only [hl, if_true]
  refine fun h => ⟨_, rfl, fun b => ?_⟩
  rw [hc, loByte_mkWord]
  refine ends_operand1 (List.cons_ne_nil _ _) (ends_dummyStack (List.cons_ne_nil _ _) fun _ =>
    ends_pushHigh (List.cons_ne_nil _ _) (ends_pushLow (List.cons_ne_nil _ _) (ends_callTarget ?_)))
  rw [push_fault, push_fault]
  exact (dummyRead_fault _ _).trans ((fetchByte_fault s).trans hf)

theorem fits_jmpInd (hl : readsHighLate op = false) (hc : cyclesOf d = [.operand, .operand, .jumpLow, .jumpHigh]) :
    Fits op d (.word .jmpInd) := fun s hf => by
  simp only [hl, Bool.false_eq_true, if_false]
  refine ⟨_, rfl, fun b => ?_⟩
  rw [hc]
  exact ends_operand2 (List.cons_ne_nil _ _) (ends_jumpIndirect ((fetchByte_fault _).trans ((fetchByte_fault s).trans hf)))

theorem fits_jmpAbs (hl : readsHighLate op = false) (hc : cyclesOf d = [.operand, .jumpTarget]) :
    Fits op d (.word .jmpAbs) := fun s hf => by
  simp only [hl, Bool.false_eq_true, if_false]
  refine ⟨_, rfl, fun b => ?_⟩
  rw [hc]
  exact ends_operand1 (List.cons_ne_nil _ _) (ends_jumpTarget ((fetchByte_fault s).trans hf))


/-- CMP, CPX and CPY. -/
def comparing (m : Mnemonic) : Bool := m == .cmp || m == .cpx || m == .cpy

/-- The register a comparison compares. -/
def compared (m : Mnemonic) (r : Cpu) : Byte :=
  match m with
  | .cpx => r.x
  | .cpy => r.y
  | _ => r.a

/-- A comparison reads its register before its operand, which leaves it as it is. -/
theorem compares {n : Nat} {b : Bool} {i : Instr} {s : State} {r : Byte × State} (h : ReadSeq n b s r.2)
    (hm : comparing m = true) (he : exec i s = .next (compareOperand (compared m s.cpu) r)) :
    exec i s = .next (readEffect m r.1 r.2) := by
  rw [he, ← h.cpu]
  cases m <;> first | rfl | cases hm

/-- A transfer and a count read their register before the dummy read, which leaves it as it is. -/
theorem implies {i : Instr} (f : Cpu → State → State) (s : State) (he : exec i s = .next (f s.cpu (dummyReadPC s)))
    (hm : ∀ t, impliedEffect m t = f t.cpu t) : exec i s = .next (impliedEffect m (dummyReadPC s)) := by
  rw [he, hm, show (dummyReadPC s).cpu = s.cpu from (dummyRead_seq _ _).cpu]

/-- One row: the cycles of the opcode with this value. -/
theorem row {k : Nat} {d' : InstrDef} {f : OpForm} (hn : op.toNat = k) (h : opcodeTable op = some d)
    (hd : opcodeTable (BitVec.ofNat 8 k) = some d') (F : Fits (BitVec.ofNat 8 k) d' f) : Fits op d f := by
  have e : op = BitVec.ofNat 8 k := by rw [← hn, BitVec.ofNat_toNat, BitVec.setWidth_eq]
  subst e
  rw [h] at hd
  cases hd
  exact F

/-- The cycles of every documented opcode are its instruction. -/
theorem opcode_fits (h : opcodeTable op = some d) {f : OpForm} (hf : opForm op = some f) : Fits op d f := by
  unfold opForm at hf
  split at hf <;> cases hf <;> rename_i hn
  · exact row hn h rfl (fits_brk rfl)
  · exact row hn h rfl (fits_read_indx rfl rfl fun _ _ => rfl)
  · exact row hn h rfl (fits_read_zp rfl fun _ _ => rfl)
  · exact row hn h rfl (fits_modify_zp rfl fun _ _ => rfl)
  · exact row hn h rfl (fits_push rfl fun _ => rfl)
  · exact row hn h rfl (fits_imm rfl fun _ _ => rfl)
  · exact row hn h rfl (fits_implied rfl fun _ => rfl)
  · exact row hn h rfl (fits_read_abs rfl rfl fun _ _ => rfl)
  · exact row hn h rfl (fits_modify_abs rfl rfl fun _ _ => rfl)
  · exact row hn h rfl (fits_branch rfl fun _ _ => rfl)
  · exact row hn h rfl (fits_read_indy rfl rfl fun _ _ => rfl)
  · exact row hn h rfl (fits_read_zpi Cpu.x rfl rfl fun _ _ => rfl)
  · exact row hn h rfl (fits_modify_zpx rfl rfl fun _ _ => rfl)
  · exact row hn h rfl (fits_implied rfl fun _ => rfl)
  · exact row hn h rfl (fits_read_absi Cpu.y rfl rfl rfl fun _ _ => rfl)
  · exact row hn h rfl (fits_read_absi Cpu.x rfl rfl rfl fun _ _ => rfl)
  · exact row hn h rfl (fits_modify_absx rfl rfl rfl fun _ _ => rfl)
  · exact row hn h rfl (fits_jsr rfl rfl)
  · exact row hn h rfl (fits_read_indx rfl rfl fun _ _ => rfl)
  · exact row hn h rfl (fits_read_zp rfl fun _ _ => rfl)
  · exact row hn h rfl (fits_read_zp rfl fun _ _ => rfl)
  · exact row hn h rfl (fits_modify_zp rfl fun _ _ => rfl)
  · exact row hn h rfl (fits_pull rfl fun _ => rfl)
  · exact row hn h rfl (fits_imm rfl fun _ _ => rfl)
  · exact row hn h rfl (fits_implied rfl fun _ => rfl)
  · exact row hn h rfl (fits_read_abs rfl rfl fun _ _ => rfl)
  · exact row hn h rfl (fits_read_abs rfl rfl fun _ _ => rfl)
  · exact row hn h rfl (fits_modify_abs rfl rfl fun _ _ => rfl)
  · exact row hn h rfl (fits_branch rfl fun _ _ => rfl)
  · exact row hn h rfl (fits_read_indy rfl rfl fun _ _ => rfl)
  · exact row hn h rfl (fits_read_zpi Cpu.x rfl rfl fun _ _ => rfl)
  · exact row hn h rfl (fits_modify_zpx rfl rfl fun _ _ => rfl)
  · exact row hn h rfl (fits_implied rfl fun _ => rfl)
  · exact row hn h rfl (fits_read_absi Cpu.y rfl rfl rfl fun _ _ => rfl)
  · exact row hn h rfl (fits_read_absi Cpu.x rfl rfl rfl fun _ _ => rfl)
  · exact row hn h rfl (fits_modify_absx rfl rfl rfl fun _ _ => rfl)
  · exact row hn h rfl (fits_rti rfl)
  · exact row hn h rfl (fits_read_indx rfl rfl fun _ _ => rfl)
  · exact row hn h rfl (fits_read_zp rfl fun _ _ => rfl)
  · exact row hn h rfl (fits_modify_zp rfl fun _ _ => rfl)
  · exact row hn h rfl (fits_push rfl fun _ => rfl)
  · exact row hn h rfl (fits_imm rfl fun _ _ => rfl)
  · exact row hn h rfl (fits_implied rfl fun _ => rfl)
  · exact row hn h rfl (fits_jmpAbs rfl rfl)
  · exact row hn h rfl (fits_read_abs rfl rfl fun _ _ => rfl)
  · exact row hn h rfl (fits_modify_abs rfl rfl fun _ _ => rfl)
  · exact row hn h rfl (fits_branch rfl fun _ _ => rfl)
  · exact row hn h rfl (fits_read_indy rfl rfl fun _ _ => rfl)
  · exact row hn h rfl (fits_read_zpi Cpu.x rfl rfl fun _ _ => rfl)
  · exact row hn h rfl (fits_modify_zpx rfl rfl fun _ _ => rfl)
  · exact row hn h rfl (fits_implied rfl fun _ => rfl)
  · exact row hn h rfl (fits_read_absi Cpu.y rfl rfl rfl fun _ _ => rfl)
  · exact row hn h rfl (fits_read_absi Cpu.x rfl rfl rfl fun _ _ => rfl)
  · exact row hn h rfl (fits_modify_absx rfl rfl rfl fun _ _ => rfl)
  · exact row hn h rfl (fits_rts rfl)
  · exact row hn h rfl (fits_read_indx rfl rfl fun _ _ => rfl)
  · exact row hn h rfl (fits_read_zp rfl fun _ _ => rfl)
  · exact row hn h rfl (fits_modify_zp rfl fun _ _ => rfl)
  · exact row hn h rfl (fits_pull rfl fun _ => rfl)
  · exact row hn h rfl (fits_imm rfl fun _ _ => rfl)
  · exact row hn h rfl (fits_implied rfl fun _ => rfl)
  · exact row hn h rfl (fits_jmpInd rfl rfl)
  · exact row hn h rfl (fits_read_abs rfl rfl fun _ _ => rfl)
  · exact row hn h rfl (fits_modify_abs rfl rfl fun _ _ => rfl)
  · exact row hn h rfl (fits_branch rfl fun _ _ => rfl)
  · exact row hn h rfl (fits_read_indy rfl rfl fun _ _ => rfl)
  · exact row hn h rfl (fits_read_zpi Cpu.x rfl rfl fun _ _ => rfl)
  · exact row hn h rfl (fits_modify_zpx rfl rfl fun _ _ => rfl)
  · exact row hn h rfl (fits_implied rfl fun _ => rfl)
  · exact row hn h rfl (fits_read_absi Cpu.y rfl rfl rfl fun _ _ => rfl)
  · exact row hn h rfl (fits_read_absi Cpu.x rfl rfl rfl fun _ _ => rfl)
  · exact row hn h rfl (fits_modify_absx rfl rfl rfl fun _ _ => rfl)
  · exact row hn h rfl (fits_store_indx rfl rfl fun _ _ => rfl)
  · exact row hn h rfl (fits_store_zp rfl fun _ _ => rfl)
  · exact row hn h rfl (fits_store_zp rfl fun _ _ => rfl)
  · exact row hn h rfl (fits_store_zp rfl fun _ _ => rfl)
  · exact row hn h rfl (fits_implied rfl fun s => implies (fun c t => (t.setY (c.y - 1)).setNZ (c.y - 1)) s rfl fun _ => rfl)
  · exact row hn h rfl (fits_implied rfl fun s => implies (fun c t => (t.setA c.x).setNZ c.x) s rfl fun _ => rfl)
  · exact row hn h rfl (fits_store_abs rfl rfl fun _ _ => rfl)
  · exact row hn h rfl (fits_store_abs rfl rfl fun _ _ => rfl)
  · exact row hn h rfl (fits_store_abs rfl rfl fun _ _ => rfl)
  · exact row hn h rfl (fits_branch rfl fun _ _ => rfl)
  · exact row hn h rfl (fits_store_indy rfl rfl fun _ _ => rfl)
  · exact row hn h rfl (fits_store_zpi Cpu.x rfl rfl fun _ _ => rfl)
  · exact row hn h rfl (fits_store_zpi Cpu.x rfl rfl fun _ _ => rfl)
  · exact row hn h rfl (fits_store_zpi Cpu.y rfl rfl fun _ _ => rfl)
  · exact row hn h rfl (fits_implied rfl fun s => implies (fun c t => (t.setA c.y).setNZ c.y) s rfl fun _ => rfl)
  · exact row hn h rfl (fits_store_absi Cpu.y rfl rfl rfl fun _ _ => rfl)
  · exact row hn h rfl (fits_implied rfl fun s => implies (fun c t => t.setS c.x) s rfl fun _ => rfl)
  · exact row hn h rfl (fits_store_absi Cpu.x rfl rfl rfl fun _ _ => rfl)
  · exact row hn h rfl (fits_imm rfl fun _ _ => rfl)
  · exact row hn h rfl (fits_read_indx rfl rfl fun _ _ => rfl)
  · exact row hn h rfl (fits_imm rfl fun _ _ => rfl)
  · exact row hn h rfl (fits_read_zp rfl fun _ _ => rfl)
  · exact row hn h rfl (fits_read_zp rfl fun _ _ => rfl)
  · exact row hn h rfl (fits_read_zp rfl fun _ _ => rfl)
  · exact row hn h rfl (fits_implied rfl fun s => implies (fun c t => (t.setY c.a).setNZ c.a) s rfl fun _ => rfl)
  · exact row hn h rfl (fits_imm rfl fun _ _ => rfl)
  · exact row hn h rfl (fits_implied rfl fun s => implies (fun c t => (t.setX c.a).setNZ c.a) s rfl fun _ => rfl)
  · exact row hn h rfl (fits_read_abs rfl rfl fun _ _ => rfl)
  · exact row hn h rfl (fits_read_abs rfl rfl fun _ _ => rfl)
  · exact row hn h rfl (fits_read_abs rfl rfl fun _ _ => rfl)
  · exact row hn h rfl (fits_branch rfl fun _ _ => rfl)
  · exact row hn h rfl (fits_read_indy rfl rfl fun _ _ => rfl)
  · exact row hn h rfl (fits_read_zpi Cpu.x rfl rfl fun _ _ => rfl)
  · exact row hn h rfl (fits_read_zpi Cpu.x rfl rfl fun _ _ => rfl)
  · exact row hn h rfl (fits_read_zpi Cpu.y rfl rfl fun _ _ => rfl)
  · exact row hn h rfl (fits_implied rfl fun _ => rfl)
  · exact row hn h rfl (fits_read_absi Cpu.y rfl rfl rfl fun _ _ => rfl)
  · exact row hn h rfl (fits_implied rfl fun s => implies (fun c t => (t.setX c.sp).setNZ c.sp) s rfl fun _ => rfl)
  · exact row hn h rfl (fits_read_absi Cpu.x rfl rfl rfl fun _ _ => rfl)
  · exact row hn h rfl (fits_read_absi Cpu.x rfl rfl rfl fun _ _ => rfl)
  · exact row hn h rfl (fits_read_absi Cpu.y rfl rfl rfl fun _ _ => rfl)
  · exact row hn h rfl (fits_imm rfl fun _ _ => rfl)
  · exact row hn h rfl (fits_read_indx rfl rfl fun v s => compares (readIndx_seq v s) rfl rfl)
  · exact row hn h rfl (fits_read_zp rfl fun v s => compares (readZp_seq v s) rfl rfl)
  · exact row hn h rfl (fits_read_zp rfl fun v s => compares (readZp_seq v s) rfl rfl)
  · exact row hn h rfl (fits_modify_zp rfl fun _ _ => rfl)
  · exact row hn h rfl (fits_implied rfl fun s => implies (fun c t => (t.setY (c.y + 1)).setNZ (c.y + 1)) s rfl fun _ => rfl)
  · exact row hn h rfl (fits_imm rfl fun _ _ => rfl)
  · exact row hn h rfl (fits_implied rfl fun s => implies (fun c t => (t.setX (c.x - 1)).setNZ (c.x - 1)) s rfl fun _ => rfl)
  · exact row hn h rfl (fits_read_abs rfl rfl fun v s => compares (readAbs_seq v s) rfl rfl)
  · exact row hn h rfl (fits_read_abs rfl rfl fun v s => compares (readAbs_seq v s) rfl rfl)
  · exact row hn h rfl (fits_modify_abs rfl rfl fun _ _ => rfl)
  · exact row hn h rfl (fits_branch rfl fun _ _ => rfl)
  · exact row hn h rfl (fits_read_indy rfl rfl fun v s => compares (readIndy_seq v s) rfl rfl)
  · exact row hn h rfl (fits_read_zpi Cpu.x rfl rfl fun v s => compares (readZpx_seq v s) rfl rfl)
  · exact row hn h rfl (fits_modify_zpx rfl rfl fun _ _ => rfl)
  · exact row hn h rfl (fits_implied rfl fun _ => rfl)
  · exact row hn h rfl (fits_read_absi Cpu.y rfl rfl rfl fun v s => compares (readAbsy_seq v s) rfl rfl)
  · exact row hn h rfl (fits_read_absi Cpu.x rfl rfl rfl fun v s => compares (readAbsx_seq v s) rfl rfl)
  · exact row hn h rfl (fits_modify_absx rfl rfl rfl fun _ _ => rfl)
  · exact row hn h rfl (fits_imm rfl fun _ _ => rfl)
  · exact row hn h rfl (fits_read_indx rfl rfl fun _ _ => rfl)
  · exact row hn h rfl (fits_read_zp rfl fun v s => compares (readZp_seq v s) rfl rfl)
  · exact row hn h rfl (fits_read_zp rfl fun _ _ => rfl)
  · exact row hn h rfl (fits_modify_zp rfl fun _ _ => rfl)
  · exact row hn h rfl (fits_implied rfl fun s => implies (fun c t => (t.setX (c.x + 1)).setNZ (c.x + 1)) s rfl fun _ => rfl)
  · exact row hn h rfl (fits_imm rfl fun _ _ => rfl)
  · exact row hn h rfl (fits_implied rfl fun _ => rfl)
  · exact row hn h rfl (fits_read_abs rfl rfl fun v s => compares (readAbs_seq v s) rfl rfl)
  · exact row hn h rfl (fits_read_abs rfl rfl fun _ _ => rfl)
  · exact row hn h rfl (fits_modify_abs rfl rfl fun _ _ => rfl)
  · exact row hn h rfl (fits_branch rfl fun _ _ => rfl)
  · exact row hn h rfl (fits_read_indy rfl rfl fun _ _ => rfl)
  · exact row hn h rfl (fits_read_zpi Cpu.x rfl rfl fun _ _ => rfl)
  · exact row hn h rfl (fits_modify_zpx rfl rfl fun _ _ => rfl)
  · exact row hn h rfl (fits_implied rfl fun _ => rfl)
  · exact row hn h rfl (fits_read_absi Cpu.y rfl rfl rfl fun _ _ => rfl)
  · exact row hn h rfl (fits_read_absi Cpu.x rfl rfl rfl fun _ _ => rfl)
  · exact row hn h rfl (fits_modify_absx rfl rfl rfl fun _ _ => rfl)

/-! ### The step -/

/-- Every opcode has a cycle after its fetch. -/
theorem cyclesOf_ne (d : InstrDef) : cyclesOf d ≠ [] := by
  unfold cyclesOf
  split <;> first | exact List.cons_ne_nil _ _ | skip
  · split <;> exact List.cons_ne_nil _ _
  · split <;> first | exact List.cons_ne_nil _ _ | skip
    split
    · simp
    · simp
    · intro h
      have h2 := (List.append_eq_nil_iff.1 h).2
      split at h2 <;> cases h2

/-- A row of the opcode table is a form of the decoder. -/
theorem form_of_row {op : Byte} {d : InstrDef} (h : opcodeTable op = some d) : ∃ f, opForm op = some f := by
  have := opForm_isNone op
  rw [h] at this
  cases hf : opForm op with
  | none => rw [hf] at this; cases this
  | some f => exact ⟨f, rfl⟩


/-- A state that is not stopped holds no fault. -/
theorem stopReason_none {s : State} (h : stopReason s = none) : s.fault = none := by
  unfold stopReason at h
  cases hr : s.refusal <;> cases hf : s.fault <;> simp_all

/-- A step whose fetch and meaning complete. -/
theorem step_of_exec {s : State} {i : Instr} {u t : State} (hs : stopReason s = none) (hf : fetchInstr s = (some i, u))
    (he : exec i u = .next t) :
    step s = .next (finishInstr t) := by
  simp only [step, hs, hf, he]

/-- A step on a documented opcode is the opcode's cycles to their end. -/
theorem decoded {s : State} {d : InstrDef} (hs : stopReason s = none) {op : Byte} {u : State} (ho : fetchOpcode s = (op, u))
    (hu : u.fault = none)
    (hd : opcodeTable op = some d) : ∃ t, step s = .next (finishInstr t) ∧ ∀ b, Ends 6 (latches op [] 0#16 0#8 b (cyclesOf d)) u t := by
  obtain ⟨f, hf⟩ := form_of_row hd
  have F := opcode_fits hd hf u hu
  cases f with
  | done i =>
    obtain ⟨t, h1, h2⟩ := F
    refine ⟨t, step_of_exec hs (u := u) (i := i) ?_ h1, h2⟩
    simp only [fetchInstr, ho, fetchOperands, operandCount, hf, decode]
  | byte g =>
    obtain ⟨t, h1, h2⟩ := F
    refine ⟨t, step_of_exec hs ?_ h1, h2⟩
    simp only [fetchInstr, ho, fetchOperands, operandCount, hf, decode]
  | word g =>
    simp only [] at F
    by_cases hl : readsHighLate op = true
    · rw [if_pos hl] at F
      obtain ⟨t, h1, h2⟩ := F (peek (fetchByte u).2.cpu.pc (fetchByte u).2)
      refine ⟨t, step_of_exec hs ?_ h1, h2⟩
      simp only [fetchInstr, ho, fetchOperands, operandCount, hf, decode, hl, if_true]
    · rw [if_neg hl] at F
      rw [Bool.not_eq_true] at hl
      obtain ⟨t, h1, h2⟩ := F
      refine ⟨t, step_of_exec hs ?_ h1, h2⟩
      simp only [fetchInstr, ho, fetchOperands, operandCount, hf, decode, hl, Bool.false_eq_true, if_false]

/-- A step leads from its start, part by part, to the boundary whose state it answers; nothing before that is a boundary. -/
theorem step_leads {s : State} (hs : stopReason s = none) :
    ∃ n ≤ 4 * 77 * 7, ∃ m, Leads n (Suspended.start s) m ∧ m.atBoundary = true ∧ step s = .next m.state := by
  have hf0 := stopReason_none hs
  have hfetch : (fetchOpcode s) = ((memRead s.cpu.pc (beginInstr s)).1, recordOpcode (memRead s.cpu.pc (beginInstr s)).1 (passByte
      (memRead s.cpu.pc (beginInstr s)).2)) := by
    have e : (beginInstr s).cpu = s.cpu := rfl
    rw [← e]
    simp only [fetchOpcode, fetchByte_eq]
  obtain ⟨n, hn, L⟩ := leads_afterCycles 7 (Suspended.start s) rfl
  refine ⟨n, hn, _, L, ?_⟩
  have h1 : afterCycles (6 + 1) (Suspended.start s) = afterCycles 6 (closeWith .opcode
      { CycleState.idle with bus := (memRead s.cpu.pc (beginInstr s)).1, held := false, todo := [] } (memRead s.cpu.pc
          (beginInstr s)).2) := rfl
  rw [h1]
  have hu : (memRead s.cpu.pc (beginInstr s)).2.fault = none := by rw [memRead_fault]; exact hf0
  have hpc : (memRead s.cpu.pc (beginInstr s)).2.cpu.pc = s.cpu.pc := by rw [memRead_cpu]; rfl
  rcases hr : memRead s.cpu.pc (beginInstr s) with ⟨op, t⟩
  rw [hr] at hfetch hu hpc
  dsimp only at hfetch hu hpc ⊢
  cases hd : opcodeTable op with
  | some d =>
    obtain ⟨v, h2, h3⟩ := decoded hs hfetch (show (recordOpcode op (passByte t)).fault = none from hu) hd
    obtain ⟨c', h4, h5⟩ := h3 op
    have e : closeWith .opcode { CycleState.idle with bus := op, held := false, todo := [] } t =
        { state := recordOpcode op (passByte t), cycle := latches op [] 0#16 0#8 op (cyclesOf d), ticks := 0 } := by
      have hne : (cyclesOf d).isEmpty = false := by cases h : cyclesOf d with
        | nil => exact absurd h (cyclesOf_ne d)
        | cons => rfl
      simp only [closeWith, cycleEffect, hd, CycleState.idle, hne, Bool.false_and, Bool.false_eq_true, if_false]
    rw [e, h5]
    refine ⟨?_, h2⟩
    simp only [Suspended.atBoundary, h4]; rfl
  | none =>
    have hn := opForm_isNone op
    rw [hd] at hn
    have hf : opForm op = none := by cases h : opForm op <;> simp_all
    have e : closeWith .opcode { CycleState.idle with bus := op, held := false, todo := [] } t =
        { state := (recordOpcode op (passByte t)).raise (.undefinedOpcode op s.cpu.pc),
          cycle := { CycleState.idle with opcode := some op, bus := op }, ticks := 0 } := by
      simp only [closeWith, cycleEffect, hd, CycleState.idle, hpc, State.raise, Option.isNone_some, Bool.and_false,
          Bool.false_eq_true, if_false]
    rw [e, afterCycles_done]
    · refine ⟨rfl, ?_⟩
      simp only [step, hs, fetchInstr, hfetch, decode, hf]
    · rfl

end Sys2Proof.Machine
end

