-- ==== Sys2Proof/Laws/Forms.lean ====
section
/-! SUPPORT. What the shared shapes of an instruction come to: reading, storing, implied and read-modify-write forms, each from the
one operation its meaning calls, and the stack's operations as one memory cycle. -/

namespace Sys2Proof

open Sys2Proof.Machine

/-! ### Forms that read an operand -/

/-- A reading form completes as its operation says, once the operand's cycles are known. -/
theorem ReadCompletes.of_exec {f : ReadForm} {regs : Byte → Cpu → Cpu} {s : State} (op : Byte × State → State)
    (h : exec f.1 s = .next (op (f.2.1 s))) (hop : ∀ r : Byte × State, op r = r.2.withCpu (regs r.1 r.2.cpu) r.2.result)
    (hs : ReadSeq f.2.2.1 (f.2.2.2 s) s (f.2.1 s).2) : ReadCompletes f regs s := by
  refine ⟨_, h, ?_, ?_, ?_, ?_⟩
  · rw [hop]; rfl
  · rw [hop, State.withCpu_cpu, hs.cpu]
  · rw [hop, State.withCpu_result, hs.result]
  · rw [hop]; exact hs.frame.trans_nil (Frame.of_cpu _ _ _)

/-- The operand's cycles of the eight reading modes. -/
theorem eightForms_seq (b : Byte) (w : Word) (s : State) {imm zp zpx : Byte → Instr} {abs absx absy : Word → Instr}
    {indx indy : Byte → Instr} :
    ∀ f ∈ eightForms imm zp zpx abs absx absy indx indy b w, ReadSeq f.2.2.1 (f.2.2.2 s) s (f.2.1 s).2 := by
  intro f hf
  simp only [eightForms, List.mem_cons, List.not_mem_nil, or_false] at hf
  rcases hf with rfl | rfl | rfl | rfl | rfl | rfl | rfl | rfl
  · exact ReadSeq.refl s
  · exact readZp_seq b s
  · exact readZpx_seq b s
  · exact readAbs_seq w s
  · exact readAbsx_seq w s
  · exact readAbsy_seq w s
  · exact readIndx_seq b s
  · exact readIndy_seq b s

/-! ### Forms that store -/

/-- The cycles of the eight address computations. -/
theorem ea_seqs (b : Byte) (w : Word) (s : State) :
    ReadSeq 0 false s (eaZp b s).2 ∧ ReadSeq 1 false s (eaZpx b s).2 ∧ ReadSeq 1 false s (eaZpy b s).2 ∧
      ReadSeq 0 false s (eaAbs w s).2 ∧ ReadSeq 1 false s (eaAbsx w s).2 ∧ ReadSeq 1 false s (eaAbsy w s).2 ∧
      ReadSeq 3 false s (eaIndx b s).2 ∧ ReadSeq 3 false s (eaIndy b s).2 :=
  ⟨ReadSeq.refl s, eaZpIndexed_seq _ _ s, eaZpIndexed_seq _ _ s, ReadSeq.refl s, eaFixed_seq _ _ s, eaFixed_seq _ _ s,
    eaIndx_seq b s, eaIndy_seq b s⟩

/-- A store into PIA RAM is read back there. -/
theorem ram_stored {s t : State} {ea : Word} {v : Byte}
    (h : t.ram = if areaOf (addr13 ea) = .ram then s.ram.write (writeLocal (addr13 ea)) v else s.ram) (hw : s.ram.wf 128 = true) :
    ∀ k, storesRam ea k → t.ram.read k = v := by
  rintro k ⟨h1, rfl⟩
  rw [h, if_pos h1, Memory.read_write hw, if_pos rfl]

/-- A storing form completes as `storeAt` says. -/
theorem StoreCompletes.of_exec {f : EaForm} {v : Cpu → Byte} {s : State} (h : exec f.1 s = .next (storeAt (v s.cpu) (f.2.1 s)))
    (hs : ReadSeq f.2.2 false s (f.2.1 s).2) : StoreCompletes f v s := by
  have k := storeAt_seq hs (v s.cpu)
  exact ⟨_, h, rfl, k.cpu, k.result, k.lastAccess, ram_stored k.ram, k.frame⟩

/-! ### One-byte forms -/

/-- A one-byte form completes when it changes the registers after its dummy read. -/
theorem ImpliedCompletes.of_exec {i : Instr} {regs : Cpu → Cpu} {s : State}
    (h : exec i s = .next { dummyRead s.cpu.pc s with cpu := regs s.cpu }) : ImpliedCompletes i regs s := by
  have k := dummyRead_seq s.cpu.pc s
  unfold ImpliedCompletes
  generalize dummyRead s.cpu.pc s = d at *
  exact ⟨_, h, rfl, k.result, k.frame.trans_nil (Frame.of_cpu _ _ _)⟩

/-! ### Read-modify-write forms -/

/-- A read-modify-write form completes as `modifyAt` says. -/
theorem ModifyCompletes.of_exec {f : EaForm} {g : Byte → Flags → Byte} {fl : Byte → Flags → Flags} {s : State}
    (op : Byte → Flags → ShiftResult) (h : exec f.1 s = .next (modifyAt op (f.2.1 s))) (hop : ∀ v p, op v p = ⟨g v p, fl v p⟩)
    (hs : ReadSeq f.2.2 false s (f.2.1 s).2) : ModifyCompletes f g fl s := by
  have hk := hs.trans (memRead_seq (f.2.1 s).1 (f.2.1 s).2)
  have hcpu := hk.cpu
  rw [modifyAt] at h
  unfold ModifyCompletes
  dsimp only
  generalize memRead (f.2.1 s).1 (f.2.1 s).2 = r at *
  simp only [hcpu, hop] at h
  refine ⟨_, h, ?_, ?_, ?_, ?_, ?_, ?_⟩
  · generalize memWrite (f.2.1 s).1 (g r.1 s.cpu.p) (memWrite (f.2.1 s).1 r.1 r.2) = m
    rfl
  · simp only [State.markBug, State.setP, memWrite_cpu, hcpu]
  · simp only [State.markBug, State.setP, memWrite_result]
    rw [hk.result]
    simp [recordAfter]
    omega
  · simp only [State.markBug, State.setP, memWrite_lastAccess]
  · intro hw k hk2
    simp only [State.markBug, State.setP, memWrite_ram]
    obtain ⟨h1, rfl⟩ := hk2
    rw [if_pos h1, if_pos h1, hk.ram, Memory.read_write, if_pos rfl]
    exact Memory.wf_write hw (by rw [writeLocal, h1]; exact Nat.mod_lt _ (by decide)) _
  · exact (((hk.frame.nil_trans (memWrite_Frame _ _ _)).trans (memWrite_Frame _ _ _)).setP _).markBug _

/-! ### The stack as one memory cycle -/

theorem push_eq (v : Byte) (s : State) : push v s = (memWrite (stackAddr s.cpu.sp) v s).withCpu
    { s.cpu with sp := s.cpu.sp - 1 } { s.result with cycles := s.result.cycles + 1 } := by
  rw [push, State.setS_eq, memWrite_cpu, memWrite_result]

theorem pull_eq (s : State) : pull s = ((memRead (stackAddr (s.cpu.sp + 1)) s).1, (memRead (stackAddr (s.cpu.sp + 1)) s).2.withCpu
    { s.cpu with sp := s.cpu.sp + 1 } { s.result with cycles := s.result.cycles + 1 }) := by
  rw [pull, State.setS_eq, memRead_withCpu]

/-! ### A pointer in the PIA's RAM -/

/-- A pointer whose two bytes are in the PIA's RAM is those bytes, the low one at its address. -/
theorem readPointer_ram {p : Byte} {s : State} (h : areaOf (addr13 (p.setWidth 16)) = .ram)
    (h1 : areaOf (addr13 ((p + 1).setWidth 16)) = .ram) :
    (readPointer p s).1 = s.ram.read (((p + 1).setWidth 16 : Word).toNat % 128) ++ s.ram.read ((p.setWidth 16 : Word).toNat % 128) := by
  simp only [readPointer, zpAddr, mkWord]
  rw [memRead_val_ram h, memRead_val_ram h1, memRead_ram]

end Sys2Proof
end

