-- ==== Sys2Proof/Laws/Invariant.lean ====
section
/-! SUPPORT. The machine's invariant part by part, and that each of the changes an instruction is made of keeps it. -/

namespace Sys2Proof

open Sys2Proof.Machine

/-- The parts of the invariant a tick can touch. -/
structure ClocksOk (s : State) : Prop where
  futures : ∀ f ∈ s.tia.futures, 0 < f.remaining
  age : hmoveAgeOk s = true
  lo : -68 ≤ s.tv.horizontal
  hi : s.tv.horizontal ≤ 159
  reports : ∀ r ∈ s.reports, r.accessId ≤ s.lastAccessId

theorem machineInv_iff (s : State) : MachineInv s ↔ s.ram.wf 128 = true ∧ s.cart.wf = true ∧ s.riot.prescale < s.riot.interval.length ∧
    ClocksOk s ∧ s.colorClock = 3 * s.cpuCycles := by
  simp only [MachineInv, invariant, Bool.and_eq_true, decide_eq_true_eq, List.all_eq_true]
  constructor
  · rintro ⟨⟨⟨⟨⟨⟨⟨⟨h1, h2⟩, h3⟩, h4⟩, h5⟩, h6⟩, h7⟩, h8⟩, h9⟩
    exact ⟨h1, h2, h3, ⟨h4, h5, h6, h7, h9⟩, h8⟩
  · rintro ⟨h1, h2, h3, ⟨h4, h5, h6, h7, h9⟩, h8⟩
    exact ⟨⟨⟨⟨⟨⟨⟨⟨h1, h2⟩, h3⟩, h4⟩, h5⟩, h6⟩, h7⟩, h8⟩, h9⟩

theorem hmoveAgeOk_congr {s t : State} (h : t.tia.hmoveAge = s.tia.hmoveAge)
    (hp : t.params = s.params) : hmoveAgeOk t = hmoveAgeOk s := by
  simp only [hmoveAgeOk, h, hp]

theorem ClocksOk.keep {s t} (h : ClocksOk s) (k : FireKept s t) : ClocksOk t := by
  refine ⟨by rw [k.futures]; exact h.futures, ?_, by rw [k.tv]; exact h.lo, by rw [k.tv]; exact h.hi,
    by rw [k.reports, k.lastAccessId]; exact h.reports⟩
  rcases k.hmoveAge with e | e
  · rw [hmoveAgeOk_congr e k.params]; exact h.age
  · simp [hmoveAgeOk, e]

theorem reportAll_ok (l : List Report) : ∀ s : State, (∀ r ∈ s.reports, r.accessId ≤ s.lastAccessId) →
   (∀ r ∈ (reportAll l s).reports, r.accessId ≤ (reportAll l s).lastAccessId) ∧ (reportAll l s).tia = s.tia ∧
       (reportAll l s).tv = s.tv ∧ (reportAll l s).params = s.params := by
  refine fun s h => ⟨fun q hq => ?_, rfl, rfl, rfl⟩
  simp only [reportAll, List.mem_append, List.mem_map] at hq ⊢
  obtain hq | ⟨r, -, rfl⟩ := hq
  · exact h q hq
  · exact Nat.le_refl _

theorem beamTick_ok {s : State} (h : ClocksOk s) : ClocksOk (beamTick s) := by
  have h1 : ClocksOk { s with tia := advanceClock s.params s.tia } := by
    refine ⟨?_, ?_, h.lo, h.hi, h.reports⟩
    · intro f hf
      refine h.futures f ?_
      revert hf; simp only [advanceClock]; split <;> exact id
    · have e : (advanceClock s.params s.tia).hmoveAge = olderHmove s.params s.tia.hmoveAge := by
        simp only [advanceClock]; split <;> rfl
      simp only [hmoveAgeOk, e]
      cases s.tia.hmoveAge with
      | none => rfl
      | some k =>
        simp only [olderHmove]
        by_cases hk : k + 1 ≤ s.params.hmoveBusy
        · rw [if_pos hk]; simpa using hk
        · rw [if_neg hk]
  simp only [beamTick]
  generalize ({ s with tia := advanceClock s.params s.tia } : State) = a at h1
  have h2 : ClocksOk (runFutures a) := by
    refine ClocksOk.keep ?_ (fireAll_kept _ _)
    refine ⟨?_, h1.age, h1.lo, h1.hi, h1.reports⟩
    intro f hf
    simp only [stillPending, List.mem_map, List.mem_filter, decide_eq_true_eq] at hf
    obtain ⟨g, ⟨_, hg⟩, rfl⟩ := hf
    show 0 < g.remaining - 1
    omega
  generalize runFutures a = b at h2
  have h3 : ClocksOk { b with tia := resmpLock b.params b.tia } := ⟨h2.futures, h2.age, h2.lo, h2.hi, h2.reports⟩
  generalize ({ b with tia := resmpLock b.params b.tia } : State) = c at h3
  have h4 : ClocksOk (drawPixel c).2.2 := by
    simp only [drawPixel]
    split
    · exact h3
    · split <;> (refine ⟨?_, ?_, h3.lo, h3.hi, h3.reports⟩ <;> dsimp only <;> (try split)) <;> first | exact h3.futures | exact h3.age
  generalize drawPixel c = d at h4
  have h5 : ∀ at_, ClocksOk (sendSignal at_ d.2.2) := by
    intro at_
    obtain ⟨k1, k2, k3, k4⟩ := reportAll_ok ((tvSignal d.2.2.params at_ d.2.2.tv).checks.map Report.outOfSpec)
      { d.2.2 with
        tv := (tvSignal d.2.2.params at_ d.2.2.tv).tv
        sink := (tvSignal d.2.2.params at_ d.2.2.tv).events.reverse ++ d.2.2.sink } h4.reports
    simp only [sendSignal]
    refine ⟨by rw [k2]; exact h4.futures, by rw [hmoveAgeOk_congr (s := d.2.2) (by rw [k2]) k4]; exact h4.age, ?_, ?_, k1⟩
    · rw [k3, tvSignal_horizontal]; have := h4.lo; split <;> omega
    · rw [k3, tvSignal_horizontal]; have := h4.hi; split <;> omega
  have h6 := h5 (signalOf d.2.2.tia d.1 d.2.1)
  generalize sendSignal _ _ = e at h6
  simp only [audioEvent]; split
  · exact ⟨h6.futures, h6.age, h6.lo, h6.hi, h6.reports⟩
  · exact h6

/-- A TIA tick keeps the invariant. -/
theorem tiaTick_ok {s : State} (h : ClocksOk s) : ClocksOk (tiaTick s) :=
  beamTick_ok (s := latchButtons s) ⟨h.futures, h.age, h.lo, h.hi, h.reports⟩

theorem timerTick_ok (r : Riot) (h : r.prescale < r.interval.length) : (timerTick r).prescale < (timerTick r).interval.length := by
  simp only [timerTick]
  split
  · exact h
  · dsimp only
    split
    · split <;> exact Nat.mod_lt _ (by omega)
    · exact Nat.mod_lt _ (by omega)

/-- The clocks of a cycle keep the invariant. -/
theorem endCycle_ok {s : State} (h : MachineInv s) : MachineInv (endCycle s) := by
  obtain ⟨h1, h2, h3, h4, h5⟩ := (machineInv_iff s).1 h
  have ht := tiaTick_ok (tiaTick_ok (tiaTick_ok h4))
  have hf := threeTicks_frame s
  rw [machineInv_iff]
  rw [show endCycle s = { riotTick (threeTicks s) with colorClock := (riotTick (threeTicks s)).colorClock + 3, cpuCycles :=
      (riotTick (threeTicks s)).cpuCycles + 1 } from rfl]
  change ClocksOk (threeTicks s) at ht
  generalize threeTicks s = u at ht hf
  refine ⟨by rw [← hf.ram] at h1; exact h1, by rw [← hf.cart] at h2; exact h2, ?_, ⟨ht.futures, ht.age, ht.lo, ht.hi, ht.reports⟩, ?_⟩
  · have := timerTick_ok u.riot (by rw [hf.riot]; exact h3)
    exact this
  · show u.colorClock + 3 = 3 * (u.cpuCycles + 1)
    rw [hf.colorClock, hf.cpuCycles]; omega

/-- A read access keeps the invariant. -/
theorem busRead_ok {s : State} (a : Word) (h : MachineInv s) : MachineInv (busRead a s).2 := by
  obtain ⟨h1, h2, h3, h4, h5⟩ := (machineInv_iff s).1 h
  obtain ⟨w1, w2⟩ := busRead_wf a h1 h2
  refine (machineInv_iff _).2 ⟨w1, w2, ?_, ⟨by simpa using h4.futures, ?_, by simpa using h4.lo, by simpa using h4.hi, ?_⟩,
      by simpa using h5⟩
  · rw [busRead_riot]
    split
    · split
      · simp only [riotAfterIntim]; split
        · cases s.riot.interval <;> decide
        · exact h3
      all_goals exact h3
    · exact h3
  · rw [hmoveAgeOk_congr (s := s) (by simp) (by simp)]; exact h4.age
  · intro r hr
    rw [busRead_reports] at hr
    rw [busRead_lastAccessId]
    rcases List.mem_append.1 hr with hr | hr
    · have := h4.reports r hr; omega
    · split at hr
      · simp only [List.mem_singleton] at hr; subst hr; exact Nat.le_refl _
      · cases hr

theorem tiaWrite_ok (loc : Nat) (v : Byte) {s : State} (h : ClocksOk s) : ClocksOk (tiaWrite loc v s) := by
  have hs : ∀ d a, ClocksOk (schedule d a s) := by
    intro d a
    refine ⟨?_, h.age, h.lo, h.hi, h.reports⟩
    intro f hf
    simp only [schedule, List.mem_append, List.mem_singleton] at hf
    rcases hf with hf | rfl
    · exact h.futures f hf
    · exact Nat.succ_pos _
  simp only [tiaWrite]
  split
  · exact h
  · split
    · exact h.keep (fireAction_kept (.store _ v) s)
    · exact hs _ _
  · exact ⟨h.futures, h.age, h.lo, h.hi, h.reports⟩
  · split
    · exact hs _ _
    · exact ⟨h.futures, h.age, h.lo, h.hi, h.reports⟩
  all_goals exact hs _ _

/-- A write access keeps the invariant. -/
theorem busWrite_ok {s : State} (a : Word) (v : Byte) (h : MachineInv s) : MachineInv (busWrite a v s) := by
  obtain ⟨h1, h2, h3, h4, h5⟩ := (machineInv_iff s).1 h
  obtain ⟨w1, w2⟩ := busWrite_wf a v h1 h2
  have hw := tiaWrite_ok (writeLocal (addr13 a)) v h4
  have htia : (∀ f ∈ (busWrite a v s).tia.futures, 0 < f.remaining) ∧ hmoveAgeOk (busWrite a v s) = true := by
    have e := (busWrite_tia a v s).1
    have hp : (tiaWrite (writeLocal (addr13 a)) v s).params = s.params := by
      obtain ⟨_, _, _, h⟩ := tiaWrite_eq (writeLocal (addr13 a)) v s; rw [h]
    by_cases ha : areaOf (addr13 a) = .tia
    · rw [if_pos ha] at e
      refine ⟨by rw [e]; exact hw.futures, ?_⟩
      rw [hmoveAgeOk_congr (s := tiaWrite (writeLocal (addr13 a)) v s) (by rw [e]) (by rw [hp]; simp)]
      exact hw.age
    · rw [if_neg ha] at e
      refine ⟨by rw [e]; exact h4.futures, ?_⟩
      rw [hmoveAgeOk_congr (s := s) (by rw [e]) (by simp)]
      exact h4.age
  refine (machineInv_iff _).2 ⟨w1, w2, ?_, ⟨htia.1, htia.2, by simpa using h4.lo, by simpa using h4.hi, ?_⟩, by simpa using h5⟩
  · rw [busWrite_riot]
    split
    · generalize riotWriteReg _ = w
      cases w with
      | timer i =>
        simp only [riotWrite, riotSetTimer]
        cases s.params.riotWritePhase <;> cases i <;> decide
      | _ => exact h3
    · exact h3
  · intro r hr
    rw [busWrite_reports] at hr
    rw [busWrite_lastAccessId]
    rcases List.mem_append.1 hr with hr | hr
    · have := h4.reports r hr; omega
    · split at hr
      · simp only [List.mem_singleton] at hr; subst hr; exact Nat.le_refl _
      · cases hr

/-- A state of the invariant that holds no fault and no refusal mark is at no stop: it is neither a MemoryError nor a PanicError. -/
theorem running_of_inv {s : State} (h : MachineInv s) (hf : s.fault = none) (hr : s.refusal = none) : Running s := by
  obtain ⟨-, h2, h3, h4, -⟩ := (machineInv_iff s).1 h
  have hb : s.cart.bankOk = true := by simp only [Cart.wf, Bool.and_eq_true] at h2; simp_all
  have hq : s.tia.futures.any (fun f => decide (f.remaining = 0)) = false := by
    rw [List.any_eq_false]
    intro f hm
    have := h4.futures f hm
    simp only [decide_eq_true_eq]; omega
  show stopReason s = none
  simp [stopReason, hf, hr, brokenInvariant, hb, hq, h3]

end Sys2Proof
end

