-- ==== Sys2Proof/Laws/PerInstr.lean ====
section
/-! SUPPORT. The per-instruction family `Encoding`, one lemma per constructor (30_encoding R140, R151, R155). -/

namespace Sys2Proof.Laws.Encoding

/-- The instruction's opcode has a row in the opcode table and its encoding is as long as that row says (30_encoding R151, R155). -/
def Statement (i : Instr) : Prop := ∃ d, opcodeTable (opcodeOf i) = some d ∧ (encode i).length = d.bytes

theorem brk : Statement .brk := ⟨_, rfl, rfl⟩
theorem oraIndx (p : Byte) : Statement (.oraIndx p) := ⟨_, rfl, rfl⟩
theorem oraZp (a : Byte) : Statement (.oraZp a) := ⟨_, rfl, rfl⟩
theorem aslZp (a : Byte) : Statement (.aslZp a) := ⟨_, rfl, rfl⟩
theorem php : Statement .php := ⟨_, rfl, rfl⟩
theorem oraImm (v : Byte) : Statement (.oraImm v) := ⟨_, rfl, rfl⟩
theorem aslAcc : Statement .aslAcc := ⟨_, rfl, rfl⟩
theorem oraAbs (w : Word) : Statement (.oraAbs w) := ⟨_, rfl, rfl⟩
theorem aslAbs (w : Word) : Statement (.aslAbs w) := ⟨_, rfl, rfl⟩
theorem bpl (off : Byte) : Statement (.bpl off) := ⟨_, rfl, rfl⟩
theorem oraIndy (p : Byte) : Statement (.oraIndy p) := ⟨_, rfl, rfl⟩
theorem oraZpx (a : Byte) : Statement (.oraZpx a) := ⟨_, rfl, rfl⟩
theorem aslZpx (a : Byte) : Statement (.aslZpx a) := ⟨_, rfl, rfl⟩
theorem clc : Statement .clc := ⟨_, rfl, rfl⟩
theorem oraAbsy (w : Word) : Statement (.oraAbsy w) := ⟨_, rfl, rfl⟩
theorem oraAbsx (w : Word) : Statement (.oraAbsx w) := ⟨_, rfl, rfl⟩
theorem aslAbsx (w : Word) : Statement (.aslAbsx w) := ⟨_, rfl, rfl⟩
theorem jsr (w : Word) : Statement (.jsr w) := ⟨_, rfl, rfl⟩
theorem andIndx (p : Byte) : Statement (.andIndx p) := ⟨_, rfl, rfl⟩
theorem bitZp (a : Byte) : Statement (.bitZp a) := ⟨_, rfl, rfl⟩
theorem andZp (a : Byte) : Statement (.andZp a) := ⟨_, rfl, rfl⟩
theorem rolZp (a : Byte) : Statement (.rolZp a) := ⟨_, rfl, rfl⟩
theorem plp : Statement .plp := ⟨_, rfl, rfl⟩
theorem andImm (v : Byte) : Statement (.andImm v) := ⟨_, rfl, rfl⟩
theorem rolAcc : Statement .rolAcc := ⟨_, rfl, rfl⟩
theorem bitAbs (w : Word) : Statement (.bitAbs w) := ⟨_, rfl, rfl⟩
theorem andAbs (w : Word) : Statement (.andAbs w) := ⟨_, rfl, rfl⟩
theorem rolAbs (w : Word) : Statement (.rolAbs w) := ⟨_, rfl, rfl⟩
theorem bmi (off : Byte) : Statement (.bmi off) := ⟨_, rfl, rfl⟩
theorem andIndy (p : Byte) : Statement (.andIndy p) := ⟨_, rfl, rfl⟩
theorem andZpx (a : Byte) : Statement (.andZpx a) := ⟨_, rfl, rfl⟩
theorem rolZpx (a : Byte) : Statement (.rolZpx a) := ⟨_, rfl, rfl⟩
theorem sec : Statement .sec := ⟨_, rfl, rfl⟩
theorem andAbsy (w : Word) : Statement (.andAbsy w) := ⟨_, rfl, rfl⟩
theorem andAbsx (w : Word) : Statement (.andAbsx w) := ⟨_, rfl, rfl⟩
theorem rolAbsx (w : Word) : Statement (.rolAbsx w) := ⟨_, rfl, rfl⟩
theorem rti : Statement .rti := ⟨_, rfl, rfl⟩
theorem eorIndx (p : Byte) : Statement (.eorIndx p) := ⟨_, rfl, rfl⟩
theorem eorZp (a : Byte) : Statement (.eorZp a) := ⟨_, rfl, rfl⟩
theorem lsrZp (a : Byte) : Statement (.lsrZp a) := ⟨_, rfl, rfl⟩
theorem pha : Statement .pha := ⟨_, rfl, rfl⟩
theorem eorImm (v : Byte) : Statement (.eorImm v) := ⟨_, rfl, rfl⟩
theorem lsrAcc : Statement .lsrAcc := ⟨_, rfl, rfl⟩
theorem jmpAbs (w : Word) : Statement (.jmpAbs w) := ⟨_, rfl, rfl⟩
theorem eorAbs (w : Word) : Statement (.eorAbs w) := ⟨_, rfl, rfl⟩
theorem lsrAbs (w : Word) : Statement (.lsrAbs w) := ⟨_, rfl, rfl⟩
theorem bvc (off : Byte) : Statement (.bvc off) := ⟨_, rfl, rfl⟩
theorem eorIndy (p : Byte) : Statement (.eorIndy p) := ⟨_, rfl, rfl⟩
theorem eorZpx (a : Byte) : Statement (.eorZpx a) := ⟨_, rfl, rfl⟩
theorem lsrZpx (a : Byte) : Statement (.lsrZpx a) := ⟨_, rfl, rfl⟩
theorem cli : Statement .cli := ⟨_, rfl, rfl⟩
theorem eorAbsy (w : Word) : Statement (.eorAbsy w) := ⟨_, rfl, rfl⟩
theorem eorAbsx (w : Word) : Statement (.eorAbsx w) := ⟨_, rfl, rfl⟩
theorem lsrAbsx (w : Word) : Statement (.lsrAbsx w) := ⟨_, rfl, rfl⟩
theorem rts : Statement .rts := ⟨_, rfl, rfl⟩
theorem adcIndx (p : Byte) : Statement (.adcIndx p) := ⟨_, rfl, rfl⟩
theorem adcZp (a : Byte) : Statement (.adcZp a) := ⟨_, rfl, rfl⟩
theorem rorZp (a : Byte) : Statement (.rorZp a) := ⟨_, rfl, rfl⟩
theorem pla : Statement .pla := ⟨_, rfl, rfl⟩
theorem adcImm (v : Byte) : Statement (.adcImm v) := ⟨_, rfl, rfl⟩
theorem rorAcc : Statement .rorAcc := ⟨_, rfl, rfl⟩
theorem jmpInd (w : Word) : Statement (.jmpInd w) := ⟨_, rfl, rfl⟩
theorem adcAbs (w : Word) : Statement (.adcAbs w) := ⟨_, rfl, rfl⟩
theorem rorAbs (w : Word) : Statement (.rorAbs w) := ⟨_, rfl, rfl⟩
theorem bvs (off : Byte) : Statement (.bvs off) := ⟨_, rfl, rfl⟩
theorem adcIndy (p : Byte) : Statement (.adcIndy p) := ⟨_, rfl, rfl⟩
theorem adcZpx (a : Byte) : Statement (.adcZpx a) := ⟨_, rfl, rfl⟩
theorem rorZpx (a : Byte) : Statement (.rorZpx a) := ⟨_, rfl, rfl⟩
theorem sei : Statement .sei := ⟨_, rfl, rfl⟩
theorem adcAbsy (w : Word) : Statement (.adcAbsy w) := ⟨_, rfl, rfl⟩
theorem adcAbsx (w : Word) : Statement (.adcAbsx w) := ⟨_, rfl, rfl⟩
theorem rorAbsx (w : Word) : Statement (.rorAbsx w) := ⟨_, rfl, rfl⟩
theorem staIndx (p : Byte) : Statement (.staIndx p) := ⟨_, rfl, rfl⟩
theorem styZp (a : Byte) : Statement (.styZp a) := ⟨_, rfl, rfl⟩
theorem staZp (a : Byte) : Statement (.staZp a) := ⟨_, rfl, rfl⟩
theorem stxZp (a : Byte) : Statement (.stxZp a) := ⟨_, rfl, rfl⟩
theorem dey : Statement .dey := ⟨_, rfl, rfl⟩
theorem txa : Statement .txa := ⟨_, rfl, rfl⟩
theorem styAbs (w : Word) : Statement (.styAbs w) := ⟨_, rfl, rfl⟩
theorem staAbs (w : Word) : Statement (.staAbs w) := ⟨_, rfl, rfl⟩
theorem stxAbs (w : Word) : Statement (.stxAbs w) := ⟨_, rfl, rfl⟩
theorem bcc (off : Byte) : Statement (.bcc off) := ⟨_, rfl, rfl⟩
theorem staIndy (p : Byte) : Statement (.staIndy p) := ⟨_, rfl, rfl⟩
theorem styZpx (a : Byte) : Statement (.styZpx a) := ⟨_, rfl, rfl⟩
theorem staZpx (a : Byte) : Statement (.staZpx a) := ⟨_, rfl, rfl⟩
theorem stxZpy (a : Byte) : Statement (.stxZpy a) := ⟨_, rfl, rfl⟩
theorem tya : Statement .tya := ⟨_, rfl, rfl⟩
theorem staAbsy (w : Word) : Statement (.staAbsy w) := ⟨_, rfl, rfl⟩
theorem txs : Statement .txs := ⟨_, rfl, rfl⟩
theorem staAbsx (w : Word) : Statement (.staAbsx w) := ⟨_, rfl, rfl⟩
theorem ldyImm (v : Byte) : Statement (.ldyImm v) := ⟨_, rfl, rfl⟩
theorem ldaIndx (p : Byte) : Statement (.ldaIndx p) := ⟨_, rfl, rfl⟩
theorem ldxImm (v : Byte) : Statement (.ldxImm v) := ⟨_, rfl, rfl⟩
theorem ldyZp (a : Byte) : Statement (.ldyZp a) := ⟨_, rfl, rfl⟩
theorem ldaZp (a : Byte) : Statement (.ldaZp a) := ⟨_, rfl, rfl⟩
theorem ldxZp (a : Byte) : Statement (.ldxZp a) := ⟨_, rfl, rfl⟩
theorem tay : Statement .tay := ⟨_, rfl, rfl⟩
theorem ldaImm (v : Byte) : Statement (.ldaImm v) := ⟨_, rfl, rfl⟩
theorem tax : Statement .tax := ⟨_, rfl, rfl⟩
theorem ldyAbs (w : Word) : Statement (.ldyAbs w) := ⟨_, rfl, rfl⟩
theorem ldaAbs (w : Word) : Statement (.ldaAbs w) := ⟨_, rfl, rfl⟩
theorem ldxAbs (w : Word) : Statement (.ldxAbs w) := ⟨_, rfl, rfl⟩
theorem bcs (off : Byte) : Statement (.bcs off) := ⟨_, rfl, rfl⟩
theorem ldaIndy (p : Byte) : Statement (.ldaIndy p) := ⟨_, rfl, rfl⟩
theorem ldyZpx (a : Byte) : Statement (.ldyZpx a) := ⟨_, rfl, rfl⟩
theorem ldaZpx (a : Byte) : Statement (.ldaZpx a) := ⟨_, rfl, rfl⟩
theorem ldxZpy (a : Byte) : Statement (.ldxZpy a) := ⟨_, rfl, rfl⟩
theorem clv : Statement .clv := ⟨_, rfl, rfl⟩
theorem ldaAbsy (w : Word) : Statement (.ldaAbsy w) := ⟨_, rfl, rfl⟩
theorem tsx : Statement .tsx := ⟨_, rfl, rfl⟩
theorem ldyAbsx (w : Word) : Statement (.ldyAbsx w) := ⟨_, rfl, rfl⟩
theorem ldaAbsx (w : Word) : Statement (.ldaAbsx w) := ⟨_, rfl, rfl⟩
theorem ldxAbsy (w : Word) : Statement (.ldxAbsy w) := ⟨_, rfl, rfl⟩
theorem cpyImm (v : Byte) : Statement (.cpyImm v) := ⟨_, rfl, rfl⟩
theorem cmpIndx (p : Byte) : Statement (.cmpIndx p) := ⟨_, rfl, rfl⟩
theorem cpyZp (a : Byte) : Statement (.cpyZp a) := ⟨_, rfl, rfl⟩
theorem cmpZp (a : Byte) : Statement (.cmpZp a) := ⟨_, rfl, rfl⟩
theorem decZp (a : Byte) : Statement (.decZp a) := ⟨_, rfl, rfl⟩
theorem iny : Statement .iny := ⟨_, rfl, rfl⟩
theorem cmpImm (v : Byte) : Statement (.cmpImm v) := ⟨_, rfl, rfl⟩
theorem dex : Statement .dex := ⟨_, rfl, rfl⟩
theorem cpyAbs (w : Word) : Statement (.cpyAbs w) := ⟨_, rfl, rfl⟩
theorem cmpAbs (w : Word) : Statement (.cmpAbs w) := ⟨_, rfl, rfl⟩
theorem decAbs (w : Word) : Statement (.decAbs w) := ⟨_, rfl, rfl⟩
theorem bne (off : Byte) : Statement (.bne off) := ⟨_, rfl, rfl⟩
theorem cmpIndy (p : Byte) : Statement (.cmpIndy p) := ⟨_, rfl, rfl⟩
theorem cmpZpx (a : Byte) : Statement (.cmpZpx a) := ⟨_, rfl, rfl⟩
theorem decZpx (a : Byte) : Statement (.decZpx a) := ⟨_, rfl, rfl⟩
theorem cld : Statement .cld := ⟨_, rfl, rfl⟩
theorem cmpAbsy (w : Word) : Statement (.cmpAbsy w) := ⟨_, rfl, rfl⟩
theorem cmpAbsx (w : Word) : Statement (.cmpAbsx w) := ⟨_, rfl, rfl⟩
theorem decAbsx (w : Word) : Statement (.decAbsx w) := ⟨_, rfl, rfl⟩
theorem cpxImm (v : Byte) : Statement (.cpxImm v) := ⟨_, rfl, rfl⟩
theorem sbcIndx (p : Byte) : Statement (.sbcIndx p) := ⟨_, rfl, rfl⟩
theorem cpxZp (a : Byte) : Statement (.cpxZp a) := ⟨_, rfl, rfl⟩
theorem sbcZp (a : Byte) : Statement (.sbcZp a) := ⟨_, rfl, rfl⟩
theorem incZp (a : Byte) : Statement (.incZp a) := ⟨_, rfl, rfl⟩
theorem inx : Statement .inx := ⟨_, rfl, rfl⟩
theorem sbcImm (v : Byte) : Statement (.sbcImm v) := ⟨_, rfl, rfl⟩
theorem nop : Statement .nop := ⟨_, rfl, rfl⟩
theorem cpxAbs (w : Word) : Statement (.cpxAbs w) := ⟨_, rfl, rfl⟩
theorem sbcAbs (w : Word) : Statement (.sbcAbs w) := ⟨_, rfl, rfl⟩
theorem incAbs (w : Word) : Statement (.incAbs w) := ⟨_, rfl, rfl⟩
theorem beq (off : Byte) : Statement (.beq off) := ⟨_, rfl, rfl⟩
theorem sbcIndy (p : Byte) : Statement (.sbcIndy p) := ⟨_, rfl, rfl⟩
theorem sbcZpx (a : Byte) : Statement (.sbcZpx a) := ⟨_, rfl, rfl⟩
theorem incZpx (a : Byte) : Statement (.incZpx a) := ⟨_, rfl, rfl⟩
theorem sed : Statement .sed := ⟨_, rfl, rfl⟩
theorem sbcAbsy (w : Word) : Statement (.sbcAbsy w) := ⟨_, rfl, rfl⟩
theorem sbcAbsx (w : Word) : Statement (.sbcAbsx w) := ⟨_, rfl, rfl⟩
theorem incAbsx (w : Word) : Statement (.incAbsx w) := ⟨_, rfl, rfl⟩

end Sys2Proof.Laws.Encoding
end

