-- ==== Sys2Proof/Laws/Picture.lean ====
section
/-! SUPPORT. The six sources' bits in the terms of the register map: copies, widths and scales, the playfield's pattern
(61_tia R509, R510, R516, R519, R520, R522). -/

namespace Sys2Proof.Machine

theorem copyOffsets_eq (n : Nusiz) : ([[0], [0, 16], [0, 32], [0, 16, 32], [0, 64], [0], [0, 32, 64], [0]] : List (List
    (Fin 160))).getD n.copies.toNat [] = copyOffsets n := by
  obtain ⟨c, w⟩ := n
  revert c w; decide

theorem playerScale_eq (n : Nusiz) : (if n.copies = 5#3 then 2 else if n.copies = 7#3 then 4 else 1) = playerScale n ∧
    (playerScale n = 1 ∨ playerScale n = 2 ∨ playerScale n = 4) := by
  obtain ⟨c, w⟩ := n
  revert c w; decide

/-- A pixel `k` places right of a copy's start. -/
theorem offset_iff (x p c : Fin 160) (w : Nat) (hw : w ≤ 160) (P : Nat → Prop) :
   ((x - p - c).val < w ∧ P (x - p - c).val) ↔ ∃ k < w, x = p + c + Fin.ofNat 160 k ∧ P k := by
  constructor
  · rintro ⟨h, hp⟩
    refine ⟨_, h, ?_, hp⟩
    rw [show (Fin.ofNat 160 (x - p - c).val) = x - p - c from Fin.ext (by simp [Fin.ofNat])]
    omega
  · rintro ⟨k, hk, rfl, hp⟩
    have : (p + c + Fin.ofNat 160 k - p - c).val = k := by
      simp only [Fin.val_sub, Fin.val_add, Fin.ofNat]
      have := p.isLt; have := c.isLt; omega
    rw [this]; exact ⟨hk, hp⟩

theorem shown_iff (c : Fin 160) (su : Bool) : (!(c == 0 && su)) = true ↔ ¬ (c = 0 ∧ su = true) := by
  cases su <;> simp

theorem playerGfxBit_iff (g : Byte) (r : Bool) (sc k : Nat) : playerGfxBit g r sc k = true ↔ k < 8 * sc ∧ g.getLsbD
    (if r then k / sc else 7 - k / sc) = true := by
  simp only [playerGfxBit]
  by_cases h : k < 8 * sc <;> cases r <;> simp [h]

/-- A player's pixel (61_tia R519). -/
theorem playerBit_iff (pos : Fin 160) (n : Nusiz) (g : Byte) (r su : Bool) (x : Fin 160) : playerBit pos n g r su x = true ↔
   ∃ c ∈ copyOffsets n, ¬ (c = 0 ∧ su = true) ∧ ∃ k < 8 * playerScale n, x = pos + c + Fin.ofNat 160
       (k + if playerScale n = 1 then 0 else 1) ∧ g.getLsbD (if r then k / playerScale n else 7 - k / playerScale n) = true := by
  have h1 := (playerScale_eq n).2
  simp only [playerBit, List.any_eq_true, Bool.and_eq_true, playerGfxBit_iff, shown_iff]
  generalize playerScale n = sc at h1
  refine exists_congr fun c => and_congr_right fun _ => and_congr_right fun _ => ?_
  rw [offset_iff x (if 1 < sc then pos + 1 else pos) c (8 * sc) (by omega) (fun k => g.getLsbD (if r then k / sc else 7 - k / sc) = true)]
  refine exists_congr fun k => and_congr_right fun _ => and_congr_left fun _ => ?_
  have e : (if 1 < sc then pos + 1 else pos) + c + Fin.ofNat 160 k = pos + c + Fin.ofNat 160 (k + if sc = 1 then 0 else 1) := by
    apply Fin.ext
    rcases h1 with rfl | rfl | rfl <;> simp [Fin.val_add, Fin.ofNat] <;> omega
  rw [e]

theorem width_le (w : BitVec 2) : 2 ^ w.toNat ≤ 160 := by revert w; decide

/-- A missile's pixel (61_tia R520). -/
theorem missileBit_iff (e l : Bool) (pos : Fin 160) (n : Nusiz) (su : Bool) (x : Fin 160) : missileBit e l pos n su x = true ↔
    e = true ∧ l = false ∧
   ∃ c ∈ copyOffsets n, ¬ (c = 0 ∧ su = true) ∧ ∃ k < 2 ^ n.width.toNat, x = pos + c + Fin.ofNat 160 k := by
  have hl : (!l) = true ↔ l = false := by cases l <;> simp
  simp only [missileBit, List.any_eq_true, Bool.and_eq_true, decide_eq_true_eq, shown_iff, hl, and_assoc]
  refine and_congr_right fun _ => and_congr_right fun _ => exists_congr fun c => and_congr_right fun _ => and_congr_right fun _ => ?_
  have := offset_iff x pos c (2 ^ n.width.toNat) (width_le _) (fun _ => True)
  simp only [and_true] at this
  exact this

/-- The playfield's pixel: bit `x / 4` of the line (61_tia R516). -/
theorem playfieldBit_eq (t : Tia) (x : Fin 160) : playfieldBit t x.val =
   (let bits := fun (w : Nat) (v : BitVec w) => (List.range w).map v.getLsbD
    let pattern := bits 4 t.pf0 ++ (bits 8 t.pf1).reverse ++ bits 8 t.pf2
    let line := pattern ++ (if t.ctrlpf.ref then pattern.reverse else pattern)
    line.getD (x.val / 4) false) := by
  dsimp only
  have hx : x.val / 4 < 40 := by omega
  have e : playfieldBit t x.val = if x.val / 4 < 20 then playfieldAt t (x.val / 4) else if t.ctrlpf.ref then playfieldAt t (19 -
      (x.val / 4 - 20)) else playfieldAt t (x.val / 4 - 20) := by
    simp only [playfieldBit]
    by_cases h : x.val < 80
    · rw [if_pos h, if_pos (by omega)]
    · rw [if_neg h, if_neg (show ¬ x.val / 4 < 20 by omega), show (x.val - 80) / 4 = x.val / 4 - 20 by omega]
  rw [e]
  generalize x.val / 4 = k at hx
  simp only [List.range, List.range.loop, List.map_cons, List.map_nil]
  cases t.ctrlpf.ref
  · iterate 40 (rcases k with _ | k; · rfl)
    omega
  · iterate 40 (rcases k with _ | k; · rfl)
    omega

end Sys2Proof.Machine
end

