-- ==== Sys2Proof/Laws/Television.lean ====
section
/-! SUPPORT. One `Signal` stage by stage, each stage as one equation (62_television R602 to R610), and the signal of a tick. -/

namespace Sys2Proof.Machine

/-- This `Signal` starts a scanline (62_television R602, R603). -/
def startsLine (a : Attrs) (tv : Tv) : Bool := a.frontporch || decide (159 ≤ tv.horizontal)

theorem tvHorizontal_eq (a : Attrs) (tv : Tv) : tvHorizontal a { tv := tv, newLine := false, checks := [], events := [] } =
    { tv := { tv with
        horizontal := if startsLine a tv then -68 else tv.horizontal + 1
        scanline := if startsLine a tv then tv.scanline + 1 else tv.scanline
        lineSynced := startsLine a tv || tv.lineSynced
        outOfSpec := tv.outOfSpec || (!a.frontporch && decide (159 ≤ tv.horizontal)) }
      newLine := startsLine a tv
      checks := if (!a.frontporch && decide (159 ≤ tv.horizontal)) then [.horizontalWrap] else []
      events := if startsLine a tv && !tv.endOfScreen then [.newScanline (tv.scanline + 1)] else [] } := by
  rcases tv with ⟨frame, sl, hz, vc, pr, vt, vb, lt, lb, spec, oos, eos, ls⟩
  cases h : a.frontporch <;> by_cases h1 : 159 ≤ hz <;> cases eos <;>
   simp [tvHorizontal, tvNewLine, TvWork.emitVisible, TvWork.fail, TvWork.emit, h, h1, startsLine]

/-- An edge outside its window (62_television R604, R605). -/
def badEdge (now before : Bool) (l1 l2 l3 l4 h : Int) : Bool :=
  (now && !before && !(decide (l1 ≤ h) && decide (h ≤ l2))) || (before && !now && !(decide (l3 ≤ h) && decide (h ≤ l4)))

theorem tvEdgeCheck_eq (a b : Bool) (l1 l2 l3 l4 : Int) (c : TvCheck) (w : TvWork) : tvEdgeCheck a b l1 l2 l3 l4 c w =
   { w with tv := { w.tv with outOfSpec := w.tv.outOfSpec || (w.tv.lineSynced && badEdge a b l1 l2 l3 l4 w.tv.horizontal) },
            checks := w.checks ++ if (w.tv.lineSynced && badEdge a b l1 l2 l3 l4 w.tv.horizontal) then [c] else [] } := by
  simp only [tvEdgeCheck]
  show (if (w.tv.lineSynced && badEdge a b l1 l2 l3 l4 w.tv.horizontal) = true then _ else _) = _
  generalize (w.tv.lineSynced && badEdge a b l1 l2 l3 l4 w.tv.horizontal) = k
  cases k <;> simp [TvWork.fail]

theorem tvOverlong_eq (w : TvWork) : tvOverlong w = { w with
    tv := { w.tv with
      outOfSpec := w.tv.outOfSpec || (w.newLine && decide (w.tv.spec.lines < w.tv.scanline))
      endOfScreen := w.tv.endOfScreen || (w.newLine && decide (w.tv.spec.lines < w.tv.scanline)) }
    checks := w.checks ++ if (w.newLine && decide (w.tv.spec.lines < w.tv.scanline)) then [.overlongFrame] else [] } := by
  simp only [tvOverlong]
  generalize (w.newLine && decide (w.tv.spec.lines < w.tv.scanline)) = k
  cases k <;> simp [TvWork.fail]

/-- A falling VSYNC edge with enough clocks behind it (62_television R607). -/
def commitsFrame (p : Params) (a : Attrs) (pv : Bool) (vc : Nat) : Bool := !a.vsync && pv && decide (p.vsyncClocks ≤ vc)

theorem tvVsync_eq (p : Params) (a : Attrs) (w : TvWork) : tvVsync p a w = { w with
   tv := { w.tv with
     vsyncCount := if a.vsync then w.tv.vsyncCount + 1 else if w.tv.prev.vsync then 0 else w.tv.vsyncCount,
     visibleTop := if commitsFrame p a w.tv.prev.vsync w.tv.vsyncCount then w.tv.learnTop.getD w.tv.visibleTop else w.tv.visibleTop,
     visibleBottom := if commitsFrame p a w.tv.prev.vsync w.tv.vsyncCount then w.tv.learnBottom.getD w.tv.visibleBottom else w.tv.visibleBottom,
     learnTop := if commitsFrame p a w.tv.prev.vsync w.tv.vsyncCount then none else w.tv.learnTop,
     learnBottom := if commitsFrame p a w.tv.prev.vsync w.tv.vsyncCount then none else w.tv.learnBottom,
     frame := if commitsFrame p a w.tv.prev.vsync w.tv.vsyncCount then w.tv.frame + 1 else w.tv.frame,
     scanline := if commitsFrame p a w.tv.prev.vsync w.tv.vsyncCount then 0 else w.tv.scanline,
     endOfScreen := !commitsFrame p a w.tv.prev.vsync w.tv.vsyncCount && w.tv.endOfScreen },
   events := w.events ++ if commitsFrame p a w.tv.prev.vsync w.tv.vsyncCount then [.newFrame (w.tv.frame + 1)] else [] } := by
  cases h : a.vsync <;> cases h1 : w.tv.prev.vsync <;> by_cases h2 : p.vsyncClocks ≤ w.tv.vsyncCount <;>
    simp [tvVsync, tvCommit, TvWork.emit, commitsFrame, h, h1, h2]

theorem tvDetect_eq (w : TvWork) : tvDetect w = { w with tv := { w.tv with
    spec := if w.newLine && decide (w.tv.spec = .ntsc) && decide (276 < w.tv.scanline) then .pal else w.tv.spec } } := by
  simp only [tvDetect]; split <;> simp [*]

theorem tvLearn_eq (a : Attrs) (w : TvWork) : tvLearn a w = { w with tv := { w.tv with
    learnTop := if decide (0 ≤ w.tv.horizontal) && !a.vblank then some (learnMin w.tv.learnTop w.tv.scanline) else w.tv.learnTop
    learnBottom :=
      if decide (0 ≤ w.tv.horizontal) && !a.vblank then some (learnMax w.tv.learnBottom w.tv.scanline) else w.tv.learnBottom } } := by
  simp only [tvLearn]; split <;> simp [*]

theorem tvPixel_eq (a : Attrs) (w : TvWork) : tvPixel a w = { w with events := w.events ++
   (if decide (0 ≤ w.tv.horizontal) && !w.tv.endOfScreen then [.setPixel w.tv.horizontal w.tv.scanline
       (palette w.tv.spec a.pixel) a.vblank,
     .setAltPixel w.tv.horizontal w.tv.scanline a.alt a.vblank] else []) } := by
  simp only [tvPixel, TvWork.emitVisible, TvWork.emit]
  by_cases h : 0 ≤ w.tv.horizontal <;> by_cases h1 : w.tv.endOfScreen <;> simp [h, h1]

/-- With no RSYNC among them, futures leave the counter alone. -/
theorem fireAll_hclock (fs : List Future) (h : ∀ f ∈ fs, f.action ≠ .rsync) : ∀ s, (fireAll fs s).tia.hclock = s.tia.hclock := by
  induction fs with
  | nil => exact fun _ => rfl
  | cons f rest ih =>
    intro s
    rw [fireAll, ih (fun g hg => h g (List.mem_cons_of_mem _ hg))]
    have := h f List.mem_cons_self
    cases ha : f.action with
    | rsync => exact absurd ha this
    | resetPos o => simp only [fireAction, resetPosition]; split <;> split <;> rfl
    | hmove =>
      simp only [fireAction, hmoveAction]
      split
      · rfl
      · rw [drawAllPos_eq]; rfl
    | hmclr =>
      simp only [fireAction, hmclrAction]
      split
      · rw [drawAllPos_eq]
      · rfl
    | cxclr => rfl
    | store r v => cases r <;> simp only [fireAction, storeLatch, TiaLatch.motionOf] <;> first | rfl | (split <;> rfl)

theorem beamTick_shape (s : State) (hf : ∀ f ∈ s.tia.futures, f.action ≠ .rsync) : ∃ v px al,
    beamTick s = audioEvent (sendSignal (signalOf v.tia px al) v) ∧ v.tia.hclock = s.tia.hclock + 1 ∧ v.tv = s.tv ∧
        v.params = s.params ∧ v.reports = s.reports := by
  refine ⟨_, _, _, rfl, ?_⟩
  have k1 : (advanceClock s.params s.tia).hclock = s.tia.hclock + 1 := by simp only [advanceClock]; split <;> rfl
  have k2 : (advanceClock s.params s.tia).futures = s.tia.futures := by simp only [advanceClock]; split <;> rfl
  have hk := runFutures_kept { s with tia := advanceClock s.params s.tia }
  have hc : (runFutures { s with tia := advanceClock s.params s.tia }).tia.hclock = s.tia.hclock + 1 := by
    rw [runFutures, fireAll_hclock]
    · exact k1
    · intro f hm
      refine hf f ?_
      have := (List.mem_filter.1 hm).1
      dsimp only at this
      rw [k2] at this; exact this
  have h1 := hk.tv
  have h2 := hk.params
  have h3 := hk.reports
  clear hk
  generalize runFutures { s with tia := advanceClock s.params s.tia } = u at h1 h2 h3 hc
  obtain ⟨c, d, e⟩ := drawPixel_eq { u with tia := resmpLock u.params u.tia }
  rw [e]
  exact ⟨hc, h1, h2, h3⟩

/-- The last part of a tick with no RSYNC pending: the signals of the next clock go to the television. -/
theorem tiaTick_shape (s : State) (hf : ∀ f ∈ s.tia.futures, f.action ≠ .rsync) : ∃ v px al,
    tiaTick s = audioEvent (sendSignal (signalOf v.tia px al) v) ∧ v.tia.hclock = s.tia.hclock + 1 ∧ v.tv = s.tv ∧
        v.params = s.params ∧ v.reports = s.reports := beamTick_shape (latchButtons s) hf

theorem beamTick_futures (s : State) : (beamTick s).tia.futures = stillPending s.tia.futures := by
  simp only [beamTick, audioEvent_tia, sendSignal_tia]
  have e2 : ∀ c : State, (drawPixel c).2.2.tia.futures = c.tia.futures := by
    intro c; obtain ⟨x, y, h⟩ := drawPixel_eq c; rw [h]
  rw [e2]
  have k := (runFutures_kept ({ s with tia := advanceClock s.params s.tia } : State)).futures
  generalize runFutures { s with tia := advanceClock s.params s.tia } = b at k
  refine k.trans ?_
  have : (advanceClock s.params s.tia).futures = s.tia.futures := by simp only [advanceClock]; split <;> rfl
  show stillPending (advanceClock s.params s.tia).futures = _
  rw [this]

/-- A tick brings every pending future one clock closer. -/
theorem tiaTick_futures (s : State) : (tiaTick s).tia.futures = stillPending s.tia.futures := beamTick_futures (latchButtons s)

end Sys2Proof.Machine
end

