-- ==== Sys2Proof/Laws/Timer.lean ====
section
/-! SUPPORT. The RIOT timer over several ticks, in closed form (63_riot_console R653, R654). -/

namespace Sys2Proof.Machine

theorem sub_one_sub (v : Byte) (m : Nat) (h : m < v.toNat) : (v - 1#8 - BitVec.ofNat 8 m).toNat = v.toNat - 1 - m := by
  have := v.isLt
  have hm : (BitVec.ofNat 8 m).toNat = m := by simp; omega
  simp only [BitVec.toNat_sub, hm]; simp; omega

/-- Before the underflow the timer counts down once an interval. -/
theorem timerTick_before (v : Byte) (i : Interval) (r : Riot) (hr : r.timer = v ∧ r.interval = i ∧ r.prescale = 0 ∧ r.tf = false)
    (t : Nat) :
    1 ≤ t → (t - 1) / i.length < v.toNat → Nat.repeat timerTick t r =
      { r with timer := v - 1#8 - BitVec.ofNat 8 ((t - 1) / i.length), prescale := t % i.length } := by
  have hp : 0 < i.length := by cases i <;> decide
  generalize hn : i.length = n at *
  induction t with
  | zero => omega
  | succ t ih =>
    intro _ h
    rw [Nat.repeat]
    by_cases h1 : t = 0
    · subst h1
      simp only [Nat.repeat, timerTick, hr.2.2.2, hr.2.2.1, hr.1, hr.2.1, hn]
      have : v ≠ 0#8 := by intro e; subst e; simp at h
      rcases r with ⟨a, b, c, d, e, f, g, k, l, m, o⟩
      simp at hr
      obtain ⟨rfl, rfl, rfl, rfl⟩ := hr
      simp [this]
    · have h2 : (t - 1) / n < v.toNat := Nat.lt_of_le_of_lt (Nat.div_le_div_right (by omega)) h
      rw [ih (by omega) h2]
      rcases r with ⟨a, b, c, d, e, f, g, k, l, m, o⟩
      simp at hr
      obtain ⟨rfl, rfl, rfl, rfl⟩ := hr
      simp only [timerTick, hn]
      have e1 : (t + 1 - 1) = t := by omega
      rw [e1] at h ⊢
      by_cases h3 : t % n = 0
      · have hq : t / n = (t - 1) / n + 1 := by
          obtain ⟨k, rfl⟩ := Nat.dvd_of_mod_eq_zero h3
          rcases k with _ | k
          · simp at h1
          · rw [Nat.mul_div_cancel_left _ hp, show n * (k+1) - 1 = (n - 1) + n * k by rw [Nat.mul_succ]; omega,
              Nat.add_mul_div_left _ _ hp, Nat.div_eq_of_lt (by omega)]; omega
        have hv : (a - 1#8 - BitVec.ofNat 8 ((t-1)/n)).toNat = a.toNat - 1 - (t-1)/n := sub_one_sub a _ h2
        have hne : (a - 1#8 - BitVec.ofNat 8 ((t-1)/n)) ≠ 0x00#8 := by
          intro e; rw [e] at hv; simp at hv; omega
        have e2 : a - 1#8 - BitVec.ofNat 8 ((t-1)/n) - 1#8 = a - 1#8 - BitVec.ofNat 8 (t/n) := by
          rw [hq, BitVec.ofNat_add]; bv_omega
        simp [h3, hne, Nat.add_mod, e2]
      · have hq : t / n = (t - 1) / n := by
          have := Nat.div_add_mod t n
          have h4 : t - 1 = n * (t / n) + (t % n - 1) := by omega
          have h5 := Nat.mod_lt t hp
          rw [h4, Nat.mul_add_div hp, Nat.div_eq_of_lt (show t % n - 1 < n by omega)]; omega
        simp [h3, hq, Nat.add_mod]

/-- After the underflow the timer counts down once a tick. -/
theorem timerTick_after (v : Byte) (i : Interval) (r : Riot) (hr : r.timer = v ∧ r.interval = i ∧ r.prescale = 0 ∧ r.tf = false)
    (j : Nat) :
    ∃ p, Nat.repeat timerTick (i.length * v.toNat + 1 + j) r =
      { r with timer := 0xFF#8 - BitVec.ofNat 8 j, prescale := p, tf := true } := by
  have hp : 0 < i.length := by cases i <;> decide
  induction j with
  | zero =>
    rw [show i.length * v.toNat + 1 + 0 = i.length * v.toNat + 1 by omega, Nat.repeat]
    by_cases h : v = 0#8
    · subst h
      rcases r with ⟨a, b, c, d, e, f, g, k, l, m, o⟩
      simp at hr
      obtain ⟨rfl, rfl, rfl, rfl⟩ := hr
      simp [Nat.repeat, timerTick]
    · have hv : 0 < v.toNat := by
        rcases Nat.eq_zero_or_pos v.toNat with h1 | h1
        · exact absurd (BitVec.eq_of_toNat_eq (by simpa using h1)) h
        · exact h1
      have hq : (i.length * v.toNat - 1) / i.length = v.toNat - 1 := by
        obtain ⟨k, hk⟩ : ∃ k, v.toNat = k + 1 := ⟨v.toNat - 1, by omega⟩
        rw [hk, show i.length * (k+1) - 1 = (i.length - 1) + i.length * k by rw [Nat.mul_succ]; omega, Nat.add_mul_div_left _ _ hp,
            Nat.div_eq_of_lt (by omega)]; omega
      have := timerTick_before v i r hr (i.length * v.toNat) (by have := Nat.mul_pos hp hv; omega) (by rw [hq]; omega)
      rw [this, hq]
      have hz : v - 1#8 - BitVec.ofNat 8 (v.toNat - 1) = 0#8 := by
        apply BitVec.eq_of_toNat_eq; have := v.isLt; simp [BitVec.toNat_sub]; omega
      rcases r with ⟨a, b, c, d, e, f, g, k, l, m, o⟩
      simp at hr
      obtain ⟨rfl, rfl, rfl, rfl⟩ := hr
      simp [hz, timerTick]
  | succ j ih =>
    obtain ⟨p, h⟩ := ih
    rw [show i.length * v.toNat + 1 + (j+1) = (i.length * v.toNat + 1 + j) + 1 by omega, Nat.repeat, h]
    refine ⟨p, ?_⟩
    simp [timerTick]
    apply BitVec.eq_of_toNat_eq; simp [BitVec.toNat_sub]; omega

/-- Timer ticks change the timer, the prescaler and TF only. -/
theorem timerTick_repeat (r : Riot) (t : Nat) : ∃ a b c, Nat.repeat timerTick t r = { r with timer := a, prescale := b, tf := c } := by
  induction t with
  | zero => exact ⟨_, _, _, rfl⟩
  | succ t ih =>
    obtain ⟨a, b, c, h⟩ := ih
    rw [Nat.repeat, h]
    simp only [timerTick]
    split
    · exact ⟨_, _, _, rfl⟩
    · split
      · split <;> exact ⟨_, _, _, rfl⟩
      · exact ⟨_, _, _, rfl⟩

/-- With the prescaler at 1 the timer holds for a whole interval. -/
theorem timerTick_held (v : Byte) (i : Interval) (r : Riot) (hr : r.timer = v ∧ r.interval = i ∧ r.prescale = 1 % i.length ∧
    r.tf = false) (t : Nat) (h : t < i.length) :
   Nat.repeat timerTick t r = { r with prescale := (t + 1) % i.length } := by
  rcases r with ⟨a, b, c, d, e, f, g, k, l, m, o⟩
  simp at hr
  obtain ⟨rfl, rfl, rfl, rfl⟩ := hr
  induction t with
  | zero => simp [Nat.repeat]
  | succ t ih =>
    rw [Nat.repeat, ih (by omega)]
    simp only [timerTick]
    rw [if_neg (by simp), if_neg (by rw [Nat.mod_eq_of_lt h]; omega)]
    simp

end Sys2Proof.Machine
end

