-- ==== Sys2Proof/WellFormed.lean ====
section
/-! DEFINITION. Well-formedness of an instruction as bytes: a documented opcode with exactly the operand bytes of its format,
each a byte (30_encoding R140, R141, R151, R152). Every field of `Instr` is as wide as its encoding, so every term of `Instr` is
well-formed; the checks refuse raw terms, which an assembler or a host may write down wrong. -/

namespace Sys2Proof

/-- An instruction before it is known to be one: an opcode and operand bytes as plain numbers. -/
structure RawInstr where
  opcode : Nat
  operands : List Nat
deriving DecidableEq, Repr

/-- The opcode is a byte and one of the 151 documented values (30_encoding R141, R152). -/
def RawInstr.opcodeOk (r : RawInstr) : Bool :=
  decide (r.opcode < 256) && (operandCount (BitVec.ofNat 8 r.opcode)).isSome

/-- As many operands as the opcode's format has (30_encoding R140, R151). -/
def RawInstr.countOk (r : RawInstr) : Bool :=
  operandCount (BitVec.ofNat 8 r.opcode) == some r.operands.length

/-- Every operand is a byte (30_encoding R140). -/
def RawInstr.rangeOk (r : RawInstr) : Bool := r.operands.all (fun b => decide (b < 256))

/-- All three checks. -/
def RawInstr.wellFormed (r : RawInstr) : Bool := r.opcodeOk && r.countOk && r.rangeOk

/-- The raw form of an instruction, from its encoding. -/
def RawInstr.ofInstr (i : Instr) : RawInstr :=
  { opcode := (opcodeOf i).toNat, operands := (encode i).tail.map BitVec.toNat }

/-- An instruction is well-formed when its raw form is. -/
def Instr.WellFormed (i : Instr) : Prop := (RawInstr.ofInstr i).wellFormed = true

end Sys2Proof
end

