-- ==== Sys2Proof/Tests/Slice0.lean ====
section
/-! SUPPORT. The model's own tests: ill-formed terms, one word per opcode, one step per instruction against the vectors the spec
works out (95_test_vectors), and a witness for every obligation that has a hypothesis. -/

namespace Sys2Proof.Tests

set_option Elab.async false

open Sys2Proof Sys2Proof.Machine

/-! ### Well-formedness: a term each check refuses -/

/-- Opcode 0x02 is undefined (30_encoding R152). -/
theorem test_wf_undefined_opcode : RawInstr.wellFormed { opcode := 0x02, operands := [] } = false := by decide +kernel

/-- An opcode is a byte (30_encoding R141). -/
theorem test_wf_opcode_range : RawInstr.wellFormed { opcode := 0x1A9, operands := [0x01] } = false := by decide +kernel

/-- LDA #n has one operand byte, not two (30_encoding R140). -/
theorem test_wf_operand_count : RawInstr.wellFormed { opcode := 0xA9, operands := [0x01, 0x02] } = false := by decide +kernel

/-- An operand byte is a byte (30_encoding R140). -/
theorem test_wf_operand_range : RawInstr.wellFormed { opcode := 0xA9, operands := [0x100] } = false := by decide +kernel

/-- The same instruction written down right. -/
theorem test_wf_ok : RawInstr.wellFormed { opcode := 0xA9, operands := [0xFF] } = true := by decide +kernel

/-! ### Decoding: every opcode's word, written out from 30_encoding R155 -/

/-- Each word decodes to its instruction with nothing left, and the encoder gives the word back. -/
def decodesTo (rows : List (List Nat × Instr)) : Bool :=
  rows.all fun r =>
    let w : List Byte := r.1.map (BitVec.ofNat 8)
    decide ((decode w).toOption = some (r.2, [])) && decide (encode r.2 = w)

theorem test_decode_flags_system : decodesTo [
    ([0x00], .brk), ([0x18], .clc), ([0x38], .sec), ([0x40], .rti), ([0x58], .cli), ([0x78], .sei), ([0xB8], .clv),
    ([0xD8], .cld), ([0xEA], .nop), ([0xF8], .sed)] = true := by decide +kernel

theorem test_decode_logic_shift_1 : decodesTo [
    ([0x01, 0x34], .oraIndx 0x34), ([0x05, 0x34], .oraZp 0x34), ([0x06, 0x34], .aslZp 0x34), ([0x09, 0x34], .oraImm 0x34),
    ([0x0A], .aslAcc), ([0x0D, 0x34, 0x12], .oraAbs 0x1234), ([0x0E, 0x34, 0x12], .aslAbs 0x1234), ([0x11, 0x34], .oraIndy 0x34),
    ([0x15, 0x34], .oraZpx 0x34), ([0x16, 0x34], .aslZpx 0x34), ([0x19, 0x34, 0x12], .oraAbsy 0x1234),
    ([0x1D, 0x34, 0x12], .oraAbsx 0x1234), ([0x1E, 0x34, 0x12], .aslAbsx 0x1234), ([0x21, 0x34], .andIndx 0x34),
    ([0x24, 0x34], .bitZp 0x34), ([0x25, 0x34], .andZp 0x34), ([0x26, 0x34], .rolZp 0x34), ([0x29, 0x34], .andImm 0x34),
    ([0x2A], .rolAcc), ([0x2C, 0x34, 0x12], .bitAbs 0x1234)] = true := by decide +kernel

theorem test_decode_logic_shift_2 : decodesTo [
    ([0x2D, 0x34, 0x12], .andAbs 0x1234), ([0x2E, 0x34, 0x12], .rolAbs 0x1234), ([0x31, 0x34], .andIndy 0x34),
    ([0x35, 0x34], .andZpx 0x34), ([0x36, 0x34], .rolZpx 0x34), ([0x39, 0x34, 0x12], .andAbsy 0x1234),
    ([0x3D, 0x34, 0x12], .andAbsx 0x1234), ([0x3E, 0x34, 0x12], .rolAbsx 0x1234), ([0x41, 0x34], .eorIndx 0x34),
    ([0x45, 0x34], .eorZp 0x34), ([0x46, 0x34], .lsrZp 0x34), ([0x49, 0x34], .eorImm 0x34), ([0x4A], .lsrAcc),
    ([0x4D, 0x34, 0x12], .eorAbs 0x1234), ([0x4E, 0x34, 0x12], .lsrAbs 0x1234), ([0x51, 0x34], .eorIndy 0x34),
    ([0x55, 0x34], .eorZpx 0x34), ([0x56, 0x34], .lsrZpx 0x34), ([0x59, 0x34, 0x12], .eorAbsy 0x1234),
    ([0x5D, 0x34, 0x12], .eorAbsx 0x1234)] = true := by decide +kernel

theorem test_decode_logic_shift_3 : decodesTo [
    ([0x5E, 0x34, 0x12], .lsrAbsx 0x1234), ([0x66, 0x34], .rorZp 0x34), ([0x6A], .rorAcc), ([0x6E, 0x34, 0x12], .rorAbs 0x1234),
    ([0x76, 0x34], .rorZpx 0x34), ([0x7E, 0x34, 0x12], .rorAbsx 0x1234)] = true := by decide +kernel

theorem test_decode_transfer_stack : decodesTo [
    ([0x08], .php), ([0x28], .plp), ([0x48], .pha), ([0x68], .pla), ([0x8A], .txa), ([0x98], .tya), ([0x9A], .txs),
    ([0xA8], .tay), ([0xAA], .tax), ([0xBA], .tsx)] = true := by decide +kernel

theorem test_decode_control : decodesTo [
    ([0x10, 0x34], .bpl 0x34), ([0x20, 0x34, 0x12], .jsr 0x1234), ([0x30, 0x34], .bmi 0x34),
    ([0x4C, 0x34, 0x12], .jmpAbs 0x1234), ([0x50, 0x34], .bvc 0x34), ([0x60], .rts), ([0x6C, 0x34, 0x12], .jmpInd 0x1234),
    ([0x70, 0x34], .bvs 0x34), ([0x90, 0x34], .bcc 0x34), ([0xB0, 0x34], .bcs 0x34), ([0xD0, 0x34], .bne 0x34),
    ([0xF0, 0x34], .beq 0x34)] = true := by decide +kernel

theorem test_decode_arithmetic_1 : decodesTo [
    ([0x61, 0x34], .adcIndx 0x34), ([0x65, 0x34], .adcZp 0x34), ([0x69, 0x34], .adcImm 0x34),
    ([0x6D, 0x34, 0x12], .adcAbs 0x1234), ([0x71, 0x34], .adcIndy 0x34), ([0x75, 0x34], .adcZpx 0x34),
    ([0x79, 0x34, 0x12], .adcAbsy 0x1234), ([0x7D, 0x34, 0x12], .adcAbsx 0x1234), ([0x88], .dey), ([0xC0, 0x34], .cpyImm 0x34),
    ([0xC1, 0x34], .cmpIndx 0x34), ([0xC4, 0x34], .cpyZp 0x34), ([0xC5, 0x34], .cmpZp 0x34), ([0xC6, 0x34], .decZp 0x34),
    ([0xC8], .iny), ([0xC9, 0x34], .cmpImm 0x34), ([0xCA], .dex), ([0xCC, 0x34, 0x12], .cpyAbs 0x1234),
    ([0xCD, 0x34, 0x12], .cmpAbs 0x1234), ([0xCE, 0x34, 0x12], .decAbs 0x1234)] = true := by decide +kernel

theorem test_decode_arithmetic_2 : decodesTo [
    ([0xD1, 0x34], .cmpIndy 0x34), ([0xD5, 0x34], .cmpZpx 0x34), ([0xD6, 0x34], .decZpx 0x34),
    ([0xD9, 0x34, 0x12], .cmpAbsy 0x1234), ([0xDD, 0x34, 0x12], .cmpAbsx 0x1234), ([0xDE, 0x34, 0x12], .decAbsx 0x1234),
    ([0xE0, 0x34], .cpxImm 0x34), ([0xE1, 0x34], .sbcIndx 0x34), ([0xE4, 0x34], .cpxZp 0x34), ([0xE5, 0x34], .sbcZp 0x34),
    ([0xE6, 0x34], .incZp 0x34), ([0xE8], .inx), ([0xE9, 0x34], .sbcImm 0x34), ([0xEC, 0x34, 0x12], .cpxAbs 0x1234),
    ([0xED, 0x34, 0x12], .sbcAbs 0x1234), ([0xEE, 0x34, 0x12], .incAbs 0x1234), ([0xF1, 0x34], .sbcIndy 0x34),
    ([0xF5, 0x34], .sbcZpx 0x34), ([0xF6, 0x34], .incZpx 0x34), ([0xF9, 0x34, 0x12], .sbcAbsy 0x1234)] = true := by decide +kernel

theorem test_decode_arithmetic_3 : decodesTo [
    ([0xFD, 0x34, 0x12], .sbcAbsx 0x1234), ([0xFE, 0x34, 0x12], .incAbsx 0x1234)] = true := by decide +kernel

theorem test_decode_load_store_1 : decodesTo [
    ([0x81, 0x34], .staIndx 0x34), ([0x84, 0x34], .styZp 0x34), ([0x85, 0x34], .staZp 0x34), ([0x86, 0x34], .stxZp 0x34),
    ([0x8C, 0x34, 0x12], .styAbs 0x1234), ([0x8D, 0x34, 0x12], .staAbs 0x1234), ([0x8E, 0x34, 0x12], .stxAbs 0x1234),
    ([0x91, 0x34], .staIndy 0x34), ([0x94, 0x34], .styZpx 0x34), ([0x95, 0x34], .staZpx 0x34), ([0x96, 0x34], .stxZpy 0x34),
    ([0x99, 0x34, 0x12], .staAbsy 0x1234), ([0x9D, 0x34, 0x12], .staAbsx 0x1234), ([0xA0, 0x34], .ldyImm 0x34),
    ([0xA1, 0x34], .ldaIndx 0x34), ([0xA2, 0x34], .ldxImm 0x34), ([0xA4, 0x34], .ldyZp 0x34), ([0xA5, 0x34], .ldaZp 0x34),
    ([0xA6, 0x34], .ldxZp 0x34), ([0xA9, 0x34], .ldaImm 0x34)] = true := by decide +kernel

theorem test_decode_load_store_2 : decodesTo [
    ([0xAC, 0x34, 0x12], .ldyAbs 0x1234), ([0xAD, 0x34, 0x12], .ldaAbs 0x1234), ([0xAE, 0x34, 0x12], .ldxAbs 0x1234),
    ([0xB1, 0x34], .ldaIndy 0x34), ([0xB4, 0x34], .ldyZpx 0x34), ([0xB5, 0x34], .ldaZpx 0x34), ([0xB6, 0x34], .ldxZpy 0x34),
    ([0xB9, 0x34, 0x12], .ldaAbsy 0x1234), ([0xBC, 0x34, 0x12], .ldyAbsx 0x1234), ([0xBD, 0x34, 0x12], .ldaAbsx 0x1234),
    ([0xBE, 0x34, 0x12], .ldxAbsy 0x1234)] = true := by decide +kernel

/-- Every undefined value named in vectors E8 to E11 selects no row and does not decode (30_encoding R152, R154). -/
theorem test_decode_undefined : ([0x02, 0x80, 0xFF, 0x89, 0x9C, 0x9E] : List Byte).all
    (fun op => (decode [op, 0x00#8, 0x00#8]).toOption.isNone && (opcodeTable op).isNone) = true := by decide +kernel

/-- A table word with nbits shorter than the instruction has zero operand bits above. -/
theorem test_decode_table_word : decodeTableWord 8 0xA9 = some (.ldaImm 0x00) ∧ decodeTableWord 24 0x12346D = some (.adcAbs 0x1234) ∧
    decodeTableWord 8 0x02 = none := by decide +kernel

/-! ### One step of each instruction, against 95_test_vectors section 2.5 -/

/-- A cartridge with the bytes of the spec's fixture that the vectors read, and code at 0xF000 (95_test_vectors, Conventions). -/
def fixture (code : List Nat) : Cart :=
  Cart.insert .m4k 4096
    ((((((((Memory.ofBytes (code.map (BitVec.ofNat 8))).write 0x0FF 0xE1#8).write 0x100 0x5E#8).write 0x101 0x01#8).write 0x108
      0xC8#8).write 0xFFC 0x00#8).write 0xFFD 0xF0#8).write 0xFFF 0xF0#8) Params.default.initialBank

/-- The conventions' start state, changed by `cpu`, with bytes of PIA RAM by address. -/
def start (code : List Nat) (ram : List (Nat × Nat)) (cpu : Cpu → Cpu) : State :=
  let s := State.powerOn (fixture code) Params.default
  { s with cpu := cpu { s.cpu with sp := 0xFF#8 },
           ram := ram.foldl (fun m r => m.write (r.1 % 128) (BitVec.ofNat 8 r.2)) s.ram }

/-- The flags from their letters' values, N first. -/
def flagBits (p : Flags) : List Nat := [p.n, p.v, p.d, p.i, p.z, p.c].map Bool.toNat

/-- What a vector lists after one step: A, X, Y, S, PC, the cycles; the flags; the bytes of PIA RAM asked for. -/
def after (watch : List Nat) (s : State) : Option (List Nat × List Nat × List Nat) :=
  match step s with
  | .next t =>
    some ([t.cpu.a.toNat, t.cpu.x.toNat, t.cpu.y.toNat, t.cpu.sp.toNat, t.cpu.pc.toNat, t.cpuCycles - s.cpuCycles], flagBits t.cpu.p,
      watch.map (fun a => (t.ram.read (a % 128)).toNat))
  | .fault _ => none
  | .refused _ => none

/-- V40-1, `LDA $7F,X` (R188): zp,X: 0x7F+5 = 0x84, RAM local 0x04. -/
theorem test_v40_1_lda : after [] (start [0xB5, 0x7F] [(0x84, 0x77)] (fun c => { c with x := 0x05 })) =
    some ([0x77, 0x05, 0x00, 0xFF, 0xF002, 4], [0, 0, 0, 1, 0, 0], []) := by decide +kernel

/-- V40-3, `LDA $F0FF,X` (R189): abs,X crosses 0xF0FF->0xF100: +1 cycle. -/
theorem test_v40_3_lda : after [] (start [0xBD, 0xFF, 0xF0] [] (fun c => { c with x := 0x01 })) =
    some ([0x5E, 0x01, 0x00, 0xFF, 0xF003, 5], [0, 0, 0, 1, 0, 0], []) := by decide +kernel

/-- V40-5, `STA $0081,X` (R189): store: 5 cycles with or without a crossing. -/
theorem test_v40_5_sta : after [0x80] (start [0x9D, 0x81, 0x00] [] (fun c => { c with a := 0x5A, x := 0xFF })) =
    some ([0x5A, 0xFF, 0x00, 0xFF, 0xF003, 5], [0, 0, 0, 1, 0, 0], [0x5A]) := by decide +kernel

/-- V40-6, `LDA ($80,X)` (R190): pointer at 0x84/0x85 = 0xF100. -/
theorem test_v40_6_lda : after [] (start [0xA1, 0x80] [(0x84, 0x00), (0x85, 0xF1)] (fun c => { c with x := 0x04 })) =
    some ([0x5E, 0x04, 0x00, 0xFF, 0xF002, 6], [0, 0, 0, 1, 0, 0], []) := by decide +kernel

/-- V40-8, `LDA ($80),Y` (R191): 0xF0F8+0x10 = 0xF108: page crossed, 6 cycles. -/
theorem test_v40_8_lda : after [] (start [0xB1, 0x80] [(0x80, 0xF8), (0x81, 0xF0)] (fun c => { c with y := 0x10 })) =
    some ([0xC8, 0x00, 0x10, 0xFF, 0xF002, 6], [1, 0, 0, 1, 0, 0], []) := by decide +kernel

/-- V41-1, `LDA #$00` (R231): Z=1. -/
theorem test_v41_1_lda : after [] (start [0xA9, 0x00] [] id) =
    some ([0x00, 0x00, 0x00, 0xFF, 0xF002, 2], [0, 0, 0, 1, 1, 0], []) := by decide +kernel

/-- V41-2, `LDA #$80` (R231): N=1. -/
theorem test_v41_2_lda : after [] (start [0xA9, 0x80] [] id) =
    some ([0x80, 0x00, 0x00, 0xFF, 0xF002, 2], [1, 0, 0, 1, 0, 0], []) := by decide +kernel

/-- V41-3, `LDX $90` (R232). -/
theorem test_v41_3_ldx : after [] (start [0xA6, 0x90] [(0x90, 0x7F)] id) =
    some ([0x00, 0x7F, 0x00, 0xFF, 0xF002, 3], [0, 0, 0, 1, 0, 0], []) := by decide +kernel

/-- V41-4, `LDX $80,Y` (R232): zp,Y. -/
theorem test_v41_4_ldx : after [] (start [0xB6, 0x80] [(0x82, 0xFE)] (fun c => { c with y := 0x02 })) =
    some ([0x00, 0xFE, 0x02, 0xFF, 0xF002, 4], [1, 0, 0, 1, 0, 0], []) := by decide +kernel

/-- V41-5, `LDY $F0FF,X` (R233): page cross +1. -/
theorem test_v41_5_ldy : after [] (start [0xBC, 0xFF, 0xF0] [] (fun c => { c with x := 0x01 })) =
    some ([0x00, 0x01, 0x5E, 0xFF, 0xF003, 5], [0, 0, 0, 1, 0, 0], []) := by decide +kernel

/-- V41-6, `STA $80` (R234): stores change no flag. -/
theorem test_v41_6_sta : after [0x80]
    (start [0x85, 0x80] [] (fun c => { c with a := 0x5A, p := { c.p with n := true, z := true } })) =
    some ([0x5A, 0x00, 0x00, 0xFF, 0xF002, 3], [1, 0, 0, 1, 1, 0], [0x5A]) := by decide +kernel

/-- V41-7, `STX $FF,Y` (R235): zp,Y wraps to 0x00: a TIA write (VSYNC), RAM unchanged. -/
theorem test_v41_7_stx : after [] (start [0x96, 0xFF] [] (fun c => { c with x := 0x33, y := 0x01 })) =
    some ([0x00, 0x33, 0x01, 0xFF, 0xF002, 4], [0, 0, 0, 1, 0, 0], []) := by decide +kernel

/-- V41-8, `STY $00C0` (R236): abs form. -/
theorem test_v41_8_sty : after [0xC0] (start [0x8C, 0xC0, 0x00] [] (fun c => { c with y := 0x44 })) =
    some ([0x00, 0x00, 0x44, 0xFF, 0xF003, 4], [0, 0, 0, 1, 0, 0], [0x44]) := by decide +kernel

/-- V42-1, `TAX` (R251): Z=1. -/
theorem test_v42_1_tax : after [] (start [0xAA] [] (fun c => { c with a := 0x00 })) =
    some ([0x00, 0x00, 0x00, 0xFF, 0xF001, 2], [0, 0, 0, 1, 1, 0], []) := by decide +kernel

/-- V42-2, `TSX` (R255): N=1. -/
theorem test_v42_2_tsx : after [] (start [0xBA] [] (fun c => { c with sp := 0x80 })) =
    some ([0x00, 0x80, 0x00, 0x80, 0xF001, 2], [1, 0, 0, 1, 0, 0], []) := by decide +kernel

/-- V42-3, `TXS` (R256): flags unchanged, S = 0. -/
theorem test_v42_3_txs : after [] (start [0x9A] [] (fun c => { c with x := 0x00, p := { c.p with n := true } })) =
    some ([0x00, 0x00, 0x00, 0x00, 0xF001, 2], [1, 0, 0, 1, 0, 0], []) := by decide +kernel

/-- V42-4, `PHA` (R257): S = 0: writes 0x0100 (TIA VSYNC mirror), S wraps to 0xFF. -/
theorem test_v42_4_pha : after [] (start [0x48] [] (fun c => { c with a := 0x99, sp := 0x00 })) =
    some ([0x99, 0x00, 0x00, 0xFF, 0xF001, 3], [0, 0, 0, 1, 0, 0], []) := by decide +kernel

/-- V42-5, `PHP` (R258): pushes 0xFF: bits 5,4 = 1. -/
theorem test_v42_5_php : after [0xFF]
    (start [0x08] [] (fun c => { c with p := { c.p with n := true, v := true, d := true, i := true, z := true, c := true } })) =
    some ([0x00, 0x00, 0x00, 0xFE, 0xF001, 3], [1, 1, 1, 1, 1, 1], [0xFF]) := by decide +kernel

/-- V42-6, `PHP` (R258): pushes 0x30. -/
theorem test_v42_6_php : after [0xFF]
    (start [0x08] [] (fun c => { c with p := { c.p with n := false, v := false, d := false, i := false, z := false, c := false } })) =
    some ([0x00, 0x00, 0x00, 0xFE, 0xF001, 3], [0, 0, 0, 0, 0, 0], [0x30]) := by decide +kernel

/-- V42-7, `PLP` (R260): bits 5,4 ignored: all flags 0. -/
theorem test_v42_7_plp : after [] (start [0x28] [(0xFF, 0x30)] (fun c => { c with sp := 0xFE })) =
    some ([0x00, 0x00, 0x00, 0xFF, 0xF001, 4], [0, 0, 0, 0, 0, 0], []) := by decide +kernel

/-- V42-8, `PLA` (R259): N=1. -/
theorem test_v42_8_pla : after [] (start [0x68] [(0xFF, 0x80)] (fun c => { c with sp := 0xFE })) =
    some ([0x80, 0x00, 0x00, 0xFF, 0xF001, 4], [1, 0, 0, 1, 0, 0], []) := by decide +kernel

/-- V43-1, `ADC #$01` (R281): signed overflow. -/
theorem test_v43_1_adc : after [] (start [0x69, 0x01] [] (fun c => { c with a := 0x7F })) =
    some ([0x80, 0x00, 0x00, 0xFF, 0xF002, 2], [1, 1, 0, 1, 0, 0], []) := by decide +kernel

/-- V43-3, `ADC #$80` (R281): C and V, Z. -/
theorem test_v43_3_adc : after [] (start [0x69, 0x80] [] (fun c => { c with a := 0x80 })) =
    some ([0x00, 0x00, 0x00, 0xFF, 0xF002, 2], [0, 1, 0, 1, 1, 1], []) := by decide +kernel

/-- V43-6, `ADC #$46` (R282): decimal 58+46 = 104. -/
theorem test_v43_6_adc : after [] (start [0x69, 0x46] [] (fun c => { c with a := 0x58, p := { c.p with d := true } })) =
    some ([0x04, 0x00, 0x00, 0xFF, 0xF002, 2], [1, 1, 1, 1, 0, 1], []) := by decide +kernel

/-- V43-13, `SBC #$01` (R283): signed overflow. -/
theorem test_v43_13_sbc : after [] (start [0xE9, 0x01] [] (fun c => { c with a := 0x80, p := { c.p with c := true } })) =
    some ([0x7F, 0x00, 0x00, 0xFF, 0xF002, 2], [0, 1, 0, 1, 0, 1], []) := by decide +kernel

/-- V43-18, `SBC #$01` (R284): decimal 00-01 = 99, borrow. -/
theorem test_v43_18_sbc : after []
    (start [0xE9, 0x01] [] (fun c => { c with a := 0x00, p := { c.p with d := true, c := true } })) =
    some ([0x99, 0x00, 0x00, 0xFF, 0xF002, 2], [1, 0, 1, 1, 0, 0], []) := by decide +kernel

/-- V43-20, `CMP #$00` (R286): N is bit 7 of the difference. -/
theorem test_v43_20_cmp : after [] (start [0xC9, 0x00] [] (fun c => { c with a := 0x80 })) =
    some ([0x80, 0x00, 0x00, 0xFF, 0xF002, 2], [1, 0, 0, 1, 0, 1], []) := by decide +kernel

/-- V43-22, `CMP #$42` (R286): D has no effect. -/
theorem test_v43_22_cmp : after [] (start [0xC9, 0x42] [] (fun c => { c with a := 0x42, p := { c.p with d := true } })) =
    some ([0x42, 0x00, 0x00, 0xFF, 0xF002, 2], [0, 0, 1, 1, 1, 1], []) := by decide +kernel

/-- V43-23, `CPX #$06` (R287). -/
theorem test_v43_23_cpx : after [] (start [0xE0, 0x06] [] (fun c => { c with x := 0x05 })) =
    some ([0x00, 0x05, 0x00, 0xFF, 0xF002, 2], [1, 0, 0, 1, 0, 0], []) := by decide +kernel

/-- V43-24, `CPY #$00` (R288). -/
theorem test_v43_24_cpy : after [] (start [0xC0, 0x00] [] (fun c => { c with y := 0xFF })) =
    some ([0x00, 0x00, 0xFF, 0xFF, 0xF002, 2], [1, 0, 0, 1, 0, 1], []) := by decide +kernel

/-- V43-25, `INC $80` (R289): wraps to 0, double write 0xFF then 0x00. -/
theorem test_v43_25_inc : after [0x80] (start [0xE6, 0x80] [(0x80, 0xFF)] id) =
    some ([0x00, 0x00, 0x00, 0xFF, 0xF002, 5], [0, 0, 0, 1, 1, 0], [0x00]) := by decide +kernel

/-- V43-26, `DEC $80` (R292): wraps to 0xFF. -/
theorem test_v43_26_dec : after [0x80] (start [0xC6, 0x80] [(0x80, 0x00)] id) =
    some ([0x00, 0x00, 0x00, 0xFF, 0xF002, 5], [1, 0, 0, 1, 0, 0], [0xFF]) := by decide +kernel

/-- V43-27, `INX` (R290): C unchanged. -/
theorem test_v43_27_inx : after [] (start [0xE8] [] (fun c => { c with x := 0xFF, p := { c.p with c := true } })) =
    some ([0x00, 0x00, 0x00, 0xFF, 0xF001, 2], [0, 0, 0, 1, 1, 1], []) := by decide +kernel

/-- V43-28, `DEX` (R293). -/
theorem test_v43_28_dex : after [] (start [0xCA] [] (fun c => { c with x := 0x00 })) =
    some ([0x00, 0xFF, 0x00, 0xFF, 0xF001, 2], [1, 0, 0, 1, 0, 0], []) := by decide +kernel

/-- V43-29, `INY` (R291). -/
theorem test_v43_29_iny : after [] (start [0xC8] [] (fun c => { c with y := 0x7F })) =
    some ([0x00, 0x00, 0x80, 0xFF, 0xF001, 2], [1, 0, 0, 1, 0, 0], []) := by decide +kernel

/-- V43-30, `DEY` (R294). -/
theorem test_v43_30_dey : after [] (start [0x88] [] (fun c => { c with y := 0x01 })) =
    some ([0x00, 0x00, 0x00, 0xFF, 0xF001, 2], [0, 0, 0, 1, 1, 0], []) := by decide +kernel

/-- V43-31, `INC $007F,X` (R289): abs,X RMW: 7 cycles. -/
theorem test_v43_31_inc : after [0x80] (start [0xFE, 0x7F, 0x00] [(0x80, 0x7F)] (fun c => { c with x := 0x01 })) =
    some ([0x00, 0x01, 0x00, 0xFF, 0xF003, 7], [1, 0, 0, 1, 0, 0], [0x80]) := by decide +kernel

/-- V44-1, `AND #$0F` (R321): Z=1. -/
theorem test_v44_1_and : after [] (start [0x29, 0x0F] [] (fun c => { c with a := 0xF0 })) =
    some ([0x00, 0x00, 0x00, 0xFF, 0xF002, 2], [0, 0, 0, 1, 1, 0], []) := by decide +kernel

/-- V44-2, `ORA #$00` (R322): Z=1. -/
theorem test_v44_2_ora : after [] (start [0x09, 0x00] [] (fun c => { c with a := 0x00 })) =
    some ([0x00, 0x00, 0x00, 0xFF, 0xF002, 2], [0, 0, 0, 1, 1, 0], []) := by decide +kernel

/-- V44-3, `EOR #$7F` (R323): N=1. -/
theorem test_v44_3_eor : after [] (start [0x49, 0x7F] [] (fun c => { c with a := 0xFF })) =
    some ([0x80, 0x00, 0x00, 0xFF, 0xF002, 2], [1, 0, 0, 1, 0, 0], []) := by decide +kernel

/-- V44-4, `BIT $80` (R324): N, V from memory. -/
theorem test_v44_4_bit : after [] (start [0x24, 0x80] [(0x80, 0x3F)] (fun c => { c with a := 0xFF })) =
    some ([0xFF, 0x00, 0x00, 0xFF, 0xF002, 3], [0, 0, 0, 1, 0, 0], []) := by decide +kernel

/-- V44-5, `BIT $0080` (R324): abs form: clears N, V. -/
theorem test_v44_5_bit : after []
    (start [0x2C, 0x80, 0x00] [(0x80, 0x00)] (fun c => { c with a := 0x00, p := { c.p with n := true, v := true } })) =
    some ([0x00, 0x00, 0x00, 0xFF, 0xF003, 4], [0, 0, 0, 1, 1, 0], []) := by decide +kernel

/-- V44-6, `ASL A` (R325): C=1, Z=1. -/
theorem test_v44_6_asl : after [] (start [0x0A] [] (fun c => { c with a := 0x80 })) =
    some ([0x00, 0x00, 0x00, 0xFF, 0xF001, 2], [0, 0, 0, 1, 1, 1], []) := by decide +kernel

/-- V44-7, `LSR A` (R326): C=1, Z=1, N always 0. -/
theorem test_v44_7_lsr : after [] (start [0x4A] [] (fun c => { c with a := 0x01 })) =
    some ([0x00, 0x00, 0x00, 0xFF, 0xF001, 2], [0, 0, 0, 1, 1, 1], []) := by decide +kernel

/-- V44-8, `ROL A` (R327): C=1, Z=1. -/
theorem test_v44_8_rol : after [] (start [0x2A] [] (fun c => { c with a := 0x80, p := { c.p with c := false } })) =
    some ([0x00, 0x00, 0x00, 0xFF, 0xF001, 2], [0, 0, 0, 1, 1, 1], []) := by decide +kernel

/-- V44-9, `ROR A` (R328): C=1, N=1. -/
theorem test_v44_9_ror : after [] (start [0x6A] [] (fun c => { c with a := 0x01, p := { c.p with c := true } })) =
    some ([0x80, 0x00, 0x00, 0xFF, 0xF001, 2], [1, 0, 0, 1, 0, 1], []) := by decide +kernel

/-- V44-10, `ASL $80` (R325): RMW zp: 5 cycles. -/
theorem test_v44_10_asl : after [0x80] (start [0x06, 0x80] [(0x80, 0x40)] id) =
    some ([0x00, 0x00, 0x00, 0xFF, 0xF002, 5], [1, 0, 0, 1, 0, 0], [0x80]) := by decide +kernel

/-- V44-11, `ROR $80` (R328): carry into bit 7. -/
theorem test_v44_11_ror : after [0x80] (start [0x66, 0x80] [(0x80, 0x00)] (fun c => { c with p := { c.p with c := true } })) =
    some ([0x00, 0x00, 0x00, 0xFF, 0xF002, 5], [1, 0, 0, 1, 0, 0], [0x80]) := by decide +kernel

/-- V45-1, `JMP $1234` (R351): target in a cartridge mirror. -/
theorem test_v45_1_jmp : after [] (start [0x4C, 0x34, 0x12] [] id) =
    some ([0x00, 0x00, 0x00, 0xFF, 0x1234, 3], [0, 0, 0, 1, 0, 0], []) := by decide +kernel

/-- V45-2, `BCC +127` (R355): forward limit. -/
theorem test_v45_2_bcc : after [] (start [0x90, 0x7F] [] (fun c => { c with p := { c.p with c := false } })) =
    some ([0x00, 0x00, 0x00, 0xFF, 0xF081, 3], [0, 0, 0, 1, 0, 0], []) := by decide +kernel

/-- V45-3, `BCC -128` (R355): backward limit, crosses into page 0xEF: 4 cycles. -/
theorem test_v45_3_bcc : after [] (start [0x90, 0x80] [] (fun c => { c with p := { c.p with c := false } })) =
    some ([0x00, 0x00, 0x00, 0xFF, 0xEF82, 4], [0, 0, 0, 1, 0, 0], []) := by decide +kernel

/-- V45-4, `BNE -2` (R359): branch to itself: 3 cycles. -/
theorem test_v45_4_bne : after [] (start [0xD0, 0xFE] [] (fun c => { c with p := { c.p with z := false } })) =
    some ([0x00, 0x00, 0x00, 0xFF, 0xF000, 3], [0, 0, 0, 1, 0, 0], []) := by decide +kernel

/-- V45-5, `BPL +16` (R360): not taken: 2 cycles. -/
theorem test_v45_5_bpl : after [] (start [0x10, 0x10] [] (fun c => { c with p := { c.p with n := true } })) =
    some ([0x00, 0x00, 0x00, 0xFF, 0xF002, 2], [1, 0, 0, 1, 0, 0], []) := by decide +kernel

/-- V45-7, `JSR $F100` (R352): S = 1: pushes to 0x0101 (TIA VBLANK) and 0x0100 (TIA VSYNC: bit 1 = 1 turns VSYNC on), S wraps to 0xFF. -/
theorem test_v45_7_jsr : after [] (start [0x20, 0x00, 0xF1] [] (fun c => { c with sp := 0x01 })) =
    some ([0x00, 0x00, 0x00, 0xFF, 0xF100, 6], [0, 0, 0, 1, 0, 0], []) := by decide +kernel

/-- V46-1, `SED` (R386). -/
theorem test_v46_1_sed : after [] (start [0xF8] [] (fun c => { c with p := { c.p with d := false } })) =
    some ([0x00, 0x00, 0x00, 0xFF, 0xF001, 2], [0, 0, 1, 1, 0, 0], []) := by decide +kernel

/-- V46-2, `CLV` (R384). -/
theorem test_v46_2_clv : after [] (start [0xB8] [] (fun c => { c with p := { c.p with v := true } })) =
    some ([0x00, 0x00, 0x00, 0xFF, 0xF001, 2], [0, 0, 0, 1, 0, 0], []) := by decide +kernel

/-- V46-3, `NOP` (R388): 2 cycles, nothing changes. -/
theorem test_v46_3_nop : after [] (start [0xEA] [] (fun c => { c with a := 0x12 })) =
    some ([0x12, 0x00, 0x00, 0xFF, 0xF001, 2], [0, 0, 0, 1, 0, 0], []) := by decide +kernel

/-! ### Steps worked by hand from the rules, where section 2.5 has no row -/

/-- R252 to R254: TAY, TXA and TYA set N and Z from the value moved. -/
theorem test_tay : after [] (start [0xA8] [] (fun c => { c with a := 0x80 })) =
    some ([0x80, 0x00, 0x80, 0xFF, 0xF001, 2], [1, 0, 0, 1, 0, 0], []) := by decide +kernel

theorem test_txa : after [] (start [0x8A] [] (fun c => { c with a := 0x12, x := 0x00 })) =
    some ([0x00, 0x00, 0x00, 0xFF, 0xF001, 2], [0, 0, 0, 1, 1, 0], []) := by decide +kernel

theorem test_tya : after [] (start [0x98] [] (fun c => { c with y := 0x7F })) =
    some ([0x7F, 0x00, 0x7F, 0xFF, 0xF001, 2], [0, 0, 0, 1, 0, 0], []) := by decide +kernel

/-- R326: LSR zp moves bit 0 into C and clears N. -/
theorem test_lsr_zp : after [0x80] (start [0x46, 0x80] [(0x80, 0x81)] id) =
    some ([0x00, 0x00, 0x00, 0xFF, 0xF002, 5], [0, 0, 0, 1, 0, 1], [0x40]) := by decide +kernel

/-- R327, R188: ROL zp,X takes the old C into bit 0. -/
theorem test_rol_zpx : after [0x84] (start [0x36, 0x7F] [(0x84, 0x80)]
    (fun c => { c with x := 0x05, p := { c.p with c := true } })) =
    some ([0x00, 0x05, 0x00, 0xFF, 0xF002, 6], [0, 0, 0, 1, 0, 1], [0x01]) := by decide +kernel

/-- R187, R292: DEC abs takes six cycles. -/
theorem test_dec_abs : after [0x80] (start [0xCE, 0x80, 0x00] [(0x80, 0x01)] id) =
    some ([0x00, 0x00, 0x00, 0xFF, 0xF003, 6], [0, 0, 0, 1, 1, 0], [0x00]) := by decide +kernel

/-- R381 to R388: the flag instructions that section 2.5 leaves out. -/
theorem test_clc : after [] (start [0x18] [] (fun c => { c with p := { c.p with c := true } })) =
    some ([0x00, 0x00, 0x00, 0xFF, 0xF001, 2], [0, 0, 0, 1, 0, 0], []) := by decide +kernel

theorem test_cld : after [] (start [0xD8] [] (fun c => { c with p := { c.p with d := true } })) =
    some ([0x00, 0x00, 0x00, 0xFF, 0xF001, 2], [0, 0, 0, 1, 0, 0], []) := by decide +kernel

theorem test_cli : after [] (start [0x58] [] id) =
    some ([0x00, 0x00, 0x00, 0xFF, 0xF001, 2], [0, 0, 0, 0, 0, 0], []) := by decide +kernel

theorem test_sec : after [] (start [0x38] [] id) =
    some ([0x00, 0x00, 0x00, 0xFF, 0xF001, 2], [0, 0, 0, 1, 0, 1], []) := by decide +kernel

theorem test_sei : after [] (start [0x78] [] (fun c => { c with p := { c.p with i := false } })) =
    some ([0x00, 0x00, 0x00, 0xFF, 0xF001, 2], [0, 0, 0, 1, 0, 0], []) := by decide +kernel

/-- R354, R356, R358, R361, R362: each branch follows its own flag; F002 + 0x10 stays in the page. -/
theorem test_bcs_bmi_bvc_bvs :
    [(0xB0, fun p : Flags => { p with c := true }), (0x30, fun p => { p with n := true }), (0x50, fun p => p),
      (0x70, fun p => { p with v := true })].all (fun r =>
        (after [] (start [r.1, 0x10] [] (fun c => { c with p := r.2 c.p }))).map (fun x => x.1.drop 4) == some [0xF012, 3]) = true := by
  decide +kernel

/-- The opposite conditions, and BEQ with Z clear: not taken, two cycles. -/
theorem test_branches_not_taken :
    [(0xB0, fun p : Flags => p), (0x30, fun p => p), (0x50, fun p => { p with v := true }), (0x70, fun p => p), (0xF0, fun p => p),
      (0xD0, fun p => { p with z := true }), (0x90, fun p => { p with c := true })].all (fun r =>
        (after [] (start [r.1, 0x10] [] (fun c => { c with p := r.2 c.p }))).map (fun x => x.1.drop 4) == some [0xF002, 2]) = true := by
  decide +kernel

/-- B6: `BPL +$10` at 0xF0F0 crosses into the next page: four cycles, and the last access is the read in the wrong page. -/
theorem test_b6_bpl : after [] { start (List.replicate 0xF0 0xEA ++ [0x10, 0x10]) [] id with
      cpu := { (start [] [] id).cpu with pc := 0xF0F0 } } =
    some ([0x00, 0x00, 0x00, 0xFF, 0xF102, 4], [0, 0, 0, 1, 0, 0], []) := by decide +kernel

/-- C1 on this fixture: JMP ($F0FF) reads 0xE1 at 0xF0FF and the high byte at 0xF000, the JMP's own opcode. -/
theorem test_c1_jmp_indirect_bug : after [] (start [0x6C, 0xFF, 0xF0] [] id) =
    some ([0x00, 0x00, 0x00, 0xFF, 0x6CE1, 5], [0, 0, 0, 1, 0, 0], []) := by decide +kernel

/-- C2: the pointer may be in RAM. -/
theorem test_c2_jmp_indirect : after [] (start [0x6C, 0x80, 0x00] [(0x80, 0x00), (0x81, 0xF1)] id) =
    some ([0x00, 0x00, 0x00, 0xFF, 0xF100, 5], [0, 0, 0, 1, 0, 0], []) := by decide +kernel

/-- B5: RTS pulls 0xF012 and adds one. -/
theorem test_b5_rts : after [] (start [0x60] [(0xFE, 0x12), (0xFF, 0xF0)] (fun c => { c with sp := 0xFD })) =
    some ([0x00, 0x00, 0x00, 0xFF, 0xF013, 6], [0, 0, 0, 1, 0, 0], []) := by decide +kernel

/-- B4 at 0xF000: JSR pushes the address of its own last byte. -/
theorem test_b4_jsr : after [0xFF, 0xFE] (start [0x20, 0x00, 0xF1] [] id) =
    some ([0x00, 0x00, 0x00, 0xFD, 0xF100, 6], [0, 0, 0, 1, 0, 0], [0xF0, 0x02]) := by decide +kernel

/-- B7: BRK with all flags 0; the fixture's vector is 0xF000. -/
theorem test_b7_brk : after [0xFF, 0xFE, 0xFD] (start [0x00] [] (fun c => { c with p := { c.p with i := false } })) =
    some ([0x00, 0x00, 0x00, 0xFC, 0xF000, 7], [0, 0, 0, 1, 0, 0], [0xF0, 0x02, 0x30]) := by decide +kernel

/-- B8: RTI pulls the flags and PC, with no increment. -/
theorem test_b8_rti : after [] (start [0x40] [(0xFD, 0x30), (0xFE, 0x02), (0xFF, 0xF0)] (fun c => { c with sp := 0xFC })) =
    some ([0x00, 0x00, 0x00, 0xFF, 0xF002, 6], [0, 0, 0, 0, 0, 0], []) := by decide +kernel

/-! ### Stops and reports (95_test_vectors section 2.6) -/

/-- The state after one step, if there is one. -/
def nextState (o : Host.Outcome State Fault Refusal) : Option State :=
  match o with
  | .next t => some t
  | .fault _ => none
  | .refused _ => none

/-- The fault a step answers. -/
def faultOf (o : Host.Outcome State Fault Refusal) : Option Fault :=
  match o with
  | .next _ => none
  | .fault f => some f
  | .refused _ => none

/-- X1: opcode 0x02 costs its fetch cycle, records the fault, and the next step answers it. -/
theorem test_x1_undefined : (nextState (step (start [0x02] [] id))).map (fun t =>
      (t.cpu.pc.toNat, t.cpuCycles, t.colorClock, t.fault, faultOf (step t))) =
    some (0xF001, 1, 3, some (.undefinedOpcode 0x02 0xF000), some (.undefinedOpcode 0x02 0xF000)) := by decide +kernel

/-- X2: a store to ROM is reported and changes nothing. -/
theorem test_x2_rom_write : (nextState (step (start [0x8D, 0x00, 0xF0] [] (fun c => { c with a := 0x55 })))).map (fun t =>
      (t.reports, t.cart.byteAt 0, t.cpuCycles, t.cpu.pc.toNat)) =
    some ([{ report := .unwritableAddress 0x1000 0x55, accessId := 4 }], 0x8D, 4, 0xF003) := by decide +kernel

/-- X3: a read of TIA local 0xE is reported; A is a free byte. -/
theorem test_x3_unreadable : (nextState (step (start [0xA5, 0x0E] [] id))).map (fun t => (t.reports, t.cpuCycles)) =
    some ([{ report := .unreadableAddress 0x000E, accessId := 3 }], 3) := by decide +kernel

/-- X4: a 12288-byte image is refused. -/
theorem test_x4_cartridge_error : Mapper.m3f.sizeOk 12288 = false ∧ Mapper.m3f.sizeOk 8192 = true ∧ Mapper.f8.sizeOk 12288 = false := by
  decide +kernel

/-- R506: an RSYNC write under `refuse` marks the state, and the next step answers the refusal. -/
theorem test_rsync_refused : (nextState (step { start [0x85, 0x03] [] id with
      params := { Params.default with rsyncModel := .refuse } })).map (fun t => (t.refusal, nextState (step t))) =
    some (some .rsyncRefused, none) := by decide +kernel

/-- M8: reading 0x1FF9 selects bank 1 and gives that bank's byte. -/
theorem test_m8_f8_hotspot : let c := Cart.insert .f8 8192 ((Memory.empty.write 0xFF9 0x11).write 0x1FF9 0x22) Params.default.initialBank
    let r := busRead 0x1FF9 { State.reset with cart := c }
    (r.1, r.2.cart.bank, (busRead 0x1FF8 r.2).2.cart.bank) = (0x22#8, 1, 0) := by decide +kernel

/-- B2: `STA $00F0,X` crossing into the TIA stores 0x42 at 0x0100, a mirror of VSYNC. -/
theorem test_b2_store_into_tia : (nextState (step (start [0x9D, 0xF0, 0x00] [] (fun c => { c with a := 0x42, x := 0x10 })))).map
      (fun t => (t.tia.vsync, t.lastAccess, t.cpuCycles)) =
    some (true, some { address := 0x0100, value := 0x42, isWrite := true }, 5) := by decide +kernel

/-- B3: INC marks the double write, and JMP (abs) at 0xFF marks its own bug. -/
theorem test_bug_marks : (nextState (step (start [0xE6, 0x80] [] id))).map (fun t => t.result.bug) = some (some .rmwDoubleWrite) ∧
    (nextState (step (start [0x6C, 0xFF, 0xF0] [] id))).map (fun t => t.result.bug) = some (some .jmpIndirectWrap) := by
  decide +kernel

/-! ### The chips (95_test_vectors sections 2.7 to 2.9) -/

/-- R1: TIM64T ← 2 as read at t = 1, 64, 65, 128, 129, 130, 131. -/
theorem test_r1_tim64t : [1, 64, 65, 128, 129, 130, 131].map (fun t =>
      let r := Nat.repeat timerTick t (riotWrite .decrementFirst (.timer .i64) 0x02 Riot.powerOn)
      (r.timer.toNat, r.tf)) =
    [(0x01, false), (0x01, false), (0x00, false), (0x00, false), (0xFF, true), (0xFE, true), (0xFD, true)] := by decide +kernel

/-- R6: reading INTIM at t = 129 of R1 clears TF and counting restarts at 64. -/
theorem test_r6_intim_restart : [1, 64, 65].map (fun t =>
      (Nat.repeat timerTick t (riotAfterIntim (Nat.repeat timerTick 129
        (riotWrite .decrementFirst (.timer .i64) 0x02 Riot.powerOn)))).timer.toNat) = [0xFE, 0xFE, 0xFD] := by decide +kernel

/-- R7, R9: TIMINT shows TF in bit 7; a port read mixes output bits and pins. -/
theorem test_r7_r9_ports : timintByte { Riot.powerOn with tf := true } = 0x80 ∧ portRead 0xA0 0xF0 0x5F = 0xAF := by decide +kernel

/-- T2: the WSYNC hold lasts 75 cycles from hclock 3 and one from 227. -/
theorem test_t2_wsync : [3, 226, 227].map (fun h =>
      (stall { State.reset with tia := { Tia.powerOn with wsync := true, hclock := h } }).cpuCycles) = [75, 1, 1] := by decide +kernel

/-- T5: RESP0 firing at clock 100 gives position 37 and suppresses the main copy. -/
theorem test_t5_resp0 : let t := (fireAction (.resetPos .p0) { State.reset with tia := { Tia.powerOn with hclock := 100 } }).tia
    (t.pos.p0.val, t.copy0Suppressed.p0) = (37, true) := by decide +kernel

/-- T6: HMOVE from position 3. -/
theorem test_t6_hmove : [0x7, 0x1, 0x0, 0xF, 0x8].map (fun n => (movedPos 3 (BitVec.ofNat 4 n)).val) = [156, 2, 3, 4, 11] := by
  decide +kernel

/-- T8, T9: which pixels a playfield bit lights, with and without reflection. -/
theorem test_t8_t9_playfield :
    let lit := fun (t : Tia) => (List.range 160).filter (playfieldBit t)
    lit { Tia.powerOn with pf0 := 0x1 } = [0, 1, 2, 3, 80, 81, 82, 83] ∧
    lit { Tia.powerOn with pf1 := 0x80 } = [16, 17, 18, 19, 96, 97, 98, 99] ∧
    lit { Tia.powerOn with pf2 := 0x01 } = [48, 49, 50, 51, 128, 129, 130, 131] ∧
    lit { Tia.powerOn with pf0 := 0x1, ctrlpf := ctrlpfOf 0x01 } = [0, 1, 2, 3, 156, 157, 158, 159] ∧
    lit { Tia.powerOn with pf2 := 0x80, ctrlpf := ctrlpfOf 0x01 } = [76, 77, 78, 79, 80, 81, 82, 83] := by decide +kernel

/-- T10: a one-pixel player at 156, plain, reflected and quadruple. -/
theorem test_t10_player :
    let lit := fun (n : Byte) (refl : Bool) => (List.range 160).filter (fun x =>
      playerBit 156 (nusizOf n) 0x80 refl false (Fin.ofNat 160 x))
    lit 0x00 false = [156] ∧ lit 0x00 true = [3] ∧ lit 0x07 false = [0, 157, 158, 159] := by decide +kernel

/-- T11: the collision of T9's playfield with T10's player, and its colour by PFP and SCORE. -/
theorem test_t11_priority :
    let t := { Tia.powerOn with hclock := 224, pf0 := 0x1, grp0new := 0x80, pos := { Tia.powerOn.pos with p0 := 156 },
                                colup0 := 0x10, colup1 := 0x20, colupf := 0x30 }
    let draw := fun (c : Byte) => drawPixel { State.reset with tia := { t with ctrlpf := ctrlpfOf c } }
    (draw 0x01).2.2.tia.collisions.p0pf = true ∧
    [0x01, 0x05, 0x07].map (fun c => (draw c).1) = [some 0x10#7, some 0x30#7, some 0x20#7] := by decide +kernel

/-- T12: GRP1's write copies GRP0's new latch to its old one. -/
theorem test_t12_vertical_delay :
    let t := { Tia.powerOn with vdelp0 := true }.store .grp0 0xAA
    gfx0 t = 0x00 ∧ gfx0 (t.store .grp1 0x55) = 0xAA := by decide +kernel

/-- R518 and R717: the delayed ball follows the write of GRP1, or of GRP0 under the other value of the parameter. -/
theorem test_ball_copy :
    let s := fun (c : BallCopy) => { State.reset with
      params := { Params.default with ballCopy := c }, tia := { Tia.powerOn with blNew := true } }
    [BallCopy.withGrp1, .withGrp0].map (fun c =>
      ((storeLatch .grp0 0x00 (s c)).tia.blOld, (storeLatch .grp1 0x00 (s c)).tia.blOld)) = [(false, true), (true, false)] := by
  decide +kernel

/-- 40_addressing_modes R181, R191: a store at 0x00F0,X with X = 0x20 goes to 0x0110, and its dummy read to 0x0010, without the carry. -/
theorem test_ea_carry : (fun e : Word × State => (e.1, e.2.lastAccess.map (·.address)))
    (eaAbsx 0x00F0 { State.reset with cpu := { State.reset.cpu with x := 0x20 } }) = (0x0110, some 0x0010) := by decide +kernel

/-- T13: a missile of width 8 at 20 and a ball of width 4 at 100. -/
theorem test_t13_missile_ball :
    (List.range 160).filter (fun x => missileBit true false 20 (nusizOf 0x30) false (Fin.ofNat 160 x)) =
      [20, 21, 22, 23, 24, 25, 26, 27] ∧
    (List.range 160).filter (fun x => ballBit
      { Tia.powerOn with blNew := true, ctrlpf := ctrlpfOf 0x20, pos := { Tia.powerOn.pos with bl := 100 } } (Fin.ofNat 160 x)) =
      [100, 101, 102, 103] := by decide +kernel

/-- TV2, TV3: the 263rd line is overlong; the 277th makes the television PAL. -/
theorem test_tv2_tv3_long_frame :
    let line := fun (n : Nat) => (tvSignal Params.default { Attrs.off with frontporch := true } { Tv.powerOn .ntsc with scanline :=
        n }).tv
    ((line 261).outOfSpec, (line 262).outOfSpec, (line 262).endOfScreen) = (false, true, true) ∧
    ((line 275).spec, (line 276).spec) = (.ntsc, .pal) := by decide +kernel

/-- TV4: a VSYNC of two ticks commits nothing, one of three does. -/
theorem test_tv4_vsync : [2, 3].map (fun n => (tvSignal Params.default Attrs.off
      { Tv.powerOn .ntsc with vsyncCount := n, prev := { Attrs.off with vsync := true } }).tv.frame) = [0, 1] := by decide +kernel

/-- TV6: an HSYNC rising at -48 is out of spec, at -49 it is not. -/
theorem test_tv6_hsync : [-49, -50].map (fun h => (tvSignal Params.default { Attrs.off with hsync := true }
      { Tv.powerOn .ntsc with horizontal := h, lineSynced := true }).tv.outOfSpec) = [true, false] := by decide +kernel

/-! ### The host's side (63_riot_console R661 to R665, 62_television R617) -/

/-- R664: an event changes pins only, so a press and a release between two ticks latch nothing; a tick between them does. -/
theorem test_fire_latch :
    let s := { State.reset with tia := { Tia.powerOn with inptLatchEnable := true } }
    let press := applyInput (.fire .left true) s
    let release := applyInput (.fire .left false)
    (press.tia.inpt4Low, (tiaTick (release press)).tia.inpt4Low, (tiaTick (release (tiaTick press))).tia.inpt4Low) =
      (false, false, true) := by decide +kernel

/-- R664, R86: a Poke stores one byte; GRP1's old copy and the fire-button latches stay (log 32). -/
theorem test_poke_one_byte :
    let s := { State.reset with
      tia := { Tia.powerOn with grp1new := 0x11 }, inputs := { State.reset.inputs with fireLeft := true } }
    let t := poke 0x0001 0x40 (poke 0x001B 0xAA s)
    (t.tia.grp0new, t.tia.grp1old, t.tia.inptLatchEnable, t.tia.inpt4Low) = (0xAA#8, 0x00#8, true, false) := by decide +kernel

/-- R441: CartridgeError is 0x20. -/
theorem test_cartridge_code : loadErrorCode (.cartridgeError 12288) = some 0x20 := by decide

/-- How a run ended, with the PC and the color clock of its end state. -/
def ending : RunEnd → String × Nat × Nat
  | .jumpToSelf t => ("jump to self", t.cpu.pc.toNat, t.colorClock)
  | .maxSteps t => ("max steps", t.cpu.pc.toNat, t.colorClock)
  | .fault _ t => ("fault", t.cpu.pc.toNat, t.colorClock)
  | .refused _ t => ("refused", t.cpu.pc.toNat, t.colorClock)

/-- R665: NOP then `JMP *` ends after two steps of 2 + 3 cycles; one step is not enough; an undefined opcode ends it in its fault. -/
theorem test_run_ends :
    (ending (run 2 (start [0xEA, 0x4C, 0x01, 0xF0] [] id)), ending (run 1 (start [0xEA, 0x4C, 0x01, 0xF0] [] id)),
      ending (run 2 (start [0x02] [] id))) =
    (("jump to self", 0xF001, 15), ("max steps", 0xF001, 6), ("fault", 0xF001, 3)) := by decide +kernel

/-- What a step with a quantum and a renderer reports: how many callbacks, whether an error, the ticks of the present cycle, PC. -/
def reported (o : Host.Outcome StepReport Fault Refusal) : Option (Nat × Bool × Nat × Nat) :=
  match o with
  | .next r => some (r.callbacks.length, r.error.isSome, r.last.ticks.val, r.last.state.cpu.pc.toNat)
  | .fault _ => none
  | .refused _ => none

/-- R661: `STA $80` is three cycles and nine color clocks. -/
theorem test_step_quanta :
    [Quantum.instruction, .cpuCycle, .colorClock].map
      (fun q => reported (stepWith q (fun _ _ => none) (start [0x85, 0x80] [] id))) =
    [some (1, false, 0, 0xF002), some (3, false, 0, 0xF002), some (9, false, 0, 0xF002)] := by decide +kernel

/-- R196: PLA's S is incremented in the dummy-read cycle, the third; A is written in the fourth. -/
theorem test_pull_cycles :
    let s := start [0x68] [(0xFF, 0x80)] (fun c => { c with sp := 0xFE })
    [8, 12, 16].map (fun n =>
      let c := (Nat.repeat Suspended.advance n (Suspended.start s)).state.cpu
      (c.sp.toNat, c.a.toNat)) = [(0xFE, 0x00), (0xFF, 0x00), (0xFF, 0x80)] := by decide +kernel

/-- R187: INC writes the unmodified byte in the fourth cycle and the modified one in the fifth. -/
theorem test_modify_cycles :
    let s := start [0xE6, 0x80] [(0x80, 0x7F)] id
    [16, 20].map (fun n => (Nat.repeat Suspended.advance n (Suspended.start s)).state.lastAccess) =
      [some { address := 0x0080, value := 0x7F, isWrite := true }, some { address := 0x0080, value := 0x80, isWrite := true }] := by
  decide +kernel

/-- R617: on a visible line the first tick calls `SetPixel`; its error ends the step there. -/
theorem test_renderer_error :
    let s := { start [0x85, 0x80] [] id with
      tia := { Tia.powerOn with hclock := 100 }, tv := { Tv.powerOn .ntsc with horizontal := 32 } }
    let render : Renderer := fun _ e => match e with
      | .setPixel _ _ _ _ => some { what := "full" }
      | _ => none
    reported (stepWith .colorClock render s) = some (1, true, 1, 0xF000) := by decide +kernel

/-! ### Witnesses: every hypothesis of every obligation is met, clause by clause, at the values where clauses meet -/

theorem some_next {o : Host.Outcome State Fault Refusal} (h : (nextState o).isSome = true) : ∃ t, o = .next t := by
  cases o with
  | next t => exact ⟨t, rfl⟩
  | fault f => cases h
  | refused r => cases h

theorem some_ok {e : Except LoadError State} (h : e.toOption.isSome = true) : ∃ s, e = .ok s := by
  cases e with
  | ok s => exact ⟨s, rfl⟩
  | error e => cases h

/-- A state at a NOP in cartridge ROM. -/
def atNop : State := start [0xEA] [] id

/-- A state with an image of zeros under a mapper. -/
def under (m : Mapper) (size : Nat) : State := { atNop with cart := Cart.insert m size Memory.empty Params.default.initialBank }

/-- A state whose TIA is at a clock, inside `hmove_busy` or not. -/
def atClock (h : Fin 228) (age : Option Nat) : State := { atNop with tia := { Tia.powerOn with hclock := h, hmoveAge := age } }

/-- LoadChecksSizeAndStarts: sizes no mapper takes, and a size right for another mapper. -/
theorem witness_load_refused :
    let rows : List (Mapper × Nat × Nat) :=
      [(.m2k, 2048, 1), (.m4k, 4096, 1), (.f8, 8192, 2), (.f8sc, 8192, 2), (.f6, 16384, 4), (.f6sc, 16384, 4), (.f4, 32768, 8),
       (.f4sc, 32768, 8), (.e0, 8192, 1)]
    let takes := fun (m : Mapper) (n banks : Nat) =>
      (m, n, banks) ∈ rows ∨ m = .m3f ∧ n % 2048 = 0 ∧ banks = n / 2048 ∧ 4 ≤ banks ∧ n ≠ 12288
    (∀ r ∈ [(Mapper.m2k, 2047), (.m4k, 2048), (.f8, 16384), (.m3f, 6144), (.m3f, 12288), (.m3f, 8193)], ∀ banks,
      ¬ takes r.1 r.2 banks) ∧ takes .m3f 8192 4 ∧ takes .f8 8192 2 := by
  refine ⟨?_, by decide, by decide⟩
  intro r hr banks
  simp only [List.mem_cons, List.not_mem_nil, or_false] at hr
  rcases hr with rfl | rfl | rfl | rfl | rfl | rfl <;> simp <;> omega

theorem witness_load_12k : (List.replicate 12288 0x00#8).length = 12288 := List.length_replicate

/-- A launch that loads, one with a bank its cartridge does not have, and one whose size its mapper refuses. -/
theorem witness_load :
    let l : Launch := { image := List.replicate 8192 0xEA#8, mapper := .m3f, params := Params.default, maxSteps := 0 }
    (load l).toOption.isSome = true ∧
    (load { l with params := { l.params with initialBank := { l.params.initialBank with bank := 4 } } }).toOption = none ∧
    (load { l with mapper := .m4k }).toOption = none := by decide +kernel

theorem witness_load_ok :
    ∃ s, load { image := List.replicate 8192 0xEA#8, mapper := .m3f, params := Params.default, maxSteps := 0 } = .ok s :=
  some_ok (by decide +kernel)

/-- EveryStepKeepsInvariant, EveryStepKeepsRomInputsAndLog. -/
theorem witness_step : MachineInv atNop ∧ atNop.fault = none ∧ atNop.refusal = none ∧ ∃ t, step atNop = .next t :=
  ⟨by decide +kernel, by decide +kernel, by decide +kernel, some_next (by decide +kernel)⟩

/-- EncodeOfDecode: 1, 2 and 3 bytes. -/
theorem witness_decode : [[0xEA], [0xA9, 0xFF], [0x4C, 0x00, 0xF0, 0x55]].all
    (fun w => (decode (w.map (BitVec.ofNat 8))).toOption.isSome) = true := by decide +kernel

/-- UndefinedOpcodesAreListed: the first and last listed values, and values between them that are not. -/
theorem witness_undefined : [0x02, 0xFF].all (fun n => (opcodeTable (BitVec.ofNat 8 n)).isNone) = true ∧
    [0x00, 0x01, 0xFE].all (fun n => (opcodeTable (BitVec.ofNat 8 n)).isSome) = true := by decide +kernel

/-- StepRunsDecodedInstruction, EveryResultIsValid. -/
theorem witness_fetch : Running atNop ∧ fetchInstr atNop = (some .nop, (fetchInstr atNop).2) ∧
    ∃ t, exec .nop (fetchInstr atNop).2 = .next t :=
  ⟨by decide +kernel, Prod.ext (by decide +kernel) rfl, some_next (by decide +kernel)⟩

/-- FetchReadsStoredInstruction: one to three bytes in ROM, in RAM, and JSR. -/
theorem witness_stored : [(Instr.nop, start [0xEA] [] id), (.ldaImm 0xFF, start [0xA9, 0xFF] [] id),
      (.jsr 0xF100, start [0x20, 0x00, 0xF1] [] id), (.staAbs 0x0080, start [0x8D, 0x80, 0x00] [] id),
      (.inx, start [] [(0x80, 0xE8)] (fun c => { c with pc := 0x0080 }))].all (fun r =>
    (List.range (encode r.1).length).all (fun k => placeable r.2.cart (r.2.cpu.pc + BitVec.ofNat 16 k) &&
      decide (peek (r.2.cpu.pc + BitVec.ofNat 16 k) r.2 = (encode r.1).getD k 0#8))) = true := by decide +kernel

/-- UndefinedOpcodeFaultsAfterFetch. -/
theorem witness_undefined_fetch : let s := start [0xFF] [] id
    Running s ∧ opcodeTable (memRead s.cpu.pc s).1 = none := by decide +kernel

/-- RecordedFaultStopsTheMachine, OutOfSpecIsStickyAndLogged: the host actions other than a reset. -/
theorem witness_host : ∀ h ∈ [HostAction.input (.fire .left true), .poke 0x0080 0x01, .setFeature true true, .cancel],
    h ≠ .reset := by decide

/-- RecordedFaultStopsTheMachine. -/
theorem witness_fault : let s := { atNop with fault := some (.memoryError (.bankOutOfRange 2)) }
    s.fault = some (.memoryError (.bankOutOfRange 2)) ∧ s.refusal = none ∧
    { atNop with refusal := some .rsyncRefused }.refusal = some .rsyncRefused := by decide +kernel

/-- FlagsChangeOnlyAsListed, RegistersChangeOnlyAsListed, InterruptFlagHasNoEffect: NOP is in none of their lists, ASL A in none
of the registers' but A's. -/
theorem witness_exec : mnemonicOf .nop = some .nop ∧ mnemonicOf .aslAcc = some .asl ∧ (∃ t, exec .nop atNop = .next t) ∧
    ∃ t, exec .aslAcc atNop = .next t :=
  ⟨by decide, by decide, some_next (by decide +kernel), some_next (by decide +kernel)⟩

theorem witness_mnemonics : Mnemonic.nop ∉ [Mnemonic.lda, .txa, .tya, .pla, .adc, .sbc, .and, .ora, .eor] ∧
    Instr.nop ∉ [Instr.aslAcc, .lsrAcc, .rolAcc, .rorAcc] ∧ Mnemonic.nop ∉ [Mnemonic.ldx, .tax, .tsx, .inx, .dex] ∧
    Mnemonic.nop ∉ [Mnemonic.ldy, .tay, .iny, .dey] ∧ Mnemonic.nop ∉ [Mnemonic.txs, .pha, .php, .pla, .plp, .jsr, .rts, .rti, .brk] ∧
    Instr.nop ∉ [Instr.php, .brk, .plp, .rti, .cli, .sei] := by decide

/-- MemoryMapDecodes: two mirrors, and each area at its lowest and highest address. -/
theorem witness_map : (0x1FFF#16).toNat % 8192 = (0xFFFF#16).toNat % 8192 ∧ (∀ n ∈ [0x1000, 0x1FFF], 4096 ≤ n) ∧
    (∀ n ∈ [0x000, 0x07F, 0xF00, 0xF7F], n < 4096 ∧ n % 256 < 128) ∧
    (∀ n ∈ [0x080, 0x1FF, 0xC80, 0xDFF], n < 4096 ∧ 128 ≤ n % 256 ∧ n % 1024 < 512) ∧
    (∀ n ∈ [0x280, 0x3FF, 0xE80, 0xFFF], n < 4096 ∧ 128 ≤ n % 256 ∧ 512 ≤ n % 1024) := by decide

/-- RamReadsWhatWasWritten: the lowest byte and its mirror, and the highest. -/
theorem witness_ram : atNop.ram.wf 128 = true ∧
    [0x0080#16, 0x0180#16, 0x01FF#16].all (fun a => decide (areaOf (addr13 a) = .ram)) = true ∧
    (0x0080#16).toNat % 128 = (0x0180#16).toNat % 128 ∧ (0x0080#16).toNat % 128 ≠ (0x01FF#16).toNat % 128 := by decide +kernel

/-- TiaReadsLatchesAndInputs: every read local. -/
theorem witness_tia_locals : (List.range 16).all (fun k => decide (areaOf (addr13 (BitVec.ofNat 16 k)) = .tia) &&
    decide ((BitVec.ofNat 16 k).toNat % 16 = k)) = true := by decide +kernel

/-- ReadsHaveListedSideEffects: the reads beside each exception (a plain RAM byte, the locals next to a hotspot, the superchip's
read port, a RIOT port, TIA 0xD), and TIA 0xE. -/
theorem witness_reads :
    let quiet := fun (s : State) (a : Word) =>
      ¬ (areaOf (addr13 a) = .cart ∧ (s.cart.isHotspot (a.toNat % 4096) = true ∨
        s.cart.mapper.hasSuperchip = true ∧ a.toNat % 4096 < 128)) ∧ ¬ (areaOf (addr13 a) = .riot ∧ 4 ≤ a.toNat % 8)
    quiet atNop 0x0080 ∧ quiet (under .f8 8192) 0xFFF7 ∧ quiet (under .f8 8192) 0xFFFA ∧ quiet (under .f8sc 8192) 0x1080 ∧
    quiet atNop 0x0283 ∧ ¬ (areaOf (addr13 0x000D) = .tia ∧ 14 ≤ (0x000D#16).toNat % 16) ∧
    areaOf (addr13 0x000E) = .tia ∧ 14 ≤ (0x000E#16).toNat % 16 := by decide +kernel

/-- PeekAndPokeHaveNoSideEffects: a placeable byte of RAM and of ROM. -/
theorem witness_peek : MachineInv atNop ∧ placeable atNop.cart 0x0080 = true ∧ placeable atNop.cart 0xF000 = true ∧
    areaOf (addr13 0x0080) = .ram ∧ areaOf (addr13 0xF000) = .cart := by decide +kernel

/-- PeekAndPokeHaveNoSideEffects: each area; the superchip's ports and an ordinary byte beside a hotspot; the strobes' and the other
TIA locals its clauses name. -/
theorem witness_poke :
    [(0x0080#16, Area.ram), (0xFFF7#16, .cart), (0x1000#16, .cart), (0x0001#16, .tia), (0x001B#16, .tia), (0x001C#16, .tia),
      (0x002D#16, .tia), (0x0280#16, .riot)].all (fun r => decide (areaOf (addr13 r.1) = r.2)) = true ∧
    (under .f8 8192).cart.isHotspot ((0xFFF7#16).toNat % 4096) = false ∧
    (under .f8sc 8192).cart.mapper.hasSuperchip = true ∧ (0x10FF#16).toNat % 4096 < 256 ∧ ¬ (0x1100#16).toNat % 4096 < 256 ∧
    MachineInv (under .f8sc 8192) ∧ 0x2D ≤ (0x002D#16).toNat % 64 ∧ (0x001B#16).toNat % 64 = 0x1B := by decide +kernel

/-- RomWritesAreReported: ROM, the superchip's read port, and the write port that is no ROM. -/
theorem witness_rom :
    let intoRom := fun (s : State) (a : Word) =>
      areaOf (addr13 a) = .cart ∧ ¬ (s.cart.mapper.hasSuperchip = true ∧ a.toNat % 4096 < 128)
    intoRom atNop 0xF000 ∧ intoRom (under .f8sc 8192) 0x1080 ∧ ¬ intoRom (under .f8sc 8192) 0x107F ∧ ¬ intoRom atNop 0x0080 := by
  decide +kernel

/-- FSeriesBanksSwitchAtHotspots: each mapper, at the first and last hotspot and beside them; a superchip's lowest ROM local. -/
theorem witness_fseries : [(Mapper.m2k, 2048), (.m4k, 4096), (.f8, 8192), (.f6, 16384), (.f4, 32768), (.f8sc, 8192), (.f6sc, 16384),
      (.f4sc, 32768)].all (fun r => decide ((under r.1 r.2).cart.mapper = r.1) && r.1.sizeOk r.2) = true ∧
    [0x1100#16, 0x1FF3#16, 0x1FF4#16, 0x1FF6#16, 0x1FF8#16, 0x1FF9#16, 0x1FFB#16, 0x1FFC#16].all
      (fun a => decide (areaOf (addr13 a) = .cart ∧ 0x100 ≤ a.toNat % 4096)) = true := by decide +kernel

/-- SlicesAndTigervisionBanks: E0 at its first and last hotspot and beside them; 3F below and at 0x800, and its bank write at
0x003F, at 0x0040 and from another mapper. -/
theorem witness_slices : (under .e0 8192).cart.mapper = .e0 ∧ (under .m3f 8192).cart.mapper = .m3f ∧
    [0x1FDF#16, 0x1FE0#16, 0x1FE8#16, 0x1FF0#16, 0x1FF7#16, 0x1FF8#16, 0x17FF#16, 0x1800#16].all
      (fun a => decide (areaOf (addr13 a) = .cart)) = true ∧
    (0x17FF#16).toNat % 4096 < 2048 ∧ ¬ (0x1800#16).toNat % 4096 < 2048 ∧
    [0x0000#16, 0x003F#16, 0x0040#16].all (fun a => decide (areaOf (addr13 a) ≠ .cart)) = true ∧
    (0x003F#16).toNat % 8192 < 64 ∧ ¬ (0x0040#16).toNat % 8192 < 64 ∧ atNop.cart.mapper ≠ .m3f := by decide +kernel

/-- SuperchipPorts: both ends of the write port and of the read port. -/
theorem witness_superchip : (under .f8sc 8192).cart.mapper.hasSuperchip = true ∧ (under .f8sc 8192).cart.scRam.wf 128 = true ∧
    [0x1000#16, 0x107F#16].all (fun a => decide (areaOf (addr13 a) = .cart ∧ a.toNat % 4096 < 128)) = true ∧
    [0x1080#16, 0x10FF#16].all
      (fun a => decide (areaOf (addr13 a) = .cart ∧ 128 ≤ a.toNat % 4096 ∧ a.toNat % 4096 < 256)) = true := by decide +kernel

/-- OperandsComeFromEffectiveAddress: every mode reaches RAM, with a zero-page sum that wraps and pointers into RAM. -/
theorem witness_operands : let x : Byte := 0x90
    let isRam := fun (a : Word) => areaOf (addr13 a) = .ram
    let zp := fun (k : Byte) => (k.setWidth 16 : Word)
    let s := start [] [(0x80, 0x90), (0x81, 0x00), (0xF0, 0x90), (0xF1, 0x00)] (fun c => { c with x := x, y := 0x02 })
    let ptr := fun (k : Byte) => (s.ram.read ((zp (k + 1)).toNat % 128) ++ s.ram.read ((zp k).toNat % 128) : Word)
    isRam (zp 0xF0) ∧ isRam (zp (0xF0 + x)) ∧ isRam (zp (0xF0 + 0x02)) ∧ isRam 0x0180 ∧ isRam (0x00F0 + x.setWidth 16) ∧
    isRam (0x00F0 + 0x02) ∧ isRam (zp (0xF0 + x + 1)) ∧ isRam (ptr (0xF0 + x)) ∧ isRam (zp (0xF0 + 1)) ∧ isRam (ptr 0xF0 + 0x02) := by
  decide +kernel

/-- PushesAndPulls, SubroutineCallAndReturn, BrkAndRti, and the store clause of the storing and modifying forms. -/
theorem witness_store : atNop.ram.wf 128 = true ∧ storesRam (0x0100#16 + atNop.cpu.sp.setWidth 16) 127 ∧ storesRam 0x0080 0 :=
  ⟨by decide +kernel, ⟨by decide +kernel, by decide +kernel⟩, ⟨by decide +kernel, by decide +kernel⟩⟩

/-- The conditions of the frame's clauses. -/
theorem witness_frame : switchesOnAccess atNop.cart.mapper = false ∧ switchesOnAccess (under .m3f 8192).cart.mapper = false ∧
    atNop.tia.futures = [] ∧ atNop.tia.resmp0 = false ∧ atNop.tia.resmp1 = false ∧ areaOf (addr13 0x0080) ≠ .tia ∧
    areaOf (addr13 0x0080) ≠ .riot ∧ 0x40 ≤ (addr13 0x0080).toNat := by decide +kernel

/-- BinaryAddAndSubtract, DecimalAddAndSubtract. -/
theorem witness_decimal : atNop.cpu.p.d = false ∧ { atNop.cpu.p with d := true }.d = true := by decide +kernel

/-- BranchesFollowCondition: a condition that holds and one that fails, in the page and across it. -/
theorem witness_branch : let p := atNop.cpu.p
    (!p.c) = true ∧ p.c = false ∧ (0xF002#16 + (0x10#8).signExtend 16).toNat / 256 = (0xF002#16).toNat / 256 ∧
    (0xF002#16 + (0x80#8).signExtend 16).toNat / 256 ≠ (0xF002#16).toNat / 256 := by decide +kernel

/-- WsyncHoldEnds. -/
theorem witness_wsync : let s := { atNop with tia := { atNop.tia with wsync := true } }
    s.tia.wsync = true ∧ s.tia.futures = [] ∧ atNop.tia.wsync = false := by decide +kernel

/-- LatchedRegistersStore, StrobesScheduleTheirAction: every write local and both RSYNC models. -/
theorem witness_writes : (List.range 64).all (fun k => decide (areaOf (addr13 (BitVec.ofNat 16 k)) = .tia) &&
      decide ((BitVec.ofNat 16 k).toNat % 64 = k)) = true ∧
    atNop.params.delayPf = 0 ∧ atNop.params.delayGrp = 0 ∧ atNop.params.delayOther = 0 ∧
    atNop.params.rsyncModel = .restartLine ∧ { Params.default with rsyncModel := .refuse }.rsyncModel = .refuse := by decide +kernel

/-- LatchedRegistersStore: a store with a delay. -/
theorem witness_delayed_store : let p := { Params.default with delayPf := 1 }
    p.delayPf = 0 + 1 ∧ (0x000D#16).toNat % 64 = 0x0D ∧ areaOf (addr13 0x000D) = .tia ∧ 0x2D ≤ (0x003F#16).toNat % 64 ∧
    areaOf (addr13 0x003F) = .tia := by decide +kernel

/-- FuturesFireInOrder: a tick that starts a line and one that does not; the two clocks of an audio sample and one beside them. -/
theorem witness_tick :
    (advanceClock Params.default { Tia.powerOn with hclock := 227 }).hclock = 0 ∧
    (advanceClock Params.default { Tia.powerOn with hclock := 226 }).hclock ≠ 0 ∧
    Params.default.audioPhase.val + 114 < 228 ∧ Params.default.audioPhase.val + 1 ≠ Params.default.audioPhase.val + 114 := by
  decide +kernel

/-- InputsDrivePinsAndButtonLatches: no VBLANK store is pending, though another store is. -/
theorem witness_no_vblank_store : let s := { atNop with tia := { atNop.tia with
      futures := [{ remaining := 1, action := .store .pf1 0x01 }] } }
    ∀ f ∈ s.tia.futures, ∀ v, f.action ≠ .store .vblank v := by
  intro s f hf v
  simp only [s, List.mem_singleton] at hf
  subst hf
  exact nofun

/-- RunEndsAtJumpToSelf: a running state at a `JMP *` and its step; a launch that loads and one that does not. -/
theorem witness_run : let s := start [0x4C, 0x00, 0xF0] [] id
    Running s ∧ fetchInstr s = (some (.jmpAbs 0xF000), (fetchInstr s).2) ∧ (∃ t, step s = .next t) ∧
    ∃ e, load { image := [], mapper := .m4k, params := Params.default, maxSteps := 1 } = .error e :=
  ⟨by decide +kernel, Prod.ext (by decide +kernel) rfl, some_next (by decide +kernel), ⟨_, rfl⟩⟩

/-- InstructionIsItsCycles: a running state; a renderer that ends the step and one that does not (`test_renderer_error`,
`test_step_quanta`). -/
theorem witness_running : Running atNop ∧ ∃ n, 0 < n ∧ (Nat.repeat Suspended.advance n (Suspended.start atNop)).atBoundary = true :=
  ⟨by decide +kernel, 8, by decide, by decide +kernel⟩

/-- FuturesFireInOrder. -/
theorem witness_futures : let s := { atNop with tia := { atNop.tia with
      futures := [{ remaining := 1, action := .store .pf1 0x01 }, { remaining := 1, action := .store .pf1 0x02 }] } }
    ∀ f ∈ s.tia.futures, 0 < f.remaining := by decide +kernel

/-- PositionResetsPlaceTheObject, HmoveMovesObjects, LatchedRegistersStore: both sides of clock 68 and of the window,
    the last busy clock and none. -/
theorem witness_positions : (atClock 67 none).tia.hclock.val < 68 ∧ ¬ (atClock 68 none).tia.hclock.val < 68 ∧
    (∃ k, (atClock 0 (some 72)).tia.hmoveAge = some k ∧ k ≤ (atClock 0 (some 72)).params.hmoveBusy) ∧
    (¬ ∃ k, (atClock 0 none).tia.hmoveAge = some k ∧ k ≤ (atClock 0 none).params.hmoveBusy) ∧
    (atClock 10 none).tia.hclock.val ≤ (atClock 10 none).params.hmoveFullLast ∧
    (atClock 11 none).params.hmoveFullLast < (atClock 11 none).tia.hclock.val := by
  refine ⟨by decide +kernel, by decide +kernel, ⟨72, rfl, by decide +kernel⟩, ?_, by decide +kernel, by decide +kernel⟩
  rintro ⟨k, h, -⟩
  cases h

/-- PriorityColourAndCollisions: HBLANK, the comb, and a visible clock with and without VBLANK, with and without an overlap of
playfield and ball, and with collisions off under VBLANK. -/
theorem witness_picture :
    let blank := fun (t : Tia) => t.hclock.val < 68 ∨ (t.hmoveLine = true ∧ t.hclock.val < 76)
    let both := { Tia.powerOn with hclock := 68, pf0 := 0x1, blNew := true }
    blank { Tia.powerOn with hclock := 67 } ∧ blank { Tia.powerOn with hclock := 75, hmoveLine := true } ∧
    ¬ blank { Tia.powerOn with hclock := 76, hmoveLine := true } ∧ ¬ blank both ∧ both.vblank = false ∧
    (pixelBits both (visibleX both)).pf = true ∧ (pixelBits both (visibleX both)).bl = true ∧
    (let b := pixelBits Tia.powerOn 0
     (b.pf && b.bl && true) = false) ∧
    ¬ blank { Tia.powerOn with hclock := 68, vblank := true } ∧
    { Params.default with collisionsInVblank := false }.collisionsInVblank = false := by decide +kernel

/-- TelevisionFollowsTheBeam: the machine after reset is aligned, and so is one in the middle of HSYNC. -/
theorem witness_aligned :
    let aligned := fun (s : State) =>
      s.tv.horizontal = (s.tia.hclock.val : Int) - 68 ∧
      s.tv.prev.hsync = (decide (16 ≤ s.tia.hclock.val) && decide (s.tia.hclock.val < 32)) ∧
      s.tv.prev.cburst = (decide (32 ≤ s.tia.hclock.val) && decide (s.tia.hclock.val < 48))
    aligned State.reset ∧ aligned { atClock 31 none with tv :=
      { Tv.powerOn .ntsc with horizontal := -37, prev := { Attrs.off with hsync := true } } } ∧
    State.reset.params.cburstOnLo ≤ -36 ∧ -36 ≤ State.reset.params.cburstOnHi ∧ State.reset.params.cburstOffLo ≤ -20 ∧
    -20 ≤ State.reset.params.cburstOffHi ∧ (∀ f ∈ State.reset.tia.futures, f.action ≠ .rsync) := by decide +kernel

/-- VsyncCommitsFrame, LinesAndPixelsReachRenderer: a falling edge at 2 and at 3 counted signals, a visible and an invisible
position, a line started by FRONTPORCH and by the wrap. -/
theorem witness_tv :
    let falls := fun (a : Attrs) (tv : Tv) => a.vsync = false ∧ tv.prev.vsync = true
    let tv := fun (n : Nat) => { Tv.powerOn .ntsc with vsyncCount := n, prev := { Attrs.off with vsync := true } }
    falls Attrs.off (tv 3) ∧ 3 ≤ (tv 3).vsyncCount ∧ falls Attrs.off (tv 2) ∧ ¬ 3 ≤ (tv 2).vsyncCount ∧ Params.default.vsyncClocks = 3 ∧
    0 ≤ (tvSignal Params.default Attrs.off { tv 3 with horizontal := -1 }).tv.horizontal ∧ Attrs.off.vblank = false ∧
    ¬ 0 ≤ (tvSignal Params.default Attrs.off { tv 3 with horizontal := -2 }).tv.horizontal ∧
    { Attrs.off with frontporch := true }.frontporch = true ∧ 159 ≤ { tv 3 with horizontal := 159 }.horizontal := by decide +kernel

/-- OutOfSpecIsStickyAndLogged. -/
theorem witness_out_of_spec : let s := { atNop with tv := { atNop.tv with outOfSpec := true } }
    s.tv.outOfSpec = true ∧ ∃ t, step s = .next t := ⟨by decide +kernel, some_next (by decide +kernel)⟩

/-- TimerCountsDown: with v = 2 and n = 64, the tick before and after each bound. -/
theorem witness_timer : let n := 64
    let v := (0x02#8).toNat
    (1 ≤ 1 ∧ (1 - 1) / n < v) ∧ (1 ≤ 128 ∧ (128 - 1) / n < v) ∧ ¬ (129 - 1) / n < v ∧ 129 = n * v + 1 + 0 ∧ 63 < n ∧ ¬ 64 < n := by
  decide

/-- RiotPortsAndFlags: every RIOT local. -/
theorem witness_riot : (List.range 32).all (fun k => decide (areaOf (addr13 (BitVec.ofNat 16 (0x280 + k))) = .riot) &&
      decide ((BitVec.ofNat 16 (0x280 + k)).toNat % 32 = k)) = true ∧ atNop.params.riotWritePhase = .decrementFirst ∧
    (4 ≤ 15 % 8 ∧ 15 < 16) ∧ (4 ≤ 20 % 8 ∧ 16 ≤ 20) := by decide +kernel

/-- The machine after reset meets the invariant and can take a step. -/
theorem witness_reset : MachineInv State.reset ∧ Running State.reset := by decide +kernel

end Sys2Proof.Tests
end

/-! Which of the registers A, X, Y and S an instruction writes (10_state R31 to R34): the CPU after each shared operation of
the meanings, and from it the CPU after every instruction. -/

namespace Sys2Proof.Machine

/-! ### The CPU after an operand's cycles -/

@[simp] theorem readZp_cpu (a : Byte) (s : State) : (readZp a s).2.cpu = s.cpu := (readZp_seq a s).cpu
@[simp] theorem readZpx_cpu (a : Byte) (s : State) : (readZpx a s).2.cpu = s.cpu := (readZpx_seq a s).cpu
@[simp] theorem readZpy_cpu (a : Byte) (s : State) : (readZpy a s).2.cpu = s.cpu := (readZpy_seq a s).cpu
@[simp] theorem readAbs_cpu (w : Word) (s : State) : (readAbs w s).2.cpu = s.cpu := (readAbs_seq w s).cpu
@[simp] theorem readAbsx_cpu (w : Word) (s : State) : (readAbsx w s).2.cpu = s.cpu := (readAbsx_seq w s).cpu
@[simp] theorem readAbsy_cpu (w : Word) (s : State) : (readAbsy w s).2.cpu = s.cpu := (readAbsy_seq w s).cpu
@[simp] theorem readIndx_cpu (p : Byte) (s : State) : (readIndx p s).2.cpu = s.cpu := (readIndx_seq p s).cpu
@[simp] theorem readIndy_cpu (p : Byte) (s : State) : (readIndy p s).2.cpu = s.cpu := (readIndy_seq p s).cpu

@[simp] theorem eaZp_cpu (a : Byte) (s : State) : (eaZp a s).2.cpu = s.cpu := rfl
@[simp] theorem eaZpx_cpu (a : Byte) (s : State) : (eaZpx a s).2.cpu = s.cpu := (eaZpIndexed_seq a _ s).cpu
@[simp] theorem eaZpy_cpu (a : Byte) (s : State) : (eaZpy a s).2.cpu = s.cpu := (eaZpIndexed_seq a _ s).cpu
@[simp] theorem eaAbs_cpu (w : Word) (s : State) : (eaAbs w s).2.cpu = s.cpu := rfl
@[simp] theorem eaAbsx_cpu (w : Word) (s : State) : (eaAbsx w s).2.cpu = s.cpu := (eaFixed_seq w _ s).cpu
@[simp] theorem eaAbsy_cpu (w : Word) (s : State) : (eaAbsy w s).2.cpu = s.cpu := (eaFixed_seq w _ s).cpu
@[simp] theorem eaIndx_cpu (p : Byte) (s : State) : (eaIndx p s).2.cpu = s.cpu := (eaIndx_seq p s).cpu
@[simp] theorem eaIndy_cpu (p : Byte) (s : State) : (eaIndy p s).2.cpu = s.cpu := (eaIndy_seq p s).cpu

/-! ### The CPU after an operation

Each operation's registers and flags from those of the state it starts from, `c`. -/

section Operations

variable {c : Cpu} {r : Byte × State} {ea : Word × State} {s : State}

theorem State.setS_cpu (h : s.cpu = c) (v : Byte) : (s.setS v).cpu = { c with sp := v } := h ▸ rfl

theorem loadA_cpu (h : r.2.cpu = c) : (loadA r).cpu = { c with a := r.1, p := c.p.setNZ r.1 } := h ▸ rfl
theorem loadX_cpu (h : r.2.cpu = c) : (loadX r).cpu = { c with x := r.1, p := c.p.setNZ r.1 } := h ▸ rfl
theorem loadY_cpu (h : r.2.cpu = c) : (loadY r).cpu = { c with y := r.1, p := c.p.setNZ r.1 } := h ▸ rfl

theorem addOperand_cpu (h : r.2.cpu = c) :
    (addOperand r).cpu = { c with a := (adc c.a r.1 c.p).a, p := (adc c.a r.1 c.p).p } := h ▸ rfl

theorem subOperand_cpu (h : r.2.cpu = c) :
    (subOperand r).cpu = { c with a := (sbc c.a r.1 c.p).a, p := (sbc c.a r.1 c.p).p } := h ▸ rfl

theorem combineA_cpu (h : r.2.cpu = c) (f : Byte → Byte → Byte) :
    (combineA f r).cpu = { c with a := f c.a r.1, p := c.p.setNZ (f c.a r.1) } := h ▸ rfl

theorem testOperand_cpu (h : r.2.cpu = c) : (testOperand r).cpu = { c with p := bitFlags c.a r.1 c.p } := h ▸ rfl

theorem compareOperand_cpu (h : r.2.cpu = c) (v : Byte) :
    (compareOperand v r).cpu = { c with p := compareFlags v r.1 c.p } := h ▸ rfl

theorem storeAt_cpu (h : ea.2.cpu = c) (v : Byte) : (storeAt v ea).cpu = c := (memWrite_cpu _ _ _).trans h

theorem modifyAt_cpu (h : ea.2.cpu = c) (f : Byte → Flags → ShiftResult) :
    (modifyAt f ea).cpu = { c with p := (f (memRead ea.1 ea.2).1 c.p).p } := by
  simp [modifyAt, State.setP, h]

theorem modifyA_cpu (f : Byte → Flags → ShiftResult) (s : State) :
    (modifyA f s).cpu = { s.cpu with a := (f s.cpu.a s.cpu.p).value, p := (f s.cpu.a s.cpu.p).p } := by
  simp [modifyA, State.setA, State.setP]

theorem transferA_cpu (v : Byte) (s : State) : (transferA v s).cpu = { s.cpu with a := v, p := s.cpu.p.setNZ v } := by
  simp [transferA, State.setA, State.setNZ, State.setP]

theorem transferX_cpu (v : Byte) (s : State) : (transferX v s).cpu = { s.cpu with x := v, p := s.cpu.p.setNZ v } := by
  simp [transferX, State.setX, State.setNZ, State.setP]

theorem transferY_cpu (v : Byte) (s : State) : (transferY v s).cpu = { s.cpu with y := v, p := s.cpu.p.setNZ v } := by
  simp [transferY, State.setY, State.setNZ, State.setP]

theorem countX_cpu (v : Byte) (s : State) : (countX v s).cpu = { s.cpu with x := v, p := s.cpu.p.setNZ v } :=
  transferX_cpu v s

theorem countY_cpu (v : Byte) (s : State) : (countY v s).cpu = { s.cpu with y := v, p := s.cpu.p.setNZ v } :=
  transferY_cpu v s

theorem setFlag_cpu (f : Flags → Flags) (s : State) : (setFlag f s).cpu = { s.cpu with p := f s.cpu.p } := by
  simp [setFlag, State.setP]

/-! #### The stack -/

theorem push_dummyReadPC_cpu (v : Byte) (s : State) :
    (push v (dummyReadPC s)).cpu = { s.cpu with sp := s.cpu.sp - 1 } := by simp

theorem pullA_cpu (s : State) : (pullA s).cpu =
    let v := (pull (dummyReadStack (dummyReadPC s))).1
    { s.cpu with a := v, sp := s.cpu.sp + 1, p := s.cpu.p.setNZ v } := by
  simp [pullA, State.setA, State.setNZ, State.setP]

theorem pullP_cpu (s : State) : (pullP s).cpu =
    { s.cpu with sp := s.cpu.sp + 1, p := Flags.ofByte (pull (dummyReadStack (dummyReadPC s))).1 } := by
  simp [pullP, State.setP]

/-! #### Control: PC apart, which is left as the operation makes it -/

theorem branchIf_cpu (b : Bool) (off : Byte) (s : State) :
    (branchIf b off s).cpu = { s.cpu with pc := (branchIf b off s).cpu.pc } := by
  unfold branchIf
  split
  · dsimp only
    split <;> simp [State.setPC]
  · rfl

theorem jumpIndirect_cpu (w : Word) (s : State) :
    (jumpIndirect w s).cpu = { s.cpu with pc := (jumpIndirect w s).cpu.pc } := by
  unfold jumpIndirect
  dsimp only
  split <;> simp [State.setPC]

theorem callSubroutine_cpu (l : Byte) (s : State) : (callSubroutine l s).cpu =
    { s.cpu with sp := s.cpu.sp - 1 - 1, pc := (callSubroutine l s).cpu.pc } := by
  simp [callSubroutine, State.setPC]

theorem returnSubroutine_cpu (s : State) : (returnSubroutine s).cpu =
    { s.cpu with sp := s.cpu.sp + 1 + 1, pc := (returnSubroutine s).cpu.pc } := by
  simp [returnSubroutine, State.setPC]

theorem skipPadding_cpu (s : State) : (skipPadding s).cpu = { s.cpu with pc := s.cpu.pc + 1 } := by
  simp [skipPadding, State.setPC]

theorem takeTrap_cpu (h : s.cpu = c) : (takeTrap s).cpu =
    { c with sp := c.sp - 1 - 1 - 1, pc := (takeTrap s).cpu.pc, p := { c.p with i := true } } := by
  simp [takeTrap, State.setPC, State.setP, h]

theorem takeTrap_skipPadding_cpu (s : State) : (takeTrap (skipPadding s)).cpu =
    { s.cpu with sp := s.cpu.sp - 1 - 1 - 1, pc := (takeTrap (skipPadding s)).cpu.pc, p := { s.cpu.p with i := true } } :=
  takeTrap_cpu (c := { s.cpu with pc := s.cpu.pc + 1 }) (skipPadding_cpu s)

theorem returnFromTrap_cpu (h : s.cpu = c) : (returnFromTrap s).cpu =
    { c with sp := c.sp + 1 + 1 + 1, pc := (returnFromTrap s).cpu.pc, p := Flags.ofByte (pull (dummyReadStack s)).1 } := by
  simp [returnFromTrap, State.setPC, State.setP, h]

end Operations

/-! ### The registers an instruction writes -/

/-- A set of the registers A, X, Y and S. -/
structure RegisterSet where
  a : Bool
  x : Bool
  y : Bool
  sp : Bool

/-- The registers outside a set are the same. -/
structure SameRegistersOutside (w : RegisterSet) (c d : Cpu) : Prop where
  a : w.a = false → d.a = c.a
  x : w.x = false → d.x = c.x
  y : w.y = false → d.y = c.y
  sp : w.sp = false → d.sp = c.sp

/-- The registers an instruction is listed as writing, with its mnemonic (10_state R31 to R34). -/
def registersWritten (m : Mnemonic) (i : Instr) : RegisterSet where
  a := decide (m ∈ [.lda, .txa, .tya, .pla, .adc, .sbc, .and, .ora, .eor] ∨ i ∈ [.aslAcc, .lsrAcc, .rolAcc, .rorAcc])
  x := decide (m ∈ [.ldx, .tax, .tsx, .inx, .dex])
  y := decide (m ∈ [.ldy, .tay, .iny, .dey])
  sp := decide (m ∈ [.txs, .pha, .php, .pla, .plp, .jsr, .rts, .rti, .brk])

namespace SameRegistersOutside

variable {w : RegisterSet} {c d : Cpu} {a x y sp : Byte} {pc : Word} {p : Flags} {s t u : State}

theorem of_next (h : Host.Outcome.next u = (.next t : Host.Outcome State Fault Refusal))
    (k : SameRegistersOutside w c u.cpu) : SameRegistersOutside w c t.cpu := Host.Outcome.next.inj h ▸ k

theorem of_eq (h : d = c) : SameRegistersOutside w c d := h ▸ ⟨fun _ => rfl, fun _ => rfl, fun _ => rfl, fun _ => rfl⟩

theorem of_a (h : d = { c with a := a, pc := pc, p := p }) : SameRegistersOutside ⟨true, false, false, false⟩ c d :=
  h ▸ ⟨nofun, fun _ => rfl, fun _ => rfl, fun _ => rfl⟩

theorem of_x (h : d = { c with x := x, pc := pc, p := p }) : SameRegistersOutside ⟨false, true, false, false⟩ c d :=
  h ▸ ⟨fun _ => rfl, nofun, fun _ => rfl, fun _ => rfl⟩

theorem of_y (h : d = { c with y := y, pc := pc, p := p }) : SameRegistersOutside ⟨false, false, true, false⟩ c d :=
  h ▸ ⟨fun _ => rfl, fun _ => rfl, nofun, fun _ => rfl⟩

theorem of_sp (h : d = { c with sp := sp, pc := pc, p := p }) : SameRegistersOutside ⟨false, false, false, true⟩ c d :=
  h ▸ ⟨fun _ => rfl, fun _ => rfl, fun _ => rfl, nofun⟩

theorem of_a_sp (h : d = { c with a := a, sp := sp, pc := pc, p := p }) :
    SameRegistersOutside ⟨true, false, false, true⟩ c d :=
  h ▸ ⟨nofun, fun _ => rfl, fun _ => rfl, nofun⟩

theorem of_none (h : d = { c with pc := pc, p := p }) : SameRegistersOutside ⟨false, false, false, false⟩ c d :=
  h ▸ ⟨fun _ => rfl, fun _ => rfl, fun _ => rfl, fun _ => rfl⟩

end SameRegistersOutside

/-- Every instruction keeps the registers it is not listed as writing: one case per operation its meaning calls. -/
theorem exec_registers {i : Instr} {s t : State} (h : exec i s = .next t) :
    ∃ m, mnemonicOf i = some m ∧ SameRegistersOutside (registersWritten m i) s.cpu t.cpu := by
  cases i with
  | ldaIndx | ldaZp | ldaImm | ldaAbs | ldaIndy | ldaZpx | ldaAbsy | ldaAbsx =>
    exact ⟨_, rfl, .of_next h (.of_a (loadA_cpu (by simp)))⟩
  | adcIndx | adcZp | adcImm | adcAbs | adcIndy | adcZpx | adcAbsy | adcAbsx =>
    exact ⟨_, rfl, .of_next h (.of_a (addOperand_cpu (by simp)))⟩
  | sbcIndx | sbcZp | sbcImm | sbcAbs | sbcIndy | sbcZpx | sbcAbsy | sbcAbsx =>
    exact ⟨_, rfl, .of_next h (.of_a (subOperand_cpu (by simp)))⟩
  | andIndx | andZp | andImm | andAbs | andIndy | andZpx | andAbsy | andAbsx | oraIndx | oraZp | oraImm | oraAbs
  | oraIndy | oraZpx | oraAbsy | oraAbsx | eorIndx | eorZp | eorImm | eorAbs | eorIndy | eorZpx | eorAbsy | eorAbsx =>
    exact ⟨_, rfl, .of_next h (.of_a (combineA_cpu (by simp) _))⟩
  | aslAcc | lsrAcc | rolAcc | rorAcc => exact ⟨_, rfl, .of_next h (.of_a (modifyA_cpu _ s))⟩
  | txa | tya => exact ⟨_, rfl, .of_next h (.of_a (transferA_cpu _ s))⟩
  | pla => exact ⟨_, rfl, .of_next h (.of_a_sp (pullA_cpu s))⟩
  | ldxImm | ldxZp | ldxAbs | ldxZpy | ldxAbsy => exact ⟨_, rfl, .of_next h (.of_x (loadX_cpu (by simp)))⟩
  | tax | tsx => exact ⟨_, rfl, .of_next h (.of_x (transferX_cpu _ s))⟩
  | inx | dex => exact ⟨_, rfl, .of_next h (.of_x (countX_cpu _ s))⟩
  | ldyImm | ldyZp | ldyAbs | ldyZpx | ldyAbsx => exact ⟨_, rfl, .of_next h (.of_y (loadY_cpu (by simp)))⟩
  | tay => exact ⟨_, rfl, .of_next h (.of_y (transferY_cpu _ s))⟩
  | iny | dey => exact ⟨_, rfl, .of_next h (.of_y (countY_cpu _ s))⟩
  | txs => exact ⟨_, rfl, .of_next h (.of_sp (State.setS_cpu (dummyReadPC_cpu s) _))⟩
  | pha | php => exact ⟨_, rfl, .of_next h (.of_sp (push_dummyReadPC_cpu _ s))⟩
  | plp => exact ⟨_, rfl, .of_next h (.of_sp (pullP_cpu s))⟩
  | jsr => exact ⟨_, rfl, .of_next h (.of_sp (callSubroutine_cpu _ s))⟩
  | rts => exact ⟨_, rfl, .of_next h (.of_sp (returnSubroutine_cpu s))⟩
  | brk => exact ⟨_, rfl, .of_next h (.of_sp (takeTrap_skipPadding_cpu s))⟩
  | rti => exact ⟨_, rfl, .of_next h (.of_sp (returnFromTrap_cpu (dummyReadPC_cpu s)))⟩
  | staIndx | staZp | staAbs | staIndy | staZpx | staAbsy | staAbsx | stxZp | stxAbs | stxZpy | styZp | styAbs
  | styZpx =>
    exact ⟨_, rfl, .of_next h (.of_eq (storeAt_cpu (by simp) _))⟩
  | cmpIndx | cmpZp | cmpImm | cmpAbs | cmpIndy | cmpZpx | cmpAbsy | cmpAbsx | cpxImm | cpxZp | cpxAbs | cpyImm
  | cpyZp | cpyAbs =>
    exact ⟨_, rfl, .of_next h (.of_none (compareOperand_cpu (by simp) _))⟩
  | bitZp | bitAbs => exact ⟨_, rfl, .of_next h (.of_none (testOperand_cpu (by simp)))⟩
  | incZp | incAbs | incZpx | incAbsx | decZp | decAbs | decZpx | decAbsx | aslZp | aslAbs | aslZpx | aslAbsx | lsrZp
  | lsrAbs | lsrZpx | lsrAbsx | rolZp | rolAbs | rolZpx | rolAbsx | rorZp | rorAbs | rorZpx | rorAbsx =>
    exact ⟨_, rfl, .of_next h (.of_none (modifyAt_cpu (by simp) _))⟩
  | clc | cld | cli | clv | sec | sed | sei => exact ⟨_, rfl, .of_next h (.of_none (setFlag_cpu _ s))⟩
  | nop => exact ⟨_, rfl, .of_next h (.of_eq (dummyReadPC_cpu s))⟩
  | bcc | bcs | beq | bmi | bne | bpl | bvc | bvs => exact ⟨_, rfl, .of_next h (.of_none (branchIf_cpu _ _ s))⟩
  | jmpAbs => exact ⟨_, rfl, .of_next h (.of_none (c := s.cpu) rfl)⟩
  | jmpInd => exact ⟨_, rfl, .of_next h (.of_none (jumpIndirect_cpu _ s))⟩

/-! ### The statements about the state (10_state) -/

/-- Settles O16: an instruction keeps the registers outside the set `registersWritten` makes of the four lists. -/
theorem registersChangeOnlyAsListed : Obligations.RegistersChangeOnlyAsListed := by
  intro i m s t hm h
  obtain ⟨m', hm', k⟩ := exec_registers h
  obtain rfl : m' = m := Option.some.inj (hm'.symm.trans hm)
  exact ⟨fun ha hi => k.a (decide_eq_false (not_or.2 ⟨ha, hi⟩)), fun hx => k.x (decide_eq_false hx),
    fun hy => k.y (decide_eq_false hy), fun hs => k.sp (decide_eq_false hs)⟩

/-- Settles O1: a later reset is the power-on state with another count of free values, which no listed field reads. -/
theorem powerOnState : Obligations.PowerOnState := by
  unfold Obligations.PowerOnState
  intro facts
  have hfacts (cart : Cart) (params : Params) (draws : Nat) :
      facts { State.powerOn cart params with draws := draws } cart params := by
    and_intros <;> rfl
  exact ⟨fun cart params => hfacts cart params 0, fun s => ⟨hfacts _ _ s.draws, rfl, rfl, rfl, rfl, rfl, rfl, rfl⟩⟩

end Sys2Proof.Machine

/-! The bus, the memory map and the cartridge (20_memory), and the TIA's strobes (61_tia): each access in the terms of its area,
then the statements about them. -/

namespace Sys2Proof.Machine

/-! ### The memory map -/

/-- Mirrors are one location: an access differs in the address its trace entry holds. -/
theorem busRead_mirror {a b : Word} (h : a.toNat % 8192 = b.toNat % 8192) (s : State) :
    busRead b s = ((busRead a s).1,
      { (busRead a s).2 with lastAccess := some { address := b, value := (busRead a s).1, isWrite := false } }) := by
  simp only [busRead, addr13_congr h]
  split <;> rfl

theorem busWrite_mirror {a b : Word} (h : a.toNat % 8192 = b.toNat % 8192) (v : Byte) (s : State) :
    busWrite b v s = { busWrite a v s with lastAccess := some { address := b, value := v, isWrite := true } } := by
  simp only [busWrite, addr13_congr h]
  split <;> rfl

/-- The area and the modulus of its local address. -/
theorem mapAddress_of_area {a : Addr13} {area : Area} (h : areaOf a = area) (isRead : Bool) :
    mapAddress a isRead = (area, a.toNat % match area with
      | .cart => 4096
      | .tia => if isRead then 16 else 64
      | .ram => 128
      | .riot => 32) := by
  simp only [mapAddress, readLocal, writeLocal, h]
  cases area <;> cases isRead <;> simp only [if_true, if_false, Bool.false_eq_true]

/-! ### The cartridge -/

theorem Cart.hotspot_fSeries {c : Cart} {n h0 : Nat} (h : c.mapper.fSeries = some (n, h0)) (l : Nat) :
    c.hotspot l = { c with bank := if h0 ≤ l ∧ l < h0 + n then l - h0 else c.bank } := by
  simp only [Cart.hotspot, h]
  split <;> rfl

/-- The hotspots of segments 0, 1 and 2 are three runs of eight locals. -/
theorem Cart.hotspot_e0 {c : Cart} (h : c.mapper = .e0) (l : Nat) : c.hotspot l = { c with
    slice0 := if l / 8 = 0x1FC then Fin.ofNat 8 l else c.slice0
    slice1 := if l / 8 = 0x1FD then Fin.ofNat 8 l else c.slice1
    slice2 := if l / 8 = 0x1FE then Fin.ofNat 8 l else c.slice2 } := by
  have e0 : (0xFE0 ≤ l ∧ l ≤ 0xFE7) ↔ l / 8 = 0x1FC := by omega
  have e1 : (0xFE8 ≤ l ∧ l ≤ 0xFEF) ↔ l / 8 = 0x1FD := by omega
  have e2 : (0xFF0 ≤ l ∧ l ≤ 0xFF7) ↔ l / 8 = 0x1FE := by omega
  simp only [Cart.hotspot, h, Mapper.fSeries, e0, e1, e2]
  obtain k | k | k | ⟨k0, k1, k2⟩ : l / 8 = 0x1FC ∨ l / 8 = 0x1FD ∨ l / 8 = 0x1FE ∨
    l / 8 ≠ 0x1FC ∧ l / 8 ≠ 0x1FD ∧ l / 8 ≠ 0x1FE := by omega
  · simp [k]
  · simp [k]
  · simp [k]
  · simp only [k0, k1, k2, if_false, ← h]

theorem Cart.hotspot_e0_slices {c : Cart} (h : c.mapper = .e0) (l : Nat) :
    ((c.hotspot l).slice0.val = if l / 8 = 0x1FC then l % 8 else c.slice0.val) ∧
    ((c.hotspot l).slice1.val = if l / 8 = 0x1FD then l % 8 else c.slice1.val) ∧
    ((c.hotspot l).slice2.val = if l / 8 = 0x1FE then l % 8 else c.slice2.val) := by
  rw [Cart.hotspot_e0 h]
  exact ⟨apply_ite _ _ _ _, apply_ite _ _ _ _, apply_ite _ _ _ _⟩

theorem Cart.hotspot_of_not_switches {c : Cart} (h : switchesOnAccess c.mapper = false) (l : Nat) : c.hotspot l = c :=
  (Cart.hotspot_kept c l).2.2.2.2 h

/-- Every hotspot is at 0xFE0 or above. -/
theorem Cart.hotspot_of_lt (c : Cart) {l : Nat} (h : l < 0xFE0) : c.hotspot l = c := by
  refine hotspot_of_not ?_
  rw [Cart.isHotspot]
  cases c.mapper <;> simp [Mapper.fSeries] <;> omega

theorem Cart.offset_fSeries {c : Cart} {p : Nat × Nat} (h : c.mapper.fSeries = some p) (l : Nat) :
    c.offset l = c.bank * 4096 + l := by
  rw [Cart.offset]
  cases hm : c.mapper <;> simp [hm, Mapper.fSeries] at h ⊢

theorem Cart.banks_m3f {c : Cart} (h : c.mapper = .m3f) : c.banks = c.size / 2048 := by rw [Cart.banks, h]

theorem Cart.listen_eq (c : Cart) (a : Addr13) (v : Byte) : c.listen a v = { c with
    bank := if c.mapper = .m3f ∧ a.toNat < 64 then v.toNat % (c.size / 2048) else c.bank } := by
  rw [Cart.listen]
  split
  · next hm =>
    rw [Cart.banks_m3f hm]
    by_cases hl : a.toNat < 64
    · rw [if_pos hl, if_pos ⟨hm, hl⟩]
    · rw [if_neg hl, if_neg fun h => hl h.2]
  · next hm => rw [if_neg fun h => hm h.1]

theorem Mapper.hasSuperchip_of_not_switches {m : Mapper} (h : switchesOnAccess m = false) : m.hasSuperchip = false := by
  revert h; cases m <;> decide

theorem Cart.slice_eq_getD (c : Cart) {k : Nat} (h : k < 4) :
    c.slice k = [c.slice0.val, c.slice1.val, c.slice2.val, 7].getD k 0 := by
  match k with
  | 0 | 1 | 2 | 3 => rfl

/-- A byte of the image: one outside the superchip's ports. -/
theorem Cart.byteAt_rom {c : Cart} {l : Nat} (h : ¬ (c.mapper.hasSuperchip = true ∧ l < 256)) :
    c.inWritePort l = false ∧ c.inReadPort l = false ∧ c.byteAt l = c.image.read (c.offset l) := by
  have hw : c.inWritePort l = false := Bool.eq_false_iff.2 fun e => by
    obtain ⟨e1, e2⟩ := (inWritePort_iff c l).1 e
    exact h ⟨e1, by omega⟩
  have hr : c.inReadPort l = false := Bool.eq_false_iff.2 fun e => by
    obtain ⟨e1, -, e2⟩ := (inReadPort_iff c l).1 e
    exact h ⟨e1, e2⟩
  exact ⟨hw, hr, by simp [Cart.byteAt, hw, hr]⟩

/-- A byte of superchip RAM: both ports reach all 128. -/
theorem Cart.byteAt_port {c : Cart} {l : Nat} (h : c.mapper.hasSuperchip = true ∧ l < 256) :
    c.byteAt l = c.scRam.read (l % 128) := by
  obtain ⟨hm, hl⟩ := h
  obtain hw | hr : l < 128 ∨ 128 ≤ l := by omega
  · rw [byteAt, if_pos ((inWritePort_iff c l).2 ⟨hm, hw⟩), Nat.mod_eq_of_lt hw]
  · rw [byteAt, if_neg fun e => absurd ((inWritePort_iff c l).1 e).2 (by omega),
      if_pos ((inReadPort_iff c l).2 ⟨hm, hr, hl⟩), show l % 128 = l - 0x080 by omega]

/-! ### Accesses to the cartridge -/

section Access

variable {a : Word} {s : State} (ha : areaOf (addr13 a) = .cart)
include ha

/-- A read of the image switches at a hotspot first. -/
theorem busRead_rom (h : ¬ (s.cart.mapper.hasSuperchip = true ∧ a.toNat % 4096 < 256)) :
    (busRead a s).1 = s.cart.image.read ((s.cart.hotspot (a.toNat % 4096)).offset (a.toNat % 4096)) ∧
      (busRead a s).2.cart = s.cart.hotspot (a.toNat % 4096) := by
  obtain ⟨hv, hc⟩ := busRead_cart_of_not_port ha (Cart.byteAt_rom h).1
  rw [hv, (Cart.byteAt_rom (c := s.cart.hotspot _) (by rwa [Cart.hotspot_mapper])).2.2, Cart.hotspot_image]
  exact ⟨rfl, hc⟩

/-- A read under a mapper with no hotspot. -/
theorem busRead_rom_of_not_switches (h : switchesOnAccess s.cart.mapper = false) :
    (busRead a s).1 = s.cart.image.read (s.cart.offset (a.toNat % 4096)) ∧ (busRead a s).2.cart = s.cart := by
  have hp := busRead_rom (s := s) ha (by simp [Mapper.hasSuperchip_of_not_switches h])
  rwa [Cart.hotspot_of_not_switches h] at hp

/-- `listen` acts below the cartridge only. -/
theorem busWrite_cart_of_area (v : Byte) :
    (busWrite a v s).cart = s.cart.write s.params.hotspotOnWrite (a.toNat % 4096) v := by
  have h := cart_of_area ha
  rw [busWrite_cart, if_pos ha, writeLocal_cart ha]
  exact (Cart.listen_kept _ _ _).2.2.2.2 fun _ => by rw [addr13_toNat]; omega

theorem busWrite_cart_of_not_writePort (v : Byte) (h : s.cart.inWritePort (a.toNat % 4096) = false) :
    (busWrite a v s).cart = if s.params.hotspotOnWrite then s.cart.hotspot (a.toNat % 4096) else s.cart := by
  simp [busWrite_cart_of_area ha, Cart.write, h]

/-- An F-series cartridge's accesses outside the superchip's ports. -/
theorem fSeries_access {n h0 : Nat} (hf : s.cart.mapper.fSeries = some (n, h0)) (v : Byte)
    (hp : ¬ (s.cart.mapper.hasSuperchip = true ∧ a.toNat % 4096 < 256)) :
    let loc := a.toNat % 4096
    let bank := if h0 ≤ loc ∧ loc < h0 + n then loc - h0 else s.cart.bank
    (busRead a s).1 = s.cart.image.read (bank * 4096 + loc) ∧ (busRead a s).2.cart = { s.cart with bank := bank } ∧
      (busWrite a v s).cart = { s.cart with bank := if s.params.hotspotOnWrite then bank else s.cart.bank } := by
  intro loc bank
  have hh : s.cart.hotspot loc = { s.cart with bank := bank } := Cart.hotspot_fSeries hf loc
  obtain ⟨hv, hc⟩ := busRead_rom ha hp
  refine ⟨?_, hc.trans hh, ?_⟩
  · rw [hv, Cart.offset_fSeries (by rwa [Cart.hotspot_mapper]), hh]
  · rw [busWrite_cart_of_not_writePort ha v (Cart.byteAt_rom hp).1, hh]
    split <;> rfl

end Access

/-! ### A read's side effects -/

/-- The accesses R84 reports: the TIA's locals 0xE and 0xF and the superchip's write port. -/
theorem unreadable_iff (a : Word) (c : Cart) : unreadable (areaOf (addr13 a)) (readLocal (addr13 a)) c = true ↔
    (areaOf (addr13 a) = .tia ∧ 14 ≤ a.toNat % 16) ∨
      (areaOf (addr13 a) = .cart ∧ c.mapper.hasSuperchip = true ∧ a.toNat % 4096 < 128) := by
  cases h : areaOf (addr13 a) with
  | ram | riot => simp [unreadable]
  | tia => simp [unreadable, readLocal_tia h]
  | cart => simp [unreadable, readLocal_cart h, inWritePort_iff]

theorem riotReadReg_of_lt {r : Nat} (h : r % 8 < 4) : riotReadReg r ≠ .intim ∧ riotReadReg r ≠ .timint := by
  have h2 : r.testBit 2 = false := by
    rw [Nat.testBit_eq_decide_div_mod_eq, decide_eq_false_iff_not]; omega
  rw [riotReadReg, if_neg (by simp [h2])]
  split <;> exact ⟨nofun, nofun⟩

theorem busRead_riot_of_not_timer {a : Word} (h : ¬ (areaOf (addr13 a) = .riot ∧ 4 ≤ a.toNat % 8)) (s : State) :
    (busRead a s).2.riot = s.riot := by
  rw [busRead_riot]
  split
  · next ha =>
    have hl : ¬ 4 ≤ a.toNat % 8 := fun e => h ⟨ha, e⟩
    obtain ⟨hi, ht⟩ := riotReadReg_of_lt (r := a.toNat % 32) (by omega)
    rw [readLocal_riot ha]
    split
    · next e => exact absurd e hi
    · next e => exact absurd e ht
    all_goals rfl
  · rfl

theorem busRead_cart_of_no_effect {a : Word} {s : State} (h : ¬ (areaOf (addr13 a) = .cart ∧
      (s.cart.isHotspot (a.toNat % 4096) = true ∨ s.cart.mapper.hasSuperchip = true ∧ a.toNat % 4096 < 128))) :
    (busRead a s).2.cart = s.cart := by
  rw [busRead_cart]
  split
  · next ha =>
    rw [readLocal_cart ha, if_neg fun e => h ⟨ha, .inr ((inWritePort_iff _ _).1 e)⟩]
    exact hotspot_of_not (Bool.eq_false_iff.2 fun e => h ⟨ha, .inl e⟩)
  · rfl

/-- A read that keeps the cartridge and the RIOT changes the trace, the draws and the report log only. -/
theorem busRead_eq_of_kept {a : Word} {s : State} (hc : (busRead a s).2.cart = s.cart) (hr : (busRead a s).2.riot = s.riot) :
    (busRead a s).2 = { s with
      lastAccess := (busRead a s).2.lastAccess, lastAccessId := (busRead a s).2.lastAccessId,
      draws := (busRead a s).2.draws, reports := (busRead a s).2.reports } := by
  obtain ⟨cart, riot, draws, reports, h⟩ := busRead_eq a s
  rw [h] at hc hr ⊢
  subst hc hr
  rfl

/-! ### Strobes -/

theorem tiaWrite_rsync_restartLine (v : Byte) {s : State} (h : s.params.rsyncModel = .restartLine) :
    tiaWrite 0x03 v s = schedule s.params.delayOther .rsync s := by simp only [tiaWrite, tiaWriteReg, h]

theorem tiaWrite_rsync_refuse (v : Byte) {s : State} (h : s.params.rsyncModel = .refuse) :
    tiaWrite 0x03 v s = { s with refusal := some .rsyncRefused } := by simp only [tiaWrite, tiaWriteReg, h]

theorem busWrite_tia_of_local {a : Word} {v : Byte} {s u : State} {k : Nat} (ha : areaOf (addr13 a) = .tia)
    (hk : a.toNat % 64 = k) (hu : tiaWrite k v s = u) :
    (busWrite a v s).tia = u.tia ∧ (busWrite a v s).refusal = u.refusal := by
  obtain ⟨htia, href⟩ := busWrite_tia a v s
  rw [if_pos ha, writeLocal_tia ha, hk, hu] at htia href
  exact ⟨htia, href⟩

/-! ### Peek and Poke -/

/-- The cartridge after a Poke: superchip RAM at its ports, else the image's byte in the bank in force. -/
def Cart.poke (c : Cart) (loc : Nat) (v : Byte) : Cart :=
  if c.inWritePort loc then { c with scRam := c.scRam.write loc v }
  else if c.inReadPort loc then { c with scRam := c.scRam.write (loc - 0x080) v }
  else { c with image := c.image.write (c.offset loc) v }

/-- The RIOT after a Poke: the register's byte alone, and nothing at an edge control. -/
def Riot.poke (r : Riot) (w : RiotWrite) (v : Byte) : Riot :=
  match w with
  | .ora => { r with ora := v }
  | .ddra => { r with ddra := v }
  | .orb => { r with orb := v }
  | .ddrb => { r with ddrb := v }
  | .timer _ => { r with timer := v }
  | .edge _ => r

theorem Memory.read_write_same {size : Nat} {m : Memory} (h : m.wf size = true) (k : Nat) (v : Byte) :
    (m.write k v).read k = v := by rw [Memory.read_write h, if_pos rfl]

namespace Cart

variable {c : Cart} {loc : Nat}

theorem poke_port (h : c.mapper.hasSuperchip = true ∧ loc < 256) (v : Byte) :
    c.poke loc v = { c with scRam := c.scRam.write (loc % 128) v } := by
  obtain ⟨hm, hl⟩ := h
  obtain hw | hr : loc < 128 ∨ 128 ≤ loc := by omega
  · rw [poke, if_pos ((inWritePort_iff c loc).2 ⟨hm, hw⟩), Nat.mod_eq_of_lt hw]
  · rw [poke, if_neg fun e => absurd ((inWritePort_iff c loc).1 e).2 (by omega),
      if_pos ((inReadPort_iff c loc).2 ⟨hm, hr, hl⟩), show loc % 128 = loc - 0x080 by omega]

theorem poke_rom (h : ¬ (c.mapper.hasSuperchip = true ∧ loc < 256)) (v : Byte) :
    c.poke loc v = { c with image := c.image.write (c.offset loc) v } := by
  obtain ⟨hw, hr, -⟩ := byteAt_rom h
  simp [poke, hw, hr]

/-- A Poke changes a byte of the image or of superchip RAM only. -/
theorem poke_eq (c : Cart) (loc : Nat) (v : Byte) :
    c.poke loc v = { c with image := (c.poke loc v).image, scRam := (c.poke loc v).scRam } := by
  by_cases h : c.mapper.hasSuperchip = true ∧ loc < 256
  · rw [poke_port h]
  · rw [poke_rom h]

theorem byteAt_poke (h : c.wf = true) (loc : Nat) (v : Byte) : (c.poke loc v).byteAt loc = v := by
  obtain ⟨-, -, hi, hs⟩ := (wf_iff c).1 h
  by_cases hp : c.mapper.hasSuperchip = true ∧ loc < 256
  · rw [poke_port hp]
    exact (byteAt_port (c := { c with scRam := c.scRam.write (loc % 128) v }) hp).trans (Memory.read_write_same hs _ v)
  · rw [poke_rom hp]
    exact (byteAt_rom (c := { c with image := c.image.write (c.offset loc) v }) hp).2.2.trans
      (Memory.read_write_same hi _ v)

theorem poke_image_read (c : Cart) (loc : Nat) (v : Byte) (k : Nat) :
    ¬ (c.mapper.hasSuperchip = true ∧ loc < 256) ∧ k = c.offset loc ∨ (c.poke loc v).image.read k = c.image.read k := by
  by_cases hp : c.mapper.hasSuperchip = true ∧ loc < 256
  · exact .inr (by rw [poke_port hp])
  · by_cases hk : k = c.offset loc
    · exact .inl ⟨hp, hk⟩
    · rw [poke_rom hp]
      exact .inr (Memory.read_write_ne _ v (Ne.symm hk))

theorem poke_scRam_read (c : Cart) (loc : Nat) (v : Byte) (k : Nat) :
    (c.mapper.hasSuperchip = true ∧ loc < 256) ∧ k = loc % 128 ∨ (c.poke loc v).scRam.read k = c.scRam.read k := by
  by_cases hp : c.mapper.hasSuperchip = true ∧ loc < 256
  · by_cases hk : k = loc % 128
    · exact .inl ⟨hp, hk⟩
    · rw [poke_port hp]
      exact .inr (Memory.read_write_ne _ v (Ne.symm hk))
  · exact .inr (by rw [poke_rom hp])

/-- The bytes one bank, or one E0 slice, serves (20_memory R101 to R109). -/
def bankSize (c : Cart) : Nat :=
  match c.mapper with
  | .m2k | .m3f => 2048
  | .e0 => 1024
  | _ => 4096

/-- `GetBank` names the bank that the byte of a local lies in. -/
theorem offset_eq_getBank (c : Cart) (h : loc < 4096) : c.offset loc = c.getBank loc * c.bankSize + loc % c.bankSize := by
  rw [offset, getBank, bankSize]
  cases c.mapper with
  | m2k | e0 => simp
  | m4k | f8 | f8sc | f6 | f6sc | f4 | f4sc => simp [Nat.mod_eq_of_lt h]
  | m3f => dsimp only; split <;> omega

end Cart

theorem pokeLatch_kept (t : Tia) (r : TiaLatch) (v : Byte) :
    (pokeLatch t r v).futures = t.futures ∧ (pokeLatch t r v).wsync = t.wsync ∧ (pokeLatch t r v).pos = t.pos ∧
      (pokeLatch t r v).collisions = t.collisions := by
  cases r <;> exact ⟨rfl, rfl, rfl, rfl⟩

theorem Riot.poke_kept (r : Riot) (w : RiotWrite) (v : Byte) :
    (r.poke w v).tf = r.tf ∧ (r.poke w v).interval = r.interval ∧ (r.poke w v).prescale = r.prescale ∧
      (r.poke w v).pf7 = r.pf7 ∧ (r.poke w v).edgePos = r.edgePos := by
  cases w <;> exact ⟨rfl, rfl, rfl, rfl, rfl⟩

theorem tiaWriteReg_of_ge : ∀ loc < 64, 0x2D ≤ loc → tiaWriteReg loc = none := by decide

/-- The strobes and the locals of no register. -/
theorem tiaWriteReg_ne_latch {loc : Nat} (hlt : loc < 64)
    (h : loc ∈ [0x02, 0x03, 0x10, 0x11, 0x12, 0x13, 0x14, 0x2A, 0x2B, 0x2C] ∨ 0x2D ≤ loc) (r : TiaLatch) :
    tiaWriteReg loc ≠ some (.latch r) := by
  obtain h | h := h
  · simp only [List.mem_cons, List.not_mem_nil, or_false] at h
    obtain rfl | rfl | rfl | rfl | rfl | rfl | rfl | rfl | rfl | rfl := h <;> nofun
  · rw [tiaWriteReg_of_ge loc hlt h]
    nofun

section Poke

variable {a : Word} (v : Byte) (s : State)

theorem poke_ram (h : areaOf (addr13 a) = .ram) : poke a v s = { s with ram := s.ram.write (a.toNat % 128) v } := by
  simp only [poke, h, writeLocal_ram h]

theorem poke_cart (h : areaOf (addr13 a) = .cart) : poke a v s = { s with cart := s.cart.poke (a.toNat % 4096) v } := by
  simp only [poke, h, writeLocal_cart h, Cart.poke]
  (repeat' split) <;> rfl

theorem poke_riot (h : areaOf (addr13 a) = .riot) :
    poke a v s = { s with riot := s.riot.poke (riotWriteReg (a.toNat % 32)) v } := by
  simp only [poke, h, writeLocal_riot h]
  cases riotWriteReg (a.toNat % 32) <;> rfl

theorem poke_latch (h : areaOf (addr13 a) = .tia) {r : TiaLatch} (hr : tiaWriteReg (a.toNat % 64) = some (.latch r)) :
    poke a v s = { s with tia := pokeLatch s.tia r v } := by
  simp only [poke, h, writeLocal_tia h, hr]

theorem poke_not_latch (h : areaOf (addr13 a) = .tia) (hr : ∀ r, tiaWriteReg (a.toNat % 64) ≠ some (.latch r)) :
    poke a v s = s := by
  simp only [poke, h, writeLocal_tia h]
  split
  · next r e => exact absurd e (hr r)
  · rfl
  · rfl

/-- A Poke into the TIA's area stores one latch or nothing. -/
theorem poke_tia (h : areaOf (addr13 a) = .tia) : ∃ tia, poke a v s = { s with tia := tia } ∧
    tia.futures = s.tia.futures ∧ tia.wsync = s.tia.wsync ∧ tia.pos = s.tia.pos ∧ tia.collisions = s.tia.collisions := by
  by_cases hr : ∃ r, tiaWriteReg (a.toNat % 64) = some (.latch r)
  · obtain ⟨r, hr⟩ := hr
    exact ⟨_, poke_latch v s h hr, pokeLatch_kept s.tia r v⟩
  · exact ⟨s.tia, poke_not_latch v s h (not_exists.1 hr), rfl, rfl, rfl, rfl⟩

end Poke

/-- What a Poke can change anywhere: one byte of a memory, one register. -/
theorem poke_eq (a : Word) (v : Byte) (s : State) : ∃ ram image scRam tia riot,
    poke a v s = { s with
      ram := ram, cart := { s.cart with image := image, scRam := scRam }, tia := tia, riot := riot } ∧
    (tia.futures = s.tia.futures ∧ tia.wsync = s.tia.wsync ∧ tia.pos = s.tia.pos ∧ tia.collisions = s.tia.collisions) ∧
    riot.tf = s.riot.tf ∧ riot.interval = s.riot.interval ∧ riot.prescale = s.riot.prescale ∧ riot.pf7 = s.riot.pf7 ∧
      riot.edgePos = s.riot.edgePos := by
  cases h : areaOf (addr13 a) with
  | ram => exact ⟨_, _, _, _, _, poke_ram v s h, ⟨rfl, rfl, rfl, rfl⟩, rfl, rfl, rfl, rfl, rfl⟩
  | cart =>
    rw [poke_cart v s h, Cart.poke_eq]
    exact ⟨_, _, _, _, _, rfl, ⟨rfl, rfl, rfl, rfl⟩, rfl, rfl, rfl, rfl, rfl⟩
  | tia =>
    obtain ⟨tia, e, k⟩ := poke_tia v s h
    exact ⟨_, _, _, _, _, e, k, rfl, rfl, rfl, rfl, rfl⟩
  | riot => exact ⟨_, _, _, _, _, poke_riot v s h, ⟨rfl, rfl, rfl, rfl⟩, Riot.poke_kept _ _ _⟩

/-- A read of a byte that has no side effect gives what `Peek` gives. -/
theorem busRead_val_of_placeable {a : Word} {s : State} (h : placeable s.cart a = true) : (busRead a s).1 = peek a s := by
  simp only [placeable] at h
  cases ha : areaOf (addr13 a) with
  | ram => simp only [busRead_val_ram ha, peek, ha, readLocal_ram ha]
  | cart =>
    simp only [ha, readLocal_cart ha, Bool.and_eq_true, Bool.not_eq_true'] at h
    rw [(busRead_cart_of_not_port ha h.1).1, hotspot_of_not h.2]
    simp only [peek, ha, readLocal_cart ha]
  | tia | riot => simp [ha] at h

theorem getBank_eq (a : Word) (s : State) : getBank a s = s.cart.getBank (a.toNat % 4096) := by
  rw [getBank, addr13_toNat, Nat.mod_mod_of_dvd _ (by decide)]

theorem busRead_val_getBank {a : Word} {s : State} (ha : areaOf (addr13 a) = .cart)
    (hh : s.cart.isHotspot (a.toNat % 4096) = false) (hp : ¬ (s.cart.mapper.hasSuperchip = true ∧ a.toNat % 4096 < 256)) :
    (busRead a s).1 = s.cart.image.read (getBank a s * s.cart.bankSize + a.toNat % 4096 % s.cart.bankSize) := by
  rw [(busRead_rom ha hp).1, hotspot_of_not hh, Cart.offset_eq_getBank _ (Nat.mod_lt _ (by decide)), getBank_eq]

/-! ### The statements about memory (20_memory) and the strobes (61_tia R500, R503) -/

/-- Settles O18: the map sees the low 13 bits, and each area has one modulus for its locals. -/
theorem memoryMapDecodes : Obligations.MemoryMapDecodes := by
  refine ⟨fun a b v s h => ⟨busRead_mirror h s, busWrite_mirror h v s⟩, fun a isRead => ⟨?_, ?_, ?_, ?_⟩⟩
  · intro h
    rw [mapAddress_of_area (areaOf_cart h)]
    have := a.isLt
    exact congrArg _ (by dsimp only; omega)
  · intro h h1
    rw [mapAddress_of_area (areaOf_tia h h1)]
    cases isRead <;> rfl
  · exact fun h h1 h2 => mapAddress_of_area (areaOf_ram h h1 h2) isRead
  · exact fun h h1 h2 => mapAddress_of_area (areaOf_riot h h1 h2) isRead

/-- Settles O19: a write is one byte of the canonical RAM, and no read cycle stores there. -/
theorem ramReadsWhatWasWritten : Obligations.RamReadsWhatWasWritten := by
  intro a b v s hs ha hb t
  have ht : t.ram = s.ram.write (a.toNat % 128) v := by
    rw [memWrite_ram, if_pos ha, writeLocal_ram ha]
  refine ⟨?_, memRead_ram b t, ?_⟩
  · rw [memRead_val_ram hb, ht, Memory.read_write hs]
  · rw [ht]; exact Memory.wf_write hs (Nat.mod_lt _ (by decide)) v

/-- Settles O21: outside the four listed effects a read keeps the cartridge and the RIOT, all it could change beside the trace,
the draws and the log. -/
theorem readsHaveListedSideEffects : Obligations.ReadsHaveListedSideEffects := by
  intro a s area v t
  refine ⟨busRead_lastAccess a s, busRead_lastAccessId a s, fun hc hr => ?_, fun ht hw => ?_, fun ht hl => ?_⟩
  · exact busRead_eq_of_kept (busRead_cart_of_no_effect hc) (busRead_riot_of_not_timer hr s)
  · refine (busRead_reports a s).trans ?_
    rw [if_neg fun e => ((unreadable_iff a s.cart).1 e).elim ht hw, List.append_nil]
  · refine (busRead_reports a s).trans ?_
    rw [if_pos ((unreadable_iff a s.cart).2 (.inl ⟨ht, hl⟩)), ← busRead_lastAccessId a s]
    rfl

/-- Settles O22: a Poke is one byte of one memory or one register, area by area. -/
theorem peekAndPokeHaveNoSideEffects : Obligations.PeekAndPokeHaveNoSideEffects := by
  intro a v s hinv area loc ports bankSize
  obtain ⟨hram, hcart, -⟩ := (machineInv_iff s).1 hinv
  refine ⟨busRead_val_of_placeable, busRead_val_getBank, rfl, rfl, ?_, fun ha => ?_, fun ha => ?_, fun ha => ?_,
    fun ha => ?_, ?_⟩
  · rintro (ha | ha)
    · rw [poke_ram v s ha]
      simp only [peek, show areaOf (addr13 a) = .ram from ha, readLocal_ram ha, Memory.read_write_same hram]
    · rw [poke_cart v s ha]
      simp only [peek, show areaOf (addr13 a) = .cart from ha, readLocal_cart ha]
      exact Cart.byteAt_poke hcart _ v
  · rw [poke_ram v s ha]
    exact ⟨rfl, fun k hk => Memory.read_write_ne _ v hk.symm⟩
  · rw [poke_cart v s ha]
    exact ⟨congrArg (fun c => { s with cart := c }) (Cart.poke_eq s.cart loc v), Cart.poke_image_read s.cart loc v,
      Cart.poke_scRam_read s.cart loc v⟩
  · refine ⟨?_, fun hl => ?_, fun hl => ?_, fun hl => ?_, fun hl => ?_⟩
    · obtain ⟨tia, e, -⟩ := poke_tia v s ha
      rw [e]
    · rw [poke_latch v s ha (r := .vblank) (by rw [hl]; rfl)]; rfl
    · rw [poke_latch v s ha (r := .grp0) (by rw [hl]; rfl)]; rfl
    · rw [poke_latch v s ha (r := .grp1) (by rw [hl]; rfl)]; rfl
    · exact poke_not_latch v s ha (tiaWriteReg_ne_latch (Nat.mod_lt _ (by decide)) hl)
  · rw [poke_riot v s ha]
  · obtain ⟨ram, image, scRam, tia, riot, h, ⟨kf, kw, kp, kc⟩, kt, ki, kpre, kpf, ke⟩ := poke_eq a v s
    rw [h]
    exact ⟨rfl, rfl, kf, kw, kp, kc, kt, ki, kpre, kpf, ke, rfl, rfl, rfl, rfl⟩

/-- Settles O24: the six F-series mappers are one argument over their number of banks and first hotspot. -/
theorem fSeriesBanksSwitchAtHotspots : Obligations.FSeriesBanksSwitchAtHotspots := by
  intro a v s ha loc
  refine ⟨fun hm => ?_, fun hm => ?_, fun row hrow hm hp => ?_⟩
  · have h := busRead_rom_of_not_switches ha (s := s) (by rw [hm]; rfl)
    rwa [Cart.offset, hm] at h
  · have h := busRead_rom_of_not_switches ha (s := s) (by rw [hm]; rfl)
    rwa [Cart.offset, hm] at h
  · have hf : row.1.fSeries = some row.2 := by
      clear hm hp
      revert row
      decide
    exact fSeries_access ha (hm ▸ hf) v fun ⟨hs, hl⟩ => absurd (hp hs) (by omega)

/-- Settles O25: an E0 access acts as its hotspot does, and of the writes outside the cartridge `listen` takes 3F's alone. -/
theorem slicesAndTigervisionBanks : Obligations.SlicesAndTigervisionBanks := by
  intro a v s loc n r
  refine ⟨fun hm ha => ?_, fun hm ha => ?_, fun ha => ?_⟩
  · have hp : ¬ (s.cart.mapper.hasSuperchip = true ∧ a.toNat % 4096 < 256) := by simp [hm, Mapper.hasSuperchip]
    obtain ⟨hv, hc⟩ := busRead_rom ha hp
    have hw := busWrite_cart_of_not_writePort ha v (Cart.byteAt_rom hp).1
    change r.2.cart = s.cart.hotspot loc at hc
    obtain ⟨h0, h1, h2⟩ := Cart.hotspot_e0_slices hm loc
    rw [← hc] at h0 h1 h2
    refine ⟨h0, h1, h2, ?_, ?_⟩
    · rw [hc, ← Cart.slice_eq_getD _ (by omega)]
      refine hv.trans ?_
      rw [Cart.offset, Cart.hotspot_mapper, hm]
    · rw [hw, hc]; split <;> rfl
  · obtain ⟨hv, hc⟩ := busRead_rom_of_not_switches ha (s := s) (by rw [hm]; rfl)
    rw [Cart.offset, hm, Cart.banks_m3f hm] at hv
    exact ⟨hc, hv⟩
  · rw [busWrite_cart, if_neg ha, Cart.listen_eq, addr13_toNat]

/-- Settles O26: below 0x100 no hotspot acts, and both ports reach the same 128 bytes. -/
theorem superchipPorts : Obligations.SuperchipPorts := by
  intro a v s hm hs ha loc sc
  refine ⟨fun hl => ?_, fun hlo hhi => ?_⟩
  · have hw : s.cart.inWritePort loc = true := (inWritePort_iff _ _).2 ⟨hm, hl⟩
    refine ⟨fun k => ?_, ?_, fun k hk => ?_, ?_⟩
    · rw [busWrite_cart_of_area ha, Cart.write, if_pos hw]
      simpa only [eq_comm] using Memory.read_write hs loc k v
    · rw [busWrite_reports, ha, writeLocal_cart ha]
      simp [unwritable, hw, loc]
    · rw [busRead_cart, if_pos ha, readLocal_cart ha, if_pos hw]
      exact Memory.read_write_ne _ _ hk.symm
    · rw [busRead_reports, ha, readLocal_cart ha]
      exact congrArg _ (if_pos hw)
  · have hw : s.cart.inWritePort loc = false := Bool.eq_false_iff.2 fun e => by
      have := (inWritePort_iff _ _).1 e; omega
    have hh : s.cart.hotspot loc = s.cart := Cart.hotspot_of_lt _ (by omega)
    obtain ⟨hv, hc⟩ := busRead_cart_of_not_port ha hw
    refine ⟨hv.trans ?_, hc.trans hh, ?_⟩
    · rw [hh, Cart.byteAt_port ⟨hm, hhi⟩, show a.toNat % 4096 % 128 = loc - 128 by omega]
    · rw [busWrite_cart_of_not_writePort ha v hw, hh, ite_self]

/-- Settles O49: the register map gives each strobe's local its action, and no strobe reads the datum. -/
theorem strobesScheduleTheirAction : Obligations.StrobesScheduleTheirAction := by
  intro a v s ha loc p t scheduled
  refine ⟨?_, fun hl => busWrite_tia_of_local ha hl rfl,
    fun hl hm => busWrite_tia_of_local ha hl (tiaWrite_rsync_restartLine v hm),
    fun hl hm => busWrite_tia_of_local ha hl (tiaWrite_rsync_refuse v hm), ⟨rfl, rfl⟩, rfl⟩
  simp only [List.forall_mem_cons, List.not_mem_nil, false_implies, implies_true, and_true]
  and_intros
  all_goals exact fun hl => busWrite_tia_of_local (u := schedule _ _ s) ha hl rfl

end Sys2Proof.Machine

/-! Encoding and decoding (30_encoding): the decoder's table of forms read as a relation between an opcode's operand bytes and an
instruction, of which the encoder and the decoder are the two directions; then the statements about them. -/

namespace Sys2Proof

open Sys2Proof.Machine

/-- The operand bytes that complete a form to an instruction, an address with its low byte first (30_encoding R140, R144). -/
inductive OpForm.Completes : OpForm → List Byte → Instr → Prop
  | done (i : Instr) : Completes (.done i) [] i
  | byte (f : Byte → Instr) (b : Byte) : Completes (.byte f) [b] (f b)
  | word (f : Word → Instr) (w : Word) : Completes (.word f) [loByte w, hiByte w] (f w)

section Decoding

variable {op : Byte} {f : OpForm} {args bytes rest : List Byte} {i : Instr}

/-! ### The decoder and the encoder on a form -/

/-- The decoder takes exactly the operand bytes that complete the opcode's form. -/
theorem decode_cons_iff : decode (op :: bytes) = .ok (i, rest) ↔
    ∃ f args, opForm op = some f ∧ f.Completes args i ∧ bytes = args ++ rest := by
  constructor
  · intro h
    unfold decode at h
    dsimp only at h
    split at h
    · cases h
    · next hf => cases h; exact ⟨_, [], hf, .done _, rfl⟩
    · next hf => cases h; exact ⟨_, [_], hf, .byte _ _, rfl⟩
    · next g lo hi _ hf =>
      cases h
      have k := OpForm.Completes.word g (mkWord hi lo)
      rw [loByte_mkWord, hiByte_mkWord] at k
      exact ⟨_, [lo, hi], hf, k, rfl⟩
    · cases h
  · rintro ⟨f, args, hf, hc, rfl⟩
    cases hc with
    | done => simp [decode, hf]
    | byte => simp [decode, hf]
    | word => simp [decode, hf, mkWord_halves]

theorem decode_of_opForm_none (h : opForm op = none) : decode (op :: bytes) = .error (.undefinedOpcode op) := by
  simp [decode, h]

/-- Two operand bytes are enough for every form. -/
theorem decode_of_opForm_some (h : opForm op = some f) (b1 b2 : Byte) :
    ∃ r, decode (op :: b1 :: b2 :: rest) = .ok r := by
  cases f <;> simp [decode, h]

/-- The encoder gives every row of the decoder's table back: its opcode, then the operand bytes of its form. -/
theorem encode_of_completes (hf : opForm op = some f) (hc : f.Completes args i) : encode i = op :: args := by
  have hop : op = BitVec.ofNat 8 op.toNat := by simp
  unfold opForm at hf
  generalize op.toNat = n at hop hf
  subst hop
  split at hf <;> cases hf <;> cases hc <;> rfl

/-- Every instruction completes the form its opcode selects: one case per format (30_encoding R140). -/
theorem exists_completes (i : Instr) : ∃ f args, opForm (opcodeOf i) = some f ∧ f.Completes args i := by
  cases i with
  | brk | php | aslAcc | clc | plp | rolAcc | sec | rti | pha | lsrAcc | cli | rts | pla | rorAcc | sei | dey | txa
  | tya | txs | tay | tax | clv | tsx | iny | dex | cld | inx | nop | sed =>
    exact ⟨_, _, rfl, .done _⟩
  | oraIndx | oraZp | aslZp | oraImm | bpl | oraIndy | oraZpx | aslZpx | andIndx | bitZp | andZp | rolZp | andImm
  | bmi | andIndy | andZpx | rolZpx | eorIndx | eorZp | lsrZp | eorImm | bvc | eorIndy | eorZpx | lsrZpx | adcIndx
  | adcZp | rorZp | adcImm | bvs | adcIndy | adcZpx | rorZpx | staIndx | styZp | staZp | stxZp | bcc | staIndy
  | styZpx | staZpx | stxZpy | ldyImm | ldaIndx | ldxImm | ldyZp | ldaZp | ldxZp | ldaImm | bcs | ldaIndy | ldyZpx
  | ldaZpx | ldxZpy | cpyImm | cmpIndx | cpyZp | cmpZp | decZp | cmpImm | bne | cmpIndy | cmpZpx | decZpx | cpxImm
  | sbcIndx | cpxZp | sbcZp | incZp | sbcImm | beq | sbcIndy | sbcZpx | incZpx =>
    exact ⟨_, _, rfl, .byte _ _⟩
  | oraAbs | aslAbs | oraAbsy | oraAbsx | aslAbsx | jsr | bitAbs | andAbs | rolAbs | andAbsy | andAbsx | rolAbsx
  | jmpAbs | eorAbs | lsrAbs | eorAbsy | eorAbsx | lsrAbsx | jmpInd | adcAbs | rorAbs | adcAbsy | adcAbsx | rorAbsx
  | styAbs | staAbs | stxAbs | staAbsy | staAbsx | ldyAbs | ldaAbs | ldxAbs | ldaAbsy | ldyAbsx | ldaAbsx | ldxAbsy
  | cpyAbs | cmpAbs | decAbs | cmpAbsy | cmpAbsx | decAbsx | cpxAbs | sbcAbs | incAbs | sbcAbsy | sbcAbsx | incAbsx =>
    exact ⟨_, _, rfl, .word _ _⟩

/-! ### Lengths -/

/-- A row's length is its opcode and the operand bytes the decoder takes (30_encoding R151). -/
theorem opcodeTable_bytes (op : Byte) : (opcodeTable op).map InstrDef.bytes = (operandCount op).map (· + 1) := by
  have h : ∀ n : Fin 256, (opcodeTable (.ofFin n)).map InstrDef.bytes = (operandCount (.ofFin n)).map (· + 1) := by
    decide +kernel
  exact h op.toFin

theorem encode_length (i : Instr) : ∃ n ≤ 2, operandCount (opcodeOf i) = some n ∧ (encode i).length = n + 1 := by
  obtain ⟨h, e, -⟩ | ⟨h, -, b, e⟩ | ⟨h, b, c, e⟩ := encode_shape i
  · exact ⟨0, by decide, h, by rw [e]; rfl⟩
  · exact ⟨1, by decide, h, by rw [e]; rfl⟩
  · exact ⟨2, by decide, h, by rw [e]; rfl⟩

/-! ### The values that select no row -/

/-- A list of the bytes with no row is the list of the bytes the decoder rejects. -/
theorem decode_listed {l : List Nat} (hl : ∀ n : Fin 256, n.val ∈ l ↔ (opcodeTable (.ofFin n)).isNone) (op b1 b2 : Byte)
    (rest : List Byte) :
    (op.toNat ∈ l → opcodeTable op = none ∧ decode (op :: b1 :: b2 :: rest) = .error (.undefinedOpcode op)) ∧
    (op.toNat ∉ l → (∃ d, opcodeTable op = some d) ∧ ∃ r, decode (op :: b1 :: b2 :: rest) = .ok r) := by
  have hrow : op.toNat ∈ l ↔ (opcodeTable op).isNone := hl op.toFin
  cases hd : opcodeTable op with
  | none =>
    have hf : opForm op = none := by rw [← Option.isNone_iff_eq_none, opForm_isNone, hd]; rfl
    have hin : op.toNat ∈ l := by simp [hrow, hd]
    exact ⟨fun _ => ⟨rfl, decode_of_opForm_none hf⟩, fun h => absurd hin h⟩
  | some d =>
    obtain ⟨f, hf⟩ := form_of_row hd
    have hnot : op.toNat ∉ l := by simp [hrow, hd]
    exact ⟨fun h => absurd h hnot, fun _ => ⟨⟨d, rfl⟩, decode_of_opForm_some hf b1 b2⟩⟩

end Decoding

/-! ### The statements about encoding (30_encoding) -/

/-- Settles O5: an instruction's operand bytes complete the form its opcode selects, and the decoder takes them. -/
theorem decodeOfEncode : Obligations.DecodeOfEncode := by
  intro i rest
  obtain ⟨f, args, hf, hc⟩ := exists_completes i
  rw [encode_of_completes hf hc]
  exact decode_cons_iff.2 ⟨f, args, hf, hc, rfl⟩

/-- Settles O6: the bytes the decoder takes complete the opcode's form, and the encoder gives them back. -/
theorem encodeOfDecode : Obligations.EncodeOfDecode := by
  intro bytes rest i h
  constructor
  · cases bytes with
    | nil => cases h
    | cons op bytes =>
      obtain ⟨f, args, hf, hc, rfl⟩ := decode_cons_iff.1 h
      rw [encode_of_completes hf hc]
      rfl
  · obtain ⟨n, hn, hc, hlen⟩ := encode_length i
    have hbytes := opcodeTable_bytes (opcodeOf i)
    rw [hc] at hbytes
    obtain ⟨d, hd, (hdb : d.bytes = n + 1)⟩ := Option.map_eq_some_iff.1 hbytes
    exact ⟨d, hd, by omega, by omega, by omega⟩

/-- Settles O7: the table decides which of the 256 values are listed, and the decoder has a form where the table has a row. -/
theorem undefinedOpcodesAreListed : Obligations.UndefinedOpcodesAreListed := by
  unfold Obligations.UndefinedOpcodesAreListed
  exact ⟨by decide, decode_listed (by decide +kernel)⟩

/-- Settles O8: each word is the encoding of its instruction. -/
theorem wordsDecodeAsTheSpecSays : Obligations.WordsDecodeAsTheSpecSays := by
  unfold Obligations.WordsDecodeAsTheSpecSays
  intro reads
  have hreads {bytes : List Nat} {i : Instr} (h : bytes.map (BitVec.ofNat 8) = encode i) : reads bytes i := by
    have hd := decodeOfEncode i []
    rwa [List.append_nil, ← h] at hd
  and_intros <;> exact hreads rfl

end Sys2Proof

/-! Which of the six flags an instruction writes (30_encoding R157): each flag computation's own set, and from it every
instruction's. -/

namespace Sys2Proof

open Sys2Proof.Machine

namespace SameFlagsOutside

variable {w p q : Flags}

theorem refl : SameFlagsOutside w p p :=
  ⟨fun _ => rfl, fun _ => rfl, fun _ => rfl, fun _ => rfl, fun _ => rfl, fun _ => rfl⟩

/-- The flags a meaning leaves, once the CPU it leaves is known. -/
theorem of_cpu {d : Cpu} {s t u : State} (h : Host.Outcome.next u = (.next t : Host.Outcome State Fault Refusal))
    (hu : u.cpu = d) (k : SameFlagsOutside w s.cpu.p d.p) : SameFlagsOutside w s.cpu.p t.cpu.p :=
  Host.Outcome.next.inj h ▸ hu ▸ k

/-! ### The flags each computation writes, in any set that lists them -/

theorem setNZ (hn : w.n = true) (hz : w.z = true) {v : Byte} : SameFlagsOutside w p (p.setNZ v) := by
  simp [SameFlagsOutside, Flags.setNZ, hn, hz]

theorem shifted (hn : w.n = true) (hz : w.z = true) (hc : w.c = true) {r : Byte} {c : Bool} :
    SameFlagsOutside w p (Machine.shifted r c p).p := by
  simp [SameFlagsOutside, Machine.shifted, Flags.setNZ, hn, hz, hc]

theorem compareFlags (hn : w.n = true) (hz : w.z = true) (hc : w.c = true) {r m : Byte} :
    SameFlagsOutside w p (Machine.compareFlags r m p) := by
  simp [SameFlagsOutside, Machine.compareFlags, hn, hz, hc]

theorem bitFlags (hn : w.n = true) (hv : w.v = true) (hz : w.z = true) {a m : Byte} :
    SameFlagsOutside w p (Machine.bitFlags a m p) := by
  simp [SameFlagsOutside, Machine.bitFlags, hn, hv, hz]

theorem adc (hn : w.n = true) (hv : w.v = true) (hz : w.z = true) (hc : w.c = true) {a m : Byte} :
    SameFlagsOutside w p (Machine.adc a m p).p := by
  rw [Machine.adc]
  split <;> simp [SameFlagsOutside, decimalAdd, Flags.setNZ, hn, hv, hz, hc]

theorem sbc (hn : w.n = true) (hv : w.v = true) (hz : w.z = true) (hc : w.c = true) {a m : Byte} :
    SameFlagsOutside w p (Machine.sbc a m p).p := by
  simp [SameFlagsOutside, Machine.sbc, Flags.setNZ, hn, hv, hz, hc]

end SameFlagsOutside

/-- Every instruction keeps the flags its mnemonic does not list: one case per operation its meaning calls. -/
theorem exec_flags {i : Instr} {s t : State} (h : exec i s = .next t) :
    ∃ m, mnemonicOf i = some m ∧ SameFlagsOutside (flagsWritten m) s.cpu.p t.cpu.p := by
  cases i with
  | ldaIndx | ldaZp | ldaImm | ldaAbs | ldaIndy | ldaZpx | ldaAbsy | ldaAbsx =>
    exact ⟨_, rfl, .of_cpu h (loadA_cpu (by simp)) (.setNZ rfl rfl)⟩
  | ldxImm | ldxZp | ldxAbs | ldxZpy | ldxAbsy => exact ⟨_, rfl, .of_cpu h (loadX_cpu (by simp)) (.setNZ rfl rfl)⟩
  | ldyImm | ldyZp | ldyAbs | ldyZpx | ldyAbsx => exact ⟨_, rfl, .of_cpu h (loadY_cpu (by simp)) (.setNZ rfl rfl)⟩
  | andIndx | andZp | andImm | andAbs | andIndy | andZpx | andAbsy | andAbsx | oraIndx | oraZp | oraImm | oraAbs
  | oraIndy | oraZpx | oraAbsy | oraAbsx | eorIndx | eorZp | eorImm | eorAbs | eorIndy | eorZpx | eorAbsy | eorAbsx =>
    exact ⟨_, rfl, .of_cpu h (combineA_cpu (by simp) _) (.setNZ rfl rfl)⟩
  | txa | tya => exact ⟨_, rfl, .of_cpu h (transferA_cpu _ s) (.setNZ rfl rfl)⟩
  | tax | tsx => exact ⟨_, rfl, .of_cpu h (transferX_cpu _ s) (.setNZ rfl rfl)⟩
  | tay => exact ⟨_, rfl, .of_cpu h (transferY_cpu _ s) (.setNZ rfl rfl)⟩
  | inx | dex => exact ⟨_, rfl, .of_cpu h (countX_cpu _ s) (.setNZ rfl rfl)⟩
  | iny | dey => exact ⟨_, rfl, .of_cpu h (countY_cpu _ s) (.setNZ rfl rfl)⟩
  | pla => exact ⟨_, rfl, .of_cpu h (pullA_cpu s) (.setNZ rfl rfl)⟩
  | incZp | incAbs | incZpx | incAbsx | decZp | decAbs | decZpx | decAbsx =>
    exact ⟨_, rfl, .of_cpu h (modifyAt_cpu (by simp) _) (.setNZ rfl rfl)⟩
  | aslZp | aslAbs | aslZpx | aslAbsx | lsrZp | lsrAbs | lsrZpx | lsrAbsx | rolZp | rolAbs | rolZpx | rolAbsx | rorZp
  | rorAbs | rorZpx | rorAbsx =>
    exact ⟨_, rfl, .of_cpu h (modifyAt_cpu (by simp) _) (.shifted rfl rfl rfl)⟩
  | aslAcc | lsrAcc | rolAcc | rorAcc => exact ⟨_, rfl, .of_cpu h (modifyA_cpu _ s) (.shifted rfl rfl rfl)⟩
  | cmpIndx | cmpZp | cmpImm | cmpAbs | cmpIndy | cmpZpx | cmpAbsy | cmpAbsx | cpxImm | cpxZp | cpxAbs | cpyImm
  | cpyZp | cpyAbs =>
    exact ⟨_, rfl, .of_cpu h (compareOperand_cpu (by simp) _) (.compareFlags rfl rfl rfl)⟩
  | bitZp | bitAbs => exact ⟨_, rfl, .of_cpu h (testOperand_cpu (by simp)) (.bitFlags rfl rfl rfl)⟩
  | adcIndx | adcZp | adcImm | adcAbs | adcIndy | adcZpx | adcAbsy | adcAbsx =>
    exact ⟨_, rfl, .of_cpu h (addOperand_cpu (by simp)) (.adc rfl rfl rfl rfl)⟩
  | sbcIndx | sbcZp | sbcImm | sbcAbs | sbcIndy | sbcZpx | sbcAbsy | sbcAbsx =>
    exact ⟨_, rfl, .of_cpu h (subOperand_cpu (by simp)) (.sbc rfl rfl rfl rfl)⟩
  | clc | cld | cli | clv | sec | sed | sei =>
    exact ⟨_, rfl, .of_cpu h (setFlag_cpu _ s) (by simp [SameFlagsOutside, flagsWritten])⟩
  | brk => exact ⟨_, rfl, .of_cpu h (takeTrap_skipPadding_cpu s) (by simp [SameFlagsOutside, flagsWritten])⟩
  -- PLP and RTI list all six.
  | plp | rti => exact ⟨_, rfl, nofun, nofun, nofun, nofun, nofun, nofun⟩
  | staIndx | staZp | staAbs | staIndy | staZpx | staAbsy | staAbsx | stxZp | stxAbs | stxZpy | styZp | styAbs
  | styZpx =>
    exact ⟨_, rfl, .of_cpu h (storeAt_cpu (by simp) _) .refl⟩
  | txs => exact ⟨_, rfl, .of_cpu h (State.setS_cpu (dummyReadPC_cpu s) _) .refl⟩
  | pha | php => exact ⟨_, rfl, .of_cpu h (push_dummyReadPC_cpu _ s) .refl⟩
  | nop => exact ⟨_, rfl, .of_cpu h (dummyReadPC_cpu s) .refl⟩
  | bcc | bcs | beq | bmi | bne | bpl | bvc | bvs => exact ⟨_, rfl, .of_cpu h (branchIf_cpu _ _ s) .refl⟩
  | jmpAbs => exact ⟨_, rfl, .of_cpu h rfl .refl⟩
  | jmpInd => exact ⟨_, rfl, .of_cpu h (jumpIndirect_cpu _ s) .refl⟩
  | jsr => exact ⟨_, rfl, .of_cpu h (callSubroutine_cpu _ s) .refl⟩
  | rts => exact ⟨_, rfl, .of_cpu h (returnSubroutine_cpu s) .refl⟩

/-- Settles O15: an instruction has one mnemonic, and keeps the flags outside that mnemonic's row. -/
theorem flagsChangeOnlyAsListed : Obligations.FlagsChangeOnlyAsListed := by
  intro i m s t hm h
  obtain ⟨m', hm', k⟩ := exec_flags h
  obtain rfl : m' = m := Option.some.inj (hm'.symm.trans hm)
  exact k

end Sys2Proof

/-! The addressing modes (40_addressing_modes): each mode's operand and effective address in PIA RAM, the fetch of an instruction
that stands at PC, and the memory forms of the read-modify-write instructions. -/

namespace Sys2Proof

open Sys2Proof.Machine

/-! ### Operands and effective addresses in PIA RAM -/

section Operands

variable {p index : Byte} {base : Word} {s : State}

/-- A pointer's bytes in PIA RAM, and its two read cycles (40_addressing_modes R190, R191). -/
theorem readPointer_eq_of_ram (h : areaOf (addr13 (zpAddr p)) = .ram) (h1 : areaOf (addr13 (zpAddr (p + 1))) = .ram) :
    readPointer p s =
      (s.ram.read ((zpAddr (p + 1)).toNat % 128) ++ s.ram.read ((zpAddr p).toNat % 128),
        dummyRead (zpAddr (p + 1)) (dummyRead (zpAddr p) s)) :=
  Prod.ext (readPointer_ram h h1) rfl

/-- With a carry the byte comes from the second read, without one the first read is already at the sum
(40_addressing_modes R189). -/
theorem readIndexed_val_ram (h : areaOf (addr13 (indexed base index)) = .ram) :
    (readIndexed base index s).1 = s.ram.read ((indexed base index).toNat % 128) := by
  rw [readIndexed]
  split
  · rw [memRead_val_ram h, State.markCrossed_ram, memRead_ram]
  · next hc => rw [unfixed_of_not_crosses (Bool.eq_false_iff.2 hc), memRead_val_ram h]

theorem readAt_val_ram {ea : Word × State} (h : areaOf (addr13 ea.1) = .ram) (hs : ea.2.ram = s.ram) :
    (readAt ea).1 = s.ram.read (ea.1.toNat % 128) := by
  rw [readAt, memRead_val_ram h, hs]

theorem eaFixed_eq (base : Word) (index : Byte) (s : State) :
    eaFixed base index s =
      (base + index.setWidth 16, dummyRead (base.extractLsb' 8 8 ++ (base.setWidth 8 + index)) s) := by
  rw [eaFixed, unfixed_eq, indexed]

/-- (zp,X): the pointer is at the operand plus X within page 0 (40_addressing_modes R190). -/
theorem eaIndx_eq_of_ram (h : areaOf (addr13 (zpAddr (p + s.cpu.x))) = .ram)
    (h1 : areaOf (addr13 (zpAddr (p + s.cpu.x + 1))) = .ram) :
    eaIndx p s =
      (s.ram.read ((zpAddr (p + s.cpu.x + 1)).toNat % 128) ++ s.ram.read ((zpAddr (p + s.cpu.x)).toNat % 128),
        dummyRead (zpAddr (p + s.cpu.x + 1)) (dummyRead (zpAddr (p + s.cpu.x)) (dummyRead (zpAddr p) s))) := by
  rw [eaIndx, readPointer_eq_of_ram h h1, dummyRead_ram]

end Operands

/-- Settles O27: the pointer's bytes and the indexed sums are read in PIA RAM, which no read on the way changes. -/
theorem operandsComeFromEffectiveAddress : Obligations.OperandsComeFromEffectiveAddress := by
  intro b w s ram isRam zp ptr x y unfixed pointerReads
  have hindx : isRam (zp (b + x)) → isRam (zp (b + x + 1)) →
      eaIndx b s = (ptr (b + x), pointerReads (b + x) (dummyRead (zp b) s)) := fun h h1 => eaIndx_eq_of_ram h h1
  refine ⟨memRead_val_ram, fun h => readAt_val_ram h (dummyRead_ram _ s), fun h => readAt_val_ram h (dummyRead_ram _ s),
    memRead_val_ram, readIndexed_val_ram, readIndexed_val_ram, fun h h1 h2 => ?_, fun h h1 h2 => ?_, rfl, rfl, rfl, rfl,
    eaFixed_eq w x s, eaFixed_eq w s.cpu.y s, hindx, fun h h1 => ?_⟩
  · have hea := hindx h h1
    have hptr : (eaIndx b s).1 = ptr (b + x) := congrArg Prod.fst hea
    rw [readIndx, readAt_val_ram (by rw [hptr]; exact h2) (eaIndx_seq b s).ram, hptr]
  · rw [readIndy, readPointer_eq_of_ram h h1]
    exact (readIndexed_val_ram h2).trans (by rw [dummyRead_ram, dummyRead_ram]; rfl)
  · rw [eaIndy, readPointer_eq_of_ram h h1]
    exact eaFixed_eq (ptr b) s.cpu.y _

/-! ### Fetching an instruction that stands at PC -/

/-- The bytes stand from PC on, where a fetch reads what is stored. -/
def StandsAtPC (s : State) (bytes : List Byte) : Prop :=
  ∀ k, k < bytes.length → placeable s.cart (s.cpu.pc + BitVec.ofNat 16 k) = true ∧
    peek (s.cpu.pc + BitVec.ofNat 16 k) s = bytes.getD k 0#8

/-- The state after the first `k` bytes of an instruction, whose opcode is recorded. -/
structure FetchedFrom (op : Byte) (k : Nat) (s t : State) : Prop extends Fetched k s t where
  opcode : t.result.opcode = some op
  defn : t.result.defn = opcodeTable op

section Fetching

variable {op : Byte} {bytes : List Byte} {k : Nat} {s t : State} {i : Instr}

/-- The opcode fetch gives the first byte that stands at PC (40_addressing_modes R182). -/
theorem fetchOpcode_of_stands (h : StandsAtPC s (op :: bytes)) :
    (fetchOpcode s).1 = op ∧ FetchedFrom op 1 s (fetchOpcode s).2 := by
  obtain ⟨hplace, hpeek⟩ := h 0 (Nat.zero_lt_succ _)
  obtain ⟨hval, hnext, -, -⟩ := (Fetched.zero s).next hplace
  have hop : (fetchByte (beginInstr s)).1 = op := hval.trans hpeek
  refine ⟨hop, hnext.record Nat.one_pos _, congrArg some hop, congrArg opcodeTable hop⟩

/-- The next operand byte that stands there. -/
theorem FetchedFrom.next (ht : FetchedFrom op k s t) (h : StandsAtPC s bytes) (hk : k < bytes.length) :
    (fetchByte t).1 = bytes.getD k 0#8 ∧ FetchedFrom op (k + 1) s (fetchByte t).2 := by
  obtain ⟨hplace, hpeek⟩ := h k hk
  obtain ⟨hval, hnext, hop, hdefn⟩ := ht.toFetched.next hplace
  exact ⟨hval.trans hpeek, hnext, hop.trans ht.opcode, hdefn.trans ht.defn⟩

/-- What a byte that stands there is, peeked once the bytes before it are fetched (45_control R352; log 12). -/
theorem FetchedFrom.peek_pc (ht : FetchedFrom op k s t) (h : StandsAtPC s bytes) (hk : k < bytes.length) :
    peek t.cpu.pc t = bytes.getD k 0#8 := by
  obtain ⟨hplace, hpeek⟩ := h k hk
  rw [ht.cpu, peek_congr _ ht.ram ht.cart hplace, hpeek]

theorem encode_eq_cons (i : Instr) : encode i = opcodeOf i :: (encode i).tail := by
  obtain ⟨f, args, hf, hc⟩ := exists_completes i
  rw [encode_of_completes hf hc, List.tail_cons]

/-- The operand bytes of an instruction that stands at PC: none, one, or two, of which JSR's second is peeked only. -/
theorem fetchOperands_of_stands (h : StandsAtPC s (encode i)) (ht : FetchedFrom (opcodeOf i) 1 s t) :
    ∃ u, fetchOperands (opcodeOf i) t = ((encode i).tail, u) ∧
      FetchedFrom (opcodeOf i) (if opcodeOf i = 0x20#8 then 2 else (encode i).length) s u := by
  obtain ⟨hcount, henc, hjsr⟩ | ⟨hcount, hjsr, b, henc⟩ | ⟨hcount, lo, hi, henc⟩ := encode_shape i
  · rw [henc, if_neg hjsr]
    exact ⟨t, by simp [fetchOperands, hcount], ht⟩
  · rw [henc] at h ⊢
    rw [if_neg hjsr]
    obtain ⟨(hb : (fetchByte t).1 = b), hu⟩ := ht.next h (by simp)
    exact ⟨_, by simp [fetchOperands, hcount, hb], hu⟩
  · rw [henc] at h ⊢
    obtain ⟨(hlo : (fetchByte t).1 = lo), hu⟩ := ht.next h (by simp)
    by_cases hjsr : opcodeOf i = 0x20#8
    · have hhi : peek (fetchByte t).2.cpu.pc (fetchByte t).2 = hi := hu.peek_pc h (by simp)
      rw [if_pos hjsr]
      exact ⟨_, by simp [fetchOperands, hcount, readsHighLate, hlo, hhi, beq_iff_eq.2 hjsr], hu⟩
    · obtain ⟨(hhi : (fetchByte (fetchByte t).2).1 = hi), hv⟩ := hu.next h (by simp)
      rw [if_neg hjsr]
      exact ⟨_, by simp [fetchOperands, hcount, readsHighLate, hjsr, hlo, hhi], hv⟩

/-- The fetch of an instruction that stands at PC gives it. -/
theorem fetchInstr_of_stands (h : StandsAtPC s (encode i)) :
    ∃ u, fetchInstr s = (some i, u) ∧
      FetchedFrom (opcodeOf i) (if opcodeOf i = 0x20#8 then 2 else (encode i).length) s u := by
  have henc := encode_eq_cons i
  obtain ⟨hop, ht⟩ := fetchOpcode_of_stands (henc ▸ h)
  obtain ⟨u, hargs, hu⟩ := fetchOperands_of_stands h ht
  have hdec : decode (opcodeOf i :: (encode i).tail) = .ok (i, []) := by
    rw [← henc, ← List.append_nil (encode i), decodeOfEncode i []]
  exact ⟨u, by simp only [fetchInstr, hop, hargs, hdec], hu⟩

/-- The result record holds the opcode and its definition, and the bytes and cycles so far (10_state R39). -/
theorem FetchedFrom.result_eq (ht : FetchedFrom op k s t) :
    t.result = { opcode := some op, defn := opcodeTable op, bytes := k, cycles := k, pageCrossed := false, bug := none,
                 final := false } := by
  obtain ⟨hcross, hbug, hfinal⟩ := ht.flag
  calc t.result = ⟨t.result.opcode, t.result.defn, t.result.bytes, t.result.cycles, t.result.pageCrossed, t.result.bug,
                   t.result.final⟩ := rfl
    _ = _ := by rw [ht.opcode, ht.defn, ht.bytes, ht.cycles, hcross, hbug, hfinal]

/-- One cycle a byte after the WSYNC hold, which only the first byte can meet (61_tia R560). -/
theorem FetchedFrom.cpuCycles_eq (ht : FetchedFrom op k s t) (hk : 0 < k) : t.cpuCycles = (stall s).cpuCycles + k := by
  have hcyc := ht.cyc
  rw [stall_of_clear (ht.wsync hk)] at hcyc
  omega

end Fetching

/-- Settles O10: the opcode and the operand bytes are read one after the other, from bytes no read changes, and decoding them is
decoding the encoding. -/
theorem fetchReadsStoredInstruction : Obligations.FetchReadsStoredInstruction := by
  intro s i bytes h n
  obtain ⟨u, hfetch, hu⟩ := fetchInstr_of_stands h
  have hn : 0 < n := by
    obtain ⟨_, _, _, hlen⟩ := encode_length i
    simp only [n, bytes]
    split <;> omega
  exact ⟨u, hfetch, hu.cpu, hu.cart, hu.result_eq, hu.id, hu.cpuCycles_eq hn, hu.frame⟩

/-! ### The memory forms of the read-modify-write instructions -/

/-- The four forms complete as their one operation says. -/
theorem rmwForms_complete {zp zpx : Byte → Instr} {abs absx : Word → Instr} {b : Byte} {w : Word} {s : State}
    {g : Byte → Flags → Byte} {flags : Byte → Flags → Flags} (op : Byte → Flags → ShiftResult)
    (hzp : exec (zp b) s = .next (modifyAt op (eaZp b s))) (hzpx : exec (zpx b) s = .next (modifyAt op (eaZpx b s)))
    (habs : exec (abs w) s = .next (modifyAt op (eaAbs w s))) (habsx : exec (absx w) s = .next (modifyAt op (eaAbsx w s)))
    (hop : ∀ v p, op v p = ⟨g v p, flags v p⟩) :
    ∀ f ∈ rmwForms zp zpx abs absx b w, ModifyCompletes f g flags s := by
  simp only [rmwForms, List.forall_mem_cons, List.not_mem_nil, false_implies, implies_true, and_true]
  exact ⟨.of_exec op hzp hop (.refl s), .of_exec op hzpx hop (eaZpIndexed_seq b _ s), .of_exec op habs hop (.refl s),
    .of_exec op habsx hop (eaFixed_seq w _ s)⟩

/-- The carry that ROL shifts in at bit 0 (44_logic_shift R327). -/
theorem bitAt_zero (c : Bool) : bitAt 0 c = (BitVec.ofBool c).setWidth 8 := by cases c <;> rfl

/-- The carry that ROR shifts in at bit 7 (44_logic_shift R328). -/
theorem bitAt_seven (c : Bool) : bitAt 7 c = (BitVec.ofBool c).setWidth 8 <<< 7 := by cases c <;> rfl

/-- Settles O38: each mnemonic's four forms are one read-modify-write tail with the mnemonic's function. -/
theorem memoryModifyForms : Obligations.MemoryModifyForms := by
  intro b w s bit shift lsl lsr rol ror
  refine ⟨rmwForms_complete Machine.inc rfl rfl rfl rfl fun _ _ => rfl,
    rmwForms_complete Machine.dec rfl rfl rfl rfl fun _ _ => rfl,
    rmwForms_complete Machine.asl rfl rfl rfl rfl fun _ _ => rfl,
    rmwForms_complete Machine.lsr rfl rfl rfl rfl fun _ _ => rfl,
    rmwForms_complete Machine.rol rfl rfl rfl rfl fun _ p => ?_,
    rmwForms_complete Machine.ror rfl rfl rfl rfl fun _ p => ?_⟩
  · rw [Machine.rol, bitAt_zero]
    rfl
  · rw [Machine.ror, bitAt_seven]
    rfl

end Sys2Proof

/-! Loads and stores (41_load_store): each mnemonic's forms do one operation on what their addressing mode reads or reaches; the
cycles of the mode, known from its read sequence, then complete the form. -/

namespace Sys2Proof

open Sys2Proof.Machine

section LoadStore

variable (b : Byte) (w : Word) (s : State)

/-! ### Loads -/

theorem exec_ldaForms : ∀ f ∈ ldaForms b w, exec f.1 s = .next (loadA (f.2.1 s)) := by
  simp only [ldaForms, eightForms, List.forall_mem_cons, List.not_mem_nil, false_implies, implies_true, and_true]
  and_intros <;> rfl

theorem exec_ldxForms : ∀ f ∈ ldxForms b w, exec f.1 s = .next (loadX (f.2.1 s)) := by
  simp only [ldxForms, List.forall_mem_cons, List.not_mem_nil, false_implies, implies_true, and_true]
  and_intros <;> rfl

theorem exec_ldyForms : ∀ f ∈ ldyForms b w, exec f.1 s = .next (loadY (f.2.1 s)) := by
  simp only [ldyForms, List.forall_mem_cons, List.not_mem_nil, false_implies, implies_true, and_true]
  and_intros <;> rfl

/-- X is loaded with Y as the index (40_addressing_modes R188, R189). -/
theorem ldxForms_seq : ∀ f ∈ ldxForms b w, ReadSeq f.2.2.1 (f.2.2.2 s) s (f.2.1 s).2 := by
  simp only [ldxForms, List.forall_mem_cons, List.not_mem_nil, false_implies, implies_true, and_true]
  exact ⟨.refl s, readZp_seq b s, readZpy_seq b s, readAbs_seq w s, readAbsy_seq w s⟩

/-- Y is loaded with X as the index (40_addressing_modes R188, R189). -/
theorem ldyForms_seq : ∀ f ∈ ldyForms b w, ReadSeq f.2.2.1 (f.2.2.2 s) s (f.2.1 s).2 := by
  simp only [ldyForms, List.forall_mem_cons, List.not_mem_nil, false_implies, implies_true, and_true]
  exact ⟨.refl s, readZp_seq b s, readZpx_seq b s, readAbs_seq w s, readAbsx_seq w s⟩

/-! ### Stores -/

/-- The modes of Write class form the address in as many cycles with a page crossing as without (40_addressing_modes R197). -/
theorem staForms_complete : ∀ f ∈ staForms b w, StoreCompletes f Cpu.a s := by
  obtain ⟨hzp, hzpx, -, habs, habsx, habsy, hindx, hindy⟩ := ea_seqs b w s
  simp only [staForms, List.forall_mem_cons, List.not_mem_nil, false_implies, implies_true, and_true]
  exact ⟨.of_exec rfl hzp, .of_exec rfl hzpx, .of_exec rfl habs, .of_exec rfl habsx, .of_exec rfl habsy, .of_exec rfl hindx,
    .of_exec rfl hindy⟩

theorem stxForms_complete : ∀ f ∈ stxForms b w, StoreCompletes f Cpu.x s := by
  obtain ⟨hzp, -, hzpy, habs, -⟩ := ea_seqs b w s
  simp only [stxForms, List.forall_mem_cons, List.not_mem_nil, false_implies, implies_true, and_true]
  exact ⟨.of_exec rfl hzp, .of_exec rfl hzpy, .of_exec rfl habs⟩

theorem styForms_complete : ∀ f ∈ styForms b w, StoreCompletes f Cpu.y s := by
  obtain ⟨hzp, hzpx, -, habs, -⟩ := ea_seqs b w s
  simp only [styForms, List.forall_mem_cons, List.not_mem_nil, false_implies, implies_true, and_true]
  exact ⟨.of_exec rfl hzp, .of_exec rfl hzpx, .of_exec rfl habs⟩

end LoadStore

/-- Settles O28: each form loads the operand its read sequence gives, and a load changes the CPU's registers alone. -/
theorem loadsWriteRegisterAndNZ : Obligations.LoadsWriteRegisterAndNZ := fun b w s =>
  ⟨fun f hf => .of_exec loadA (exec_ldaForms b w s f hf) (fun _ => rfl) (eightForms_seq b w s f hf),
    fun f hf => .of_exec loadX (exec_ldxForms b w s f hf) (fun _ => rfl) (ldxForms_seq b w s f hf),
    fun f hf => .of_exec loadY (exec_ldyForms b w s f hf) (fun _ => rfl) (ldyForms_seq b w s f hf)⟩

/-- Settles O29: each form is one store of the register at the address its read sequence forms. -/
theorem storesWriteOneByte : Obligations.StoresWriteOneByte := fun b w s =>
  ⟨staForms_complete b w s, stxForms_complete b w s, styForms_complete b w s⟩

end Sys2Proof

/-! Transfers and the stack (42_transfer_stack): a transfer changes the registers after its dummy read of PC, a push is that read
and one store, and a pull two dummy reads and the read at the incremented S. -/

namespace Sys2Proof

open Sys2Proof.Machine

/-! ### Transfers -/

/-- A one-byte form completes when what follows its dummy read of PC changes the registers alone, as listed. -/
theorem ImpliedCompletes.of_dummyReadPC {i : Instr} {regs : Cpu → Cpu} {s : State} (op : State → State)
    (h : exec i s = .next (op (dummyReadPC s))) (hop : ∀ d : State, op d = { d with cpu := (op d).cpu })
    (hcpu : (op (dummyReadPC s)).cpu = regs s.cpu) : ImpliedCompletes i regs s := by
  refine .of_exec ?_
  rw [h, hop, hcpu]
  rfl

/-- Settles O30: each transfer is one register write after the dummy read, with N and Z but for TXS. -/
theorem transfersCopyRegisters : Obligations.TransfersCopyRegisters := fun s =>
  ⟨.of_dummyReadPC (fun d => (d.setX s.cpu.a).setNZ s.cpu.a) rfl (fun _ => rfl) (transferX_cpu _ s),
    .of_dummyReadPC (fun d => (d.setY s.cpu.a).setNZ s.cpu.a) rfl (fun _ => rfl) (transferY_cpu _ s),
    .of_dummyReadPC (fun d => (d.setA s.cpu.x).setNZ s.cpu.x) rfl (fun _ => rfl) (transferA_cpu _ s),
    .of_dummyReadPC (fun d => (d.setA s.cpu.y).setNZ s.cpu.y) rfl (fun _ => rfl) (transferA_cpu _ s),
    .of_dummyReadPC (fun d => (d.setX s.cpu.sp).setNZ s.cpu.sp) rfl (fun _ => rfl) (transferX_cpu _ s),
    .of_dummyReadPC (fun d => d.setS s.cpu.x) rfl (fun _ => rfl) (State.setS_cpu (dummyReadPC_cpu s) _)⟩

/-! ### Pushes -/

/-- PHA and PHP push A and Pbyte after the dummy read of PC (42_transfer_stack R257, R258). -/
theorem exec_push {i : Instr} {v : Byte} {s : State} (h : (i = .pha ∧ v = s.cpu.a) ∨ (i = .php ∧ v = BitVec.ofBoolListBE
    [s.cpu.p.n, s.cpu.p.v, true, true, s.cpu.p.d, s.cpu.p.i, s.cpu.p.z, s.cpu.p.c])) :
    exec i s = .next (push v (dummyReadPC s)) := by
  obtain ⟨rfl, rfl⟩ | ⟨rfl, rfl⟩ := h
  · rfl
  · rw [← toByte_eq]
    rfl

/-- A push after the dummy read of PC is one store at 0x0100 + S, with S decremented (40_addressing_modes R196). -/
theorem push_dummyReadPC_eq (v : Byte) (s : State) : push v (dummyReadPC s) =
    (memWrite (0x0100#16 + s.cpu.sp.setWidth 16) v (dummyRead s.cpu.pc s)).setS (s.cpu.sp - 1) := by
  rw [push, dummyReadPC_cpu, stackAddr_eq, dummyReadPC]

/-! ### Pulls -/

/-- A pull as a form that reads its operand: two dummy reads, then the byte at 0x0100 + (S + 1) (42_transfer_stack R259). -/
def pullForm (i : Instr) : ReadForm :=
  (i, fun s => memRead (0x0100#16 + (s.cpu.sp + 1).setWidth 16)
    (dummyRead (0x0100#16 + s.cpu.sp.setWidth 16) (dummyRead s.cpu.pc s)), 3, fun _ => false)

theorem pullForm_seq (i : Instr) (s : State) : ReadSeq 3 false s ((pullForm i).2.1 s).2 :=
  ((dummyRead_seq _ s).trans (dummyRead_seq _ _)).trans (memRead_seq _ _)

/-- A pull reads its form's operand and leaves S incremented (40_addressing_modes R196). -/
theorem pull_dummyReads_eq (i : Instr) (s : State) : pull (dummyReadStack (dummyReadPC s)) =
    (((pullForm i).2.1 s).1, ((pullForm i).2.1 s).2.setS (((pullForm i).2.1 s).2.cpu.sp + 1)) := by
  rw [(pullForm_seq i s).cpu, pull_eq, State.setS_eq, (pullForm_seq i s).cpu]
  simp [pullForm, dummyReadStack, stackAddr_eq, dummyReadPC]

/-- A pull completes as its operation on the pulled byte says, the operation seeing S incremented. -/
theorem pullForm_completes {i : Instr} {regs : Byte → Cpu → Cpu} {s : State} (op : Byte × State → State)
    (h : exec i s = .next (op (pull (dummyReadStack (dummyReadPC s)))))
    (hop : ∀ r : Byte × State, op r = r.2.withCpu (regs r.1 r.2.cpu) r.2.result) :
    ReadCompletes (pullForm i) (fun v c => regs v { c with sp := c.sp + 1 }) s :=
  .of_exec (fun r => op (r.1, r.2.setS (r.2.cpu.sp + 1))) (h.trans (by rw [pull_dummyReads_eq i])) (fun _ => hop _)
    (pullForm_seq i s)

/-- A state that differs from another in the CPU alone also differs in no more than the CPU and the result record. -/
theorem eq_with_cpu_result {t u : State} (h : t = { u with cpu := t.cpu }) : t = { u with cpu := t.cpu, result := t.result } := by
  have hresult : t.result = u.result := by rw [h]
  rw [hresult]
  exact h

/-- Settles O31: a push is one store after the dummy read, a pull one read after two. -/
theorem pushesAndPulls : Obligations.PushesAndPulls := by
  intro s
  constructor
  · intro ea i v hi
    have k : StoreSeq 2 ea v s (memWrite ea v (dummyRead s.cpu.pc s)) :=
      storeAt_seq (ea := (ea, dummyRead s.cpu.pc s)) (dummyRead_seq s.cpu.pc s) v
    refine ⟨_, exec_push hi, ?_⟩
    rw [push_dummyReadPC_eq]
    generalize memWrite ea v (dummyRead s.cpu.pc s) = m at *
    exact ⟨rfl, State.setS_cpu k.cpu _, k.result, k.lastAccess, ram_stored k.ram, k.frame.setS _⟩
  · intro u r v
    have hpla : ReadCompletes (pullForm .pla) (fun v c => { c with a := v, sp := c.sp + 1, p := nz c.p v }) s :=
      pullForm_completes (regs := fun v c => { c with a := v, p := nz c.p v }) loadA rfl fun _ => rfl
    have hplp : ReadCompletes (pullForm .plp) (fun v c => { c with sp := c.sp + 1, p := Flags.ofByte v }) s :=
      pullForm_completes (regs := fun v c => { c with p := Flags.ofByte v }) (fun r => r.2.setP (Flags.ofByte r.1)) rfl
        fun _ => rfl
    obtain ⟨t, hexec, ht, hrest⟩ := hpla
    obtain ⟨t', hexec', ht', hrest'⟩ := hplp
    exact ⟨⟨t, hexec, eq_with_cpu_result ht, hrest⟩, t', hexec', eq_with_cpu_result ht', hrest'⟩

end Sys2Proof

/-! Arithmetic (43_arithmetic): the adder in exact arithmetic, decimal mode digit by digit and on BCD operands, and the forms of
the arithmetic instructions and the accumulator shifts, each one operation on an operand or a register. -/

namespace Sys2Proof

open Sys2Proof.Machine

/-! ### The binary adder -/

theorem carryNat_le_one (c : Bool) : carryNat c ≤ 1 := by cases c <;> decide

theorem getLsbD_seven_eq (v : Byte) : v.getLsbD 7 = decide (128 ≤ v.toNat) := v.msb_eq_decide

theorem toInt_eq_toNat_mod (v : Byte) : v.toInt = ((v.toNat + 128) % 256 : Nat) - 128 := by
  have hv := v.isLt
  rw [BitVec.toInt_eq_toNat_cond]
  split <;> omega

section Adder

variable (a b m : Byte) (c : Bool)

theorem addCore_value_toNat : (addCore a b c).value.toNat = (a.toNat + b.toNat + carryNat c) % 256 :=
  BitVec.toNat_ofNat _ _

/-- V by the signs: the operands' agree and the sum's is the other (43_arithmetic R280). -/
theorem addCore_overflow_iff : (addCore a b c).overflow = true ↔
    ((128 ≤ a.toNat ↔ 128 ≤ b.toNat) ∧ ¬(128 ≤ a.toNat ↔ 128 ≤ (addCore a b c).value.toNat)) := by
  have hbits : (addCore a b c).overflow =
      (!(a.getLsbD 7 ^^ b.getLsbD 7) && (a.getLsbD 7 ^^ (addCore a b c).value.getLsbD 7)) := by
    simp [addCore]
  rw [hbits, getLsbD_seven_eq, getLsbD_seven_eq, getLsbD_seven_eq]
  simp

/-- The signs disagree so exactly when the signed sum leaves -128..127. -/
theorem addCore_overflow_eq : (addCore a b c).overflow =
    decide (a.toInt + b.toInt + carryNat c < -128 ∨ 127 < a.toInt + b.toInt + carryNat c) := by
  have hc := carryNat_le_one c
  have ha := a.isLt
  have hb := b.isLt
  rw [Bool.eq_iff_iff, addCore_overflow_iff, addCore_value_toNat, decide_eq_true_eq, toInt_eq_toNat_mod, toInt_eq_toNat_mod]
  omega

/-- The operand that SBC adds (43_arithmetic R283). -/
theorem toNat_xor_ff : (m ^^^ 0xFF#8).toNat = 255 - m.toNat := by
  rw [show m ^^^ 0xFF#8 = ~~~m from BitVec.xor_allOnes, BitVec.toNat_not]

theorem toInt_xor_ff : (m ^^^ 0xFF#8).toInt = -1 - m.toInt := by
  have hm := m.isLt
  rw [toInt_eq_toNat_mod, toInt_eq_toNat_mod, toNat_xor_ff]
  omega

end Adder

section Mode

variable (a m : Byte) (p : Flags)

theorem adc_binary (hd : p.d = false) : adc a m p =
    let r := addCore a m p.c
    ⟨r.value, { p with c := r.carry, v := r.overflow }.setNZ r.value⟩ := by
  simp [adc, hd]

theorem sbc_binary (hd : p.d = false) : sbc a m p = adc a (m ^^^ 0xFF#8) p := by
  simp [adc, sbc, hd]

theorem adc_decimal (hd : p.d = true) : adc a m p = decimalAdd a m p := by simp [adc, hd]

theorem sbc_decimal_a (hd : p.d = true) : (sbc a m p).a = decimalSub a m p.c := by simp [sbc, hd]

theorem sbc_flags_of_decimal (hd : p.d = true) :
    (sbc a m p).p = { (sbc a m { p with d := false }).p with d := true } := by
  rw [← hd]
  rfl

/-- C is the inverted borrow, whatever D is (43_arithmetic R283, R284). -/
theorem sbc_carry : (sbc a m p).p.c = decide (m.toNat + (1 - carryNat p.c) ≤ a.toNat) := by
  have hc := carryNat_le_one p.c
  have hm := m.isLt
  simp only [sbc, Flags.setNZ_c, addCore, toNat_xor_ff, decide_eq_decide]
  omega

end Mode

/-- Settles O34: ADC is the adder, SBC the adder on the operand's complement, which is 255 - m unsigned and -1 - m signed. -/
theorem binaryAddAndSubtract : Obligations.BinaryAddAndSubtract := by
  intro a m p hd
  have hc := carryNat_le_one p.c
  constructor
  · intro r sum signed
    simp only [r, adc_binary a m p hd]
    exact ⟨addCore_value_toNat a m p.c, rfl, addCore_overflow_eq a m p.c, rfl, rfl, rfl, rfl⟩
  · intro r diff signed
    have hm := m.isLt
    have hcarry : r.p.c = decide (0 ≤ diff) := by
      rw [sbc_carry, decide_eq_decide]
      omega
    refine ⟨?_, hcarry, ?_, ?_⟩ <;> simp only [r, sbc_binary a m p hd, adc_binary a _ p hd]
    · rw [addCore_value_toNat, toNat_xor_ff]
      omega
    · rw [Flags.setNZ_v, addCore_overflow_eq, toInt_xor_ff, decide_eq_decide]
      omega
    · exact ⟨rfl, rfl, rfl, rfl⟩

/-! ### Decimal mode -/

section Decimal

variable (a m : Byte) (p : Flags) (c : Bool)

theorem highDigit_toNat : (highDigit a).toNat = 16 * (a.toNat / 16) := by
  revert a
  decide +kernel

theorem highDigit_toInt : (highDigit a).toInt = (16 * ((a.toNat / 16 + 8) % 16) : Nat) - 128 := by
  rw [toInt_eq_toNat_mod, highDigit_toNat]
  omega

/-- The sum after the low digit's adjustment (43_arithmetic R282). -/
def decimalSum : Nat := 16 * (a.toNat / 16) + 16 * (m.toNat / 16) + decimalLow a m c

theorem decimalSum_eq : decimalSum a m c = (highDigit a).toNat + (highDigit m).toNat + decimalLow a m c := by
  rw [decimalSum, highDigit_toNat, highDigit_toNat]

/-- The low digit of a decimal subtraction after its adjustment (43_arithmetic R284). -/
def decimalLowDiff : Int :=
  let dl : Int := (a.toNat % 16 : Nat) - (m.toNat % 16 : Nat) + carryNat c - 1
  if dl < 0 then (dl - 6) % 16 - 16 else dl

/-- The difference after the low digit's adjustment (43_arithmetic R284). -/
def decimalDiff : Int := (16 * (a.toNat / 16) : Nat) - (16 * (m.toNat / 16) : Nat) + decimalLowDiff a m c

theorem decimalAdd_a_toNat : (decimalAdd a m p).a.toNat =
    (if 0xA0 ≤ decimalSum a m p.c then decimalSum a m p.c + 0x60 else decimalSum a m p.c) % 256 := by
  rw [decimalAdd, ← decimalSum_eq]
  exact BitVec.toNat_ofNat _ _

theorem decimalAdd_n : (decimalAdd a m p).p.n = decide (128 ≤ decimalSum a m p.c % 256) := by
  simp only [decimalAdd, ← decimalSum_eq, Nat.testBit_eq_decide_div_mod_eq, decide_eq_decide]
  omega

theorem decimalAdd_z : (decimalAdd a m p).p.z = decide ((a.toNat + m.toNat + carryNat p.c) % 256 = 0) := by
  simp only [decimalAdd, Bool.beq_eq_decide_eq, ← BitVec.toNat_inj, BitVec.toNat_ofNat]

theorem decimalAdd_c : (decimalAdd a m p).p.c = decide (0xA0 ≤ decimalSum a m p.c) := by
  simp only [decimalAdd, ← decimalSum_eq, decide_eq_decide]
  split <;> omega

theorem decimalSub_toNat : ((decimalSub a m c).toNat : Int) =
    (if decimalDiff a m c < 0 then decimalDiff a m c - 0x60 else decimalDiff a m c) % 256 := by
  simp only [decimalSub, highDigit_toNat, BitVec.toNat_ofInt, decimalDiff, decimalLowDiff]
  exact Int.toNat_of_nonneg (Int.emod_nonneg _ (by decide))

/-! ### Decimal mode on valid operands -/

/-- The two decimal digits of a number below 100 in a byte. -/
def bcdByte (n : Nat) : Byte := BitVec.ofNat 8 (16 * (n / 10) + n % 10)

variable {x y n : Nat}

theorem bcdByte_toNat (h : n < 100) : (bcdByte n).toNat = 16 * (n / 10) + n % 10 := by
  rw [bcdByte, BitVec.toNat_ofNat]
  omega

theorem bcdByte_mod_toNat (n : Nat) : (bcdByte (n % 100)).toNat = 16 * (n / 10 % 10) + n % 10 := by
  rw [bcdByte_toNat (Nat.mod_lt _ (by decide)), Nat.mod_mul_right_div_self n 10 10, Nat.mod_mod_of_dvd n (by decide)]

/-- A decimal difference modulo 100, a negative one too. -/
theorem bcdByte_emod_toNat (n : Int) : ((bcdByte (n % 100).toNat).toNat : Int) = 16 * (n / 10 % 10) + n % 10 := by
  rw [bcdByte_toNat (by omega)]
  omega

/-- Adding 6 to the high digit from ten on leaves it modulo ten (43_arithmetic R282). -/
theorem highAdjustment_add {q r : Nat} (hq : q < 20) (hr : r < 10) :
    (if 0xA0 ≤ 16 * q + r then 16 * q + r + 0x60 else 16 * q + r) % 256 = 16 * (q % 10) + r := by
  split
  · have hmod : q % 10 = q - 10 := by omega
    omega
  · have hmod : q % 10 = q := by omega
    omega

/-- Taking 6 from a negative high digit leaves it modulo ten (43_arithmetic R284). -/
theorem highAdjustment_sub {q r : Int} (hq : -10 ≤ q ∧ q < 10) (hr : 0 ≤ r ∧ r < 10) :
    (if 16 * q + r < 0 then 16 * q + r - 0x60 else 16 * q + r) % 256 = 16 * (q % 10) + r := by
  split
  · have hmod : q % 10 = q + 10 := by omega
    omega
  · have hmod : q % 10 = q := by omega
    omega

/-- The low digits' decimal carry goes into the high digit (43_arithmetic R282). -/
theorem decimalSum_bcdByte (hx : x < 100) (hy : y < 100) : decimalSum (bcdByte x) (bcdByte y) c =
    16 * ((x + y + carryNat c) / 10) + (x + y + carryNat c) % 10 := by
  have hc := carryNat_le_one c
  simp only [decimalSum, decimalLow, bcdByte_toNat hx, bcdByte_toNat hy]
  split <;> omega

/-- The low digits' decimal borrow comes from the high digit (43_arithmetic R284). -/
theorem decimalDiff_bcdByte (hx : x < 100) (hy : y < 100) : decimalDiff (bcdByte x) (bcdByte y) c =
    16 * (((x : Int) - y - (1 - carryNat c)) / 10) + ((x : Int) - y - (1 - carryNat c)) % 10 := by
  have hc := carryNat_le_one c
  simp only [decimalDiff, decimalLowDiff, bcdByte_toNat hx, bcdByte_toNat hy]
  split <;> omega

theorem decimalAdd_bcdByte (hx : x < 100) (hy : y < 100) :
    (decimalAdd (bcdByte x) (bcdByte y) p).a = bcdByte ((x + y + carryNat p.c) % 100) ∧
      (decimalAdd (bcdByte x) (bcdByte y) p).p.c = decide (100 ≤ x + y + carryNat p.c) := by
  have hc := carryNat_le_one p.c
  constructor
  · apply BitVec.eq_of_toNat_eq
    rw [decimalAdd_a_toNat, decimalSum_bcdByte p.c hx hy, bcdByte_mod_toNat]
    exact highAdjustment_add (by omega) (by omega)
  · rw [decimalAdd_c, decimalSum_bcdByte p.c hx hy, decide_eq_decide]
    omega

theorem decimalSub_bcdByte (hx : x < 100) (hy : y < 100) :
    decimalSub (bcdByte x) (bcdByte y) c = bcdByte (((x : Int) - y - (1 - carryNat c)) % 100).toNat := by
  have hc := carryNat_le_one c
  apply BitVec.eq_of_toNat_eq
  rw [← Int.ofNat_inj, decimalSub_toNat, decimalDiff_bcdByte c hx hy, bcdByte_emod_toNat]
  exact highAdjustment_sub (by omega) (by omega)

/-- A decimal borrow occurs exactly when the binary subtraction of the two bytes borrows. -/
theorem sbc_carry_bcdByte (hx : x < 100) (hy : y < 100) :
    (sbc (bcdByte x) (bcdByte y) p).p.c = decide (y + (1 - carryNat p.c) ≤ x) := by
  have hc := carryNat_le_one p.c
  rw [sbc_carry, bcdByte_toNat hx, bcdByte_toNat hy, decide_eq_decide]
  omega

end Decimal

/-- Settles O35: each digit's adjustment carries or borrows at ten, and on BCD operands the adjusted digits are the decimal
result's. -/
theorem decimalAddAndSubtract : Obligations.DecimalAddAndSubtract := by
  constructor
  · intro a m p hd c hi signedHi lo al t st
    have ht : decimalSum a m p.c = t := rfl
    have hv : (decimalAdd a m p).p.v = decide (st < -128 ∨ 127 < st) := by
      simp only [decimalAdd, highDigit_toInt, Bool.decide_or]
      rfl
    rw [adc_decimal a m p hd, sbc_decimal_a a m p hd, ← ht, ← hv, ← decimalAdd_n, ← decimalAdd_z, ← decimalAdd_c]
    exact ⟨decimalAdd_a_toNat a m p, rfl, decimalSub_toNat a m p.c, sbc_flags_of_decimal a m p hd⟩
  · intro x y p hd bcd a m
    rw [adc_decimal a m p hd, sbc_decimal_a a m p hd]
    obtain ⟨hadd, hcarry⟩ := decimalAdd_bcdByte p x.isLt y.isLt
    exact ⟨hadd, hcarry, decimalSub_bcdByte p.c x.isLt y.isLt, sbc_carry_bcdByte p x.isLt y.isLt⟩

/-! ### The forms of ADC, SBC and the compares -/

section Forms

variable (b : Byte) (w : Word) (s : State)

theorem exec_adcForms : ∀ f ∈ adcForms b w, exec f.1 s = .next (addOperand (f.2.1 s)) := by
  simp only [adcForms, eightForms, List.forall_mem_cons, List.not_mem_nil, false_implies, implies_true, and_true]
  and_intros <;> rfl

theorem exec_sbcForms : ∀ f ∈ sbcForms b w, exec f.1 s = .next (subOperand (f.2.1 s)) := by
  simp only [sbcForms, eightForms, List.forall_mem_cons, List.not_mem_nil, false_implies, implies_true, and_true]
  and_intros <;> rfl

theorem exec_cmpForms : ∀ f ∈ cmpForms b w, exec f.1 s = .next (compareOperand s.cpu.a (f.2.1 s)) := by
  simp only [cmpForms, eightForms, List.forall_mem_cons, List.not_mem_nil, false_implies, implies_true, and_true]
  and_intros <;> rfl

end Forms

/-- Settles O33: each form gives the adder the operand its read sequence gives, and the adder changes A and P alone. -/
theorem addAndSubtractForms : Obligations.AddAndSubtractForms := fun b w s =>
  ⟨fun f hf => .of_exec addOperand (exec_adcForms b w s f hf) (fun _ => rfl) (eightForms_seq b w s f hf),
    fun f hf => .of_exec subOperand (exec_sbcForms b w s f hf) (fun _ => rfl) (eightForms_seq b w s f hf)⟩

/-- A form completes that compares a register, which its operand's cycles keep, with its operand (43_arithmetic R285). -/
theorem ReadCompletes.of_compare {f : ReadForm} {s : State} (reg : Cpu → Byte)
    (h : exec f.1 s = .next (compareOperand (reg s.cpu) (f.2.1 s))) (hs : ReadSeq f.2.2.1 (f.2.2.2 s) s (f.2.1 s).2) :
    ReadCompletes f (fun m c => { c with p := compareFlags (reg c) m c.p }) s :=
  .of_exec (fun r => compareOperand (reg r.2.cpu) r) (by rw [h, hs.cpu]) (fun _ => rfl) hs

/-- Settles O36: each form is one comparison of its register with the operand its read sequence gives. -/
theorem comparesSetFlags : Obligations.ComparesSetFlags := by
  intro b w s flags
  refine ⟨fun f hf => .of_compare Cpu.a (exec_cmpForms b w s f hf) (eightForms_seq b w s f hf), ?_, ?_⟩
  · simp only [cpxForms, List.forall_mem_cons, List.not_mem_nil, false_implies, implies_true, and_true]
    exact ⟨.of_compare Cpu.x rfl (.refl s), .of_compare Cpu.x rfl (readZp_seq b s), .of_compare Cpu.x rfl (readAbs_seq w s)⟩
  · simp only [cpyForms, List.forall_mem_cons, List.not_mem_nil, false_implies, implies_true, and_true]
    exact ⟨.of_compare Cpu.y rfl (.refl s), .of_compare Cpu.y rfl (readZp_seq b s), .of_compare Cpu.y rfl (readAbs_seq w s)⟩

/-! ### Counting and shifting a register -/

/-- An accumulator form completes as its shift says: A, N and Z from the shifted byte, C from the bit shifted out
(44_logic_shift R325 to R328). -/
theorem ImpliedCompletes.of_modifyA {i : Instr} {s : State} (op : Byte → Flags → ShiftResult)
    (out : Byte → Flags → Byte) (carry : Byte → Bool) (h : exec i s = .next (modifyA op s))
    (hop : ∀ v p, op v p = shifted (out v p) (carry v) p) :
    ImpliedCompletes i (fun c => { c with a := out c.a c.p, p := { nz c.p (out c.a c.p) with c := carry c.a } }) s :=
  .of_dummyReadPC (fun d => (d.setA (op d.cpu.a d.cpu.p).value).setP (op d.cpu.a d.cpu.p).p) h (fun _ => rfl)
    ((modifyA_cpu op s).trans (by rw [hop]; rfl))

/-- Settles O39: each instruction is one change of a register, N, Z and a shift's C after the dummy read of PC. -/
theorem registerModifyForms : Obligations.RegisterModifyForms := by
  intro s bit shiftA
  have hrol (v : Byte) (p : Flags) : Machine.rol v p = shifted (v <<< 1 ||| bit p.c) (v.getLsbD 7) p := by
    rw [Machine.rol, bitAt_zero]
  have hror (v : Byte) (p : Flags) : Machine.ror v p = shifted (v >>> 1 ||| bit p.c <<< 7) (v.getLsbD 0) p := by
    rw [Machine.ror, bitAt_seven]
  exact ⟨.of_dummyReadPC (fun d => (d.setX (s.cpu.x + 1)).setNZ (s.cpu.x + 1)) rfl (fun _ => rfl) (countX_cpu _ s),
    .of_dummyReadPC (fun d => (d.setY (s.cpu.y + 1)).setNZ (s.cpu.y + 1)) rfl (fun _ => rfl) (countY_cpu _ s),
    .of_dummyReadPC (fun d => (d.setX (s.cpu.x - 1)).setNZ (s.cpu.x - 1)) rfl (fun _ => rfl) (countX_cpu _ s),
    .of_dummyReadPC (fun d => (d.setY (s.cpu.y - 1)).setNZ (s.cpu.y - 1)) rfl (fun _ => rfl) (countY_cpu _ s),
    .of_modifyA Machine.asl (fun v _ => v <<< 1) (·.getLsbD 7) rfl fun _ _ => rfl,
    .of_modifyA Machine.lsr (fun v _ => v >>> 1) (·.getLsbD 0) rfl fun _ _ => rfl,
    .of_modifyA Machine.rol (fun v p => v <<< 1 ||| bit p.c) (·.getLsbD 7) rfl hrol,
    .of_modifyA Machine.ror (fun v p => v >>> 1 ||| bit p.c <<< 7) (·.getLsbD 0) rfl hror⟩

end Sys2Proof

/-! Logic and bit test (44_logic_shift): AND, ORA and EOR are one combination of A with the operand, BIT one test of it; the cycles
of the addressing mode, known from its read sequence, then complete the form. -/

namespace Sys2Proof

open Sys2Proof.Machine

/-- Every form of the three mnemonics is its one combination of A with the form's operand (44_logic_shift R321 to R323). -/
theorem exec_logicForms (b : Byte) (w : Word) (s : State) :
    (∀ f ∈ andForms b w, exec f.1 s = .next (combineA (· &&& ·) (f.2.1 s))) ∧
    (∀ f ∈ oraForms b w, exec f.1 s = .next (combineA (· ||| ·) (f.2.1 s))) ∧
    (∀ f ∈ eorForms b w, exec f.1 s = .next (combineA (· ^^^ ·) (f.2.1 s))) := by
  simp only [andForms, oraForms, eorForms, eightForms, List.forall_mem_cons, List.not_mem_nil, false_implies, implies_true,
    and_true]
  and_intros <;> rfl

/-- A form completes that combines A with its operand: A is the combination, N and Z its sign and zero (44_logic_shift R320). -/
theorem ReadCompletes.of_combineA {f : ReadForm} {s : State} (op : Byte → Byte → Byte)
    (h : exec f.1 s = .next (combineA op (f.2.1 s))) (hs : ReadSeq f.2.2.1 (f.2.2.2 s) s (f.2.1 s).2) :
    ReadCompletes f (fun m c => { c with a := op c.a m, p := nz c.p (op c.a m) }) s :=
  .of_exec (combineA op) h (fun _ => rfl) hs

/-- A form completes that tests its operand against A: P alone is written, as `bitFlags` says (44_logic_shift R324). -/
theorem ReadCompletes.of_testOperand {f : ReadForm} {s : State} (h : exec f.1 s = .next (testOperand (f.2.1 s)))
    (hs : ReadSeq f.2.2.1 (f.2.2.2 s) s (f.2.1 s).2) :
    ReadCompletes f (fun m c => { c with p := bitFlags c.a m c.p }) s :=
  .of_exec testOperand h (fun _ => rfl) hs

/-- Settles O37: each form combines A with, or tests, the operand its read sequence gives, and changes A and P at most. -/
theorem logicWritesA : Obligations.LogicWritesA := by
  intro b w s
  obtain ⟨hand, hora, heor⟩ := exec_logicForms b w s
  refine ⟨fun f hf => .of_combineA (· &&& ·) (hand f hf) (eightForms_seq b w s f hf),
    fun f hf => .of_combineA (· ||| ·) (hora f hf) (eightForms_seq b w s f hf),
    fun f hf => .of_combineA (· ^^^ ·) (heor f hf) (eightForms_seq b w s f hf), ?_⟩
  simp only [bitForms, List.forall_mem_cons, List.not_mem_nil, false_implies, implies_true, and_true]
  exact ⟨.of_testOperand rfl (readZp_seq b s), .of_testOperand rfl (readAbs_seq w s)⟩

end Sys2Proof

/-! Jumps, subroutine calls and branches (45_control): each operation is its bus cycles, which see neither the CPU's registers nor
the result record, and then one change of those two. -/

namespace Sys2Proof

open Sys2Proof.Machine

section Control

variable (s : State)

/-! ### Cycles under a change of the registers and the record -/

theorem dummyRead_withCpu (a : Word) (c : Cpu) (r : ResultRecord) :
    dummyRead a (s.withCpu c r) = (dummyRead a s).withCpu c { r with cycles := r.cycles + 1 } := by
  rw [dummyRead, memRead_withCpu, dummyRead]

theorem Machine.State.countByte_eq : s.countByte = s.withCpu s.cpu { s.result with bytes := s.result.bytes + 1 } := rfl
theorem Machine.State.markBug_eq (b : CpuBug) : s.markBug b = s.withCpu s.cpu { s.result with bug := some b } := rfl
theorem Machine.State.markCrossed_eq : s.markCrossed = s.withCpu s.cpu { s.result with pageCrossed := true } := rfl

variable {s}

/-- An instruction that answers the state `u` of its bus cycles with registers and a record of its own changes those two beside
what the cycles do, and has their frame. -/
theorem exec_completes_of_withCpu {i : Instr} {u v : State} {c : Cpu} {r : ResultRecord} {stores : List Word}
    (h : exec i s = .next v) (hv : v = u.withCpu c r) (hu : Frame stores s u) :
    ∃ t, exec i s = .next t ∧ t = { u with cpu := t.cpu, result := t.result } ∧ t.cpu = c ∧ t.result = r ∧
      Frame stores s t := by
  subst hv
  exact ⟨_, h, rfl, rfl, rfl, hu.trans_nil (.of_cpu _ _ _)⟩

variable (s)

/-! ### Jumps and subroutines -/

/-- JMP (abs) is its two reads, then PC and the mark (45_control R351). -/
theorem jumpIndirect_eq (w : Word) : jumpIndirect w s =
    let lo := memRead w s
    let hi := memRead (if w.toNat % 256 = 255 then w - 255#16 else w + 1#16) lo.2
    hi.2.withCpu { s.cpu with pc := hi.1 ++ lo.1 }
      { recordAfter s.result 2 false with bug := if w.toNat % 256 = 255 then some .jmpIndirectWrap else s.result.bug } := by
  obtain ⟨hnext, hlast⟩ := wrapped_next w
  simp only [jumpIndirect, hnext, hlast, State.markBug_eq, State.setPC_eq]
  by_cases h : w.toNat % 256 = 255 <;> simp [h, recordAfter, mkWord]

/-- JSR is the dummy read, the two stores and the read of its last byte, then S, PC and the record (45_control R352). -/
theorem callSubroutine_eq (l : Byte) : callSubroutine l s =
    let ea1 : Word := 0x0100#16 + s.cpu.sp.setWidth 16
    let ea2 : Word := 0x0100#16 + (s.cpu.sp - 1).setWidth 16
    let hi := memRead s.cpu.pc
      (memWrite ea2 (s.cpu.pc.setWidth 8) (memWrite ea1 ((s.cpu.pc >>> 8).setWidth 8) (dummyRead ea1 s)))
    hi.2.withCpu { s.cpu with sp := s.cpu.sp - 2, pc := hi.1 ++ l }
      { recordAfter s.result 4 false with bytes := s.result.bytes + 1 } := by
  have hsp : s.cpu.sp - 1#8 - 1#8 = s.cpu.sp - 2#8 := by bv_omega
  simp [callSubroutine, dummyReadStack, push_eq, memWrite_withCpu, memRead_withCpu, State.setPC_eq, State.countByte_eq,
    stackAddr_eq, hiByte_eq, loByte_eq, mkWord, recordAfter, hsp]

/-- RTS is its two dummy reads, the reads of its two pulls and the dummy read at the pulled address, then S, PC and the record
(45_control R353). -/
theorem returnSubroutine_eq : returnSubroutine s =
    let u := dummyRead (0x0100#16 + s.cpu.sp.setWidth 16) (dummyRead s.cpu.pc s)
    let lo := memRead (0x0100#16 + (s.cpu.sp + 1).setWidth 16) u
    let hi := memRead (0x0100#16 + (s.cpu.sp + 2).setWidth 16) lo.2
    (dummyRead (hi.1 ++ lo.1) hi.2).withCpu { s.cpu with sp := s.cpu.sp + 2, pc := (hi.1 ++ lo.1) + 1#16 }
      (recordAfter s.result 5 false) := by
  have hsp : s.cpu.sp + 1#8 + 1#8 = s.cpu.sp + 2#8 := by bv_omega
  simp [returnSubroutine, dummyReadStack, dummyReadPC, pull_eq, memRead_withCpu, dummyRead_withCpu, State.setPC_eq,
    stackAddr_eq, mkWord, recordAfter, hsp]

/-! ### Branches -/

/-- The eight branches by an offset, each with its condition on P (45_control R355 to R362). -/
def branchForms (off : Byte) (p : Flags) : List (Instr × Bool) :=
  [(.bcc off, !p.c), (.bcs off, p.c), (.beq off, p.z), (.bne off, !p.z), (.bmi off, p.n), (.bpl off, !p.n), (.bvc off, !p.v),
    (.bvs off, p.v)]

/-- Every branch is the common rule under its condition. -/
theorem exec_branchForms (off : Byte) : ∀ f ∈ branchForms off s.cpu.p, exec f.1 s = .next (branchIf f.2 off s) := by
  simp only [branchForms, List.forall_mem_cons, List.not_mem_nil, false_implies, implies_true, and_true]
  and_intros <;> rfl

/-- Whether a branch leads out of the page of the instruction after it. -/
def branchCrosses (target : Word) : Bool := decide (target.toNat / 256 ≠ s.cpu.pc.toNat / 256)

/-- The cycles of a taken branch: a dummy read after it, and for a target in another page a second one in the old page
(45_control R354). -/
def branchReads (target : Word) : State :=
  if branchCrosses s target then dummyRead (s.cpu.pc.extractLsb' 8 8 ++ target.extractLsb' 0 8) (dummyRead s.cpu.pc s)
  else dummyRead s.cpu.pc s

theorem branchReads_Frame (target : Word) : Frame [] s (branchReads s target) := by
  have h := dummyRead_Frame s.cpu.pc s
  unfold branchReads
  split
  · exact h.trans_nil (dummyRead_Frame _ _)
  · exact h

theorem mkWord_of_same_page {t n : Word} (h : t.toNat / 256 = n.toNat / 256) : mkWord (hiByte n) (loByte t) = t := by
  rw [← (hiByte_eq_iff n t).2 h, mkWord_halves]

/-- A taken branch is its dummy reads, then PC and the record (45_control R354). -/
theorem branchIf_true (off : Byte) : branchIf true off s =
    let target := s.cpu.pc + off.signExtend 16
    (branchReads s target).withCpu { s.cpu with pc := target } (recordAfter s.result 1 (branchCrosses s target)) := by
  simp only [branchIf, branchReads, branchCrosses, branchTarget, sext16, hiByte_eq_iff, if_true]
  generalize s.cpu.pc + off.signExtend 16 = target
  by_cases h : target.toNat / 256 = s.cpu.pc.toNat / 256
  · simp [h, mkWord_of_same_page, State.setPC_eq, recordAfter]
  · simp [h, State.setPC_eq, State.markCrossed_eq, dummyRead_withCpu, recordAfter, mkWord, hiByte, loByte]

end Control

/-! ### The statements about control (45_control) -/

/-- Settles O41: JMP abs writes PC alone, and JMP (abs) writes it after the pointer's two reads. -/
theorem jumpsSetPc : Obligations.JumpsSetPc := by
  intro w s
  refine ⟨⟨_, rfl, rfl, .of_cpu _ _ _⟩, ?_⟩
  intro lo hi
  exact exec_completes_of_withCpu (u := hi.2) rfl (jumpIndirect_eq s w) ((memRead_Frame _ s).trans_nil (memRead_Frame _ _))

/-- Settles O42: the cycles of JSR store at the two pushed addresses, those of RTS only read. -/
theorem subroutineCallAndReturn : Obligations.SubroutineCallAndReturn := by
  intro w s
  constructor
  · intro ea1 ea2 u hi
    have hu : Frame [ea1, ea2] s u :=
      ((dummyRead_Frame _ s).nil_trans (memWrite_Frame _ _ _)).trans (memWrite_Frame _ _ _)
    exact exec_completes_of_withCpu (u := hi.2) rfl (loByte_eq w ▸ callSubroutine_eq s (loByte w))
      (hu.trans_nil (memRead_Frame _ _))
  · intro u lo hi
    have hu : Frame [] s u := (dummyRead_Frame _ s).trans_nil (dummyRead_Frame _ _)
    have hhi : Frame [] s hi.2 := (hu.trans_nil (memRead_Frame _ _)).trans_nil (memRead_Frame _ _)
    exact exec_completes_of_withCpu (u := dummyRead (hi.1 ++ lo.1) hi.2) rfl (returnSubroutine_eq s)
      (hhi.trans_nil (dummyRead_Frame _ _))

/-- Settles O44: each branch is the common rule under its condition, and the rule's cycles only read. -/
theorem branchesFollowCondition : Obligations.BranchesFollowCondition := by
  intro off s p target crossed i cond hi
  have hexec : exec i s = .next (branchIf cond off s) := exec_branchForms s off (i, cond) hi
  constructor
  · rintro rfl
    exact hexec
  · rintro rfl
    obtain ⟨t, ht, hstate, hcpu, hresult, hframe⟩ :=
      exec_completes_of_withCpu hexec (branchIf_true s off) (branchReads_Frame s target)
    exact ⟨t, ht, hcpu, hstate, hresult, hframe⟩

end Sys2Proof

/-! Flag instructions, BRK and RTI (46_flags_system): a flag instruction writes P after the dummy read of PC; the trap's entry and
the return from it are their bus cycles and then one change of the registers and the record. -/

namespace Sys2Proof

open Sys2Proof.Machine

/-! ### Flag instructions -/

/-- A flag instruction completes with P as its one write makes it and the other registers kept (46_flags_system R380). -/
theorem ImpliedCompletes.of_setFlag {i : Instr} {s : State} (f : Flags → Flags) (h : exec i s = .next (setFlag f s)) :
    ImpliedCompletes i (fun c => { c with p := f c.p }) s :=
  .of_dummyReadPC (fun d => d.setP (f d.cpu.p)) h (fun _ => rfl) (setFlag_cpu f s)

/-- Settles O40: each flag instruction is one write of P after the dummy read of PC, NOP that read alone. -/
theorem flagInstructionsWriteOneFlag : Obligations.FlagInstructionsWriteOneFlag := fun s =>
  ⟨.of_setFlag (fun p => { p with c := false }) rfl, .of_setFlag (fun p => { p with d := false }) rfl,
    .of_setFlag (fun p => { p with i := false }) rfl, .of_setFlag (fun p => { p with v := false }) rfl,
    .of_setFlag (fun p => { p with c := true }) rfl, .of_setFlag (fun p => { p with d := true }) rfl,
    .of_setFlag (fun p => { p with i := true }) rfl, .of_dummyReadPC id rfl (fun _ => rfl) (dummyReadPC_cpu s)⟩

/-! ### The trap -/

/-- BRK is the padding byte's dummy read, the three stores below S and the vector's two reads, then S, PC, I and the record
(46_flags_system R389, 60_exceptions R442). -/
theorem takeTrap_skipPadding_eq (s : State) : takeTrap (skipPadding s) =
    let ret := s.cpu.pc + 1#16
    let ea := fun (k : Byte) => (0x0100#16 + (s.cpu.sp - k).setWidth 16 : Word)
    let u := memWrite (ea 2) s.cpu.p.toByte
      (memWrite (ea 1) (ret.setWidth 8) (memWrite (ea 0) ((ret >>> 8).setWidth 8) (dummyRead s.cpu.pc s)))
    let lo := memRead 0xFFFE#16 u
    let hi := memRead 0xFFFF#16 lo.2
    hi.2.withCpu { s.cpu with sp := s.cpu.sp - 3, pc := hi.1 ++ lo.1, p := { s.cpu.p with i := true } }
      (recordAfter s.result 6 false) := by
  have hsp2 : s.cpu.sp - 1#8 - 1#8 = s.cpu.sp - 2#8 := by bv_omega
  have hsp3 : s.cpu.sp - 2#8 - 1#8 = s.cpu.sp - 3#8 := by bv_omega
  simp [takeTrap, skipPadding, dummyReadPC, push_eq, memWrite_withCpu, memRead_withCpu, State.setPC_eq, State.setP_eq,
    stackAddr_eq, hiByte_eq, loByte_eq, mkWord, recordAfter, hsp2, hsp3]

/-- RTI is its two dummy reads and the reads of its three pulls, then S, P, PC and the record (46_flags_system R390,
60_exceptions R443). -/
theorem returnFromTrap_dummyReadPC_eq (s : State) : returnFromTrap (dummyReadPC s) =
    let u := dummyRead (0x0100#16 + s.cpu.sp.setWidth 16) (dummyRead s.cpu.pc s)
    let v := memRead (0x0100#16 + (s.cpu.sp + 1).setWidth 16) u
    let lo := memRead (0x0100#16 + (s.cpu.sp + 2).setWidth 16) v.2
    let hi := memRead (0x0100#16 + (s.cpu.sp + 3).setWidth 16) lo.2
    hi.2.withCpu { s.cpu with sp := s.cpu.sp + 3, pc := hi.1 ++ lo.1, p := Flags.ofByte v.1 } (recordAfter s.result 5 false) := by
  have hsp2 : s.cpu.sp + 1#8 + 1#8 = s.cpu.sp + 2#8 := by bv_omega
  have hsp3 : s.cpu.sp + 2#8 + 1#8 = s.cpu.sp + 3#8 := by bv_omega
  simp [returnFromTrap, dummyReadStack, dummyReadPC, pull_eq, memRead_withCpu, State.setPC_eq, State.setP_eq, stackAddr_eq,
    mkWord, recordAfter, hsp2, hsp3]

/-- Settles O45: the cycles of BRK store at the three pushed addresses, those of RTI only read. -/
theorem brkAndRti : Obligations.BrkAndRti := by
  intro s
  constructor
  · intro ret ea pbyte u lo hi
    have hpush : Frame [ea 0] s (memWrite (ea 0) ((ret >>> 8).setWidth 8) (dummyRead s.cpu.pc s)) :=
      (dummyRead_Frame _ s).nil_trans (memWrite_Frame _ _ _)
    have hu : Frame [ea 0, ea 1, ea 2] s u := (hpush.trans (memWrite_Frame _ _ _)).trans (memWrite_Frame _ _ _)
    have hstate := takeTrap_skipPadding_eq s
    rw [toByte_eq] at hstate
    exact exec_completes_of_withCpu (u := hi.2) rfl hstate
      ((hu.trans_nil (memRead_Frame _ _)).trans_nil (memRead_Frame _ _))
  · intro u v lo hi
    have hu : Frame [] s u := (dummyRead_Frame _ s).trans_nil (dummyRead_Frame _ _)
    have hlo : Frame [] s lo.2 := (hu.trans_nil (memRead_Frame _ _)).trans_nil (memRead_Frame _ _)
    exact exec_completes_of_withCpu (u := hi.2) rfl (returnFromTrap_dummyReadPC_eq s) (hlo.trans_nil (memRead_Frame _ _))

end Sys2Proof

/-! Exceptions, faults and reports (60_exceptions): what a fetch and an instruction leave in the result record; what every step
keeps; where the I flag is read; the writes and the stops that are reported. -/

namespace Sys2Proof

open Sys2Proof.Machine

/-! ### The result record after the fetch -/

/-- The bytes of an instruction that its fetch reads: JSR's third is read by JSR itself (45_control R352; log 12). -/
def fetchedBytes (i : Instr) : Nat := if readsHighLate (opcodeOf i) then 2 else (encode i).length

/-- The result record of a fetched instruction: its opcode's row, and one cycle a byte (40_addressing_modes R182). -/
def fetchedRecord (i : Instr) : ResultRecord :=
  { opcode := some (opcodeOf i), defn := opcodeTable (opcodeOf i), bytes := fetchedBytes i, cycles := fetchedBytes i,
    pageCrossed := false, bug := none, final := false }

/-- The result record after `n` more of the instruction's own bytes. -/
def recordBytes (r : ResultRecord) (n : Nat) : ResultRecord := { r with bytes := r.bytes + n, cycles := r.cycles + n }

theorem fetchByte_result (s : State) : (fetchByte s).2.result = recordBytes s.result 1 := by
  obtain ⟨-, -, h, -⟩ := fetchByte_facts s
  exact h

theorem fetchOpcode_result (s : State) : (fetchOpcode s).2.result =
    { opcode := some (fetchOpcode s).1, defn := opcodeTable (fetchOpcode s).1, bytes := 1, cycles := 1, pageCrossed := false,
      bug := none, final := false } := by
  simp [fetchOpcode, recordOpcode, fetchByte_result, recordBytes, beginInstr]

section Fetched

variable {op : Byte} {f : OpForm} {args : List Byte} {i : Instr}

theorem opcodeOf_of_completes (hf : opForm op = some f) (hc : f.Completes args i) : opcodeOf i = op := by
  rw [opcodeOf, encode_of_completes hf hc, List.headD_cons]

/-- The operand bytes are fetched one by one, JSR's second left out. -/
theorem fetchOperands_result (hf : opForm op = some f) (hc : f.Completes args i) (t : State) :
    ∃ n, n + 1 = fetchedBytes i ∧ (fetchOperands op t).2.result = recordBytes t.result n := by
  rw [fetchedBytes, opcodeOf_of_completes hf hc, encode_of_completes hf hc]
  have hjsr (h : readsHighLate op = true) : opForm op = some (.word .jsr) := by
    rw [beq_iff_eq.1 h]; rfl
  cases hc with
  | done =>
    have hlate : readsHighLate op = false := Bool.eq_false_iff.2 fun h => by rw [hjsr h] at hf; cases hf
    exact ⟨0, by simp [hlate], by simp [fetchOperands, operandCount, hf, recordBytes]⟩
  | byte =>
    have hlate : readsHighLate op = false := Bool.eq_false_iff.2 fun h => by rw [hjsr h] at hf; cases hf
    exact ⟨1, by simp [hlate], by simp [fetchOperands, operandCount, hf, fetchByte_result]⟩
  | word =>
    cases hlate : readsHighLate op with
    | true => exact ⟨1, by simp, by simp [fetchOperands, operandCount, hf, hlate, fetchByte_result]⟩
    | false => exact ⟨2, by simp, by simp [fetchOperands, operandCount, hf, hlate, fetchByte_result, recordBytes]⟩

/-- Whatever the bus gives, the fetch of an instruction leaves that instruction's record. -/
theorem fetchInstr_result {s u : State} (h : fetchInstr s = (some i, u)) : u.result = fetchedRecord i := by
  simp only [fetchInstr] at h
  split at h
  · next rest hdec =>
    obtain ⟨f, args, hf, hc, -⟩ := decode_cons_iff.1 hdec
    obtain ⟨n, hn, hresult⟩ := fetchOperands_result hf hc (fetchOpcode s).2
    cases h
    rw [hresult, fetchOpcode_result, recordBytes, fetchedRecord, opcodeOf_of_completes hf hc, ← hn, Nat.add_comm n 1]
  · cases h

end Fetched

/-! ### The result record after an operation -/

section Records

variable (a v : Byte) (w : Word) (s : State) (r : Byte × State)

@[simp] theorem readZp_result : (readZp a s).2.result = recordAfter s.result 1 false := (readZp_seq a s).result
@[simp] theorem readZpx_result : (readZpx a s).2.result = recordAfter s.result 2 false := (readZpx_seq a s).result
@[simp] theorem readZpy_result : (readZpy a s).2.result = recordAfter s.result 2 false := (readZpy_seq a s).result
@[simp] theorem readAbs_result : (readAbs w s).2.result = recordAfter s.result 1 false := (readAbs_seq w s).result
@[simp] theorem readAbsx_result : (readAbsx w s).2.result = recordAfter s.result 1 (crosses w s.cpu.x) :=
  (readAbsx_seq w s).result
@[simp] theorem readAbsy_result : (readAbsy w s).2.result = recordAfter s.result 1 (crosses w s.cpu.y) :=
  (readAbsy_seq w s).result
@[simp] theorem readIndx_result : (readIndx a s).2.result = recordAfter s.result 4 false := (readIndx_seq a s).result
@[simp] theorem readIndy_result :
    (readIndy a s).2.result = recordAfter s.result 3 (crosses (readPointer a s).1 s.cpu.y) := (readIndy_seq a s).result

@[simp] theorem loadA_result : (loadA r).result = r.2.result := rfl
@[simp] theorem loadX_result : (loadX r).result = r.2.result := rfl
@[simp] theorem loadY_result : (loadY r).result = r.2.result := rfl
@[simp] theorem addOperand_result : (addOperand r).result = r.2.result := rfl
@[simp] theorem subOperand_result : (subOperand r).result = r.2.result := rfl
@[simp] theorem combineA_result (f : Byte → Byte → Byte) : (combineA f r).result = r.2.result := rfl
@[simp] theorem testOperand_result : (testOperand r).result = r.2.result := rfl
@[simp] theorem compareOperand_result : (compareOperand v r).result = r.2.result := rfl

@[simp] theorem eaZp_result : (eaZp a s).2.result = s.result := rfl
@[simp] theorem eaAbs_result : (eaAbs w s).2.result = s.result := rfl
@[simp] theorem eaZpx_result : (eaZpx a s).2.result = recordAfter s.result 1 false := (eaZpIndexed_seq a _ s).result
@[simp] theorem eaZpy_result : (eaZpy a s).2.result = recordAfter s.result 1 false := (eaZpIndexed_seq a _ s).result
@[simp] theorem eaAbsx_result : (eaAbsx w s).2.result = recordAfter s.result 1 false := (eaFixed_seq w _ s).result
@[simp] theorem eaAbsy_result : (eaAbsy w s).2.result = recordAfter s.result 1 false := (eaFixed_seq w _ s).result
@[simp] theorem eaIndx_result : (eaIndx a s).2.result = recordAfter s.result 3 false := (eaIndx_seq a s).result
@[simp] theorem eaIndy_result : (eaIndy a s).2.result = recordAfter s.result 3 false := (eaIndy_seq a s).result

@[simp] theorem storeAt_result (ea : Word × State) : (storeAt v ea).result = recordAfter ea.2.result 1 false :=
  (storeAt_seq (.refl ea.2) v).result

/-- A read-modify-write tail is three cycles, and marks its double write (40_addressing_modes R187). -/
theorem modifyAt_result (f : Byte → Flags → ShiftResult) (ea : Word × State) :
    (modifyAt f ea).result = { recordAfter ea.2.result 3 false with bug := some .rmwDoubleWrite } := by
  simp [modifyAt, State.markBug, recordAfter]

@[simp] theorem modifyA_result (f : Byte → Flags → ShiftResult) : (modifyA f s).result = recordAfter s.result 1 false := by
  simp [modifyA, recordAfter]

@[simp] theorem transferA_result : (transferA v s).result = recordAfter s.result 1 false := by
  simp [transferA, recordAfter]
@[simp] theorem transferX_result : (transferX v s).result = recordAfter s.result 1 false := by
  simp [transferX, recordAfter]
@[simp] theorem transferY_result : (transferY v s).result = recordAfter s.result 1 false := by
  simp [transferY, recordAfter]
@[simp] theorem countX_result : (countX v s).result = recordAfter s.result 1 false := by
  simp [countX, recordAfter]
@[simp] theorem countY_result : (countY v s).result = recordAfter s.result 1 false := by
  simp [countY, recordAfter]
@[simp] theorem setFlag_result (f : Flags → Flags) : (setFlag f s).result = recordAfter s.result 1 false := by
  simp [setFlag, recordAfter]

@[simp] theorem pullA_result : (pullA s).result = recordAfter s.result 3 false := by simp [pullA, recordAfter]
@[simp] theorem pullP_result : (pullP s).result = recordAfter s.result 3 false := by simp [pullP, recordAfter]

end Records

/-! ### The post-condition -/

/-- A bug mark only weakens the post-condition on the cycles (60_exceptions R465). -/
theorem resultValid_bug {r : ResultRecord} (hr : r.bug = none) (h : resultValid r = true) (b : Option CpuBug) :
    resultValid { r with bug := b } = true := by
  revert h
  simp only [resultValid, hr]
  cases r.defn with
  | none => exact id
  | some d => cases b <;> simp +contextual

section PostCondition

variable {i : Instr} {d : InstrDef} {s t u : State} {n : Nat} {crossed : Bool}

/-- The post-condition holds after as many cycles as the row says, with one more for a crossed page where the row is
page-sensitive (60_exceptions R465). -/
theorem recordAfter_valid (hd : opcodeTable (opcodeOf i) = some d) (hbytes : fetchedBytes i = d.bytes)
    (hcycles : d.bytes + n = d.cycles) (hbranch : d.branch = false) (hcrossed : crossed = true → d.pageSensitive = true) :
    resultValid (recordAfter (fetchedRecord i) n crossed) = true := by
  cases crossed <;> simp_all [resultValid, recordAfter, fetchedRecord]

/-- An instruction meets the post-condition when the state it answers holds a record that does. -/
theorem resultValid_of_next (h : Host.Outcome.next u = (.next t : Host.Outcome State Fault Refusal))
    (hu : resultValid u.result = true) : resultValid t.result = true := Host.Outcome.next.inj h ▸ hu

theorem valid_of_next (n : Nat) (crossed : Bool) (hs : s.result = fetchedRecord i)
    (h : Host.Outcome.next u = (.next t : Host.Outcome State Fault Refusal)) (hu : u.result = recordAfter s.result n crossed)
    (hd : opcodeTable (opcodeOf i) = some d) (hbytes : fetchedBytes i = d.bytes)
    (hcycles : d.bytes + n = d.cycles) (hbranch : d.branch = false) (hcrossed : crossed = true → d.pageSensitive = true) :
    resultValid t.result = true :=
  resultValid_of_next h (by rw [hu, hs]; exact recordAfter_valid hd hbytes hcycles hbranch hcrossed)

/-- A read-modify-write form: the cycles of its address and three more, the double write marked. -/
theorem valid_of_modify (n : Nat) {f : Byte → Flags → ShiftResult} {ea : Word × State} (hs : s.result = fetchedRecord i)
    (h : Host.Outcome.next (modifyAt f ea) = (.next t : Host.Outcome State Fault Refusal))
    (hea : ea.2.result = recordAfter s.result n false) (hd : opcodeTable (opcodeOf i) = some d)
    (hbytes : fetchedBytes i = d.bytes) (hcycles : d.bytes + (n + 3) = d.cycles) (hbranch : d.branch = false) :
    resultValid t.result = true := by
  refine resultValid_of_next h ?_
  have hadd : recordAfter (recordAfter (fetchedRecord i) n false) 3 false = recordAfter (fetchedRecord i) (n + 3) false := by
    simp [recordAfter, Nat.add_assoc]
  rw [modifyAt_result, hea, hs, hadd]
  exact resultValid_bug rfl (recordAfter_valid (crossed := false) hd hbytes hcycles hbranch nofun) _

/-- A branch: none, one or two cycles more, as it is taken and crosses a page (45_control R354). -/
theorem valid_of_branch {c : Bool} {off : Byte} (hs : s.result = fetchedRecord i)
    (h : Host.Outcome.next (branchIf c off s) = (.next t : Host.Outcome State Fault Refusal))
    (hd : opcodeTable (opcodeOf i) = some d) (hbytes : fetchedBytes i = d.bytes) (hcycles : d.bytes = d.cycles)
    (hbranch : d.branch = true) : resultValid t.result = true := by
  refine resultValid_of_next h ?_
  cases c with
  | false =>
    have hstay : branchIf false off s = s := rfl
    simp [hstay, hs, resultValid, fetchedRecord, hd, hbytes, hcycles, hbranch]
  | true =>
    simp only [branchIf_true, State.withCpu_result, hs]
    cases branchCrosses s (s.cpu.pc + off.signExtend 16) <;>
      simp [recordAfter, resultValid, fetchedRecord, hd, hbytes, hcycles, hbranch]

end PostCondition

/-- Every instruction, begun with the record its fetch leaves, meets the post-condition: one case per number of cycles after
the fetch and per way to add to them (40_addressing_modes R193 to R195). -/
theorem exec_resultValid {i : Instr} {s t : State} (hs : s.result = fetchedRecord i) (h : exec i s = .next t) :
    resultValid t.result = true := by
  cases i with
  | ldaImm | ldxImm | ldyImm | adcImm | sbcImm | cmpImm | cpxImm | cpyImm | andImm | oraImm | eorImm | jmpAbs =>
    exact valid_of_next 0 false hs h (by simp [recordAfter]) rfl rfl rfl rfl nofun
  | ldaZp | ldxZp | ldyZp | adcZp | sbcZp | cmpZp | cpxZp | cpyZp | andZp | oraZp | eorZp | bitZp | ldaAbs | ldxAbs
  | ldyAbs | adcAbs | sbcAbs | cmpAbs | cpxAbs | cpyAbs | andAbs | oraAbs | eorAbs | bitAbs | staZp | stxZp | styZp
  | staAbs | stxAbs | styAbs | aslAcc | lsrAcc | rolAcc | rorAcc | txa | tya | tax | tsx | tay | txs | inx | dex | iny
  | dey | clc | cld | cli | clv | sec | sed | sei | nop =>
    exact valid_of_next 1 false hs h (by simp [recordAfter]) rfl rfl rfl rfl nofun
  | ldaZpx | ldxZpy | ldyZpx | adcZpx | sbcZpx | cmpZpx | andZpx | oraZpx | eorZpx | staZpx | stxZpy | styZpx | staAbsx
  | staAbsy | pha | php =>
    exact valid_of_next 2 false hs h (by simp [recordAfter]) rfl rfl rfl rfl nofun
  | pla | plp => exact valid_of_next 3 false hs h (by simp) rfl rfl rfl rfl nofun
  | ldaIndx | adcIndx | sbcIndx | cmpIndx | andIndx | oraIndx | eorIndx | staIndx | staIndy =>
    exact valid_of_next 4 false hs h (by simp [recordAfter]) rfl rfl rfl rfl nofun
  | rts => exact valid_of_next 5 false hs h (by rw [returnSubroutine_eq]; rfl) rfl rfl rfl rfl nofun
  | rti => exact valid_of_next 5 false hs h (by rw [returnFromTrap_dummyReadPC_eq]; rfl) rfl rfl rfl rfl nofun
  | brk => exact valid_of_next 6 false hs h (by rw [takeTrap_skipPadding_eq]; rfl) rfl rfl rfl rfl nofun
  | ldaAbsx w | ldyAbsx w | adcAbsx w | sbcAbsx w | cmpAbsx w | andAbsx w | oraAbsx w | eorAbsx w =>
    exact valid_of_next 1 (crosses w s.cpu.x) hs h (by simp) rfl rfl rfl rfl fun _ => rfl
  | ldaAbsy w | ldxAbsy w | adcAbsy w | sbcAbsy w | cmpAbsy w | andAbsy w | oraAbsy w | eorAbsy w =>
    exact valid_of_next 1 (crosses w s.cpu.y) hs h (by simp) rfl rfl rfl rfl fun _ => rfl
  | ldaIndy p | adcIndy p | sbcIndy p | cmpIndy p | andIndy p | oraIndy p | eorIndy p =>
    exact valid_of_next 3 (crosses (readPointer p s).1 s.cpu.y) hs h (by simp) rfl rfl rfl rfl fun _ => rfl
  | incZp | incAbs | decZp | decAbs | aslZp | aslAbs | lsrZp | lsrAbs | rolZp | rolAbs | rorZp | rorAbs =>
    exact valid_of_modify 0 hs h (by simp [recordAfter]) rfl rfl rfl rfl
  | incZpx | incAbsx | decZpx | decAbsx | aslZpx | aslAbsx | lsrZpx | lsrAbsx | rolZpx | rolAbsx | rorZpx | rorAbsx =>
    exact valid_of_modify 1 hs h (by simp) rfl rfl rfl rfl
  | bcc | bcs | beq | bmi | bne | bpl | bvc | bvs => exact valid_of_branch hs h rfl rfl rfl rfl
  | jmpInd w =>
    refine resultValid_of_next h ?_
    rw [jumpIndirect_eq]
    simp only [State.withCpu_result, hs]
    exact resultValid_bug (r := recordAfter (fetchedRecord (.jmpInd w)) 2 false) rfl rfl _
  | jsr w =>
    refine resultValid_of_next h ?_
    rw [callSubroutine_eq]
    simp only [State.withCpu_result, hs]
    rfl

theorem finishInstr_of_valid {s : State} (h : resultValid s.result = true) :
    finishInstr s = { s with result := { s.result with final := true } } := if_pos h

/-- Settles O13: the fetch leaves the record of the instruction it gives, with which the instruction meets the post-condition. -/
theorem everyResultIsValid : Obligations.EveryResultIsValid := by
  intro s u t i hfetch hexec
  have hvalid := exec_resultValid (fetchInstr_result hfetch) hexec
  exact ⟨hvalid, finishInstr_of_valid hvalid⟩

/-! ### The invariant (60_exceptions R467) -/

theorem machineInv_withCpu (s : State) (c : Cpu) (r : ResultRecord) : MachineInv (s.withCpu c r) ↔ MachineInv s := Iff.rfl

theorem machineInv_raise (s : State) (f : Fault) : MachineInv (s.raise f) ↔ MachineInv s := Iff.rfl

/-- Keeping the invariant holds across each change an instruction is made of. -/
theorem closed_machineInv : Closed (fun s t => MachineInv s → MachineInv t) where
  refl _ := id
  trans h k := k ∘ h
  cpu s c r _ _ := (machineInv_withCpu s c r).2
  read a _ := busRead_ok a
  write a v _ := busWrite_ok a v
  cycle _ := endCycle_ok

/-- Settles O4: each change a step is made of keeps the invariant, and the invariant rules out what a step checks. -/
theorem everyStepKeepsInvariant : Obligations.EveryStepKeepsInvariant :=
  ⟨fun _ _ hs h => closed_machineInv.step (fun s r => (machineInv_withCpu s s.cpu r).2) (fun s f => (machineInv_raise s f).2) h hs,
    fun _ => running_of_inv⟩

/-! ### What every step keeps -/

/-- What no step changes, the report log, which only grows, and the clocks, which run in step. -/
structure StepKept (s t : State) : Prop where
  inputs : t.inputs = s.inputs
  params : t.params = s.params
  mapper : t.cart.mapper = s.cart.mapper
  size : t.cart.size = s.cart.size
  image : ∀ k, t.cart.image.read k = s.cart.image.read k
  reports : s.reports <+: t.reports
  clocks : t.colorClock + 3 * s.cpuCycles = s.colorClock + 3 * t.cpuCycles
  later : s.cpuCycles ≤ t.cpuCycles
  accesses : s.lastAccessId ≤ t.lastAccessId

theorem Frame.stepKept {l : List Word} {s t : State} (h : Frame l s t) : StepKept s t :=
  ⟨h.inputs, h.params, h.mapper, h.size, h.image, h.reports, h.clocks, h.later, h.accesses⟩

theorem StepKept.trans {s t u : State} (h : StepKept s t) (k : StepKept t u) : StepKept s u where
  inputs := k.inputs.trans h.inputs
  params := k.params.trans h.params
  mapper := k.mapper.trans h.mapper
  size := k.size.trans h.size
  image n := (k.image n).trans (h.image n)
  reports := h.reports.trans k.reports
  clocks := by have := h.clocks; have := k.clocks; omega
  later := Nat.le_trans h.later k.later
  accesses := Nat.le_trans h.accesses k.accesses

theorem closed_stepKept : Closed StepKept where
  refl s := (Frame.refl s).stepKept
  trans := .trans
  cpu s c r _ _ := (Frame.of_cpu s c r).stepKept
  read a s := (busRead_Frame a s).stepKept
  write a v s := (busWrite_Frame a v s).stepKept
  cycle s := (endCycle_Frame s).stepKept

theorem StepKept.raise (s : State) (f : Fault) : StepKept s (s.raise f) :=
  ⟨rfl, rfl, rfl, rfl, fun _ => rfl, List.prefix_refl _, rfl, Nat.le_refl _, Nat.le_refl _⟩

/-- A step is the opcode fetch and then changes that a closed relation holds across. -/
theorem Machine.Closed.step_after_opcode {R : State → State → Prop} (C : Closed R)
    (raise : ∀ s f, R s (State.raise s f)) {s t : State} (h : Machine.step s = .next t) : R (Machine.fetchOpcode s).2 t := by
  have hfetch : R (Machine.fetchOpcode s).2 (Machine.fetchInstr s).2 := by
    simp only [Machine.fetchInstr]
    split
    · exact C.fetchOperands (C.refl _) _
    · exact raise _ _
  simp only [Machine.step] at h
  split at h
  · cases h
  · cases h
  · split at h
    · next hu => cases h; rwa [hu] at hfetch
    · next i u hu =>
      rw [hu] at hfetch
      split at h
      · next hexec => cases h; exact C.finishInstr raise (C.trans hfetch (C.exec hexec))
      · cases h
      · cases h

/-- The opcode fetch is a cycle, after the WSYNC hold, and an access. -/
theorem fetchOpcode_counts (s : State) : s.cpuCycles < (fetchOpcode s).2.cpuCycles ∧
    (fetchOpcode s).2.lastAccessId = s.lastAccessId + 1 := by
  obtain ⟨-, -, -, -, hcycles, haccess, -⟩ := fetchByte_facts (beginInstr s)
  have hlater : s.cpuCycles ≤ (stall (beginInstr s)).cpuCycles := (stall_Frame (beginInstr s)).later
  simp only [fetchOpcode, recordOpcode]
  rw [hcycles, haccess]
  exact ⟨Nat.lt_succ_of_le hlater, rfl⟩

/-- Settles O14: what is kept is kept across each change a step is made of, the first of which is the cycle of the opcode
fetch. -/
theorem everyStepKeepsRomInputsAndLog : Obligations.EveryStepKeepsRomInputsAndLog := by
  intro s t h
  have k : StepKept s t := closed_stepKept.step (fun s r => (Frame.of_cpu s s.cpu r).stepKept) .raise h
  have hrest := closed_stepKept.step_after_opcode .raise h
  obtain ⟨hcycles, haccess⟩ := fetchOpcode_counts s
  exact ⟨k.inputs, k.params, k.mapper, k.size, k.image, k.reports, k.clocks, Nat.lt_of_lt_of_le hcycles hrest.later,
    Nat.le_trans (Nat.le_of_eq haccess.symm) hrest.accesses⟩

/-! ### Stops (60_exceptions R460) -/

theorem step_of_fault {s : State} {f : Fault} (hf : s.fault = some f) (hr : s.refusal = none) : step s = .fault f := by
  simp [step, stopReason, hf, hr]

theorem step_of_refusal {s : State} {r : Refusal} (hr : s.refusal = some r) : step s = .refused r := by
  simp [step, stopReason, hr]

theorem refusal_of_running {s : State} (h : Running s) : s.refusal = none := by
  cases hr : s.refusal with
  | none => rfl
  | some r => simp [Running, stopReason, hr] at h

/-- No host action but a reset touches a recorded fault or the refusal mark (63_riot_console R664). -/
theorem applyHost_stops {h : HostAction} (hh : h ≠ .reset) (s : State) :
    (applyHost h s).fault = s.fault ∧ (applyHost h s).refusal = s.refusal := by
  cases h with
  | reset => exact absurd rfl hh
  | poke a v =>
    obtain ⟨_, _, _, _, _, hpoke, -⟩ := poke_eq a v s
    simp [applyHost, hpoke]
  | input | setFeature | cancel => exact ⟨rfl, rfl⟩

/-- Settles O12: a stop is read off the fault and the refusal mark, which of the host's actions only a reset writes. -/
theorem recordedFaultStopsTheMachine : Obligations.RecordedFaultStopsTheMachine := by
  constructor
  · intro s f hf hr
    refine ⟨step_of_fault hf hr, rfl, rfl, rfl, fun h hh => ?_⟩
    obtain ⟨hfault, hrefusal⟩ := applyHost_stops hh s
    exact ⟨hfault.trans hf, step_of_fault (hfault.trans hf) (hrefusal.trans hr)⟩
  · intro s r hr
    refine ⟨step_of_refusal hr, rfl, fun h hh => ?_⟩
    obtain ⟨-, hrefusal⟩ := applyHost_stops hh s
    exact ⟨hrefusal.trans hr, step_of_refusal (hrefusal.trans hr)⟩

/-! ### An undefined opcode (60_exceptions R461) -/

/-- The opcode fetch is the read cycle at PC, then PC and the record. -/
theorem fetchOpcode_eq (s : State) : fetchOpcode s = ((memRead s.cpu.pc s).1,
    (memRead s.cpu.pc s).2.withCpu { s.cpu with pc := s.cpu.pc + 1 } (fetchOpcode s).2.result) := by
  have hbegin : beginInstr s = s.withCpu s.cpu (beginInstr s).result := rfl
  rw [fetchOpcode, hbegin]
  simp only [fetchByte, State.withCpu_cpu, memRead_withCpu]
  generalize (memRead s.cpu.pc s).2 = u
  rfl

theorem memRead_colorClock (a : Word) (s : State) : (memRead a s).2.colorClock = (stall s).colorClock + 3 := by simp [memRead]

theorem fetchInstr_of_undefined {s : State} (h : opcodeTable (memRead s.cpu.pc s).1 = none) :
    fetchInstr s = (none, (fetchOpcode s).2.raise (.undefinedOpcode (memRead s.cpu.pc s).1 s.cpu.pc)) := by
  have hform : opForm (fetchOpcode s).1 = none := by
    rw [fetchOpcode_eq, ← Option.isNone_iff_eq_none, opForm_isNone, h]
    rfl
  simp only [fetchInstr, decode_of_opForm_none hform]
  rw [fetchOpcode_eq]

/-- Settles O11: with no row for its byte the opcode fetch is the step, and the fault it records is the next step's answer. -/
theorem undefinedOpcodeFaultsAfterFetch : Obligations.UndefinedOpcodeFaultsAfterFetch := by
  intro s r hs hop
  have hstep : step s = .next ((fetchOpcode s).2.raise (.undefinedOpcode r.1 s.cpu.pc)) := by
    simp only [step, hs, fetchInstr_of_undefined hop]
    rfl
  have hram : r.2.ram = s.ram := memRead_ram _ s
  have hcolor : r.2.colorClock = (stall s).colorClock + 3 := memRead_colorClock _ s
  have hcycles : r.2.cpuCycles = (stall s).cpuCycles + 1 := memRead_cpuCycles _ s
  have hrefusal : r.2.refusal = none := ((memRead_Frame s.cpu.pc s).refusal nofun).trans (refusal_of_running hs)
  rw [fetchOpcode_eq] at hstep
  generalize (fetchOpcode s).2.result = q at hstep
  change step s = .next ((r.2.withCpu _ q).raise _) at hstep
  clear_value r
  exact ⟨_, hstep, rfl, hram, hcolor, hcycles, step_of_fault rfl hrefusal⟩

/-! ### Writes to ROM (60_exceptions R462) -/

theorem unwritable_iff (a : Word) (c : Cart) : unwritable (areaOf (addr13 a)) (writeLocal (addr13 a)) c = true ↔
    areaOf (addr13 a) = .cart ∧ ¬ (c.mapper.hasSuperchip = true ∧ a.toNat % 4096 < 128) := by
  cases h : areaOf (addr13 a) with
  | ram | riot | tia => simp [unwritable]
  | cart => simp [unwritable, writeLocal_cart h, ← inWritePort_iff]

/-- A write access to the cartridge's area changes the cartridge, the trace and the report log only. -/
theorem busWrite_eq_of_cart {a : Word} (h : areaOf (addr13 a) = .cart) (v : Byte) (s : State) : busWrite a v s = { s with
    cart := (busWrite a v s).cart, lastAccess := (busWrite a v s).lastAccess, lastAccessId := (busWrite a v s).lastAccessId,
    reports := (busWrite a v s).reports } := by
  simp only [busWrite, h, areaWrite]
  split <;> rfl

/-- Settles O23: outside the superchip's write port a write access to the cartridge is a hotspot's alone and reported, and those
are the writes reported. -/
theorem romWritesAreReported : Obligations.RomWritesAreReported := by
  intro a v s loc t intoRom
  have hreports := busWrite_reports a v s
  constructor
  · intro h
    obtain ⟨ha, hport⟩ := h
    have hw : s.cart.inWritePort loc = false := Bool.eq_false_iff.2 fun e => hport ((inWritePort_iff _ _).1 e)
    rw [if_pos ((unwritable_iff a s.cart).2 ⟨ha, hport⟩)] at hreports
    refine (busWrite_eq_of_cart ha v s).trans ?_
    rw [busWrite_cart_of_not_writePort ha v hw, busWrite_lastAccess, busWrite_lastAccessId, hreports]
    rfl
  · intro h
    rwa [if_neg fun e => h ((unwritable_iff a s.cart).1 e), List.append_nil] at hreports

end Sys2Proof

namespace Sys2Proof.Machine

/-! ### The I flag (60_exceptions R445)

What an operation does to a state with another value of I is what it does to the state, with that value of I. -/

/-- The flags with another value of I. -/
def Flags.withI (p : Flags) (b : Bool) : Flags := { p with i := b }

/-- The state with another value of I. -/
def State.withI (s : State) (b : Bool) : State := s.withCpu { s.cpu with p := s.cpu.p.withI b } s.result

section WithI

variable (a v : Byte) (w : Word) (s : State) (b : Bool)

/-! #### Cycles -/

@[simp] theorem State.withI_cpu : (s.withI b).cpu = { s.cpu with p := s.cpu.p.withI b } := rfl

theorem State.withI_withCpu (c : Cpu) (q : ResultRecord) :
    (s.withCpu c q).withI b = s.withCpu { c with p := c.p.withI b } q := rfl

@[simp] theorem memRead_withI : memRead w (s.withI b) = ((memRead w s).1, (memRead w s).2.withI b) := by
  simp [State.withI, memRead_withCpu]

@[simp] theorem dummyRead_withI : dummyRead w (s.withI b) = (dummyRead w s).withI b := by simp [dummyRead]

@[simp] theorem memWrite_withI : memWrite w v (s.withI b) = (memWrite w v s).withI b := by
  simp [State.withI, memWrite_withCpu]

@[simp] theorem dummyReadPC_withI : dummyReadPC (s.withI b) = (dummyReadPC s).withI b := by simp [dummyReadPC]

@[simp] theorem dummyReadStack_withI : dummyReadStack (s.withI b) = (dummyReadStack s).withI b := by simp [dummyReadStack]

/-! #### Registers -/

@[simp] theorem State.setA_withI : (s.withI b).setA v = (s.setA v).withI b := rfl
@[simp] theorem State.setX_withI : (s.withI b).setX v = (s.setX v).withI b := rfl
@[simp] theorem State.setY_withI : (s.withI b).setY v = (s.setY v).withI b := rfl
@[simp] theorem State.setS_withI : (s.withI b).setS v = (s.setS v).withI b := rfl
@[simp] theorem State.setPC_withI : (s.withI b).setPC w = (s.setPC w).withI b := rfl
@[simp] theorem State.setNZ_withI : (s.withI b).setNZ v = (s.setNZ v).withI b := rfl
@[simp] theorem State.setP_withI (p : Flags) : (s.withI b).setP (p.withI b) = (s.setP p).withI b := rfl
@[simp] theorem State.markCrossed_withI : (s.withI b).markCrossed = s.markCrossed.withI b := rfl
@[simp] theorem State.markBug_withI (c : CpuBug) : (s.withI b).markBug c = (s.markBug c).withI b := rfl
@[simp] theorem State.countByte_withI : (s.withI b).countByte = s.countByte.withI b := rfl

@[simp] theorem push_withI : push v (s.withI b) = (push v s).withI b := by simp [push]

@[simp] theorem pull_withI : pull (s.withI b) = ((pull s).1, (pull s).2.withI b) := by simp [pull]

/-! #### Operands and addresses -/

@[simp] theorem readPointer_withI : readPointer a (s.withI b) = ((readPointer a s).1, (readPointer a s).2.withI b) := by
  simp [readPointer]

@[simp] theorem readIndexed_withI : readIndexed w v (s.withI b) = ((readIndexed w v s).1, (readIndexed w v s).2.withI b) := by
  simp only [readIndexed, memRead_withI]
  split <;> simp

@[simp] theorem readZp_withI : readZp a (s.withI b) = ((readZp a s).1, (readZp a s).2.withI b) := by simp [readZp]
@[simp] theorem readAbs_withI : readAbs w (s.withI b) = ((readAbs w s).1, (readAbs w s).2.withI b) := by simp [readAbs]
@[simp] theorem readAbsx_withI : readAbsx w (s.withI b) = ((readAbsx w s).1, (readAbsx w s).2.withI b) := by simp [readAbsx]
@[simp] theorem readAbsy_withI : readAbsy w (s.withI b) = ((readAbsy w s).1, (readAbsy w s).2.withI b) := by simp [readAbsy]
@[simp] theorem readIndy_withI : readIndy a (s.withI b) = ((readIndy a s).1, (readIndy a s).2.withI b) := by simp [readIndy]

@[simp] theorem eaZp_withI : eaZp a (s.withI b) = ((eaZp a s).1, (eaZp a s).2.withI b) := rfl
@[simp] theorem eaAbs_withI : eaAbs w (s.withI b) = ((eaAbs w s).1, (eaAbs w s).2.withI b) := rfl
@[simp] theorem eaZpx_withI : eaZpx a (s.withI b) = ((eaZpx a s).1, (eaZpx a s).2.withI b) := by simp [eaZpx, eaZpIndexed]
@[simp] theorem eaZpy_withI : eaZpy a (s.withI b) = ((eaZpy a s).1, (eaZpy a s).2.withI b) := by simp [eaZpy, eaZpIndexed]
@[simp] theorem eaAbsx_withI : eaAbsx w (s.withI b) = ((eaAbsx w s).1, (eaAbsx w s).2.withI b) := by simp [eaAbsx, eaFixed]
@[simp] theorem eaAbsy_withI : eaAbsy w (s.withI b) = ((eaAbsy w s).1, (eaAbsy w s).2.withI b) := by simp [eaAbsy, eaFixed]
@[simp] theorem eaIndx_withI : eaIndx a (s.withI b) = ((eaIndx a s).1, (eaIndx a s).2.withI b) := by simp [eaIndx]
@[simp] theorem eaIndy_withI : eaIndy a (s.withI b) = ((eaIndy a s).1, (eaIndy a s).2.withI b) := by simp [eaIndy, eaFixed]

@[simp] theorem readZpx_withI : readZpx a (s.withI b) = ((readZpx a s).1, (readZpx a s).2.withI b) := by
  simp [readZpx, readAt, eaZpIndexed]
@[simp] theorem readZpy_withI : readZpy a (s.withI b) = ((readZpy a s).1, (readZpy a s).2.withI b) := by
  simp [readZpy, readAt, eaZpIndexed]
@[simp] theorem readIndx_withI : readIndx a (s.withI b) = ((readIndx a s).1, (readIndx a s).2.withI b) := by
  simp [readIndx, readAt]

/-! #### Flags -/

theorem adc_withI (m : Byte) (p : Flags) : adc a m (p.withI b) = ⟨(adc a m p).a, (adc a m p).p.withI b⟩ := by
  have hd : (p.withI b).d = p.d := rfl
  simp only [adc, hd]
  split <;> rfl

theorem sbc_withI (m : Byte) (p : Flags) : sbc a m (p.withI b) = ⟨(sbc a m p).a, (sbc a m p).p.withI b⟩ := rfl

/-! #### Operations -/

@[simp] theorem loadA_withI : loadA (a, s.withI b) = (loadA (a, s)).withI b := rfl
@[simp] theorem loadX_withI : loadX (a, s.withI b) = (loadX (a, s)).withI b := rfl
@[simp] theorem loadY_withI : loadY (a, s.withI b) = (loadY (a, s)).withI b := rfl
@[simp] theorem addOperand_withI : addOperand (a, s.withI b) = (addOperand (a, s)).withI b := by simp [addOperand, adc_withI]
@[simp] theorem subOperand_withI : subOperand (a, s.withI b) = (subOperand (a, s)).withI b := rfl
@[simp] theorem combineA_withI (f : Byte → Byte → Byte) : combineA f (a, s.withI b) = (combineA f (a, s)).withI b := rfl
@[simp] theorem testOperand_withI : testOperand (a, s.withI b) = (testOperand (a, s)).withI b := rfl
@[simp] theorem compareOperand_withI : compareOperand v (a, s.withI b) = (compareOperand v (a, s)).withI b := rfl

@[simp] theorem storeAt_withI : storeAt v (w, s.withI b) = (storeAt v (w, s)).withI b := by
  simp [storeAt]

/-- A function of a byte and the flags that does the same with I at either value. -/
def IgnoresI (f : Byte → Flags → ShiftResult) : Prop := ∀ v p b, f v (p.withI b) = ⟨(f v p).value, (f v p).p.withI b⟩

@[simp] theorem inc_ignoresI : IgnoresI inc := fun _ _ _ => rfl
@[simp] theorem dec_ignoresI : IgnoresI dec := fun _ _ _ => rfl
@[simp] theorem asl_ignoresI : IgnoresI asl := fun _ _ _ => rfl
@[simp] theorem lsr_ignoresI : IgnoresI lsr := fun _ _ _ => rfl
@[simp] theorem rol_ignoresI : IgnoresI rol := fun _ _ _ => rfl
@[simp] theorem ror_ignoresI : IgnoresI ror := fun _ _ _ => rfl

variable {f : Byte → Flags → ShiftResult}

@[simp] theorem modifyAt_withI (hf : IgnoresI f) :
    modifyAt f (w, s.withI b) = (modifyAt f (w, s)).withI b := by simp [modifyAt, hf _ _ _]

@[simp] theorem modifyA_withI (hf : IgnoresI f) : modifyA f (s.withI b) = (modifyA f s).withI b := by simp [modifyA, hf _ _ _]

@[simp] theorem transferA_withI : transferA v (s.withI b) = (transferA v s).withI b := by simp [transferA]
@[simp] theorem transferX_withI : transferX v (s.withI b) = (transferX v s).withI b := by simp [transferX]
@[simp] theorem transferY_withI : transferY v (s.withI b) = (transferY v s).withI b := by simp [transferY]
@[simp] theorem countX_withI : countX v (s.withI b) = (countX v s).withI b := by simp [countX]
@[simp] theorem countY_withI : countY v (s.withI b) = (countY v s).withI b := by simp [countY]

@[simp] theorem pullA_withI : pullA (s.withI b) = (pullA s).withI b := by simp [pullA]

theorem setFlag_withI {g : Flags → Flags} (hg : ∀ p : Flags, g (p.withI b) = (g p).withI b) :
    setFlag g (s.withI b) = (setFlag g s).withI b := by simp [setFlag, hg]

@[simp] theorem jumpIndirect_withI : jumpIndirect w (s.withI b) = (jumpIndirect w s).withI b := by
  simp only [jumpIndirect, memRead_withI]
  split <;> simp

@[simp] theorem callSubroutine_withI : callSubroutine v (s.withI b) = (callSubroutine v s).withI b := by
  simp [callSubroutine]

@[simp] theorem returnSubroutine_withI : returnSubroutine (s.withI b) = (returnSubroutine s).withI b := by
  simp [returnSubroutine]

@[simp] theorem branchIf_withI (c : Bool) : branchIf c a (s.withI b) = (branchIf c a s).withI b := by
  cases c with
  | false => rfl
  | true =>
    simp only [branchIf, if_true]
    split
    · next h => simp at h; simp [h]
    · next h => simp at h; simp [h]

end WithI

theorem withI_of_next {t u u' : State} {b : Bool} (h : Host.Outcome.next u = (.next t : Host.Outcome State Fault Refusal))
    (hu : u' = u.withI b) : (.next u' : Host.Outcome State Fault Refusal) = .next (t.withI b) := by
  cases h
  rw [hu]

/-- An instruction that neither pushes nor writes I does the same with I at either value: one case per operation its meaning
calls. -/
theorem exec_withI {i : Instr} {s t : State} (hi : i ∉ [.php, .brk, .plp, .rti, .cli, .sei]) (h : exec i s = .next t) (b : Bool) :
    exec i (s.withI b) = .next (t.withI b) := by
  cases i with
  | php | brk | plp | rti | cli | sei => simp at hi
  -- An operand is read, and A, X, Y or P is changed by it.
  | ldaImm | ldaZp | ldaZpx | ldaAbs | ldaAbsx | ldaAbsy | ldaIndx | ldaIndy | ldxImm | ldxZp | ldxZpy | ldxAbs | ldxAbsy
  | ldyImm | ldyZp | ldyZpx | ldyAbs | ldyAbsx | adcImm | adcZp | adcZpx | adcAbs | adcAbsx | adcAbsy | adcIndx | adcIndy
  | sbcImm | sbcZp | sbcZpx | sbcAbs | sbcAbsx | sbcAbsy | sbcIndx | sbcIndy | andImm | andZp | andZpx | andAbs | andAbsx
  | andAbsy | andIndx | andIndy | oraImm | oraZp | oraZpx | oraAbs | oraAbsx | oraAbsy | oraIndx | oraIndy | eorImm | eorZp
  | eorZpx | eorAbs | eorAbsx | eorAbsy | eorIndx | eorIndy | cmpImm | cmpZp | cmpZpx | cmpAbs | cmpAbsx | cmpAbsy
  | cmpIndx | cmpIndy | cpxImm | cpxZp | cpxAbs | cpyImm | cpyZp | cpyAbs | bitZp | bitAbs =>
    exact withI_of_next h (by simp)
  -- A register, or a function of the byte read, is stored.
  | staZp | staZpx | staAbs | staAbsx | staAbsy | staIndx | staIndy | stxZp | stxZpy | stxAbs | styZp | styZpx | styAbs
  | pha | incZp | incZpx | incAbs | incAbsx | decZp | decZpx | decAbs | decAbsx | aslZp | aslZpx | aslAbs | aslAbsx | lsrZp
  | lsrZpx | lsrAbs | lsrAbsx | rolZp | rolZpx | rolAbs | rolAbsx | rorZp | rorZpx | rorAbs | rorAbsx =>
    exact withI_of_next h (by simp)
  -- A register is changed.
  | aslAcc | lsrAcc | rolAcc | rorAcc | tax | tay | txa | tya | tsx | txs | pla | inx | iny | dex | dey | nop =>
    exact withI_of_next h (by simp)
  -- A flag other than I is written.
  | clc | cld | clv | sec | sed => exact withI_of_next h (setFlag_withI s b fun _ => rfl)
  -- PC is changed.
  | jmpAbs | jmpInd | jsr | rts => exact withI_of_next h (by simp)
  | bcc | bcs | beq | bne | bmi | bpl | bvc | bvs => exact withI_of_next h (branchIf_withI _ s b _)

/-- Settles O17: what an instruction reads of P it reads flag by flag, and I only where P is pushed whole. -/
theorem interruptFlagHasNoEffect : Obligations.InterruptFlagHasNoEffect :=
  fun _ _ _ b hi h => exec_withI hi h b

end Sys2Proof.Machine

/-! Reset and load (63_riot_console R664, R673, 70_reset_and_hazards R700): the power-on state of a well-formed cartridge meets the
invariant, and a launch is loaded exactly when its mapper takes the image's size and its initial bank is one of the cartridge's. -/

namespace Sys2Proof.Machine

theorem powerOn_inv {c : Cart} (h : c.wf = true) (p : Params) : MachineInv (State.powerOn c p) := by
  refine (machineInv_iff _).2 ⟨rfl, h, Nat.zero_lt_one, ⟨nofun, rfl, Int.le_refl _, ?_, nofun⟩, rfl⟩
  show (-68 : Int) ≤ 159
  decide

theorem powerOn_running {c : Cart} (h : c.wf = true) (p : Params) : Running (State.powerOn c p) :=
  running_of_inv (powerOn_inv h p) rfl rfl

/-- Settles O2: the blank cartridge is well formed. -/
theorem resetMeetsInvariant : Obligations.ResetMeetsInvariant :=
  have h : Cart.blank.wf = true := by decide
  ⟨powerOn_inv h _, powerOn_running h _⟩

/-- The sizes a mapper takes and its number of banks, as the launch's rules list them (20_memory R101 to R109, R115). -/
theorem Cart.sizeOk_and_banks_iff (c : Cart) (banks : Nat) :
    c.mapper.sizeOk c.size = true ∧ banks = c.banks ↔
      (c.mapper, c.size, banks) ∈ [(Mapper.m2k, 2048, 1), (.m4k, 4096, 1), (.f8, 8192, 2), (.f8sc, 8192, 2), (.f6, 16384, 4),
        (.f6sc, 16384, 4), (.f4, 32768, 8), (.f4sc, 32768, 8), (.e0, 8192, 1)] ∨
      c.mapper = .m3f ∧ c.size % 2048 = 0 ∧ banks = c.size / 2048 ∧ 4 ≤ banks ∧ c.size ≠ 12288 := by
  rw [Cart.banks]
  cases c.mapper with
  | m3f =>
    simp only [Mapper.sizeOk, Bool.and_eq_true, beq_iff_eq, bne_iff_ne, decide_eq_true_eq, List.mem_cons, Prod.mk.injEq, reduceCtorEq,
      false_and, List.not_mem_nil, false_or, true_and]
    omega
  | m2k | m4k | f8 | f8sc | f6 | f6sc | f4 | f4sc | e0 => simp [Mapper.sizeOk]

theorem Launch.cart_wf {l : Launch} (hs : l.mapper.sizeOk l.image.length = true)
    (hb : l.params.initialBank.bank < l.cart.banks) : l.cart.wf = true :=
  (Cart.wf_iff l.cart).2 ⟨hs, hb, Memory.wf_ofBytes l.image, Memory.wf_empty 128⟩

theorem load_of_size {l : Launch} (h : ¬ l.mapper.sizeOk l.image.length = true) :
    load l = .error (.cartridgeError l.image.length) := by simp [load, h]

theorem load_of_bank {l : Launch} (hs : l.mapper.sizeOk l.image.length = true)
    (hb : l.cart.banks ≤ l.params.initialBank.bank) : load l = .error (.badInitialBank l.params.initialBank.bank) := by
  have : l.cart.bankOk = false := decide_eq_false (Nat.not_lt.2 hb)
  simp [load, hs, this]

theorem load_ok {l : Launch} (hs : l.mapper.sizeOk l.image.length = true) (hb : l.params.initialBank.bank < l.cart.banks) :
    load l = .ok (State.powerOn l.cart l.params) := by
  have : l.cart.bankOk = true := decide_eq_true hb
  simp [load, hs, this]

/-- Settles O3: the listed sizes and numbers of banks are the two checks of `load`. -/
theorem loadChecksSizeAndStarts : Obligations.LoadChecksSizeAndStarts := by
  intro l n bank rows takes
  have htakes (banks) : l.mapper.sizeOk n = true ∧ banks = l.cart.banks ↔ takes banks := l.cart.sizeOk_and_banks_iff banks
  refine ⟨fun h => ?_, fun banks h hb => ?_, fun banks h hb => ?_⟩
  · exact load_of_size fun hs => h _ ((htakes _).1 ⟨hs, rfl⟩)
  · obtain ⟨hs, rfl⟩ := (htakes banks).2 h
    exact load_of_bank hs hb
  · obtain ⟨hs, rfl⟩ := (htakes banks).2 h
    have hwf := Launch.cart_wf hs hb
    exact ⟨_, load_ok hs hb, powerOn_inv hwf _, powerOn_running hwf _, rfl, rfl, rfl, rfl, Memory.read_ofBytes l.image, rfl⟩

/-! ### The step -/

/-- Settles O9: every instruction completes, so the step is its end. -/
theorem stepRunsDecodedInstruction : Obligations.StepRunsDecodedInstruction := by
  intro s u i hs hfetch
  obtain ⟨t, ht⟩ := exec_completes i u
  rw [step_of_exec hs hfetch ht, ht]

end Sys2Proof.Machine

/-! A run and its end (63_riot_console R665): which step is a `JMP *`, and a run as the steps it has gone on for, then one of its four
ends. -/

namespace Sys2Proof.Machine

/-! ### The step that ends a run well -/

theorem fetchOpcode_Frame (s : State) : Frame [] s (fetchOpcode s).2 := by
  have hbegin : Frame [] s (beginInstr s) := Frame.of_cpu s s.cpu _
  obtain ⟨-, -, -, -, -, -, hbyte⟩ := fetchByte_facts (beginInstr s)
  exact (hbegin.trans_nil hbyte).trans_nil (Frame.of_cpu _ _ _)

theorem fetchOperands_Frame (op : Byte) (s : State) : Frame [] s (fetchOperands op s).2 := by
  have hbyte (t : State) : Frame [] t (fetchByte t).2 := by
    obtain ⟨-, -, -, -, -, -, h⟩ := fetchByte_facts t
    exact h
  simp only [fetchOperands]
  split
  · exact .refl s
  · exact .refl s
  · exact hbyte s
  · split
    · exact hbyte s
    · exact (hbyte s).trans_nil (hbyte _)

/-- The fetch of an instruction stores nothing. -/
theorem fetchInstr_Frame {s u : State} {i : Instr} (h : fetchInstr s = (some i, u)) : Frame [] s u := by
  simp only [fetchInstr] at h
  split at h
  · cases h
    exact (fetchOpcode_Frame s).trans_nil (fetchOperands_Frame _ _)
  · cases h

/-- One opcode is one absolute jump. -/
theorem eq_jmpAbs_of_opcodeOf {i : Instr} (h : opcodeOf i = 0x4C#8) : ∃ w, i = .jmpAbs w := by
  obtain ⟨f, args, hf, hc⟩ := exists_completes i
  rw [h] at hf
  cases (hf : some (OpForm.word Instr.jmpAbs) = some f)
  cases hc with
  | word w => exact ⟨_, rfl⟩

theorem finishInstr_kept (s : State) : (finishInstr s).cpu = s.cpu ∧ (finishInstr s).refusal = s.refusal ∧
    (finishInstr s).result.opcode = s.result.opcode := by
  simp only [finishInstr]
  split <;> exact ⟨rfl, rfl, rfl⟩

/-- A step ends a run exactly when its instruction is the absolute jump to its own address. -/
theorem endsRun_iff {s u t : State} {i : Instr} (hs : Running s) (hfetch : fetchInstr s = (some i, u))
    (hstep : step s = .next t) : endsRun s t = true ↔ i = .jmpAbs s.cpu.pc := by
  obtain ⟨v, hexec⟩ := exec_completes i u
  rw [step_of_exec hs hfetch hexec] at hstep
  cases hstep
  obtain ⟨-, hfinish⟩ := everyResultIsValid s u v i hfetch hexec
  obtain ⟨hrecord, -⟩ := exec_record hexec
  obtain ⟨hcpu, hrefusal, hopcode⟩ := finishInstr_kept v
  rw [endsRun, hcpu, hrefusal, hopcode, hrecord, fetchInstr_result hfetch, hfinish]
  simp only [fetchedRecord, Bool.and_eq_true, beq_iff_eq, Option.some.injEq, Option.isNone_iff_eq_none]
  constructor
  · rintro ⟨⟨⟨hop, hpc⟩, -⟩, -⟩
    obtain ⟨w, rfl⟩ := eq_jmpAbs_of_opcodeOf hop
    cases hexec
    exact congrArg _ hpc
  · rintro rfl
    cases hexec
    have hframe := fetchInstr_Frame hfetch
    exact ⟨⟨⟨rfl, rfl⟩, hframe.fault.trans (stopReason_none hs)⟩, (hframe.refusal nofun).trans (refusal_of_running hs)⟩

/-! ### A run as its steps -/

/-- The next state, if the step answers one. -/
def next? (s : State) : Option State :=
  match step s with
  | .next t => some t
  | .fault _ | .refused _ => none

theorem next?_eq_some {s t : State} : next? s = some t ↔ step s = .next t := by
  rw [next?]
  cases step s <;> simp

/-- The state after `n` steps, if there are as many. -/
def afterSteps (n : Nat) (s : State) : Option State := Nat.repeat (·.bind next?) n (some s)

theorem afterSteps_succ_eq_some {n : Nat} {s t : State} :
    afterSteps (n + 1) s = some t ↔ ∃ u, afterSteps n s = some u ∧ step u = .next t := by
  simp only [← next?_eq_some]
  exact Option.bind_eq_some_iff

/-- None of the first `n` steps ends a run well. -/
def GoesOn (n : Nat) (s : State) : Prop :=
  ∀ j < n, ∀ u v, afterSteps j s = some u → afterSteps (j + 1) s = some v → endsRun u v = false

/-- A run from `s` has gone on for `n` steps and stands at `t`. -/
inductive GoesOnTo : Nat → State → State → Prop where
  | zero (s : State) : GoesOnTo 0 s s
  | succ {n : Nat} {s t u : State} (h : GoesOnTo n s t) (hstep : step t = .next u) (hend : endsRun t u = false) :
      GoesOnTo (n + 1) s u

theorem goesOnTo_iff {n : Nat} {s t : State} : GoesOnTo n s t ↔ GoesOn n s ∧ afterSteps n s = some t := by
  induction n generalizing t with
  | zero =>
    constructor
    · rintro ⟨⟩
      exact ⟨nofun, rfl⟩
    · rintro ⟨-, h⟩
      cases h
      exact .zero s
  | succ n ih =>
    constructor
    · rintro (_ | ⟨h, hstep, hend⟩)
      obtain ⟨hon, hafter⟩ := ih.1 h
      have hlast := afterSteps_succ_eq_some.2 ⟨_, hafter, hstep⟩
      refine ⟨fun j hj u v hu hv => ?_, hlast⟩
      obtain hj | rfl := Nat.lt_succ_iff_lt_or_eq.1 hj
      · exact hon j hj u v hu hv
      · cases hafter.symm.trans hu
        cases hlast.symm.trans hv
        exact hend
    · rintro ⟨hon, hlast⟩
      obtain ⟨u, hafter, hstep⟩ := afterSteps_succ_eq_some.1 hlast
      exact .succ (ih.2 ⟨fun j hj => hon j (Nat.lt_succ_of_lt hj), hafter⟩) hstep (hon n (Nat.lt_succ_self n) u t hafter hlast)

theorem GoesOnTo.cons {n : Nat} {s t u : State} (hstep : step s = .next t) (hend : endsRun s t = false) (h : GoesOnTo n t u) :
    GoesOnTo (n + 1) s u := by
  induction h with
  | zero => exact .succ (.zero s) hstep hend
  | succ _ hlast hgo ih => exact .succ (ih hstep hend) hlast hgo

/-! ### The four ends -/

/-- How a run with `k` steps left ends at a state (63_riot_console R665). -/
inductive EndsAt : Nat → State → RunEnd → Prop where
  | jumpToSelf {k : Nat} {s t : State} (hstep : step s = .next t) (hend : endsRun s t = true) : EndsAt (k + 1) s (.jumpToSelf t)
  | maxSteps {s : State} (h : Running s) : EndsAt 0 s (.maxSteps s)
  | fault {k : Nat} {s : State} {f : Fault} (h : step s = .fault f) : EndsAt k s (.fault f s)
  | refused {k : Nat} {s : State} {r : Refusal} (h : step s = .refused r) : EndsAt k s (.refused r s)

/-- A step stops only for the reason the state itself gives. -/
theorem step_stops_or_runs (s : State) : (∃ f, stopReason s = some (.inl f) ∧ step s = .fault f) ∨
    (∃ r, stopReason s = some (.inr r) ∧ step s = .refused r) ∨ (stopReason s = none ∧ ∃ t, step s = .next t) := by
  cases hs : stopReason s with
  | none =>
    obtain ⟨_, _, m, -, -, h⟩ := step_leads hs
    exact .inr (.inr ⟨rfl, _, h⟩)
  | some e =>
    cases e with
    | inl f => exact .inl ⟨f, rfl, by simp only [step, hs]⟩
    | inr r => exact .inr (.inl ⟨r, rfl, by simp only [step, hs]⟩)

theorem run_of_endsAt {k : Nat} {s : State} {e : RunEnd} (h : EndsAt k s e) : run k s = e := by
  cases h with
  | jumpToSelf hstep hend => simp only [run, hstep, hend, if_true]
  | maxSteps h => simp only [run, h]
  | fault h =>
    obtain ⟨f, hs, hstep⟩ | ⟨r, -, hstep⟩ | ⟨-, t, hstep⟩ := step_stops_or_runs s <;> cases h.symm.trans hstep
    cases k <;> simp only [run, h, hs]
  | refused h =>
    obtain ⟨f, -, hstep⟩ | ⟨r, hs, hstep⟩ | ⟨-, t, hstep⟩ := step_stops_or_runs s <;> cases h.symm.trans hstep
    cases k <;> simp only [run, h, hs]

/-- A run goes on for some steps and ends at the state it then stands at. -/
theorem run_ends (k : Nat) (s : State) : ∃ n j t, n + j = k ∧ GoesOnTo n s t ∧ EndsAt j t (run k s) := by
  induction k generalizing s with
  | zero =>
    refine ⟨0, 0, s, rfl, .zero s, ?_⟩
    obtain ⟨f, hs, hstep⟩ | ⟨r, hs, hstep⟩ | ⟨hs, -⟩ := step_stops_or_runs s
    · simp only [run, hs]; exact .fault hstep
    · simp only [run, hs]; exact .refused hstep
    · simp only [run, hs]; exact .maxSteps hs
  | succ k ih =>
    rw [run]
    split
    · next t hstep =>
      split
      · next hend => exact ⟨0, k + 1, s, Nat.zero_add _, .zero s, .jumpToSelf hstep hend⟩
      · next hend =>
        obtain ⟨n, j, u, rfl, hon, h⟩ := ih t
        exact ⟨n + 1, j, u, by omega, .cons hstep (by simpa using hend) hon, h⟩
    · next hstep => exact ⟨0, k + 1, s, Nat.zero_add _, .zero s, .fault hstep⟩
    · next hstep => exact ⟨0, k + 1, s, Nat.zero_add _, .zero s, .refused hstep⟩

theorem run_of_goesOnTo {n j : Nat} {s t : State} (h : GoesOnTo n s t) : run (n + j) s = run j t := by
  induction h generalizing j with
  | zero => rw [Nat.zero_add]
  | succ _ hstep hend ih =>
    rw [Nat.add_assoc, Nat.add_comm 1 j, ih, run]
    simp only [hstep, hend, Bool.false_eq_true, if_false]

theorem run_eq_iff {k : Nat} {s : State} {e : RunEnd} :
    run k s = e ↔ ∃ n j t, n + j = k ∧ GoesOnTo n s t ∧ EndsAt j t e := by
  constructor
  · rintro rfl
    exact run_ends k s
  · rintro ⟨n, j, t, rfl, hon, h⟩
    rw [run_of_goesOnTo hon, run_of_endsAt h]

theorem run_eq_jumpToSelf {k : Nat} {s t : State} : run k s = .jumpToSelf t ↔
    ∃ n < k, GoesOn n s ∧ afterSteps (n + 1) s = some t ∧ ∃ u, afterSteps n s = some u ∧ endsRun u t = true := by
  rw [run_eq_iff]
  constructor
  · rintro ⟨n, _, u, rfl, hon, ⟨hstep, hend⟩⟩
    obtain ⟨hon, hu⟩ := goesOnTo_iff.1 hon
    exact ⟨n, by omega, hon, afterSteps_succ_eq_some.2 ⟨u, hu, hstep⟩, u, hu, hend⟩
  · rintro ⟨n, hn, hon, ht, u, hu, hend⟩
    obtain ⟨_, hu', hstep⟩ := afterSteps_succ_eq_some.1 ht
    cases hu.symm.trans hu'
    exact ⟨n, k - n - 1 + 1, u, by omega, goesOnTo_iff.2 ⟨hon, hu⟩, .jumpToSelf hstep hend⟩

theorem run_eq_maxSteps {k : Nat} {s t : State} :
    run k s = .maxSteps t ↔ GoesOn k s ∧ afterSteps k s = some t ∧ Running t := by
  rw [run_eq_iff, ← and_assoc, ← goesOnTo_iff]
  constructor
  · rintro ⟨n, j, u, rfl, hon, h⟩
    cases h with
    | maxSteps h => exact ⟨hon, h⟩
  · rintro ⟨hon, h⟩
    exact ⟨k, 0, t, rfl, hon, .maxSteps h⟩

/-- An end that depends on its state alone can come after any number of the allowed steps. -/
theorem run_eq_of_stop {k : Nat} {s t : State} {e : RunEnd} {P : Prop} (he : ∀ j u, EndsAt j u e ↔ u = t ∧ P) :
    run k s = e ↔ ∃ n ≤ k, GoesOn n s ∧ afterSteps n s = some t ∧ P := by
  rw [run_eq_iff]
  constructor
  · rintro ⟨n, j, u, rfl, hon, h⟩
    obtain ⟨rfl, h⟩ := (he j u).1 h
    obtain ⟨hon, hu⟩ := goesOnTo_iff.1 hon
    exact ⟨n, Nat.le_add_right n j, hon, hu, h⟩
  · rintro ⟨n, hn, hon, ht, h⟩
    exact ⟨n, k - n, t, Nat.add_sub_of_le hn, goesOnTo_iff.2 ⟨hon, ht⟩, (he _ t).2 ⟨rfl, h⟩⟩

theorem endsAt_fault {j : Nat} {s t : State} {f : Fault} : EndsAt j s (.fault f t) ↔ s = t ∧ step t = .fault f := by
  constructor
  · intro h
    cases h with
    | fault h => exact ⟨rfl, h⟩
  · rintro ⟨rfl, h⟩
    exact .fault h

theorem endsAt_refused {j : Nat} {s t : State} {r : Refusal} : EndsAt j s (.refused r t) ↔ s = t ∧ step t = .refused r := by
  constructor
  · intro h
    cases h with
    | refused h => exact ⟨rfl, h⟩
  · rintro ⟨rfl, h⟩
    exact .refused h

theorem runEnds_iff {k : Nat} {s : State} : runEnds k s = true ↔ ∃ t, run k s = .jumpToSelf t := by
  rw [runEnds]
  cases run k s <;> simp

/-- Settles O43: the `JMP *` is read off the record and PC, and each end off the state the run has gone on to. -/
theorem runEndsAtJumpToSelf : Obligations.RunEndsAtJumpToSelf := by
  refine ⟨fun s u t i => endsRun_iff, fun k s => ?_, fun l => ⟨fun s h => ?_, fun e h => ?_⟩⟩
  · exact ⟨fun _ => run_eq_jumpToSelf, fun _ => run_eq_maxSteps, fun _ _ => run_eq_of_stop fun _ _ => endsAt_fault,
    fun _ _ => run_eq_of_stop fun _ _ => endsAt_refused, runEnds_iff⟩
  · simp only [Launch.run, h]
  · simp only [Launch.run, h]

end Sys2Proof.Machine

/-! A step color clock by color clock (63_riot_console R660 to R662, 62_television R617): what watching its parts gives, and that the
rest of a step can be run on from any of them. -/

namespace Sys2Proof.Machine

/-- The points of a step after one of them lead on to its boundary. -/
theorem Leads.drop {n k : Nat} {m m' : Suspended} (h : Leads n m m') (hk : k ≤ n) :
    Leads (n - k) (Nat.repeat Suspended.advance k m) m' := by
  constructor
  · rw [← repeat_add, Nat.add_sub_of_le hk]
    exact h.arrives
  · intro j hj
    rw [← repeat_add]
    exact h.inside _ (by omega)

/-- A renderer that answers every call ends no step. -/
theorem firstError_none (earlier events : List SinkEvent) : firstError (fun _ _ => none) earlier events = none := by
  induction events generalizing earlier with
  | nil => rfl
  | cons e rest ih => cases e <;> exact ih _

/-- Running the parts of a step with a renderer that answers every call leads to the boundary. -/
theorem runParts_last (q : Quantum) {bound n : Nat} {m m' : Suspended} (h : Leads n m m') (hn : n ≤ bound)
    (hb : m'.atBoundary = true) : (runParts q (fun _ _ => none) bound m).last = m' := by
  obtain ⟨j, -, -, hlast, -, hnone, hsome⟩ := runParts_eq q (fun _ _ => none) bound h hn hb
  cases he : (runParts q (fun _ _ => none) bound m).error with
  | none => rw [hlast, (hnone he).1, h.arrives]
  | some e =>
    obtain ⟨i, -, hi⟩ := hsome e he
    cases (firstError_none _ _).symm.trans hi

/-- What a step watched with a renderer reports: the boundary, or the first point whose calls returned an error. -/
theorem runParts_report (q : Quantum) (render : Renderer) {bound n : Nat} {m m' : Suspended} (h : Leads n m m') (hn : n ≤ bound)
    (hb : m'.atBoundary = true) :
    let err := fun k =>
      errorBetween render (Nat.repeat Suspended.advance k m).state (Nat.repeat Suspended.advance (k + 1) m).state
    let r := runParts q render bound m
    (r.error = none ↔ ∀ k < n, err k = none) ∧ (r.error = none → r.last = m' ∧ r.callbacks = seenBy q n m) ∧
      ∀ e, r.error = some e → ∃ k < n, (∀ j < k, err j = none) ∧ err k = some e ∧
        r.last = Nat.repeat Suspended.advance (k + 1) m ∧ r.callbacks = seenBy q (k + 1) m := by
  intro err r
  obtain ⟨j, hj, hseen, hlast, hbefore, hnone, hsome⟩ := runParts_eq q render bound h hn hb
  refine ⟨⟨fun he => ?_, fun herr => ?_⟩, fun he => ?_, fun e he => ?_⟩
  · obtain ⟨rfl, herr⟩ := hnone he
    exact herr
  · cases he : r.error with
    | none => rfl
    | some e =>
      obtain ⟨i, rfl, hi⟩ := hsome e he
      cases (herr i hj).symm.trans hi
  · obtain ⟨rfl, -⟩ := hnone he
    exact ⟨hlast.trans h.arrives, hseen⟩
  · obtain ⟨i, rfl, hi⟩ := hsome e he
    exact ⟨i, hj, fun k hk => hbefore k (Nat.succ_lt_succ hk), hi, hlast, hseen⟩

/-- Settles O46: the points of a step lead to the state it answers, and watching them is running its parts. -/
theorem instructionIsItsCycles : Obligations.InstructionIsItsCycles := by
  intro s hs
  obtain ⟨n, hn, m, hlead, hb, hstep⟩ := step_leads hs
  refine ⟨n, m.state, ?_⟩
  intro point seen err
  have hpoint : point n = m := hlead.arrives
  have hpos : 0 < n := by
    refine Nat.pos_of_ne_zero fun h0 => ?_
    have hstart : Suspended.start s = m := by rw [← hlead.arrives, h0]; rfl
    cases hstart ▸ hb
  refine ⟨hstep, hpos, congrArg _ hpoint, hpoint ▸ hb, hlead.inside, fun k _ => points_clocks s k, fun q render => ?_,
    fun q k hk => ?_⟩
  · refine ⟨resume q render (Suspended.start s), by simp only [stepWith, hs], ?_⟩
    rw [hpoint]
    exact runParts_report q render hlead hn hb
  · rw [hpoint]
    exact runParts_last q (hlead.drop hk) (Nat.le_trans (Nat.sub_le n k) hn) hb

end Sys2Proof.Machine

/-! The TIA's registers (61_tia): what its reads drive, what the stores of its latched registers take, and the pins and the
fire-button latches. -/

namespace Sys2Proof.Machine

/-! ### Reads -/

section Reads

variable {a : Word} {s : State} {loc : Nat} {b7 b6 : Bool} (ha : areaOf (addr13 a) = .tia) (hloc : a.toNat % 16 = loc)
  (hchip : tiaChip s.tia s.inputs loc = topBits b7 b6)
include ha hloc hchip

theorem busRead_tia_seven (h : loc < 14) : (busRead a s).1.getLsbD 7 = b7 := by
  rw [busRead_val_tia ha, hloc, mergeBits_driven _ _ _ 7 (tiaDriven_seven h), hchip, topBits_seven]

theorem busRead_tia_six (h : loc < 6 ∨ loc = 7) : (busRead a s).1.getLsbD 6 = b6 := by
  rw [busRead_val_tia ha, hloc, mergeBits_driven _ _ _ 6 (tiaDriven_six h), hchip, topBits_six]

end Reads

theorem buttonBit_eq (t : Tia) (pressed low : Bool) :
    buttonBit t pressed low = (!pressed && !(t.inptLatchEnable && low)) := Bool.not_or _ _

/-- Settles O20: each local's driven bits are the two top bits of its row in the read map. -/
theorem tiaReadsLatchesAndInputs : Obligations.TiaReadsLatchesAndInputs := by
  intro a s ha c loc v
  have seven {k : Nat} {b7 b6 : Bool} (hk : k < 14) (hchip : tiaChip s.tia s.inputs k = topBits b7 b6) (h : loc = k) :
      v.getLsbD 7 = b7 := busRead_tia_seven ha h hchip hk
  have both {k : Nat} {b7 b6 : Bool} (hk : k < 6 ∨ k = 7) (hchip : tiaChip s.tia s.inputs k = topBits b7 b6) (h : loc = k) :
      v.getLsbD 7 = b7 ∧ v.getLsbD 6 = b6 := ⟨seven (by omega) hchip h, busRead_tia_six ha h hchip hk⟩
  simp only [List.forall_mem_cons, List.not_mem_nil, false_implies, implies_true, and_true, ← buttonBit_eq]
  exact ⟨⟨both (by decide) rfl, both (by decide) rfl, both (by decide) rfl, both (by decide) rfl, both (by decide) rfl,
      both (by decide) rfl, both (by decide) rfl⟩, seven (by decide) rfl,
    ⟨seven (by decide) rfl, seven (by decide) rfl, seven (by decide) rfl, seven (by decide) rfl⟩, seven (by decide) rfl,
    seven (by decide) rfl⟩

/-! ### The WSYNC hold -/

/-- Settles O47: the hold is clocks alone, and each of its cycles brings the line's end three clocks closer. -/
theorem wsyncHoldEnds : Obligations.WsyncHoldEnds := by
  intro a v s u
  exact ⟨stall_wsync s, stall_cpu s, stall_result s, stall_ram s, stall_cart s, stall_lastAccess s, stall_lastAccessId s,
    stall_of_clear, stallFor_le 76 s, fun hw hf => stallFor_cycles 76 s hf hw (Nat.le_add_left _ _), memRead_cpuCycles a s,
    by simp [memWrite]⟩

/-! ### Stores -/

theorem toNat_getLsbD (v : Byte) (k : Nat) : (v.getLsbD k).toNat = v.toNat / 2 ^ k % 2 := by
  rw [BitVec.getLsbD, Nat.toNat_testBit]

theorem toNat_extractLsb' (v : Byte) (k n : Nat) : (v.extractLsb' k n).toNat = v.toNat / 2 ^ k % 2 ^ n := by
  rw [BitVec.extractLsb'_toNat, Nat.shiftRight_eq_div_pow]

/-- The positions after the store of a latch: a motion register's inside `hmove_busy` frees its object's (61_tia R543). -/
def positionsAfterStore (r : TiaLatch) (s : State) : PerObj (Fin 160) :=
  match r.motionOf with
  | some o => if hmoveBusyNow s.params s.tia then s.tia.pos.set o (Config.freePos s.draws) else s.tia.pos
  | none => s.tia.pos

/-- The ball's delayed latch after the store of a latch (61_tia R518, 70_reset_and_hazards R717; log 37). -/
def ballAfterStore (r : TiaLatch) (s : State) : Bool :=
  match r with
  | .grp0 => if s.params.ballCopy = .withGrp0 then s.tia.blNew else s.tia.blOld
  | .grp1 => if s.params.ballCopy = .withGrp1 then s.tia.blNew else s.tia.blOld
  | _ => s.tia.blOld

/-- Every latch's store in one equation: the register's own bits, then the ball's delayed copy, the fire-button latches and the
positions. -/
theorem storeLatch_tia (r : TiaLatch) (v : Byte) (s : State) : (storeLatch r v s).tia = { s.tia.store r v with
    blOld := ballAfterStore r s
    inpt4Low := if r = .vblank then v.getLsbD 6 && (s.tia.inpt4Low || s.inputs.fireLeft) else s.tia.inpt4Low
    inpt5Low := if r = .vblank then v.getLsbD 6 && (s.tia.inpt5Low || s.inputs.fireRight) else s.tia.inpt5Low
    pos := positionsAfterStore r s } := by
  cases r with
  | hmp0 | hmp1 | hmm0 | hmm1 | hmbl =>
    simp only [storeLatch, TiaLatch.motionOf, positionsAfterStore]
    split <;> rfl
  | grp0 => rw [storeLatch_grp0]; rfl
  | grp1 => rw [storeLatch_grp1]; rfl
  | _ => rfl

section Latch

variable {a : Word} (v : Byte) {s : State} {r : TiaLatch} (ha : areaOf (addr13 a) = .tia)
  (hr : tiaWriteReg (a.toNat % 64) = some (.latch r))
include ha hr

/-- A latch stores at once, or as a future under its delay (61_tia R503). -/
theorem busWrite_latch : (latchDelay s.params r = 0 → (busWrite a v s).tia = (fireAction (.store r v) s).tia) ∧
    ∀ d, latchDelay s.params r = d + 1 → (busWrite a v s).tia = { s.tia with
      futures := s.tia.futures ++ [{ remaining := d + 2, action := .store r v }] } := by
  have hwrite : (busWrite a v s).tia = (tiaWrite (a.toNat % 64) v s).tia := (busWrite_tia_of_local ha rfl rfl).1
  rw [hwrite, tiaWrite]
  simp only [hr]
  exact ⟨fun h => by rw [h]; rfl, fun d h => by rw [h]; rfl⟩

end Latch

/-- Settles O48: the register map gives each local its latch and delay, and one equation gives every latch's store. -/
theorem latchedRegistersStore : Obligations.LatchedRegistersStore := by
  intro a v s ha loc n t o f g regs b u ball values kept
  refine ⟨?_, ?_, ?_, fun hl => ?_⟩
  · have hmap : ∀ row ∈ regs, tiaWriteReg row.1 = some (.latch row.2.1) ∧ latchDelay s.params row.2.1 = row.2.2 := by
      simp only [regs, List.forall_mem_cons, List.not_mem_nil, false_implies, implies_true, and_true]
      and_intros
      all_goals rfl
    intro row hrow hl
    obtain ⟨hreg, hdelay⟩ := hmap row hrow
    rw [← hdelay]
    exact busWrite_latch v ha (by rw [← hreg, ← hl])
  · simp only [values, List.forall_mem_append, List.forall_mem_cons, List.not_mem_nil, false_implies, implies_true, and_true]
    simp only [u, n, b, ball, fireAction, storeLatch_tia, Tia.store, nusizOf, ctrlpfOf, colourOf, ballAfterStore,
      toNat_getLsbD, toNat_extractLsb', Nat.reducePow, Nat.div_one, true_and, and_true]
    and_intros
    all_goals omega
  · simp only [kept, List.forall_mem_append, List.forall_mem_cons, List.not_mem_nil, false_implies, implies_true, and_true]
    simp only [u, b, ball, fireAction, storeLatch_tia, Tia.store, ballAfterStore, positionsAfterStore, TiaLatch.motionOf,
      reduceCtorEq, if_false, if_true, and_true, true_and]
    and_intros
    all_goals (split <;> rfl)
  · exact (busWrite_tia_of_local ha rfl (u := s) (by simp only [tiaWrite, tiaWriteReg_of_ge _ (Nat.mod_lt _ (by decide)) hl])).1

/-! ### Input events and the fire-button latches -/

theorem getLsbD_bitAt {k : Nat} (hk : k < 8) (b : Bool) (j : Nat) : (bitAt k b).getLsbD j = (b && decide (k = j)) := by
  cases b with
  | false => simp [bitAt]
  | true =>
    rw [bitAt, if_pos rfl, BitVec.getLsbD_ofNat, Nat.testBit_two_pow, Bool.true_and]
    by_cases hj : k = j
    · simp [← hj, hk]
    · simp [hj]

theorem getLsbD_setBit (v : Byte) {k j : Nat} (hk : k < 8) (hj : j < 8) (level : Bool) :
    (setBit v k level).getLsbD j = if j = k then level else v.getLsbD j := by
  simp only [setBit, BitVec.getLsbD_or, BitVec.getLsbD_and, BitVec.getLsbD_not, getLsbD_bitAt hk, hj, decide_true, Bool.true_and,
    eq_comm (a := j)]
  split <;> simp [*]

/-- With no VBLANK store pending a tick samples the buttons and changes nothing else that a read of them sees. -/
theorem tiaTick_buttons {s : State} (h : ∀ f ∈ s.tia.futures, ∀ v, f.action ≠ .store .vblank v) :
    buttons (tiaTick s) = (s.inputs, s.tia.inptLatchEnable, s.tia.inptDump,
      s.tia.inptLatchEnable && (s.tia.inpt4Low || s.inputs.fireLeft),
      s.tia.inptLatchEnable && (s.tia.inpt5Low || s.inputs.fireRight)) := beamTick_buttons (latchButtons s) h

/-- Settles O32: an event sets one pin, and a tick samples the buttons once. -/
theorem inputsDrivePinsAndButtonLatches : Obligations.InputsDrivePinsAndButtonLatches := by
  refine ⟨fun _ _ => rfl, fun s level => ?_, fun s h => ?_⟩
  · intro i after
    refine ⟨fun row hrow => ⟨rfl, fun k hk => ?_⟩, fun row hrow => ⟨rfl, fun k hk => ?_⟩, rfl, rfl, rfl, rfl, rfl, rfl⟩
    · have hbit : joystickBit row.1 row.2.1 = row.2.2 ∧ row.2.2 < 8 := by
        clear hk
        revert row
        decide
      rw [← hbit.1]
      exact getLsbD_setBit i.pinsA (hbit.1 ▸ hbit.2) hk (!level)
    · have hbit : panelBit row.1 = row.2 ∧ row.2 < 8 := by
        clear hk
        revert row
        decide
      rw [← hbit.1]
      exact getLsbD_setBit i.pinsB (hbit.1 ▸ hbit.2) hk level
  · have hb := tiaTick_buttons h
    simp only [buttons, Prod.mk.injEq] at hb
    exact hb

end Sys2Proof.Machine

/-! Strobes' actions and the tick (61_tia R515 to R543): where a position reset, HMOVE and HMCLR put the objects, and a tick's steps in
order. -/

namespace Sys2Proof.Machine

/-! ### Objects -/

section PerObj

variable {α : Type} (f : PerObj α) (o q : Obj) (v w : α)

theorem PerObj.get_set : (f.set o v).get q = if q = o then v else f.get q := by cases o <;> cases q <;> rfl

theorem PerObj.set_get : f.set o (f.get o) = f := by cases o <;> rfl

theorem PerObj.set_set : (f.set o v).set o w = f.set o w := by cases o <;> rfl

end PerObj

theorem hmoveBusyNow_iff (p : Params) (t : Tia) :
    hmoveBusyNow p t = true ↔ ∃ k, t.hmoveAge = some k ∧ k ≤ p.hmoveBusy := by
  rw [hmoveBusyNow]
  split
  · next k h => simp [h]
  · next h => simp [h]

/-! ### Position resets -/

/-- The position a reset gives an object (61_tia R523, R543). -/
def positionAfterReset (o : Obj) (s : State) : Fin 160 :=
  if hmoveBusyNow s.params s.tia then Config.freePos s.draws
  else if s.tia.hclock.val < 68 then hbPos s.params o
  else Fin.ofNat 160 (s.tia.hclock.val - 68 + (visOff s.params o).val)

/-- A position reset in one equation: its object's position, its main copy's suppression, and a draw inside `hmove_busy`. -/
theorem resetPosition_eq (o : Obj) (s : State) : resetPosition o s = { s with
    tia := { s.tia with
      pos := s.tia.pos.set o (positionAfterReset o s)
      copy0Suppressed := s.tia.copy0Suppressed.set o
        (s.tia.copy0Suppressed.get o || (decide (68 ≤ s.tia.hclock.val) && suppresses s.params o)) }
    draws := if hmoveBusyNow s.params s.tia then s.draws + 1 else s.draws } := by
  simp only [resetPosition, positionAfterReset]
  by_cases hb : hmoveBusyNow s.params s.tia = true <;> by_cases hh : s.tia.hclock.val < 68
  · simp [hb, hh, Nat.not_le.2 hh, drawPos, PerObj.set_set, PerObj.set_get]
  · simp [hb, hh, Nat.le_of_not_lt hh, drawPos, PerObj.set_set]
  · simp [hb, hh, Nat.not_le.2 hh, PerObj.set_get]
  · simp [hb, hh, Nat.le_of_not_lt hh]

theorem suppresses_eq (p : Params) (o : Obj) : suppresses p o = (decide (o ≠ .bl) || p.ballSuppress) := by
  cases o with
  | bl => rfl
  | p0 | p1 | m0 | m1 => rfl

/-- Settles O51: a reset writes its object's place and suppression alone. -/
theorem positionResetsPlaceTheObject : Obligations.PositionResetsPlaceTheObject := by
  intro o s p h t busy blank off
  have ht : t = resetPosition o s := rfl
  have hbusy : busy ↔ hmoveBusyNow s.params s.tia = true := (hmoveBusyNow_iff _ _).symm
  have hblank : blank = hbPos s.params o := by cases o <;> rfl
  have hoff : off = visOff s.params o := by cases o <;> rfl
  rw [hbusy, hblank, hoff, ht, resetPosition_eq]
  simp only [PerObj.get_set, if_true, ← suppresses_eq]
  refine ⟨fun hb => ⟨?_, if_neg hb⟩, fun hb => ⟨if_pos hb, if_pos hb⟩, rfl, fun q hq => ⟨if_neg hq, if_neg hq⟩, trivial⟩
  rw [positionAfterReset, if_neg hb]
  split <;> rfl

/-! ### HMOVE and HMCLR -/

theorem movedPos_val (pos : Fin 160) (hm : BitVec 4) : ((movedPos pos hm).val : Int) = (pos.val - hm.toInt) % 160 := by
  simp only [movedPos, Fin.ofNat]
  omega

theorem movedAll_get (t : Tia) (o : Obj) : (movedAll t).get o = movedPos (t.pos.get o) (t.hm.get o) := by cases o <;> rfl

theorem hmoveAction_late {s : State} (h : s.params.hmoveFullLast < s.tia.hclock.val) : hmoveAction s = { s with
    tia := { s.tia with
      hmoveLine := Config.freeBool (s.draws + 5)
      pos := { p0 := Config.freePos s.draws, p1 := Config.freePos (s.draws + 1), m0 := Config.freePos (s.draws + 2),
               m1 := Config.freePos (s.draws + 3), bl := Config.freePos (s.draws + 4) } }
    draws := s.draws + 6 } := by
  rw [hmoveAction, if_neg (Nat.not_le.2 h), drawAllPos_eq]
  rfl

/-- Settles O52: a full HMOVE moves by each nibble, and every other position written is the next draw. -/
theorem hmoveMovesObjects : Obligations.HmoveMovesObjects := by
  intro v s p busy t c
  have hbusy : busy ↔ hmoveBusyNow s.params s.tia = true := (hmoveBusyNow_iff _ _).symm
  rw [hbusy]
  refine ⟨fun h => ?_, fun h => ?_, fun hb => ?_, fun hb => ?_, fun row hrow => ?_⟩
  · have ht : t = { s with tia := { s.tia with hmoveLine := true, pos := movedAll s.tia, hmoveAge := some 0 } } := if_pos h
    rw [ht]
    exact ⟨fun o => by rw [movedAll_get]; exact movedPos_val _ _, rfl⟩
  · have ht : t = _ := hmoveAction_late h
    rw [ht]
    exact ⟨rfl, rfl, rfl, rfl⟩
  · exact if_neg hb
  · have hc : c = _ := if_pos hb
    rw [hc, drawAllPos_eq]
  · have hmotion : row.1.motionOf = some row.2 ∧ ((s.tia.store row.1 v).hm.get row.2) = v.extractLsb' 4 4 := by
      revert row
      simp only [List.forall_mem_cons, List.not_mem_nil, false_implies, implies_true, and_true]
      exact ⟨⟨rfl, rfl⟩, ⟨rfl, rfl⟩, ⟨rfl, rfl⟩, ⟨rfl, rfl⟩, rfl, rfl⟩
    intro w
    have hw : w.tia = _ := storeLatch_tia row.1 v s
    rw [hw]
    simp only [positionsAfterStore, hmotion]
    refine ⟨?_, fun hb => if_neg hb, fun hb => if_pos hb⟩
    rw [toNat_extractLsb']
    omega

/-! ### The tick -/

theorem advanceClock_eq (p : Params) (t : Tia) : advanceClock p t = { t with
    hclock := t.hclock + 1
    hmoveAge := olderHmove p t.hmoveAge
    wsync := if t.hclock + 1 = 0 then false else t.wsync
    hmoveLine := if t.hclock + 1 = 0 then false else t.hmoveLine
    copy0Suppressed := if t.hclock + 1 = 0 then PerObj.all false else t.copy0Suppressed } := by
  simp only [advanceClock]
  split
  · simp [*]
  · simp [*]

theorem fireAll_eq_foldl (fs : List Future) (s : State) : fireAll fs s = fs.foldl (fun u f => fireAction f.action u) s := by
  induction fs generalizing s with
  | nil => rfl
  | cons f rest ih => exact ih _

theorem resmpOffset_eq (p : Params) (n : Nusiz) : resmpOffset p n =
    if n.copies = 5#3 then p.resmpOffset2 else if n.copies = 7#3 then p.resmpOffset4 else p.resmpOffset1 := by
  rw [resmpOffset, ← (playerScale_eq n).1]
  by_cases h5 : n.copies = 5#3
  · simp [h5]
  · by_cases h7 : n.copies = 7#3
    · simp [h7]
    · simp [h5, h7]

/-- The futures still pending after `n` ticks, as many clocks closer (61_tia R561). -/
def pendingAfter (n : Nat) (fs : List Future) : List Future :=
  (fs.filter (fun f => decide (n < f.remaining))).map (fun f => { f with remaining := f.remaining - n })

theorem pendingAfter_zero {fs : List Future} (h : ∀ f ∈ fs, 0 < f.remaining) : pendingAfter 0 fs = fs := by
  simp only [pendingAfter, Nat.sub_zero, List.map_id']
  exact List.filter_eq_self.2 fun f hf => decide_eq_true (h f hf)

theorem pendingAfter_succ (n : Nat) (fs : List Future) : pendingAfter (n + 1) fs = stillPending (pendingAfter n fs) := by
  simp only [pendingAfter, stillPending, List.filter_map, List.map_map, List.filter_filter]
  refine congr (congrArg List.map (funext fun f => ?_)) (List.filter_congr fun f _ => ?_)
  · simp [Nat.sub_sub]
  · rw [Bool.eq_iff_iff]
    simp only [Function.comp_apply, Bool.and_eq_true, decide_eq_true_eq]
    omega

theorem repeat_tiaTick_futures {s : State} (h : ∀ f ∈ s.tia.futures, 0 < f.remaining) (n : Nat) :
    (Nat.repeat tiaTick n s).tia.futures = pendingAfter n s.tia.futures := by
  induction n with
  | zero => exact (pendingAfter_zero h).symm
  | succ n ih => rw [Nat.repeat, tiaTick_futures, ih, pendingAfter_succ]

/-- Only the futures due write PF1 in a tick. -/
theorem tiaTick_pf1 (s : State) : (tiaTick s).tia.pf1 =
    (runFutures { latchButtons s with tia := advanceClock s.params (latchButtons s).tia }).tia.pf1 := by
  have hdraw (u : State) : (drawPixel u).2.2.tia.pf1 = u.tia.pf1 := by
    obtain ⟨_, _, h⟩ := drawPixel_eq u
    rw [h]
  simp only [tiaTick, beamTick, audioEvent_tia, sendSignal_tia]
  exact hdraw _

/-- Settles O50: each step of the tick is one lemma, and every tick brings the pending futures one clock closer. -/
theorem futuresFireInOrder : Obligations.FuturesFireInOrder := by
  intro s clocked fired locked d sent closer offset sample
  have hclock : clocked.tia = _ := advanceClock_eq s.params (latchButtons s).tia
  refine ⟨fireAll_eq_foldl _ _, rfl, ?_, fun h => ?_, fun h => ?_, ?_, ?_, fun h => if_pos h, fun h => if_neg h,
    repeat_tiaTick_futures, fun v w h => ?_⟩
  · rw [hclock]; exact Fin.val_add _ _
  · rw [hclock] at h ⊢
    exact ⟨if_pos h, if_pos h, if_pos h⟩
  · rw [hclock] at h ⊢
    exact ⟨if_neg h, if_neg h, if_neg h⟩
  · rw [hclock]; rfl
  · simp only [locked, resmpLock, resmpOffset_eq]
    rfl
  · rw [tiaTick_pf1, advanceClock_eq]
    have hs : (latchButtons s).tia.futures = _ := h
    simp only [runFutures, hs, dueNow, List.filter]
    rfl

end Sys2Proof.Machine

/-! The picture (61_tia R516 to R528, R550, R551): the six sources at a pixel, the source that wins and its colour, and the collision
latches. -/

namespace Sys2Proof.Machine

/-! ### The six sources -/

theorem ballBit_iff (t : Tia) (x : Fin 160) : ballBit t x = true ↔ (if t.vdelbl then t.blOld else t.blNew) = true ∧
    t.copy0Suppressed.bl = false ∧ ∃ k < 2 ^ t.ctrlpf.ballWidth.toNat, x = t.pos.bl + Fin.ofNat 160 k := by
  have hx := offset_iff x t.pos.bl 0 (2 ^ t.ctrlpf.ballWidth.toNat) (width_le _) (fun _ => True)
  have hzero : x - t.pos.bl - 0 = x - t.pos.bl := by omega
  simp only [and_true, hzero, Fin.add_zero] at hx
  simp only [ballBit, objWidth, Bool.and_eq_true, decide_eq_true_eq, Bool.not_eq_true', hx, and_assoc, and_comm (a := ∃ _, _)]

/-- Settles O53: each source's bit is its rule, with the copies and the scale NUSIZ selects. -/
theorem pixelsFollowTheRegisters : Obligations.PixelsFollowTheRegisters := by
  intro t x bits pattern line copies scale player missile b
  have hcopies (n : Nusiz) : copies n.copies.toNat = copyOffsets n := copyOffsets_eq n
  have hscale (n : Nusiz) : scale n = playerScale n := (playerScale_eq n).1
  have hplayer (pos n gfx refl supp) : playerBit pos n gfx refl supp x = true ↔ player pos n gfx refl supp := by
    simp only [player, hcopies, hscale]
    exact playerBit_iff pos n gfx refl supp x
  have hmissile (on locked pos n supp) :
      missileBit on locked pos n supp x = true ↔ on = true ∧ locked = false ∧ missile pos n supp := by
    simp only [missile, hcopies]
    exact missileBit_iff on locked pos n supp x
  exact ⟨playfieldBit_eq t x, hplayer _ _ _ _ _, hplayer _ _ _ _ _, hmissile _ _ _ _ _, hmissile _ _ _ _ _, ballBit_iff t x⟩

/-! ### Priority, colour and collisions -/

theorem isHblank_iff (t : Tia) : isHblank t = true ↔ t.hclock.val < 68 ∨ (t.hmoveLine = true ∧ t.hclock.val < 76) := by
  simp [isHblank]

theorem drawPixel_blank {s : State} (h : isHblank s.tia = true) : drawPixel s = (none, none, s) := by
  simp only [drawPixel, h, if_true]

/-- The source that wins at the current clock. -/
def winnerNow (s : State) : Source := winner (Config.freeBool s.draws) s.tia (pixelBits s.tia (visibleX s.tia))

section Visible

variable {s : State} (h : ¬ isHblank s.tia = true)
include h

theorem drawPixel_vblank (hv : s.tia.vblank = true) : (drawPixel s).1 = none ∧ (drawPixel s).2.1 = none := by
  simp only [drawPixel, if_neg h, hv, if_true, and_self]

theorem drawPixel_shown (hv : s.tia.vblank = false) :
    (drawPixel s).1 = some (sourceColour s.params s.tia (visibleX s.tia).val (winnerNow s)) ∧
      (drawPixel s).2.1 = some (winnerNow s) := by
  simp only [drawPixel, if_neg h, hv, Bool.false_eq_true, if_false]
  exact ⟨rfl, rfl⟩

theorem drawPixel_collisions : (drawPixel s).2.2.tia.collisions =
    if s.tia.vblank && !s.params.collisionsInVblank then s.tia.collisions
    else latchCollisions s.tia.collisions (pixelBits s.tia (visibleX s.tia)) := by
  simp only [drawPixel, if_neg h]
  split <;> split <;> rfl

/-- The left half of the visible line ends at clock 148. -/
theorem visibleX_lt_iff : (visibleX s.tia).val < 80 ↔ s.tia.hclock.val < 148 := by
  have hclock : 68 ≤ s.tia.hclock.val := by
    rw [isHblank_iff] at h
    omega
  simp only [visibleX, Fin.ofNat]
  omega

theorem playfieldColour_visible (p : Params) : playfieldColour p s.tia (visibleX s.tia).val =
    if s.tia.ctrlpf.score && (!s.tia.ctrlpf.pfp || p.scoreWithPfp) then
      (if s.tia.hclock.val < 148 then s.tia.colup0 else s.tia.colup1)
    else s.tia.colupf := by
  simp only [playfieldColour, visibleX_lt_iff h]

end Visible

/-- The player and missile that wins between the players' two groups (61_tia R525). -/
def playersSource (free : Bool) (b : PixelBits) : Option Source :=
  if b.p0 || b.m0 then some (pickSource free b.p0 b.m0 .p0 .m0)
  else if b.p1 || b.m1 then some (pickSource free b.p1 b.m1 .p1 .m1)
  else none

/-- The winner of the playfield's group. -/
def fieldSource (free : Bool) (b : PixelBits) : Option Source :=
  if b.pf || b.bl then some (pickSource free b.pf b.bl .pf .bl) else none

theorem winner_eq (free : Bool) (t : Tia) (b : PixelBits) : winner free t b =
    (if t.ctrlpf.pfp then (fieldSource free b).or (playersSource free b)
      else (playersSource free b).or (fieldSource free b)).getD .bk := by
  simp only [winner]
  split <;> rfl

theorem apply_pickSource {α : Type} {f : Source → α} {c : α} {s1 s2 : Source} (h1 : f s1 = c) (h2 : f s2 = c) (free b1 b2 : Bool) :
    f (pickSource free b1 b2 s1 s2) = c := by
  simp only [pickSource]
  (repeat' split) <;> assumption

section Colours

variable (p : Params) (t : Tia) (x : Nat) (free : Bool) (b : PixelBits)

theorem playersSource_colour : (playersSource free b).map (sourceColour p t x) =
    if b.p0 || b.m0 then some t.colup0 else if b.p1 || b.m1 then some t.colup1 else none := by
  have h0 := apply_pickSource (f := sourceColour p t x) (c := t.colup0) (s1 := .p0) (s2 := .m0) rfl rfl
  have h1 := apply_pickSource (f := sourceColour p t x) (c := t.colup1) (s1 := .p1) (s2 := .m1) rfl rfl
  simp only [playersSource]
  (repeat' split) <;> simp [h0, h1]

/-- Where playfield and ball show one colour, the group's colour is the source's that is on. -/
theorem fieldSource_colour (h : b.pf = true → b.bl = true → playfieldColour p t x = t.colupf) :
    (fieldSource free b).map (sourceColour p t x) =
      if b.pf then some (playfieldColour p t x) else if b.bl then some t.colupf else none := by
  simp only [fieldSource, pickSource]
  cases hpf : b.pf <;> cases hbl : b.bl
  · rfl
  · rfl
  · rfl
  · rw [h hpf hbl]
    cases free
    · rfl
    · exact congrArg some (h hpf hbl)

theorem sourceColour_winner : sourceColour p t x (winner free t b) =
    (if t.ctrlpf.pfp then ((fieldSource free b).map (sourceColour p t x)).or ((playersSource free b).map (sourceColour p t x))
      else ((playersSource free b).map (sourceColour p t x)).or ((fieldSource free b).map (sourceColour p t x))).getD t.colubk := by
  have hbk : t.colubk = sourceColour p t x .bk := rfl
  rw [winner_eq, hbk, ← Option.map_or, ← Option.map_or, ← apply_ite (Option.map _), Option.getD_map]

end Colours

theorem some_getD_or_some {α : Type} (o : Option α) (c x : α) : some ((o.or (some c)).getD x) = o.or (some c) := by cases o <;> rfl

/-- A group's winner is one of its sources that are on, and there is none when none is. -/
def WinsIn (w : Option Source) (g : List Source) : Prop := (w = none ∧ g = []) ∨ ∃ src ∈ g, w = some src

theorem WinsIn.or {w1 w2 : Option Source} {g1 g2 : List Source} (h1 : WinsIn w1 g1) (h2 : WinsIn w2 g2) :
    (w1.or w2).getD .bk ∈ (([g1, g2].find? (fun g => !g.isEmpty)).getD [.bk]) := by
  obtain ⟨rfl, rfl⟩ | ⟨src1, hm1, rfl⟩ := h1
  · obtain ⟨rfl, rfl⟩ | ⟨src2, hm2, rfl⟩ := h2
    · simp
    · have : g2 ≠ [] := List.ne_nil_of_mem hm2
      simpa [this] using hm2
  · have : g1 ≠ [] := List.ne_nil_of_mem hm1
    simpa [this] using hm1

/-- The sources of a group that are on. -/
def sourcesOn (l : List (Bool × Source)) : List Source := (l.filter Prod.fst).map Prod.snd

theorem winsIn_pickSource (free b1 b2 : Bool) (s1 s2 : Source) :
    WinsIn (if b1 || b2 then some (pickSource free b1 b2 s1 s2) else none) (sourcesOn [(b1, s1), (b2, s2)]) := by
  cases b1 <;> cases b2 <;> cases free <;> simp [WinsIn, sourcesOn, pickSource]

theorem winsIn_playersSource (free : Bool) (b : PixelBits) : WinsIn (playersSource free b)
    (if b.p0 || b.m0 then sourcesOn [(b.p0, .p0), (b.m0, .m0)] else sourcesOn [(b.p1, .p1), (b.m1, .m1)]) := by
  have h := winsIn_pickSource free b.p0 b.m0 .p0 .m0
  rw [playersSource]
  split
  · next h0 => rwa [if_pos h0] at h
  · exact winsIn_pickSource free b.p1 b.m1 .p1 .m1

theorem winsIn_fieldSource (free : Bool) (b : PixelBits) : WinsIn (fieldSource free b) (sourcesOn [(b.pf, .pf), (b.bl, .bl)]) :=
  winsIn_pickSource free b.pf b.bl .pf .bl

/-- Settles O54: the winner is the first group's that has one, and its colour is its group's. -/
theorem priorityColourAndCollisions : Obligations.PriorityColourAndCollisions := by
  intro s t b d blank score pfColour players playfield c on front field groups first colourOf
  have hblank : blank ↔ isHblank s.tia = true := (isHblank_iff s.tia).symm
  rw [hblank]
  have hpf (h : ¬ isHblank s.tia = true) : playfieldColour s.params t (visibleX t).val = pfColour :=
    playfieldColour_visible h s.params
  have hcolour (h : ¬ isHblank s.tia = true) (hv : t.vblank = false) :
      d.1 = some (sourceColour s.params t (visibleX t).val (winnerNow s)) ∧ d.2.1 = some (winnerNow s) := drawPixel_shown h hv
  refine ⟨drawPixel_blank, drawPixel_vblank, fun h hv hscore => ?_, fun h hv hpfOn hblOn => ?_, fun h hv => ?_, fun h hc => ?_,
    fun h hv hc => ?_⟩
  · have hfield := fieldSource_colour s.params t (visibleX t).val (Config.freeBool s.draws) b fun hpfOn hblOn => by
      have hs : score = false := by simpa [hpfOn, hblOn] using hscore
      rw [hpf h]
      simp only [pfColour, hs, Bool.false_eq_true, if_false]
    rw [(hcolour h hv).1, winnerNow, sourceColour_winner, playersSource_colour, hfield, hpf h]
  · obtain ⟨src, hsrc, hfield⟩ : ∃ src, (src = .pf ∨ src = .bl) ∧ fieldSource (Config.freeBool s.draws) b = some src := by
      simp only [fieldSource, pickSource, hpfOn, hblOn, Bool.or_self, Bool.and_self, if_true]
      split
      · exact ⟨_, .inl rfl, rfl⟩
      · exact ⟨_, .inr rfl, rfl⟩
    refine ⟨sourceColour s.params t (visibleX t).val src, ?_, ?_⟩
    · obtain rfl | rfl := hsrc
      · exact List.mem_cons.2 (.inl (hpf h))
      · simp [sourceColour]
    · rw [(hcolour h hv).1, winnerNow, sourceColour_winner, playersSource_colour, hfield]
      split
      · rfl
      · exact some_getD_or_some _ _ _
  · have hcolourOf (src : Source) : sourceColour s.params t (visibleX t).val src = colourOf src := by
      cases src with
      | pf => exact hpf h
      | _ => rfl
    refine ⟨winnerNow s, ?_, (hcolour h hv).2, (hcolourOf _) ▸ (hcolour h hv).1⟩
    have hfront : WinsIn _ front := winsIn_playersSource (Config.freeBool s.draws) b
    have hfield : WinsIn _ field := winsIn_fieldSource (Config.freeBool s.draws) b
    rw [winnerNow, winner_eq]
    simp only [first, groups]
    split
    · exact hfield.or hfront
    · exact hfront.or hfield
  · have hon : (s.tia.vblank && !s.params.collisionsInVblank) = false := by
      obtain hv | hc := hc
      · simp [show s.tia.vblank = false from hv]
      · simp [hc]
    have := drawPixel_collisions h
    rw [hon] at this
    simp only [c, d, this]
    rfl
  · have hoff : (s.tia.vblank && !s.params.collisionsInVblank) = true := by simp [show s.tia.vblank = true from hv, hc]
    exact (drawPixel_collisions h).trans (if_pos hoff)

end Sys2Proof.Machine

/-! The television (62_television R601 to R612): one `Signal` as one equation, then what it commits, draws and checks, and the beam it
follows. -/

namespace Sys2Proof.Machine

/-! ### One `Signal` -/

section Signal

variable (p : Params) (a : Attrs) (tv : Tv)

/-- This `Signal` is a VSYNC edge that commits the frame (62_television R607). -/
def commitsNow : Bool := commitsFrame p a tv.prev.vsync tv.vsyncCount

/-- The horizontal position it is judged and drawn at (R602, R603). -/
def positionNow : Int := if startsLine a tv then -68 else tv.horizontal + 1

/-- The scanline before VSYNC is looked at (R603). -/
def lineNow : Nat := if startsLine a tv then tv.scanline + 1 else tv.scanline

/-- The scanline it leaves (R607). -/
def scanlineNow : Nat := if commitsNow p a tv then 0 else lineNow a tv

/-- The line ran past position 159 (R602). -/
def wrapsNow : Bool := !a.frontporch && decide (159 ≤ tv.horizontal)

/-- An edge outside its window, once a line has started (R604, R605; log 26). -/
def edgeFails (now before : Bool) (onLo onHi offLo offHi : Int) : Bool :=
  (startsLine a tv || tv.lineSynced) && badEdge now before onLo onHi offLo offHi (positionNow a tv)

/-- The HSYNC edge check (R604). -/
def hsyncFails : Bool := edgeFails a tv a.hsync tv.prev.hsync (-52) (-49) (-36) (-33)

/-- The CBURST edge check (R605). -/
def cburstFails : Bool := edgeFails a tv a.cburst tv.prev.cburst p.cburstOnLo p.cburstOnHi p.cburstOffLo p.cburstOffHi

/-- The scanline it starts is past the specification's lines (R606; log 25). -/
def overlongNow : Bool := startsLine a tv && decide (tv.spec.lines < lineNow a tv)

/-- The renderer gets no more of this frame (R606, R610). -/
def endOfScreenNow : Bool := !commitsNow p a tv && (tv.endOfScreen || overlongNow a tv)

/-- The specification it leaves (R608; log 25). -/
def specNow : TvSpec :=
  if startsLine a tv && decide (tv.spec = .ntsc) && decide (276 < scanlineNow p a tv) then .pal else tv.spec

/-- Its pixel is learned from (R609). -/
def learnsNow : Bool := decide (0 ≤ positionNow a tv) && !a.vblank

/-- The learned top before its own pixel (R607). -/
def learnedTop : Option Nat := if commitsNow p a tv then none else tv.learnTop

/-- The learned bottom before its own pixel (R607). -/
def learnedBottom : Option Nat := if commitsNow p a tv then none else tv.learnBottom

/-- One `Signal` in one equation (R602 to R610). -/
theorem tvSignal_eq : tvSignal p a tv =
    { tv :=
        { frame := if commitsNow p a tv then tv.frame + 1 else tv.frame
          scanline := scanlineNow p a tv
          horizontal := positionNow a tv
          vsyncCount := if a.vsync then tv.vsyncCount + 1 else if tv.prev.vsync then 0 else tv.vsyncCount
          prev := a
          visibleTop := if commitsNow p a tv then tv.learnTop.getD tv.visibleTop else tv.visibleTop
          visibleBottom := if commitsNow p a tv then tv.learnBottom.getD tv.visibleBottom else tv.visibleBottom
          learnTop := if learnsNow a tv then some (learnMin (learnedTop p a tv) (scanlineNow p a tv)) else learnedTop p a tv
          learnBottom := if learnsNow a tv then some (learnMax (learnedBottom p a tv) (scanlineNow p a tv)) else learnedBottom p a tv
          spec := specNow p a tv
          outOfSpec := tv.outOfSpec || wrapsNow a tv || hsyncFails a tv || cburstFails p a tv || overlongNow a tv
          endOfScreen := endOfScreenNow p a tv
          lineSynced := startsLine a tv || tv.lineSynced }
      newLine := startsLine a tv
      checks := (if wrapsNow a tv then [.horizontalWrap] else []) ++ (if hsyncFails a tv then [.hsyncWindow] else []) ++
        (if cburstFails p a tv then [.cburstWindow] else []) ++ (if overlongNow a tv then [.overlongFrame] else [])
      events := (if startsLine a tv && !tv.endOfScreen then [.newScanline (tv.scanline + 1)] else []) ++
        (if commitsNow p a tv then [.newFrame (tv.frame + 1)] else []) ++
        (if decide (0 ≤ positionNow a tv) && !endOfScreenNow p a tv then
          [.setPixel (positionNow a tv) (scanlineNow p a tv) (palette (specNow p a tv) a.pixel) a.vblank,
            .setAltPixel (positionNow a tv) (scanlineNow p a tv) a.alt a.vblank] else []) } := by
  simp only [tvSignal, tvHorizontal_eq, tvHsync, tvCburst, tvEdgeCheck_eq, tvOverlong_eq, tvVsync_eq, tvDetect_eq, tvLearn_eq,
    tvPixel_eq]
  rfl

theorem startsLine_iff : startsLine a tv = true ↔ a.frontporch = true ∨ 159 ≤ tv.horizontal := by simp [startsLine]

theorem commitsNow_iff : commitsNow p a tv = true ↔
    (a.vsync = false ∧ tv.prev.vsync = true) ∧ p.vsyncClocks ≤ tv.vsyncCount := by simp [commitsNow, commitsFrame]

theorem wrapsNow_iff : wrapsNow a tv = true ↔ a.frontporch = false ∧ 159 ≤ tv.horizontal := by simp [wrapsNow]

theorem overlongNow_iff : overlongNow a tv = true ↔ startsLine a tv = true ∧ tv.spec.lines < lineNow a tv := by
  simp [overlongNow]

theorem learnsNow_iff : learnsNow a tv = true ↔ 0 ≤ positionNow a tv ∧ a.vblank = false := by simp [learnsNow]

theorem edgeFails_iff (now before : Bool) (onLo onHi offLo offHi : Int) : edgeFails a tv now before onLo onHi offLo offHi = true ↔
    (startsLine a tv = true ∨ tv.lineSynced = true) ∧
      ((now = true ∧ before = false ∧ (positionNow a tv < onLo ∨ onHi < positionNow a tv)) ∨
        (now = false ∧ before = true ∧ (positionNow a tv < offLo ∨ offHi < positionNow a tv))) := by
  simp only [edgeFails, badEdge, Bool.and_eq_true, Bool.or_eq_true, Bool.not_eq_true', Bool.and_eq_false_iff, decide_eq_false_iff_not,
    Int.not_le]
  rw [and_comm (a := before = true)]
  simp only [and_assoc]

end Signal

/-! ### Frames -/

theorem learnMin_none (line : Nat) : learnMin none line = line := rfl
theorem learnMax_none (line : Nat) : learnMax none line = line := rfl

/-- The learned top is the smallest line seen. -/
theorem learnMin_spec (bound : Option Nat) (line : Nat) : learnMin bound line ≤ line ∧
    (learnMin bound line = line ∨ bound = some (learnMin bound line)) ∧ ∀ k, bound = some k → learnMin bound line ≤ k := by
  cases bound with
  | none => exact ⟨Nat.le_refl _, .inl rfl, nofun⟩
  | some b =>
    have hb : learnMin (some b) line = min b line := rfl
    simp only [hb, Option.some.injEq, forall_eq']
    omega

/-- The learned bottom is the largest line seen. -/
theorem learnMax_spec (bound : Option Nat) (line : Nat) : line ≤ learnMax bound line ∧
    (learnMax bound line = line ∨ bound = some (learnMax bound line)) ∧ ∀ k, bound = some k → k ≤ learnMax bound line := by
  cases bound with
  | none => exact ⟨Nat.le_refl _, .inl rfl, nofun⟩
  | some b =>
    have hb : learnMax (some b) line = max b line := rfl
    simp only [hb, Option.some.injEq, forall_eq']
    omega

/-- Settles O56: a committing edge takes the learned bounds and starts them again, and nothing else moves the frame. -/
theorem vsyncCommitsFrame : Obligations.VsyncCommitsFrame := by
  intro p a tv w falls commits visible
  have hw : w = _ := tvSignal_eq p a tv
  have hcommits : commits ↔ commitsNow p a tv = true := (commitsNow_iff p a tv).symm
  have hvisible : visible ↔ learnsNow a tv = true := by
    rw [learnsNow_iff]
    simp only [visible, hw]
  rw [hcommits, hvisible, hw]
  refine ⟨rfl, rfl, fun n => by rw [tvSignal_eq]; rfl, fun n => ?_, fun hc => ?_, fun hc => ?_⟩
  · simp only [List.mem_append, List.mem_ite_nil_right, List.mem_cons, List.not_mem_nil, reduceCtorEq, or_false,
      and_false, false_or, SinkEvent.newFrame.injEq]
  · simp only [hc, scanlineNow, endOfScreenNow, learnedTop, learnedBottom, learnMin_none, learnMax_none, if_true, Bool.not_true,
      Bool.false_and, true_and]
    exact ⟨fun hv => by simp only [hv, if_true, and_self], fun hv => by simp only [hv, if_false, and_self, Bool.false_eq_true]⟩
  · simp only [hc, learnedTop, learnedBottom, if_false, Bool.false_eq_true, true_and]
    refine ⟨fun hv => ?_, fun hv => ?_⟩
    · simp only [hv, if_true]
      exact ⟨⟨_, rfl, learnMin_spec _ _⟩, _, rfl, learnMax_spec _ _⟩
    · simp only [hv, if_false, Bool.false_eq_true, and_self]

/-! ### Scanlines and renderer calls -/

/-- Settles O57: the renderer's calls are the three lists of the equation, and a commit leaves line 0. -/
theorem linesAndPixelsReachRenderer : Obligations.LinesAndPixelsReachRenderer := by
  intro p a tv w starts commits line
  have hw : w = _ := tvSignal_eq p a tv
  have hstarts : starts ↔ startsLine a tv = true := (startsLine_iff a tv).symm
  have hcommits : commits ↔ commitsNow p a tv = true := by rw [commitsNow_iff, and_assoc]
  have hline : line = lineNow a tv := by
    simp only [line, hstarts]
    rfl
  rw [hcommits, hline, hw]
  simp only [hstarts]
  refine ⟨rfl, by simp, fun hc => ⟨?_, ?_, ?_⟩, fun hc => ?_, fun n => ?_, fun x y c v => ?_, fun x y c v => ?_⟩
  · exact if_neg hc
  · simp only [endOfScreenNow, hc, Bool.not_false, Bool.true_and, Bool.or_eq_true, overlongNow_iff]
  · simp only [specNow, scanlineNow, hc, Bool.false_eq_true, if_false, Bool.and_eq_true, decide_eq_true_eq]
    cases tv.spec <;> simp
  · simp [specNow, scanlineNow, hc]
  · simp [and_assoc]
  · simp [and_assoc]
  · simp [and_assoc]

/-! ### Checks -/

/-- Which checks a `Signal` fails (R602, R604 to R606). -/
theorem mem_checks (p : Params) (a : Attrs) (tv : Tv) (c : TvCheck) : c ∈ (tvSignal p a tv).checks ↔
    match c with
    | .horizontalWrap => wrapsNow a tv = true
    | .hsyncWindow => hsyncFails a tv = true
    | .cburstWindow => cburstFails p a tv = true
    | .overlongFrame => overlongNow a tv = true := by
  rw [tvSignal_eq]
  cases c <;> simp

/-- A `Signal` sets `outOfSpec` exactly when it fails a check (R611). -/
theorem tvSignal_outOfSpec (p : Params) (a : Attrs) (tv : Tv) :
    (tvSignal p a tv).tv.outOfSpec = true ↔ tv.outOfSpec = true ∨ ∃ c, c ∈ (tvSignal p a tv).checks := by
  rw [tvSignal_eq]
  simp [exists_or, or_assoc]

/-- A tick ends with one `Signal` to the television it found, which alone reports. -/
theorem tiaTick_signal (s : State) : ∃ a v, tiaTick s = audioEvent (sendSignal a v) ∧ v.tv = s.tv ∧ v.params = s.params ∧
    v.reports = s.reports := by
  refine ⟨_, _, rfl, ?_⟩
  have hk := runFutures_kept { latchButtons s with tia := advanceClock s.params (latchButtons s).tia }
  obtain ⟨_, _, hdraw⟩ := drawPixel_eq (let u := runFutures { latchButtons s with tia := advanceClock s.params (latchButtons s).tia }
    { u with tia := resmpLock u.params u.tia })
  exact ⟨(congrArg State.tv hdraw).trans hk.tv, (congrArg State.params hdraw).trans hk.params,
    (congrArg State.reports hdraw).trans hk.reports⟩

theorem tiaTick_outOfSpec (s : State) : (tiaTick s).tv.outOfSpec = true ↔
    s.tv.outOfSpec = true ∨ ∃ r ∈ newReports s (tiaTick s), ∃ c, r.report = .outOfSpec c := by
  obtain ⟨a, v, htick, htv, -, hreports⟩ := tiaTick_signal s
  rw [newReports, htick, audioEvent_reports, sendSignal_reports, hreports, List.drop_left, audioEvent_tv, sendSignal_tv,
    tvSignal_outOfSpec, htv]
  refine or_congr_right ⟨fun ⟨c, hc⟩ => ⟨_, List.mem_map_of_mem hc, c, rfl⟩, fun ⟨r, hr, _⟩ => ?_⟩
  obtain ⟨c, hc, -⟩ := List.mem_map.1 hr
  exact ⟨c, hc⟩

/-- A set `outOfSpec` stays set across each change a step is made of. -/
theorem closed_outOfSpec : Closed (fun s t => s.tv.outOfSpec = true → t.tv.outOfSpec = true) where
  refl _ := id
  trans h k := k ∘ h
  cpu _ _ _ _ _ := id
  read a s := by rw [busRead_tv]; exact id
  write a v s := by rw [busWrite_tv]; exact id
  cycle s h := by
    have htick (u : State) (hu : u.tv.outOfSpec = true) : (tiaTick u).tv.outOfSpec = true := (tiaTick_outOfSpec u).2 (.inl hu)
    change (endCycle s).tv.outOfSpec = true
    rw [endCycle_tv, threeTicks]
    exact htick _ (htick _ (htick s h))

theorem applyHost_tv {h : HostAction} (hh : h ≠ .reset) (s : State) : (applyHost h s).tv = s.tv := by
  cases h with
  | reset => exact absurd rfl hh
  | poke a v =>
    obtain ⟨_, _, _, _, _, hpoke, -⟩ := poke_eq a v s
    simp [applyHost, hpoke]
  | input | setFeature | cancel => rfl

/-- Settles O58: a `Signal`'s checks are its reports. -/
theorem outOfSpecIsStickyAndLogged : Obligations.OutOfSpecIsStickyAndLogged := by
  refine ⟨fun p a tv => ?_, fun s => ⟨tiaTick_outOfSpec s, rfl, fun h hh => applyHost_tv hh s,
    fun t h => closed_outOfSpec.step (fun _ _ => id) (fun _ _ => id) h⟩⟩
  intro w starts outside
  have hposition : w.tv.horizontal = positionNow a tv := by simp only [w, tvSignal_eq]
  simp only [outside, hposition, starts, w, mem_checks, wrapsNow_iff, hsyncFails, cburstFails, edgeFails_iff, overlongNow_iff,
    startsLine_iff, true_and]
  exact and_congr_right fun h => by rw [lineNow, if_pos ((startsLine_iff a tv).2 h)]

/-! ### The beam -/

/-- The television's position and its last HSYNC and CBURST are the beam's (61_tia R511, R514, 62_television R601). -/
structure Aligned (s : State) : Prop where
  position : s.tv.horizontal = (s.tia.hclock.val : Int) - 68
  hsync : s.tv.prev.hsync = (decide (16 ≤ s.tia.hclock.val) && decide (s.tia.hclock.val < 32))
  cburst : s.tv.prev.cburst = (decide (32 ≤ s.tia.hclock.val) && decide (s.tia.hclock.val < 48))

theorem hclock_succ (h : Fin 228) : (h + 1).val = (h.val + 1) % 228 := Fin.val_add h 1

section Beam

variable {s v : State} {px : Option (BitVec 7)} {al : Option Source} (hs : Aligned s) (hv : v.tia.hclock = s.tia.hclock + 1)
include hs hv

theorem startsLine_beam : startsLine (signalOf v.tia px al) s.tv = true ↔ s.tia.hclock.val = 227 := by
  have := s.tia.hclock.isLt
  rw [startsLine_iff, hs.position]
  simp only [signalOf, hv, hclock_succ, beq_iff_eq]
  omega

/-- The next clock's position is the television's next. -/
theorem positionNow_beam : positionNow (signalOf v.tia px al) s.tv = (v.tia.hclock.val : Int) - 68 := by
  have := s.tia.hclock.isLt
  simp only [positionNow, startsLine_beam hs hv, hs.position, hv, hclock_succ]
  split <;> omega

theorem wrapsNow_beam : wrapsNow (signalOf v.tia px al) s.tv = false := by
  have := s.tia.hclock.isLt
  rw [Bool.eq_false_iff, ne_eq, wrapsNow_iff, hs.position]
  simp only [signalOf, hv, hclock_succ, beq_eq_false_iff_ne]
  omega

/-- HSYNC and CBURST are on for 16 clocks each, and a window that holds both their edges is never missed. -/
theorem edgeFails_beam {lo : Nat} {onLo onHi offLo offHi : Int} (hlo : 0 < lo ∧ lo + 16 < 228)
    (hon : onLo ≤ (lo : Int) - 68 ∧ (lo : Int) - 68 ≤ onHi)
    (hoff : offLo ≤ (lo : Int) - 52 ∧ (lo : Int) - 52 ≤ offHi) :
    edgeFails (signalOf v.tia px al) s.tv (decide (lo ≤ v.tia.hclock.val) && decide (v.tia.hclock.val < lo + 16))
      (decide (lo ≤ s.tia.hclock.val) && decide (s.tia.hclock.val < lo + 16)) onLo onHi offLo offHi = false := by
  have := s.tia.hclock.isLt
  rw [Bool.eq_false_iff, ne_eq, edgeFails_iff, positionNow_beam hs hv, hv, hclock_succ]
  simp only [Bool.and_eq_true, decide_eq_true_eq, Bool.and_eq_false_iff, decide_eq_false_iff_not]
  omega

end Beam

/-- Settles O55: the television's position and last signals step with the counter, so no edge is outside its window. -/
theorem televisionFollowsTheBeam : Obligations.TelevisionFollowsTheBeam := by
  intro s hf haligned hon1 hon2 hoff1 hoff2 t
  obtain ⟨hposition, hhsync, hcburst⟩ := haligned
  have hs : Aligned s := ⟨hposition, hhsync, hcburst⟩
  obtain ⟨v, px, al, htick, hclock, htv, hparams, hreports⟩ := tiaTick_shape s hf
  have htia : t.tia = v.tia := by simp only [t, htick, audioEvent_tia, sendSignal_tia]
  have ht : t.tv = (tvSignal s.params (signalOf v.tia px al) s.tv).tv := by
    simp only [t, htick, audioEvent_tv, sendSignal_tv, htv, hparams]
  have hnew : newReports s t = (tvSignal s.params (signalOf v.tia px al) s.tv).checks.map
      (fun c => { report := .outOfSpec c, accessId := v.lastAccessId }) := by
    simp only [newReports, t, htick, audioEvent_reports, sendSignal_reports, hreports, htv, hparams, List.drop_left]
  refine ⟨?_, ⟨?_, ?_, ?_⟩, ?_, ?_, ?_, ?_⟩
  · rw [htia, hclock, hclock_succ]
  · rw [ht, tvSignal_eq, htia]; exact positionNow_beam hs hclock
  · rw [ht, tvSignal_eq, htia]; rfl
  · rw [ht, tvSignal_eq, htia]; rfl
  · rw [ht, tvSignal_eq, htia, Bool.eq_iff_iff]
    exact beq_iff_eq.trans ((Fin.ext_iff (b := 0)).symm.trans decide_eq_true_iff.symm)
  · rw [ht, tvSignal_eq, htia]; rfl
  · rw [ht, tvSignal_eq, htia]; rfl
  · rw [hnew]
    intro r hr
    obtain ⟨c, hc, rfl⟩ := List.mem_map.1 hr
    rw [mem_checks] at hc
    cases c with
    | horizontalWrap => cases (wrapsNow_beam hs hclock).symm.trans hc
    | hsyncWindow =>
      have hok := edgeFails_beam (px := px) (al := al) hs hclock (lo := 16) (onLo := -52) (onHi := -49) (offLo := -36) (offHi := -33)
        (by decide) (by decide) (by decide)
      rw [← hs.hsync] at hok
      cases hok.symm.trans hc
    | cburstWindow =>
      have hok := edgeFails_beam (px := px) (al := al) hs hclock (lo := 32) (by decide) ⟨hon1, hon2⟩ ⟨hoff1, hoff2⟩
      rw [← hs.cburst] at hok
      cases hok.symm.trans hc
    | overlongFrame => rfl

end Sys2Proof.Machine

/-! The RIOT (63_riot_console R651 to R658): the timer after so many cycles, the registers by number, and the PA7 edge. -/

namespace Sys2Proof.Machine

/-! ### The timer -/

theorem memWrite_riot (a : Word) (v : Byte) (s : State) :
    (memWrite a v s).riot = edgeTick s.inputs (timerTick (busWrite a v s).riot) := by
  rw [memWrite, endCycle_riot]
  exact congrArg (edgeTick · _) (busWrite_inputs a v s)

theorem memRead_riot (a : Word) (s : State) :
    (memRead a s).2.riot = edgeTick s.inputs (timerTick (busRead a (stall s)).2.riot) := by
  rw [memRead, endCycle_riot]
  exact congrArg (edgeTick · _) ((busRead_inputs a _).trans (stall_inputs s))

/-- The timer as a write of `v` with an interval leaves it, with the prescaler at `k`. -/
def timerSet (i : Interval) (v : Byte) (k : Nat) (r : Riot) : Riot :=
  { r with timer := v, interval := i, tf := false, prescale := k }

section Timer

variable (i : Interval) (v : Byte) (r : Riot)

theorem timerSet_repeat_eq (t : Nat) : let u := Nat.repeat timerTick t (timerSet i v 0 r)
    u = { r with timer := u.timer, interval := i, prescale := u.prescale, tf := u.tf } := by
  obtain ⟨_, _, _, h⟩ := timerTick_repeat (timerSet i v 0 r) t
  rw [h]
  rfl

theorem timerSet_before {t : Nat} (h1 : 1 ≤ t) (ht : (t - 1) / i.length < v.toNat) :
    let u := Nat.repeat timerTick t (timerSet i v 0 r)
    u.timer.toNat = v.toNat - 1 - (t - 1) / i.length ∧ u.tf = false := by
  rw [timerTick_before v i _ ⟨rfl, rfl, rfl, rfl⟩ t h1 ht]
  exact ⟨sub_one_sub v _ ht, rfl⟩

theorem timerSet_after (j : Nat) : let u := Nat.repeat timerTick (i.length * v.toNat + 1 + j) (timerSet i v 0 r)
    u.timer.toNat = 255 - j % 256 ∧ u.tf = true := by
  obtain ⟨p, h⟩ := timerTick_after v i (timerSet i v 0 r) ⟨rfl, rfl, rfl, rfl⟩ j
  rw [h]
  refine ⟨?_, rfl⟩
  simp only [BitVec.toNat_sub, BitVec.toNat_ofNat]
  omega

/-- With the prescaler at 1 the timer holds for a whole interval (log 24). -/
theorem timerSet_held {t : Nat} (ht : t < i.length) :
    Nat.repeat timerTick t (timerSet i v (1 % i.length) r) = timerSet i v ((t + 1) % i.length) r :=
  timerTick_held v i _ ⟨rfl, rfl, rfl, rfl⟩ t ht

theorem timerTick_of_prescale_zero (htf : r.tf = false) (hp : r.prescale = 0) : (timerTick r).timer = r.timer - 1 := by
  by_cases h : r.timer = 0#8 <;> simp only [timerTick, htf, hp, h, Bool.false_eq_true, if_true, if_false]
  rfl

theorem timerSet_held_then_counts : (Nat.repeat timerTick i.length (timerSet i v (1 % i.length) r)).timer = v - 1 := by
  obtain ⟨m, hm⟩ : ∃ m, i.length = m + 1 := ⟨i.length - 1, by cases i <;> rfl⟩
  have hheld := timerSet_held i v r (t := m) (by omega)
  rw [← hm, Nat.mod_self] at hheld
  conv => lhs; arg 1; arg 2; rw [hm]
  rw [Nat.repeat, hheld, timerTick_of_prescale_zero _ rfl rfl]
  rfl

end Timer

/-- Settles O59: the timer in closed form before and after its underflow. -/
theorem timerCountsDown : Obligations.TimerCountsDown := by
  refine ⟨fun a v s => ⟨memWrite_riot a v s, memRead_riot a s⟩, fun v r t row hrow => ?_⟩
  obtain ⟨i, n⟩ := row
  have hn : n = i.length := by
    revert hrow
    simp only [List.mem_cons, Prod.mk.injEq, List.not_mem_nil, or_false]
    rintro (⟨rfl, rfl⟩ | ⟨rfl, rfl⟩ | ⟨rfl, rfl⟩ | ⟨rfl, rfl⟩) <;> rfl
  subst hn
  refine ⟨timerSet_repeat_eq i v r t, fun h => ?_, timerSet_before i v r, fun j h => ?_, fun h => ?_, fun h => ?_⟩
  · subst h; exact ⟨rfl, rfl, rfl⟩
  · subst h; exact timerSet_after i v r j
  · have hf := timerSet_held i v r h
    exact ⟨congrArg Riot.timer hf, congrArg Riot.tf hf⟩
  · subst h; exact timerSet_held_then_counts i v r

/-! ### Registers -/

/-- The register map of a read by `r mod 8` (R651). -/
theorem riotReadReg_eq : ∀ r < 32, riotReadReg r =
    [RiotRead.swcha, .swacnt, .swchb, .swbcnt, .intim, .timint, .intim, .timint].getD (r % 8) .swcha := by decide

/-- The register map of a write by `r mod 8` below 4 (R651). -/
theorem riotWriteReg_port : ∀ r < 32, r % 8 < 4 →
    riotWriteReg r = [RiotWrite.ora, .ddra, .orb, .ddrb].getD (r % 8) .ora := by decide

theorem riotWriteReg_edge : ∀ r < 32, 4 ≤ r % 8 → r < 16 → riotWriteReg r = .edge (decide (r % 2 = 1)) := by decide

theorem riotWriteReg_timer : ∀ r < 32, 4 ≤ r % 8 → 16 ≤ r →
    riotWriteReg r = .timer ([Interval.i1, .i8, .i64, .i1024].getD (r % 4) .i1) := by decide

section Access

variable {a : Word} (v : Byte) (s : State) (ha : areaOf (addr13 a) = .riot)
include ha

theorem busRead_of_riot {q : RiotRead} (hq : riotReadReg (a.toNat % 32) = q) :
    (busRead a s).1 = (riotRead q s).1 ∧ (busRead a s).2.riot = (riotRead q s).2.riot := by
  simp only [busRead, ha, areaRead, readLocal_riot ha, hq, unreadable, Bool.false_eq_true, if_false]
  exact ⟨trivial, rfl⟩

theorem busWrite_of_riot {w : RiotWrite} (hw : riotWriteReg (a.toNat % 32) = w) :
    (busWrite a v s).riot = riotWrite s.params.riotWritePhase w v s.riot := by
  rw [busWrite_riot, if_pos ha, writeLocal_riot ha, hw]

end Access

/-- A read of port B: an input bit with no switch is a free bit (R658; log 20). -/
theorem portB_bit (out ddr pins free : Byte) {k : Nat} (hk : k < 8) :
    (portRead out ddr (mergeBits portBSwitches pins free)).getLsbD k =
      if k ∈ [2, 4, 5] ∧ ddr.getLsbD k = false then free.getLsbD k else (portRead out ddr pins).getLsbD k := by
  have hswitch : ∀ k < 8, portBSwitches.getLsbD k = !decide (k ∈ [2, 4, 5]) := by decide
  simp only [portRead, mergeBits, BitVec.getLsbD_or, BitVec.getLsbD_and, BitVec.getLsbD_not, hswitch k hk, hk, decide_true, Bool.true_and]
  cases hd : ddr.getLsbD k <;> by_cases hm : k ∈ [2, 4, 5] <;> simp [hm]

theorem timintByte_toNat (r : Riot) : (timintByte r).toNat = 128 * r.tf.toNat + 64 * r.pf7.toNat := by
  rw [timintByte]
  cases r.tf <;> cases r.pf7 <;> rfl

/-- An edge of PA7 in the direction the detector watches sets the flag (R657). -/
theorem edgeTick_pf7 (inp : Inputs) (r : Riot) : (edgeTick inp r).pf7 = true ↔
    r.pf7 = true ∨ (pa7 r inp ≠ r.prevPa7 ∧ pa7 r inp = r.edgePos) := by
  simp only [edgeTick]
  cases r.pf7 <;> cases pa7 r inp <;> cases r.prevPa7 <;> cases r.edgePos <;> simp

/-- Settles O60: the register maps by number, each register's own rule, and one edge detector a tick. -/
theorem riotPortsAndFlags : Obligations.RiotPortsAndFlags := by
  refine ⟨fun a v s ha => ?_, fun s => ?_⟩
  · intro r q x t port
    have hr : r < 32 := Nat.mod_lt _ (by decide)
    have hread {k : Nat} {g : RiotRead} (hk : r % 8 = k)
        (hg : [RiotRead.swcha, .swacnt, .swchb, .swbcnt, .intim, .timint, .intim, .timint].getD k .swcha = g) :
        x.1 = (riotRead g s).1 ∧ x.2.riot = (riotRead g s).2.riot :=
      busRead_of_riot s ha ((riotReadReg_eq r hr).trans (hk ▸ hg))
    have hport {k : Nat} {w : RiotWrite} (hk : r % 8 = k) (h4 : k < 4)
        (hw : [RiotWrite.ora, .ddra, .orb, .ddrb].getD k .ora = w) : t.riot = riotWrite s.params.riotWritePhase w v q :=
      busWrite_of_riot v s ha ((riotWriteReg_port r hr (hk ▸ h4)).trans (hk ▸ hw))
    refine ⟨fun h => ?_, fun h => ?_, fun h => ?_, fun h => ?_, fun h => ?_, fun h => ?_, fun h4 h16 => ?_, fun h4 h16 hp => ?_⟩
    · obtain ⟨h1, h2⟩ := hread h rfl
      exact ⟨h1, h2, hport h (by decide) rfl⟩
    · obtain ⟨h1, h2⟩ := hread h rfl
      exact ⟨h1, h2, hport h (by decide) rfl⟩
    · obtain ⟨h1, h2⟩ := hread h rfl
      exact ⟨fun k hk => by rw [h1]; exact portB_bit _ _ _ _ hk, h2, hport h (by decide) rfl⟩
    · obtain ⟨h1, h2⟩ := hread h rfl
      exact ⟨h1, h2, hport h (by decide) rfl⟩
    · exact h.elim (fun h => hread h rfl) fun h => hread h rfl
    · obtain ⟨h1, h2⟩ : x.1 = timintByte q ∧ x.2.riot = riotAfterTimint q := h.elim (fun h => hread h rfl) fun h => hread h rfl
      exact ⟨h1 ▸ timintByte_toNat q, h2⟩
    · exact busWrite_of_riot v s ha (riotWriteReg_edge r hr h4 h16)
    · have ht : t.riot = _ := busWrite_of_riot v s ha (riotWriteReg_timer r hr h4 h16)
      rw [ht, hp]
      rfl
  · obtain ⟨_, _, _, hticked⟩ := timerTick_repeat s.riot 1
    have htick : (riotTick s).riot = edgeTick s.inputs (Nat.repeat timerTick 1 s.riot) := rfl
    rw [hticked] at htick
    intro now u
    have hu : u = _ := htick
    rw [hu]
    exact ⟨rfl, edgeTick_pf7 _ _⟩

end Sys2Proof.Machine
